-- ==== Sys2Proof/Word.lean ====
section
/-! DEFINITION. The word types of the control link and of the air frames, the four channel numbers, and the
shape of a table of numbered records. -/

set_option Elab.async false

namespace Sys2Proof

/-- One byte of a control frame or of an air frame (Chapter 10). -/
abbrev Byte := BitVec 8
/-- A field of two bytes, most significant first on the link (R178). -/
abbrev Half := BitVec 16
/-- A field of four bytes, most significant first on the link (R178). -/
abbrev Word := BitVec 32
/-- One of the four radio channels, 0 to 3. -/
abbrev Chan := Fin 4
/-- A table of numbered records: the records in use, in rising number order. A number that is not listed is free. -/
abbrev Table (α : Type) := List (Nat × α)

end Sys2Proof
end

