-- ==== Sys2Proof/Syntax.lean ====
section
/-! DEFINITION. The commands of the part, one constructor for each row of spec/opcode_table.json. Host requests carry
the tag and the length of their control frame and the fields of their body as the bytes hold them, before any range is
checked (10.2). Air arrivals carry the channel, the margin sample and the decoded content (10.6). -/

set_option Elab.async false

namespace Sys2Proof

/-- What a request's control frame carries besides its kind and body: the tag and the length field (10.1). -/
structure Hdr where
  tag : Byte
  len : Half
  deriving DecidableEq, Repr

/-- The settings of SET_CHANNEL, one byte each, after the channel byte (10.2). -/
structure ChannelFields where
  rate : Byte
  fecLow : Byte
  fecHigh : Byte
  urgentWeight : Byte
  routineWeight : Byte
  blockLimit : Byte
  retryLimit : Byte
  extended : Byte
  pairing : Byte
  deriving DecidableEq, Repr

/-- The sender field of an inbound air frame (R56): a short address or a terminal ID. -/
inductive Sender where
  | short (a : BitVec 3)
  | id (t : Word)
  deriving DecidableEq, Repr

/-- Where and how well an inbound frame whose check passed arrived: the module that received it, its margin sample and
its sender field (section 3.3). -/
structure Arrival where
  channel : Chan
  sample : Fin 16
  sender : Sender
  deriving DecidableEq, Repr

/-- A position as an inbound frame carries it (R56, 10.4): the present mark, latitude and longitude as signed words, and
the fix age. -/
structure RawPosition where
  present : Bool
  latitude : Word
  longitude : Word
  age : Byte
  deriving DecidableEq, Repr

/-- The content of an AFFILIATE frame (R56); a max rate code of 3 is undecodable and has no value here (10.6). -/
structure AffiliateContent where
  personal : Bool
  maxRate : Fin 3
  fecLow : Bool
  fecHigh : Bool
  pairCapable : Bool
  capacity : Byte
  deriving DecidableEq, Repr

/-- The cause of an inbound ALARM (R56). -/
inductive AlarmCall where
  | panic
  | manDown
  deriving DecidableEq, Repr

/-- The reply of an ORDER_REPLY (R56). -/
inductive CrewReply where
  | accept
  | decline
  | done
  deriving DecidableEq, Repr

/-- The discrete input lines as they stand when the part is powered (section 9.1). -/
structure Lines where
  firstStrapTied : Bool
  secondStrapTied : Bool
  firstSupply : Bool
  secondSupply : Bool
  keyEnable : Bool
  present : Vector Bool 4
  leverOpen : Vector Bool 4
  deriving DecidableEq, Repr

/-- The commands: one constructor for each row of spec/opcode_table.json. -/
inductive Instr where
  -- power and the site requests (Chapter 9)
  | powerOn (lines : Lines)
  | getStatus (h : Hdr)
  | setSite (h : Hdr) (siteId escalation silence : Half) (mask : Byte)
  | setClock (h : Hdr) (label : Word)
  | storeSettings (h : Hdr)
  | restart (h : Hdr)
  -- terminals and crews (Chapter 1)
  | loadTerminal (h : Hdr) (id : Word) (kind : Byte)
  | dropTerminal (h : Hdr) (id : Word)
  | getTerminal (h : Hdr) (selector : Byte) (value : Word)
  | loadCrew (h : Hdr) (crew : Half) (vehicle : Word) (key : Half) (count : Byte) (members : List Word)
  | dropCrew (h : Hdr) (crew : Half)
  | getCrew (h : Hdr) (crew : Half)
  -- channels (Chapter 2)
  | bringUp (h : Hdr) (channel : Byte)
  | quiet (h : Hdr) (channel : Byte)
  | channelReset (h : Hdr) (channel : Byte)
  | setChannel (h : Hdr) (channel : Byte) (f : ChannelFields)
  | takeStats (h : Hdr) (channel clear : Byte)
  | getChannel (h : Hdr) (channel : Byte)
  -- orders (Chapter 5)
  | sendOrder (h : Hdr) (number : Word) (crew : Half) (priority hold count : Byte) (content : List Byte)
  | cancelOrder (h : Hdr) (number : Word)
  | closeOrder (h : Hdr) (number : Word)
  | getOrder (h : Hdr) (number : Word)
  -- supervision (Chapter 6)
  | startWatch (h : Hdr) (id : Word) (interval missLimit assist : Byte)
  | stopWatch (h : Hdr) (id : Word)
  | ackAlarm (h : Hdr) (id : Word)
  | resolveAlarm (h : Hdr) (id : Word) (action : Byte)
  | getWatch (h : Hdr) (id : Word)
  -- sections, switch points and permits (Chapter 7)
  | defineSection (h : Hdr) (number action : Byte)
  | defineSwitch (h : Hdr) (number action sideA sideB : Byte)
  | setSwitchPosition (h : Hdr) (number position : Byte)
  | requestPermit (h : Hdr) (number : Half) (kind : Byte) (crew : Half) (count : Byte) (items : List Byte)
  | issuePermit (h : Hdr) (number : Half)
  | withdrawPermit (h : Hdr) (number : Half)
  | confirmRelease (h : Hdr) (number : Half)
  | rejectRelease (h : Hdr) (number : Half)
  | verbalRelease (h : Hdr) (number code : Half)
  | restorePermit (h : Hdr) (number : Half) (kind : Byte) (crew : Half) (count : Byte) (items : List Byte)
  | getSection (h : Hdr) (number : Byte)
  | getSwitch (h : Hdr) (number : Byte)
  | getPermit (h : Hdr) (number : Half)
  -- authorization (Chapter 8)
  | setAuthList (h : Hdr) (count : Byte) (crews : List Half)
  | setMode (h : Hdr) (mode : Byte)
  | getAuth (h : Hdr)
  -- the control link (Chapter 9)
  | badCheckDiscard
  | tooLongDiscard
  | gapExpiry
  | badTagDiscard
  | overflowDiscard (h : Hdr)
  | unknownKindRefusal (h : Hdr) (kind : Byte)
  | requestDiscardedAfterRestart
  | outgoingFrameSent (firstStrapTied secondStrapTied : Bool)
  | storeWriteCompletion
  | modeWriteCompletion
  -- the discrete lines (section 9.1)
  | moduleInserted (channel : Chan)
  | moduleRemoved (channel : Chan)
  | leverOpened (channel : Chan)
  | leverClosed (channel : Chan)
  | supplyLevelChange (firstSupply secondSupply : Bool)
  | keySwitchMoved (enable : Bool)
  -- a channel's transceiver and timers (Chapters 2 and 3)
  | transceiverReady (channel : Chan)
  | trainingTimeout (channel : Chan)
  | quietTimerExpiry (channel : Chan)
  | beaconTimerExpiry (channel : Chan)
  | sendCompletion (channel : Chan)
  | sendFailure (channel : Chan)
  | windowClose (channel : Chan)
  -- inbound air frames (section 3.3)
  | inboundBadCheck (channel : Chan)
  | inboundUndecodable (a : Arrival)
  | access (a : Arrival)
  | affiliate (channel : Chan) (sample : Fin 16) (id : Word) (content : AffiliateContent)
  | alarm (a : Arrival) (cause : AlarmCall) (position : RawPosition)
  | ack (a : Arrival) (bit : Bool) (free : Byte)
  | checkIn (a : Arrival) (position : RawPosition)
  | orderReply (a : Arrival) (number : Word) (reply : CrewReply) (free : Byte)
  | readback (a : Arrival) (number : Half) (code : Fin 10000)
  | switchDone (a : Arrival) (number : Half)
  | releaseAsk (a : Arrival) (number : Half)
  | depart (a : Arrival)
  -- the clock and the expiries counted in seconds (R172)
  | secondTick
  | hostSilenceExpiry
  | holdExpiry (number : Word)
  | promptDue (unit : Fin 160)
  | deadlineExpiry (unit : Fin 160)
  | graceExpiry (unit : Fin 160)
  | escalationExpiry (unit : Fin 160)
  | stopNoticeDrop (unit : Fin 160)
  | readbackTimeout (number : Half)
  | powerLoss
  deriving DecidableEq, Repr

end Sys2Proof
end

