-- ==== Sys2Proof/Decode.lean ====
section
/-! DEFINITION. Commands spelled by table words: spec/opcode_table.json gives no row any bits, so no word spells a command.
The control link's and the air's own layouts (Chapter 10) are read in Machine/Layouts.lean. -/

set_option Elab.async false

namespace Sys2Proof

/-- The command a table word spells: none, since no row of the table has bits. -/
def decodeTableWord (_nbits _w : Nat) : Option Instr := none

end Sys2Proof
end

