-- ==== Sys2Proof/Machine/State.lean ====
section
/-! DEFINITION. The state of the part as plain data: one structure for each record the manual names, the control link, the
site tables, the queue of waiting commands, and the state right after power-on. -/

set_option Elab.async false

namespace Sys2Proof.Machine

/-! ### Modes, levels and states named by the manual -/

/-- The authorization mode (R157). -/
inductive Mode where
  | openMode | listed | keyed | noPermits | alarmsOnly
  deriving DecidableEq, Repr

/-- The supply level (R44). -/
inductive SupplyLevel where
  | normal | reserve | critical
  deriving DecidableEq, Repr

/-- The kind of a terminal (R2). -/
inductive TerminalKind where
  | vehicle | personal
  deriving DecidableEq, Repr

/-- How a roster record came to exist (R2). -/
inductive Origin where
  | loaded | guest
  deriving DecidableEq, Repr

/-- The state of a terminal (section 1). -/
inductive TerminalState where
  | unknown | affiliated | absent
  deriving DecidableEq, Repr

/-- A rate of the air (R62). -/
inductive Rate where
  | low | mid | high
  deriving DecidableEq, Repr

/-- The state of a channel (section 2). -/
inductive ChannelState where
  | absent | down | training | up | quiet | draining | fault
  deriving DecidableEq, Repr

/-- The transmitter activity (R39). -/
inductive Activity where
  | idle | sending | listening
  deriving DecidableEq, Repr

/-- The kind of grant a frame carried (R59). -/
inductive GrantKind where
  | explicit | implied | none
  deriving DecidableEq, Repr

/-- The class whose turn it is (R65). -/
inductive Turn where
  | urgent | routine
  deriving DecidableEq, Repr

/-- The status of an URGENT entry, and of an outstanding ORDER frame (R65, R70). -/
inductive EntryStatus where
  | waiting | sending | awaitingAck | retry
  deriving DecidableEq, Repr

/-- The state of an order (section 5). -/
inductive OrderState where
  | queued | inFlight | held | delivered | accepted | recalling | done | declined | returned
  deriving DecidableEq, Repr

/-- The cause of a change of an order's state (R92, R99 to R109). -/
inductive OrderCause where
  | sent | vehicleAbsent | vehicleChanged | hostCancel | crewReply | acknowledged | deliveryFailed | withdrawn
  | oversize | vehicleJoined | holdExpiry | hostClose | recallAcknowledged | recallFailed
  deriving DecidableEq, Repr

/-- The return reason of an order (R85). -/
inductive ReturnReason where
  | expired | cancelled | cancelledUnconfirmed
  deriving DecidableEq, Repr

/-- What became of an unconfirmed-recall note (R107). -/
inductive NoteResult where
  | kept | dropped | none
  deriving DecidableEq, Repr

/-- The state of a supervision record (section 6). -/
inductive WatchState where
  | watching | prompted | overdue | alarm | acknowledged
  deriving DecidableEq, Repr

/-- The cause of a WATCH_STATE report (R129). -/
inductive WatchCause where
  | promptDue | deadline | graceExpiry | checkedIn | acknowledged | resolved | stopped | unitRemoved
  | settingsUndelivered
  deriving DecidableEq, Repr

/-- The cause of an alarm (R111). -/
inductive AlarmCause where
  | noCheckIn | panic | manDown
  deriving DecidableEq, Repr

/-- The reason of an ALARM report (R128). -/
inductive AlarmReason where
  | entry | escalation | removed
  deriving DecidableEq, Repr

/-- The reason of an UNSUPERVISED_ALARM report (R128). -/
inductive UnsupervisedReason where
  | noRecordFree | vehicle | notInRoster | unresolved
  deriving DecidableEq, Repr

/-- The position of a switch point (R133). -/
inductive SwitchPosition where
  | opened | closed | unknown
  deriving DecidableEq, Repr

/-- The operation of a switching permit (R137). -/
inductive SwitchOp where
  | opening | closing
  deriving DecidableEq, Repr

/-- The state of a permit (section 7). -/
inductive PermitState where
  | requested | issuing | issued | releasePending | released | completed | withdrawn | void
  deriving DecidableEq, Repr

/-- The cause of a PERMIT_STATE report (R151). -/
inductive PermitCause where
  | requested | issuedByHost | readbackMatch | readbackMismatch | readbackTimeout | deliveryFailed | vehicleAbsent
  | modeChange | switchNotOpen | withdrawnByHost | switchDone | releaseAsk | releaseRejected | confirmed | verbal
  | restored
  deriving DecidableEq, Repr

/-- The result a PERMIT_RESULT carries (R54). -/
inductive ResultCode where
  | accepted | mismatch | withdrawn | void
  deriving DecidableEq, Repr

/-- The result an AFFIL_REPLY carries (R55). -/
inductive AffilResult where
  | accepted | pair | full | unknown
  deriving DecidableEq, Repr

/-- The cause of a TERMINAL_STATE report (R23). -/
inductive TerminalCause where
  | joined | renewed | depart | retryFailure | channelDown | removed
  deriving DecidableEq, Repr

/-- The resulting state in a TERMINAL_STATE report (R23, 10.3). -/
inductive ReportedState where
  | unknown | affiliated | absent | removed
  deriving DecidableEq, Repr

/-- The cause of a CHANNEL_STATE report (R36). -/
inductive ChannelCause where
  | inserted | removed | bringUp | ready | trainingTimeout | quietRequest | supply | lever | drained | sendFailures
  | receiverMonitor | reset | pairPartner
  deriving DecidableEq, Repr

/-- The warning outcome for one clearance in a TAG_VIOLATION report (R136). -/
inductive WarningOutcome where
  | placed | dropped | owed
  deriving DecidableEq, Repr

/-- The source of a recorded position (R136). -/
inductive PositionSource where
  | host
  | switchDone (permit : Nat)
  deriving DecidableEq, Repr

/-- A terminal's standing in the access rotation (R24). -/
inductive Tier where
  | high | low
  deriving DecidableEq, Repr

/-- The kind of an outbound frame (R53). -/
inductive OutKind where
  | idle | order | recall | permit | permitResult | watchSet | prompt | affilReply | assist | danger | alarmSeen
  deriving DecidableEq, Repr

/-- The status byte of a reply (R168). -/
inductive Status where
  | ok | unknownKind | badLength | badValue | noRoom | notFound | duplicate | badState | interlock | mode | key
  | alarmActive | supply | notAffiliated | mismatch | busy
  deriving DecidableEq, Repr

/-! ### Small records -/

/-- A counter of 0 to 65535 with its saturated mark. -/
structure Counter where
  value : Nat
  saturated : Bool
  deriving DecidableEq, Repr

/-- A counter at 0 with its mark clear. -/
def Counter.zero : Counter := { value := 0, saturated := false }

/-- A position within its ranges (R56). -/
structure Position where
  latitude : Int
  longitude : Int
  age : Nat
  deriving DecidableEq, Repr

/-- The configuration of a channel (R27). -/
structure ChannelConfig where
  rate : Rate
  fecLow : Bool
  fecHigh : Bool
  urgentWeight : Nat
  routineWeight : Nat
  blockLimit : Nat
  retryLimit : Nat
  extended : Bool
  pairing : Bool
  deriving DecidableEq, Repr

/-- The defaults of R27. -/
def ChannelConfig.default : ChannelConfig :=
  { rate := .mid, fecLow := false, fecHigh := true, urgentWeight := 3, routineWeight := 1, blockLimit := 0
    retryLimit := 3, extended := false, pairing := false }

/-- The report mask (R171). -/
structure ReportMask where
  terminals : Bool
  channels : Bool
  orders : Bool
  watches : Bool
  deriving DecidableEq, Repr

/-- The content of the settings store's image (R175). That its check value verifies is told by the image being present. -/
structure Settings where
  siteId : Nat
  mode : Mode
  configs : Vector ChannelConfig 4
  escalation : Nat
  silenceLimit : Nat
  mask : ReportMask
  deriving DecidableEq, Repr

/-- The defaults loaded when the image fails its check (R176). -/
def Settings.default : Settings :=
  { siteId := 0, mode := .listed, configs := Vector.replicate 4 .default, escalation := 60, silenceLimit := 0
    mask := { terminals := false, channels := false, orders := false, watches := false } }

/-- What a permit is for (R137): the sections of a clearance in the order given, or a switch point and its operation. -/
inductive PermitWork where
  | clearance (sections : List Nat)
  | switching (switch : Nat) (op : SwitchOp)
  deriving DecidableEq, Repr

/-! ### Frames and items -/

/-- The later blocks of a PERMIT (R54). -/
inductive PermitBody where
  | clearance (sections : List Nat)
  | switching (switch : Nat) (op : SwitchOp) (sideA : Nat) (sideB : Option Nat)
  deriving DecidableEq, Repr

/-- The content of an owed urgent item, fixed at placement (R54, R55, R81). -/
inductive ItemContent where
  | recall (order note : Nat)
  | permit (number crew attempt : Nat) (keyed : Bool) (body : PermitBody)
  | permitResult (number : Nat) (result : ResultCode) (attempts : Nat)
  | watchStart (interval missLimit lead : Nat)
  | watchStop
  | prompt
  deriving DecidableEq, Repr

/-- The owner of an urgent item (R81): a supervision record by its unit, an order by its number, a permit by its record,
or a terminal by its roster index. -/
inductive Owner where
  | watch (unit : Nat)
  | order (number : Nat)
  | permit (record : Nat)
  | terminal (index : Nat)
  deriving DecidableEq, Repr

/-- An item of the Pending Urgent List (R81). Its key in the list is its place in placement order. `location` absent is
LIST; otherwise the channel whose URGENT queue it stands in. -/
structure PulItem where
  owner : Owner
  addressee : Nat
  content : ItemContent
  location : Option Chan
  deriving DecidableEq, Repr

/-- The content of an AFFIL_REPLY (R55), with the terminal ID it is addressed by. -/
structure AffilReply where
  id : Nat
  result : AffilResult
  channel : Chan
  short : Option Nat
  deriving DecidableEq, Repr

/-- What an URGENT entry holds (R65). The addressee and content of an item are kept with the entry, because a cancelled
entry outlives its item (R77). -/
inductive UrgentFrame where
  | reply (r : AffilReply)
  | item (id : Nat) (addressee : Nat) (content : ItemContent)
  deriving DecidableEq, Repr

/-- An URGENT entry (R65). -/
structure UrgentEntry where
  frame : UrgentFrame
  status : EntryStatus
  cancelled : Bool
  deriving DecidableEq, Repr

/-- The content of an ALERT frame (R55), with the terminal ID that DANGER and ALARM_SEEN record at placement (R65). The
crew of an ASSIST is 0 for an unbound unit (R127). -/
inductive AlertContent where
  | assist (crew unit : Nat) (cause : AlarmCause) (escalations : Nat) (position : Option Position)
  | danger (permit switch dest : Nat)
  | alarmSeen (dest : Nat) (acknowledged : Bool)
  deriving DecidableEq, Repr

/-- An ALERT entry (R65). -/
structure AlertEntry where
  content : AlertContent
  sendsLeft : Nat
  sending : Bool
  deriving DecidableEq, Repr

/-- What identifies an outstanding frame (R2): an order, with the status of its frame, or an urgent item. -/
inductive FrameRef where
  | order (number : Nat) (status : EntryStatus)
  | item (id : Nat)
  deriving DecidableEq, Repr

/-- The outstanding frame of a terminal (R2, R5). -/
structure Outstanding where
  frame : FrameRef
  channel : Chan
  retry : Nat
  deriving DecidableEq, Repr

/-- The role of the ID field of a long header (R50). -/
inductive IdRole where
  | addressee | grant
  deriving DecidableEq, Repr

/-- The header of an outbound frame (R50, R179). The long form is the one that carries an ID field. -/
structure Header where
  kind : OutKind
  addressee : Nat
  grant : Nat
  sequence : Bool
  fec : Bool
  rate : Rate
  blocks : Nat
  channel : Chan
  idField : Option (IdRole × Nat)
  deriving DecidableEq, Repr

/-- The payload of an outbound frame (R54, R55). -/
inductive Payload where
  | empty
  | order (content : List Byte)
  | item (content : ItemContent)
  | reply (r : AffilReply)
  | alert (content : AlertContent)
  deriving DecidableEq, Repr

/-- The frame on the air, as its sending started (R73). `acked` is the addressee whose outstanding frame this is, absent
when the frame needs no acknowledgement or is outstanding no more. -/
structure AirFrame where
  header : Header
  payload : Payload
  grant : GrantKind
  target : Option Nat
  acked : Option Nat
  airtime : Nat
  deriving DecidableEq, Repr

/-- The window record (R59). `acked` is the addressee whose outstanding frame is the acknowledged frame, absent when
there is none or it is outstanding no more. -/
structure Window where
  length : Nat
  target : Option Nat
  grant : GrantKind
  acked : Option Nat
  goodSeen : Bool
  badSeen : Bool
  targetHeard : Bool
  deriving DecidableEq, Repr

/-- The seven statistics counters of a channel (R47). -/
structure Stats where
  outbound : Counter
  sendFailures : Counter
  inboundGood : Counter
  inboundBad : Counter
  acksMissed : Counter
  grantsUnanswered : Counter
  affilRefusals : Counter
  deriving DecidableEq, Repr

/-- All counters 0, saturated marks clear. -/
def Stats.zero : Stats :=
  { outbound := .zero, sendFailures := .zero, inboundGood := .zero, inboundBad := .zero, acksMissed := .zero
    grantsUnanswered := .zero, affilRefusals := .zero }

/-- A channel: the record of R26 with its module-present line, the window record of R59, the beacon due mark of R60, the
scheduler record of R65 and the access arbiter of R78. Timers hold the monotonic count of their expiry; absent is stopped.
A pointer absent is START. `memberDone` tells that this member of a pair has reported completion of the frame on the air
(R40). -/
structure Channel where
  present : Bool
  state : ChannelState
  previous : ChannelState
  leverOpen : Bool
  lampLit : Bool
  activity : Activity
  pendingBringUp : Bool
  ready : Bool
  trainingTimer : Option Nat
  quietTimer : Option Nat
  beaconTimer : Option Nat
  beaconDue : Bool
  sendFailureRun : Nat
  badWindowRun : Nat
  inFlightBlocks : Nat
  config : ChannelConfig
  stats : Stats
  onAir : Option AirFrame
  memberDone : Bool
  window : Option Window
  alerts : List AlertEntry
  urgents : List UrgentEntry
  urgentDeficit : Nat
  routineDeficit : Nat
  turn : Turn
  quantumAdded : Bool
  accessSet : List Nat
  highPointer : Option Nat
  lowPointer : Option Nat
  deriving DecidableEq, Repr

/-- A channel after power-on or RESTART with an empty slot, the lever closed and the defaults of R27 (R26, R65, R78). -/
def Channel.blank : Channel :=
  { present := false, state := .absent, previous := .absent, leverOpen := false, lampLit := false, activity := .idle
    pendingBringUp := false, ready := false, trainingTimer := none, quietTimer := none, beaconTimer := none
    beaconDue := false, sendFailureRun := 0, badWindowRun := 0, inFlightBlocks := 0, config := .default, stats := .zero
    onAir := none, memberDone := false, window := none, alerts := [], urgents := [], urgentDeficit := 0
    routineDeficit := 0, turn := .routine, quantumAdded := false, accessSet := [], highPointer := none
    lowPointer := none }

/-! ### Records of the tables -/

/-- A roster record in use (R2). Its key is its roster index. -/
structure Terminal where
  id : Nat
  kind : TerminalKind
  origin : Origin
  crew : Option Nat
  state : TerminalState
  channel : Option Chan
  short : Option Nat
  maxRate : Rate
  fecLow : Bool
  fecHigh : Bool
  pairCapable : Bool
  capacity : Nat
  credit : Nat
  quality : Nat
  sequenceBit : Bool
  outstanding : Option Outstanding
  lastHeard : Option Nat
  notes : List Nat
  deriving DecidableEq, Repr

/-- A crew record in use (R10). Its key is the crew number. The delivery list is the crew's live orders by rank (R86) and
is computed from the order store. -/
structure Crew where
  vehicle : Option Nat
  members : List Nat
  key : Nat
  alarms : Nat
  permits : Nat
  deriving DecidableEq, Repr

/-- A live order (R85). Its key is the order number. `seq` is its submission sequence (R86). -/
structure Order where
  crew : Nat
  priority : Nat
  hold : Nat
  blocks : Nat
  content : List Byte
  state : OrderState
  seq : Nat
  recipient : Option Nat
  retry : Option Nat
  frameChannel : Option Chan
  deadline : Option Nat
  reply : Option CrewReply
  deriving DecidableEq, Repr

/-- A supervision record in use (R111). Its key is the roster index of the unit. -/
structure Watch where
  state : WatchState
  interval : Nat
  lead : Nat
  missLimit : Nat
  missed : Nat
  deadline : Nat
  lastCheckIn : Option Nat
  lastPosition : Option Position
  assist : Bool
  confirmed : Bool
  cause : Option AlarmCause
  alarmTime : Option Nat
  alarmChannel : Option Chan
  escalations : Nat
  escalationExpiry : Option Nat
  seenOwed : Bool
  deriving DecidableEq, Repr

/-- A defined switch point (R133). Its key is its number; a number that is not listed is undefined, with position UNKNOWN
and violated clear. -/
structure SwitchPoint where
  sideA : Nat
  sideB : Option Nat
  position : SwitchPosition
  violated : Bool
  deriving DecidableEq, Repr

/-- A permit record in use (R137), live or retained. Its key is its place among the 48 records. `recorded` is the
terminal ID of the recorded vehicle. -/
structure Permit where
  number : Nat
  work : PermitWork
  crew : Nat
  state : PermitState
  recorded : Option Nat
  keyed : Bool
  attempts : Nat
  deadline : Option Nat
  compromised : Bool
  violationSwitch : Option Nat
  dangerOwed : Bool
  resultConfirmed : Bool
  restored : Bool
  retained : Bool
  deriving DecidableEq, Repr

/-- A write of the settings store under way (R162, R175) and the image it stores. -/
structure StoreWrite where
  modeOnly : Bool
  image : Settings
  deriving DecidableEq, Repr

/-! ### Reports -/

/-- The five link counters (R165). -/
structure LinkCounters where
  badCheck : Counter
  tooLong : Counter
  gap : Counter
  overflow : Counter
  badTag : Counter
  deriving DecidableEq, Repr

/-- All five at 0. -/
def LinkCounters.zero : LinkCounters :=
  { badCheck := .zero, tooLong := .zero, gap := .zero, overflow := .zero, badTag := .zero }

/-- The fields of a START report (R177). -/
structure StartReport where
  powerOn : Bool
  siteId : Nat
  baud : Nat
  defaulted : Bool
  mode : Mode
  supply : SupplyLevel
  keyEnable : Bool
  present : Vector Bool 4
  leverOpen : Vector Bool 4
  deriving DecidableEq, Repr

/-- The fields of an ORDER_STATE report (R110). -/
structure OrderReport where
  number : Nat
  crew : Nat
  state : OrderState
  previous : OrderState
  cause : OrderCause
  reason : Option ReturnReason
  reply : Option CrewReply
  note : Option NoteResult
  retry : Option Nat
  deriving DecidableEq, Repr

/-- The fields of a WATCH_STATE report (R129); `state` absent is REMOVED. -/
structure WatchReport where
  id : Nat
  index : Nat
  crew : Option Nat
  state : Option WatchState
  previous : WatchState
  cause : WatchCause
  missed : Nat
  deadline : Nat
  lastCheckIn : Option Nat
  stopNotPlaced : Bool
  deriving DecidableEq, Repr

/-- The fields of an ALARM report (R128). -/
structure AlarmReport where
  id : Nat
  index : Nat
  crew : Option Nat
  state : WatchState
  cause : Option AlarmCause
  time : Option Nat
  escalations : Nat
  reason : AlarmReason
  lastCheckIn : Option Nat
  lastPosition : Option Position
  terminalState : ReportedState
  channel : Option Chan
  alarmChannel : Option Chan
  attended : Bool
  deriving DecidableEq, Repr

/-- The sender in an UNSUPERVISED_ALARM report (R128). -/
inductive AlarmSender where
  | record (id index : Nat)
  | idOnly (id : Nat)
  | shortOnly (short : Nat)
  deriving DecidableEq, Repr

/-- The fields of an UNSUPERVISED_ALARM report (R128). -/
structure UnsupervisedReport where
  channel : Chan
  sender : AlarmSender
  kind : Option TerminalKind
  crew : Option Nat
  cause : AlarmCause
  position : Option Position
  reason : UnsupervisedReason
  deriving DecidableEq, Repr

/-- The fields of a PERMIT_STATE report (R151); `previous` absent is NONE. -/
structure PermitReport where
  number : Nat
  work : PermitWork
  crew : Nat
  state : PermitState
  previous : Option PermitState
  cause : PermitCause
  attempts : Nat
  compromised : Bool
  restored : Bool
  resultConfirmed : Bool
  violationSwitch : Option Nat
  recorded : Option Nat
  deriving DecidableEq, Repr

/-- One clearance marked by a tag violation (R136). -/
structure MarkedClearance where
  number : Nat
  crew : Nat
  state : PermitState
  outcome : WarningOutcome
  deriving DecidableEq, Repr

/-- The fields of a TAG_VIOLATION report (R136). -/
structure ViolationReport where
  switch : Nat
  sideA : Nat
  sideB : Option Nat
  countA : Nat
  countB : Option Nat
  previous : SwitchPosition
  source : PositionSource
  marked : List MarkedClearance
  deriving DecidableEq, Repr

/-- The fields of a TERMINAL_STATE report (R23), and the link quality and last heard that R3 says it carries. -/
structure TerminalReport where
  id : Nat
  index : Nat
  state : ReportedState
  channel : Option Chan
  short : Option Nat
  cause : TerminalCause
  quality : Nat
  lastHeard : Option Nat
  deriving DecidableEq, Repr

/-- The fields of a CHANNEL_STATE report (R36). -/
structure ChannelReport where
  channel : Chan
  state : ChannelState
  previous : ChannelState
  lampLit : Bool
  cause : ChannelCause
  deriving DecidableEq, Repr

/-- The body of a report after its two common fields (R171), one constructor for each report kind of 10.4. -/
inductive ReportBody where
  | start (r : StartReport)
  | orderState (r : OrderReport)
  | watchState (r : WatchReport)
  | alarm (r : AlarmReport)
  | unsupervisedAlarm (r : UnsupervisedReport)
  | permitState (r : PermitReport)
  | tagViolation (r : ViolationReport)
  | terminalState (r : TerminalReport)
  | channelState (r : ChannelReport)
  | supplyState (level previous : SupplyLevel)
  | attendance (attended : Bool) (limit : Nat) (lastArrival : Option Nat)
  | linkError (counters : LinkCounters)
  deriving DecidableEq, Repr

/-- A report in the queue: the monotonic count and the site clock label when it was offered, and its body (R171). -/
structure Report where
  count : Nat
  label : Word
  body : ReportBody
  deriving DecidableEq, Repr

/-! ### Reply bodies -/

/-- What GET_STATUS returns of one channel (R174). -/
structure StatusChannel where
  state : ChannelState
  lampLit : Bool
  present : Bool
  leverOpen : Bool
  paired : Bool
  deriving DecidableEq, Repr

/-- The reply body of GET_STATUS (R174). -/
structure StatusBody where
  siteId : Nat
  count : Nat
  label : Word
  mode : Mode
  supply : SupplyLevel
  keyEnable : Bool
  channels : Vector StatusChannel 4
  terminals : Nat
  guests : Nat
  crews : Nat
  orders : Nat
  blocks : Nat
  watches : Nat
  livePermits : Nat
  retainedPermits : Nat
  owedItems : Nat
  attended : Bool
  reportsLost : Bool
  reportsQueued : Nat
  routineQueued : Nat
  mask : ReportMask
  defaulted : Bool
  writing : Bool
  writePending : Bool
  assistDrops : Counter
  link : LinkCounters
  deriving DecidableEq, Repr

/-- One bound terminal in the reply of GET_CREW (R14). -/
structure CrewTerminal where
  id : Nat
  index : Nat
  state : TerminalState
  deriving DecidableEq, Repr

/-- The reply body of GET_CREW (R14). -/
structure CrewBody where
  number : Nat
  vehicle : Option CrewTerminal
  members : List CrewTerminal
  key : Nat
  alarms : Nat
  permits : Nat
  orders : Nat
  deriving DecidableEq, Repr

/-- The reply body of GET_CHANNEL (R49). -/
structure ChannelBody where
  state : ChannelState
  previous : ChannelState
  present : Bool
  leverOpen : Bool
  lampLit : Bool
  activity : Activity
  pendingBringUp : Bool
  pairedWith : Option Chan
  config : ChannelConfig
  inFlightBlocks : Nat
  affiliated : Nat
  accessPending : Nat
  alerts : Nat
  urgents : Nat
  sendFailureRun : Nat
  badWindowRun : Nat
  deriving DecidableEq, Repr

/-- The reply body of GET_ORDER for the store summary (R91): live orders, those in each live state, blocks, counters. -/
structure OrderSummary where
  live : Nat
  queued : Nat
  inFlight : Nat
  held : Nat
  delivered : Nat
  accepted : Nat
  recalling : Nat
  blocksUsed : Nat
  blocksFree : Nat
  repliesIgnored : Counter
  notesDropped : Counter
  deriving DecidableEq, Repr

/-- Which expiry a supervision record awaits (R117). -/
inductive NextExpiry where
  | promptDue | deadline | graceExpiry | escalation
  deriving DecidableEq, Repr

/-- Where an owed item stands (R117, R153): not owed, on the LIST, or in a channel's URGENT queue. -/
inductive Standing where
  | notOwed
  | onList
  | inQueue (channel : Chan)
  deriving DecidableEq, Repr

/-- The reply body of GET_WATCH for a record (R117). -/
structure WatchBody where
  unit : Nat
  record : Watch
  crew : Option Nat
  terminalState : TerminalState
  next : Option (NextExpiry × Nat)
  watchSet : Standing
  prompt : Standing
  deriving DecidableEq, Repr

/-- The reply body of GET_WATCH for the site summary (R117). -/
structure WatchSummary where
  watching : Nat
  prompted : Nat
  overdue : Nat
  alarm : Nat
  acknowledged : Nat
  free : Nat
  attended : Bool
  silenceLimit : Nat
  sinceArrival : Option Nat
  escalation : Nat
  assistDrops : Counter
  checkInsIgnored : Counter
  unsupervised : Counter
  stopNotices : Nat
  deriving DecidableEq, Repr

/-- A live permit as GET_SECTION and GET_SWITCH list it (R153). -/
structure PermitBrief where
  number : Nat
  crew : Nat
  state : PermitState
  deriving DecidableEq, Repr

/-- The reply body of GET_PERMIT for the table summary (R153): the permits in each of the eight states, the retained records,
the records free and both counters. -/
structure PermitSummary where
  requested : Nat
  issuing : Nat
  issued : Nat
  releasePending : Nat
  released : Nat
  completed : Nat
  withdrawn : Nat
  void : Nat
  retained : Nat
  free : Nat
  arrivalsIgnored : Counter
  dangerDrops : Counter
  deriving DecidableEq, Repr

/-- The outstanding frame as GET_TERMINAL returns it (R2, R9): its kind, its owner, its channel and its retry count. A frame
whose owner has cancelled it has no owner (R77). -/
structure OutstandingBody where
  kind : Option OutKind
  owner : Option Owner
  channel : Chan
  retry : Nat
  deriving DecidableEq, Repr

/-- The body of a reply, by the rule that owns the request. -/
inductive ReplyBody where
  | empty
  | status (b : StatusBody)
  | rosterIndex (index : Nat)
  | terminal (index : Nat) (record : Terminal) (outstanding : Option OutstandingBody) (tier : Tier) (inAccessSet : Bool)
  | crew (b : CrewBody)
  | bringUp (began : Bool)
  | channel (b : ChannelBody)
  | stats (samples : List (Chan × Stats))
  | orderState (state : OrderState)
  | order (number : Nat) (record : Order) (position : Nat) (remaining : Option Nat)
  | orderSummary (b : OrderSummary)
  | watchStarted (index lead deadline : Nat)
  | watch (b : WatchBody)
  | watchSummary (b : WatchSummary)
  | position (now : SwitchPosition) (raised : Bool) (compromised reverted : Nat)
  | permitState (state : PermitState)
  | sectionInfo (defined : Bool) (count : Nat) (bounding : List (Nat × SwitchPosition)) (permits : List PermitBrief)
  | switchInfo (number : Nat) (record : Option SwitchPoint) (tagged : Bool) (counts : List (Nat × Nat))
      (permits : List PermitBrief)
  | permit (record : Permit) (remaining : Option Nat) (standing : Standing)
  | permitSummary (b : PermitSummary)
  | authCount (entries : Nat)
  | modeStored (mode : Mode)
  | auth (mode : Mode) (crews : List Nat) (keyEnable : Bool) (writing pending : Option Mode) (guests : Nat)
  deriving DecidableEq, Repr

/-! ### The control link -/

/-- The receiver of the control link (R165): hunting, or assembling a frame whose bytes after the sync byte are given. -/
inductive Receiver where
  | hunting
  | assembling (bytes : List Byte)
  deriving DecidableEq, Repr

/-- What the reply of a request holding a place waits for (R166): nothing, the completion of the STORE_SETTINGS write, the
completion of the mode write under way, or that of the pending mode write. -/
inductive Wait where
  | ready (status : Status) (body : ReplyBody)
  | storeWrite
  | modeWrite
  | modePending
  deriving DecidableEq, Repr

/-- A place of the input buffer (R166). -/
structure Place where
  tag : Byte
  kind : Byte
  wait : Wait
  deriving DecidableEq, Repr

/-- The frame the outgoing line is sending (R167). -/
inductive OutFrame where
  | reply (tag kind : Byte) (status : Status) (body : ReplyBody)
  | report (r : Report)
  deriving DecidableEq, Repr

/-- The Control Link Unit: the baud rate read from the straps, the receiver, the link counters, the input buffer oldest
first, the outgoing line, the report queue head first and the reports-lost mark. -/
structure Link where
  baud : Nat
  receiver : Receiver
  counters : LinkCounters
  places : List Place
  outgoing : Option OutFrame
  reports : List Report
  reportsLost : Bool
  deriving DecidableEq, Repr

/-! ### The site -/

/-- Every block but the control link. Tables list the records in use. `nextItem` and `nextSeq` are the next places in
placement order (R81) and in submission sequence (R86). `sections` lists the defined sections with their clearance counts.
`stopNotices` gives each unit's drop time. `image` is the nonvolatile image, absent when its check fails. `freeUsed` is the
model's own field: how many free values have been drawn. -/
structure Site where
  count : Nat
  label : Word
  firstSupply : Bool
  secondSupply : Bool
  keyEnable : Bool
  channels : Vector Channel 4
  roster : Table Terminal
  crews : Table Crew
  pul : Table PulItem
  nextItem : Nat
  orders : Table Order
  nextSeq : Nat
  repliesIgnored : Counter
  notesDropped : Counter
  watches : Table Watch
  attended : Bool
  assistDrops : Counter
  checkInsIgnored : Counter
  unsupervised : Counter
  stopNotices : Table Nat
  sections : Table Nat
  switches : Table SwitchPoint
  permits : Table Permit
  arrivalsIgnored : Counter
  dangerDrops : Counter
  mode : Mode
  authList : List Nat
  siteId : Nat
  escalation : Nat
  silenceLimit : Nat
  mask : ReportMask
  silence : Option Nat
  lastArrival : Option Nat
  image : Option Settings
  copy : Settings
  defaulted : Bool
  write : Option StoreWrite
  modePending : Bool
  freeUsed : Nat
  deriving DecidableEq, Repr

/-- The site while one command is taken: the site, the reports it has offered in order, and the channels at which an
event of R66 has offered a choice. -/
structure Work where
  site : Site
  out : List ReportBody
  offers : List Chan
  deriving DecidableEq, Repr

/-- The outcome of handing a request to its owner (R166): the work done, what the reply waits for, and whether the
reports-lost mark is cleared after the reply's values are taken (R174). -/
structure Taking where
  work : Work
  wait : Wait
  clearLost : Bool
  deriving DecidableEq, Repr

/-- The state of the machine: whether the part has power, its control link, its site, and the commands that wait, first
in, first out. -/
structure State where
  powered : Bool
  link : Link
  site : Site
  pending : List Instr
  deriving DecidableEq, Repr

/-- No command of this part stops the machine with a fault: the closed inductive has no constructor. -/
inductive Fault where
  deriving DecidableEq, Repr

/-- Why a command has no meaning. -/
inductive Refusal where
  /-- Raised by exec alone, for a command whose meaning is not written. Safe: the machine stops. -/
  | notModelled (mnemonic : String)
  deriving DecidableEq, Repr

/-- The site after power-on with every line released, the key at NORMAL and a store whose image fails its check (R26,
R157, R176, R177; the lines and the store are a DESIGN CHOICE, notes/assumptions/1.md). -/
def Site.blank : Site :=
  { count := 0, label := 0, firstSupply := false, secondSupply := false, keyEnable := false
    channels := Vector.replicate 4 .blank, roster := [], crews := [], pul := [], nextItem := 0, orders := [], nextSeq := 0
    repliesIgnored := .zero, notesDropped := .zero, watches := [], attended := true, assistDrops := .zero
    checkInsIgnored := .zero, unsupervised := .zero, stopNotices := [], sections := [], switches := [], permits := []
    arrivalsIgnored := .zero, dangerDrops := .zero, mode := .listed, authList := [], siteId := 0, escalation := 60
    silenceLimit := 0, mask := Settings.default.mask, silence := none, lastArrival := none, image := none
    copy := .default, defaulted := true, write := none, modePending := false, freeUsed := 0 }

/-- The START report of that power-on (R177). -/
def StartReport.blank : StartReport :=
  { powerOn := true, siteId := 0, baud := 115200, defaulted := true, mode := .listed, supply := .normal
    keyEnable := false, present := Vector.replicate 4 false, leverOpen := Vector.replicate 4 false }

/-- The link after that power-on: the START report is the first report, and the free line has begun to send it (R167,
R177). -/
def Link.blank : Link :=
  { baud := 115200, receiver := .hunting, counters := .zero, places := []
    outgoing := some (.report { count := 0, label := 0, body := .start .blank }), reports := [], reportsLost := false }

/-- The machine right after power-on (R177), with no command waiting. -/
def State.reset : State := { powered := true, link := .blank, site := .blank, pending := [] }

end Sys2Proof.Machine
end

