-- ==== Sys2Proof/Config.lean ====
section
/-! DEFINITION. What the spec leaves open as a value: free values, constants with no body that no proof can see. -/

set_option Elab.async false

namespace Sys2Proof.Config

/-- FREE VALUE (notes/assumptions/6.md). The monotonic count after it has stood at 0xFFFFFFFF for a second: R172 lets it
run to that value and states no successor. The argument is the free-value counter of the state. -/
opaque countAfterEnd : Nat → Nat

/-- FREE VALUE (notes/assumptions/7.md). The payload bytes of an outbound frame whose block layout the manual does not
give ("their byte positions are not given here", Chapter 10), from its kind code and its named fields as numbers. -/
opaque payloadBytes : Nat → List Nat → List Byte

/-- FREE VALUE (notes/assumptions/7.md). The bytes of a reply body, from its named fields: Chapter 10 gives no byte positions.
-/
opaque replyBytes : Machine.ReplyBody → List Byte

/-- FREE VALUE (notes/assumptions/7.md). The bytes of a report after its common fields, from its named fields, for the kinds
that 10.4 does not lay out. -/
opaque reportBytes : Machine.ReportBody → List Byte

end Sys2Proof.Config
end

