-- ==== Sys2Proof/Machine/Operands.lean ====
section
/-! DEFINITION. The reading of request fields (10.1, 10.3): enumeration codes, marks, duration codes, ranges of numbers,
and positions. A reading answers none where the owning rule refuses with BAD_VALUE. -/

set_option Elab.async false

namespace Sys2Proof.Machine

/-- A mark of a request: 0 clear, 1 set, any other value out of range (R178). -/
def markOf (b : Byte) : Option Bool :=
  if b = 0 then some false else if b = 1 then some true else none

/-- A channel number of a request, 0 to 3. -/
def chanOf (b : Byte) : Option Chan := if h : b.toNat < 4 then some ⟨b.toNat, h⟩ else none

/-- A terminal ID of a request, 1 to 0xFFFFFFFE (R2). -/
def idOf (w : Word) : Option Nat := if 1 ≤ w.toNat ∧ w.toNat ≤ 0xFFFFFFFE then some w.toNat else none

/-- A crew number, 1 to 4095 (R10). -/
def crewOf (h : Half) : Option Nat := if 1 ≤ h.toNat ∧ h.toNat ≤ 4095 then some h.toNat else none

/-- A permit number, 1 to 65535 (R137). -/
def permitNumberOf (h : Half) : Option Nat := if 1 ≤ h.toNat then some h.toNat else none

/-- The kind of a terminal (10.3). -/
def terminalKindOf (b : Byte) : Option TerminalKind :=
  if b = 0 then some .vehicle else if b = 1 then some .personal else none

/-- A rate (10.3). -/
def rateOf (b : Byte) : Option Rate :=
  if b = 0 then some .low else if b = 1 then some .mid else if b = 2 then some .high else none

/-- A mode (10.3). -/
def modeOf (b : Byte) : Option Mode :=
  if b = 0 then some .openMode else if b = 1 then some .listed else if b = 2 then some .keyed
  else if b = 3 then some .noPermits else if b = 4 then some .alarmsOnly else none

/-- A define action, true for DEFINE (10.3). -/
def defineOf (b : Byte) : Option Bool := if b = 0 then some true else if b = 1 then some false else none

/-- A resolve action, true for WATCH (10.3). -/
def resolveOf (b : Byte) : Option Bool := if b = 0 then some true else if b = 1 then some false else none

/-- A switch position (10.3). -/
def positionOf (b : Byte) : Option SwitchPosition :=
  if b = 0 then some .opened else if b = 1 then some .closed else if b = 2 then some .unknown else none

/-- A switching operation (10.3). -/
def switchOpOf (b : Byte) : Option SwitchOp :=
  if b = 0 then some .opening else if b = 1 then some .closing else none

/-- The value of a duration code: the low four bits of its byte (R178). -/
def durationCodeOf (b : Byte) : Nat := b.toNat % 16

/-- The minutes a duration code stands for (R1). -/
def minutesOf (code : Nat) : Nat :=
  match code with
  | 0 => 1 | 1 => 2 | 2 => 3 | 3 => 5 | 4 => 10 | 5 => 15 | 6 => 20 | 7 => 30
  | 8 => 45 | 9 => 60 | 10 => 90 | 11 => 120 | 12 => 180 | 13 => 240 | 14 => 360 | _ => 480

/-- The seconds a duration code stands for (R99, R112). -/
def secondsOf (code : Nat) : Nat := minutesOf code * 60

/-- The report mask of SET_SITE's last byte; its unnamed bits are ignored (10.2, R178). -/
def maskOf (b : Byte) : ReportMask :=
  { terminals := b.getLsbD 0, channels := b.getLsbD 1, orders := b.getLsbD 2, watches := b.getLsbD 3 }

/-- The configuration of SET_CHANNEL, when every setting is within its range (R27). -/
def configOf (f : ChannelFields) : Option ChannelConfig :=
  match rateOf f.rate, markOf f.fecLow, markOf f.fecHigh, markOf f.extended, markOf f.pairing with
  | some rate, some fecLow, some fecHigh, some extended, some pairing =>
    if 1 ≤ f.urgentWeight.toNat ∧ f.urgentWeight.toNat ≤ 15 ∧ 1 ≤ f.routineWeight.toNat ∧ f.routineWeight.toNat ≤ 15
        ∧ f.retryLimit.toNat ≤ 7 then
      some { rate, fecLow, fecHigh, urgentWeight := f.urgentWeight.toNat, routineWeight := f.routineWeight.toNat
             blockLimit := f.blockLimit.toNat, retryLimit := f.retryLimit.toNat, extended, pairing }
    else none
  | _, _, _, _, _ => none

/-- The kind and items of REQUEST_PERMIT and RESTORE_PERMIT, within the ranges of R138's first check: 1 to 8 sections of
0 to 63, or a switch point of 0 to 127 and an operation (10.2). -/
def permitWorkOf (kind : Byte) (items : List Byte) : Option PermitWork :=
  if kind = 0 then
    if 1 ≤ items.length ∧ items.length ≤ 8 ∧ items.all (fun b => b.toNat ≤ 63) then
      some (.clearance (items.map BitVec.toNat))
    else none
  else if kind = 1 then
    match items with
    | [sw, op] => if sw.toNat ≤ 127 then (switchOpOf op).map (.switching sw.toNat) else none
    | _ => none
  else none

/-- A position as used: absent when its mark says so or when its latitude or longitude lies outside its range (R56). -/
def positionTaken (p : RawPosition) : Option Position :=
  if p.present ∧ -9000000 ≤ p.latitude.toInt ∧ p.latitude.toInt ≤ 9000000
      ∧ -18000000 ≤ p.longitude.toInt ∧ p.longitude.toInt ≤ 18000000 then
    some { latitude := p.latitude.toInt, longitude := p.longitude.toInt, age := p.age.toNat }
  else none

/-- The max rate an AFFILIATE declares (R56, 10.6). -/
def declaredRate (r : Fin 3) : Rate := match r with | 0 => .low | 1 => .mid | 2 => .high

/-- The kind an AFFILIATE declares (R56). -/
def declaredKind (c : AffiliateContent) : TerminalKind := if c.personal then .personal else .vehicle

/-- The alarm cause an ALARM frame carries (R56). -/
def calledCause (c : AlarmCall) : AlarmCause := match c with | .panic => .panic | .manDown => .manDown

/-- The supply level of the two supply lines (R44). -/
def supplyLevelOf (first second : Bool) : SupplyLevel :=
  if second then .critical else if first then .reserve else .normal

/-- The baud rate of the two straps (R164). -/
def baudOf (firstTied secondTied : Bool) : Nat :=
  match firstTied, secondTied with
  | false, false => 115200
  | true, false => 230400
  | false, true => 460800
  | true, true => 921600

/-- The request codes of 10.2. -/
def requestCodes : List Byte :=
  [0x01, 0x02, 0x03, 0x04, 0x05, 0x10, 0x11, 0x12, 0x13, 0x14, 0x15, 0x20, 0x21, 0x22, 0x23, 0x24, 0x25,
   0x30, 0x31, 0x32, 0x33, 0x40, 0x41, 0x42, 0x43, 0x44, 0x50, 0x51, 0x52, 0x53, 0x54, 0x55, 0x56, 0x57,
   0x58, 0x59, 0x5A, 0x5B, 0x5C, 0x60, 0x61, 0x62]

end Sys2Proof.Machine
end

