-- ==== Sys2Proof/Machine/Table.lean ====
section
/-! DEFINITION. Operations on a table of numbered records in its one canonical form: record numbers strictly rising. -/

set_option Elab.async false

namespace Sys2Proof.Table
variable {α : Type}

/-- The record with number `n`, if it is in use. -/
def look : Table α → Nat → Option α
  | [], _ => none
  | (k, x) :: t, n => if k = n then some x else look t n

/-- Put record `x` under number `n`, replacing the one that stands there. -/
def put : Table α → Nat → α → Table α
  | [], n, x => [(n, x)]
  | (k, y) :: t, n, x =>
    if n < k then (n, x) :: (k, y) :: t else if n = k then (n, x) :: t else (k, y) :: put t n x

/-- Free number `n`. -/
def del (t : Table α) (n : Nat) : Table α := t.filter fun e => e.1 ≠ n

/-- Change the record with number `n`, if it is in use. -/
def adjust (t : Table α) (n : Nat) (f : α → α) : Table α :=
  match look t n with
  | some x => put t n (f x)
  | none => t

/-- The lowest of the numbers 0 to `cap` − 1 that is free. -/
def firstFree (t : Table α) (cap : Nat) : Option Nat := (List.range cap).find? fun n => (look t n).isNone

/-- The numbers in use. -/
def nums (t : Table α) : List Nat := t.map Prod.fst

/-- How many records satisfy a test. -/
def tally (t : Table α) (p : Nat → α → Bool) : Nat := (t.filter fun e => p e.1 e.2).length

/-- The first record, in number order, that satisfies a test. -/
def seek (t : Table α) (p : Nat → α → Bool) : Option (Nat × α) := t.find? fun e => p e.1 e.2

/-- The records that satisfy a test, in number order. -/
def pick (t : Table α) (p : Nat → α → Bool) : Table α := t.filter fun e => p e.1 e.2

/-- The canonical form: record numbers strictly rising. -/
def wf (t : Table α) : Bool := decide ((nums t).Pairwise (· < ·))

/-- The canonical form of a table whose records are numbered as they come: every number in use is below the next one. -/
def wfBelow (t : Table α) (next : Nat) : Bool := wf t && t.all fun e => decide (e.1 < next)

end Sys2Proof.Table
end

