-- ==== Sys2Proof/Machine/Flags.lean ====
section
/-! DEFINITION. Counters that saturate, and the marks and figures that are derived from the site rather than stored:
logical channels, affiliation, the tier, the tag of a switch point, the hold of the supply level, the interlock checks. -/

set_option Elab.async false

namespace Sys2Proof.Machine

/-- Raise a counter by 1; at 65535 it stays and its saturated mark is set (R47, R101, R165). -/
def Counter.bump (c : Counter) : Counter :=
  if c.value < 65535 then { c with value := c.value + 1 } else { c with saturated := true }

/-! ### Channels -/

/-- Channel `c` of the site. -/
def Site.chan (s : Site) (c : Chan) : Channel := s.channels.get c

/-- The primary of the pair `c` belongs to (R40). -/
def primaryOf (c : Chan) : Chan := if c.val < 2 then 0 else 2

/-- The other member of the pair `c` belongs to (R40). -/
def partnerOf (c : Chan) : Chan :=
  match c with
  | 0 => 1
  | 1 => 0
  | 2 => 3
  | 3 => 2

/-- Channel `c` is a member of a paired pair (R40): the pairing setting of its primary is on. -/
def Site.paired (s : Site) (c : Chan) : Bool := (s.chan (primaryOf c)).config.pairing

/-- The logical channel of module `c`: the primary on a paired pair (R40). -/
def Site.logical (s : Site) (c : Chan) : Chan := if s.paired c then primaryOf c else c

/-- The modules of the logical channel of `c`, the primary first. -/
def Site.members (s : Site) (c : Chan) : List Chan :=
  if s.paired c then [primaryOf c, partnerOf (primaryOf c)] else [c]

/-- `c` is the secondary of a paired pair (R34). -/
def Site.secondary (s : Site) (c : Chan) : Bool := s.paired c && primaryOf c != c

/-- The logical channels: every module but the secondary of a paired pair. -/
def Site.logicals (s : Site) : List Chan := [0, 1, 2, 3].filter fun c => !s.secondary c

/-- The supply level (R44). -/
def Site.supply (s : Site) : SupplyLevel := supplyLevelOf s.firstSupply s.secondSupply

/-- The level CRITICAL holds channel `c` quiet: channels 2 and 3, and channel 1 unless it is paired with channel 0
(R44). -/
def Site.heldQuiet (s : Site) (c : Chan) : Bool :=
  match c with
  | 0 => false
  | 1 => !s.paired 1
  | 2 => true
  | 3 => true

/-! ### Terminals and crews -/

/-- The roster record that holds a terminal ID (R2). -/
def Site.byId (s : Site) (id : Nat) : Option (Nat × Terminal) := Table.seek s.roster fun _ t => t.id == id

/-- Terminal `t` is AFFILIATED on logical channel `c`. -/
def Terminal.on (t : Terminal) (c : Chan) : Bool := t.state == .affiliated && t.channel == some c

/-- The terminal at roster index `i` is AFFILIATED on logical channel `c`. -/
def Site.affiliatedOn (s : Site) (i : Nat) (c : Chan) : Bool := (Table.look s.roster i).any (·.on c)

/-- The terminal at roster index `i` is AFFILIATED. -/
def Site.affiliated (s : Site) (i : Nat) : Bool := (Table.look s.roster i).any fun t => t.state == .affiliated

/-- The roster indices affiliated on logical channel `c`, ascending. -/
def Site.terminalsOn (s : Site) (c : Chan) : List Nat := Table.nums (Table.pick s.roster fun _ t => t.on c)

/-- The terminal a sender field identifies on logical channel `c` (R3, R57). -/
def Site.resolve (s : Site) (c : Chan) (f : Sender) : Option Nat :=
  match f with
  | .short a => (Table.seek s.roster fun _ t => t.on c && t.short == some a.toNat).map Prod.fst
  | .id t => (s.byId t.toNat).map Prod.fst

/-- The roster index of a crew's vehicle. -/
def Site.vehicleOf (s : Site) (crew : Nat) : Option Nat := (Table.look s.crews crew).bind Crew.vehicle

/-- The record of a crew's vehicle, with its roster index. -/
def Site.vehicleRecord (s : Site) (crew : Nat) : Option (Nat × Terminal) :=
  match s.vehicleOf crew with
  | some i => (Table.look s.roster i).map fun t => (i, t)
  | none => none

/-- The unresolved-alarm count of a crew (R15). -/
def Site.alarmsOf (s : Site) (crew : Nat) : Nat := ((Table.look s.crews crew).map Crew.alarms).getD 0

/-- The crew whose vehicle is the terminal at index `i`. -/
def Site.crewOfVehicle (s : Site) (i : Nat) : Option Nat :=
  (Table.seek s.crews fun _ c => c.vehicle == some i).map Prod.fst

/-- The tier of the terminal at index `i` (R24). -/
def Site.tier (s : Site) (i : Nat) : Tier :=
  match Table.look s.roster i with
  | none => .low
  | some t =>
    if (t.kind == .personal && (Table.look s.watches i).isSome)
        || (t.crew.any fun n => s.alarmsOf n != 0)
        || ((s.crewOfVehicle i).any fun n => s.permits.any fun e => e.2.crew == n
              && (e.2.state == .issuing || e.2.state == .issued || e.2.state == .releasePending)) then .high
    else .low

/-- The terminal at index `i` is in the pending access set of its channel (R9). -/
def Site.accessPending (s : Site) (i : Nat) : Bool :=
  match (Table.look s.roster i).bind Terminal.channel with
  | some c => (s.chan c).accessSet.contains i
  | none => false

/-- The state of a terminal as reports carry it. -/
def TerminalState.reported (t : TerminalState) : ReportedState :=
  match t with
  | .unknown => .unknown
  | .affiliated => .affiliated
  | .absent => .absent

/-! ### Orders -/

/-- An order's rank: priority, then submission sequence (R86). -/
def Order.before (a b : Order) : Bool := a.priority < b.priority || (a.priority == b.priority && a.seq ≤ b.seq)

/-- Insert an order into a list by rank. -/
def rankInsert (e : Nat × Order) : List (Nat × Order) → List (Nat × Order)
  | [] => [e]
  | x :: t => if e.2.before x.2 then e :: x :: t else x :: rankInsert e t

/-- The live orders by priority and then submission sequence (R70, R86). -/
def Site.rankedOrders (s : Site) : List (Nat × Order) := s.orders.foldr rankInsert []

/-- A crew's delivery list: its live orders by rank (R86). -/
def Site.deliveryList (s : Site) (crew : Nat) : List (Nat × Order) := s.rankedOrders.filter fun e => e.2.crew == crew

/-- The blocks in use (R85). -/
def Site.blocksUsed (s : Site) : Nat := (s.orders.map fun e => e.2.blocks).sum

/-! ### Supervision -/

/-- The lead of a check-in interval (R112). -/
def leadOf (interval : Nat) : Nat := min (max 30 (min 600 (secondsOf interval / 5))) (secondsOf interval / 2)

/-- A supervision state that counts toward the crew's unresolved-alarm count (section 6). -/
def WatchState.inAlarm (t : WatchState) : Bool := t == .alarm || t == .acknowledged

/-! ### The section map and the permits -/

/-- A switch point joins a section (R133). -/
def SwitchPoint.joins (p : SwitchPoint) (section_ : Nat) : Bool := p.sideA == section_ || p.sideB == some section_

/-- The sections a switch point joins, side A first. -/
def SwitchPoint.sides (p : SwitchPoint) : List Nat := p.sideA :: p.sideB.toList

/-- A section's clearance count; 0 for one that is not defined (R132). -/
def Site.clearances (s : Site) (section_ : Nat) : Nat := (Table.look s.sections section_).getD 0

/-- A switch point is tagged: the count of a section it joins is nonzero (R133). -/
def Site.tagged (s : Site) (p : SwitchPoint) : Bool := p.sides.any fun n => s.clearances n != 0

/-- A permit state that is not final (section 7). -/
def PermitState.live (t : PermitState) : Bool :=
  match t with
  | .requested | .issuing | .issued | .releasePending => true
  | .released | .completed | .withdrawn | .void => false

/-- A permit record is live: its state is not final (R137). -/
def Permit.live (p : Permit) : Bool := p.state.live

/-- The record of the live permit that holds a number (R137). -/
def Site.livePermit (s : Site) (number : Nat) : Option (Nat × Permit) :=
  Table.seek s.permits fun _ p => p.number == number && p.live

/-- The sections a permit lists: none for a switching permit. -/
def PermitWork.sections (k : PermitWork) : List Nat :=
  match k with
  | .clearance l => l
  | .switching _ _ => []

/-- The permit is a clearance. -/
def PermitWork.isClearance (k : PermitWork) : Bool :=
  match k with
  | .clearance _ => true
  | .switching _ _ => false

/-- The permit is a clearance that lists a section the switch point joins. -/
def PermitWork.meets (k : PermitWork) (p : SwitchPoint) : Bool := k.sections.any p.joins

/-- CL-1: every switch point bounding every listed section has position OPEN (R139). -/
def Site.checkCL1 (s : Site) (sections : List Nat) : Bool :=
  s.switches.all fun e => !(sections.any e.2.joins) || e.2.position == .opened

/-- CL-2: no SWITCHING CLOSE permit in ISSUING or ISSUED names a switch point bounding a listed section (R139). -/
def Site.checkCL2 (s : Site) (sections : List Nat) : Bool :=
  s.permits.all fun e =>
    match e.2.work with
    | .switching sw .closing =>
      !(e.2.state == .issuing || e.2.state == .issued)
        || !((Table.look s.switches sw).any fun p => sections.any p.joins)
    | _ => true

/-- SC-1: each section the switch point joins has clearance count 0 (R139). -/
def Site.checkSC1 (s : Site) (sw : Nat) : Bool := !((Table.look s.switches sw).any s.tagged)

/-- SC-2: no CLEARANCE in ISSUING lists a section the switch point joins (R139). -/
def Site.checkSC2 (s : Site) (sw : Nat) : Bool :=
  s.permits.all fun e => e.2.state != .issuing || !((Table.look s.switches sw).any fun p => e.2.work.meets p)

/-- Every interlock check of R139 that fits the permit's kind and operation. -/
def Site.interlock (s : Site) (k : PermitWork) : Bool :=
  match k with
  | .clearance l => s.checkCL1 l && s.checkCL2 l
  | .switching sw .closing => s.checkSC1 sw && s.checkSC2 sw
  | .switching _ .opening => true

/-- Every named section or switch point is defined, and no section is repeated (R138). -/
def Site.namesDefined (s : Site) (k : PermitWork) : Bool :=
  match k with
  | .clearance l => l.all (fun n => (Table.look s.sections n).isSome) && decide l.Nodup
  | .switching sw _ => (Table.look s.switches sw).isSome

/-- The mode allows permit requests and issues (R138, R158). -/
def Mode.allowsPermits (m : Mode) : Bool :=
  match m with
  | .openMode | .listed | .keyed => true
  | .noPermits | .alarmsOnly => false

/-- The authorized list allows a crew: it is read in LISTED and KEYED mode only (R158). -/
def Site.authorized (s : Site) (crew : Nat) : Bool :=
  match s.mode with
  | .listed | .keyed => s.authList.contains crew
  | .openMode | .noPermits | .alarmsOnly => true

/-! ### Readback codes -/

/-- The words W1, W2 and onward of a permit's issue code (R154, R155). -/
def permitWords (p : Permit) (key : Nat) : List Nat :=
  [p.number, (if p.work.isClearance then 1 else 2), p.crew]
    ++ (match p.work with
        | .clearance l => l.map (· + 1)
        | .switching sw op => [sw + 1, match op with | .opening => 1 | .closing => 2])
    ++ (if p.keyed then [key] else [])

/-- The sum of k × Wk, the first place being `k` (R154). -/
def weighted (k : Nat) : List Nat → Nat
  | [] => 0
  | w :: t => k * w + weighted (k + 1) t

/-- The readback code of a list of words (R154). -/
def codeOf (words : List Nat) : Nat := weighted 1 words % 9973

/-- The crew key in force for a permit's code (R155). -/
def Site.keyOf (s : Site) (crew : Nat) : Nat := ((Table.look s.crews crew).map Crew.key).getD 0

/-- The issue code of a permit (R156). -/
def Site.issueCode (s : Site) (p : Permit) : Nat := codeOf (permitWords p (s.keyOf p.crew))

/-- The release code of a permit: the issue code's words and one further word, 9 (R156). -/
def Site.releaseCode (s : Site) (p : Permit) : Nat := codeOf (permitWords p (s.keyOf p.crew) ++ [9])

end Sys2Proof.Machine
end

