-- ==== Sys2Proof/Machine/Link.lean ====
section
/-! DEFINITION. The Control Link Unit: the report queue with its limits and coalescing, the choice of the outgoing line, and
the discards of the receiver (Chapter 9). -/

set_option Elab.async false

namespace Sys2Proof.Machine

/-- The report kinds of the alarm class (section 9.4). -/
def ReportBody.alarmClass (b : ReportBody) : Bool :=
  match b with
  | .alarm _ | .unsupervisedAlarm _ | .tagViolation _ => true
  | .start _ | .orderState _ | .watchState _ | .permitState _ | .terminalState _ | .channelState _ | .supplyState _ _
  | .attendance _ _ _ | .linkError _ => false

/-- Two reports are of one coalescing kind and one source (R170). -/
def ReportBody.sameSource (a b : ReportBody) : Bool :=
  match a, b with
  | .terminalState x, .terminalState y => x.id == y.id
  | .channelState x, .channelState y => x.channel == y.channel
  | .supplyState _ _, .supplyState _ _ => true
  | .linkError _, .linkError _ => true
  | _, _ => false

/-- A state of an order that is final (section 5). -/
def OrderState.final (t : OrderState) : Bool :=
  match t with
  | .done | .declined | .returned => true
  | .queued | .inFlight | .held | .delivered | .accepted | .recalling => false

/-- The report mask covers a report, which is then not offered (R171). -/
def ReportMask.covers (m : ReportMask) (b : ReportBody) : Bool :=
  match b with
  | .terminalState _ => m.terminals
  | .channelState _ | .supplyState _ _ => m.channels
  | .orderState r => m.orders && !r.state.final
  | .watchState r =>
    m.watches && (r.cause == .promptDue || r.cause == .deadline || r.cause == .graceExpiry || r.cause == .checkedIn)
  | .start _ | .alarm _ | .unsupervisedAlarm _ | .permitState _ | .tagViolation _ | .attendance _ _ _ | .linkError _ => false

/-- The routine reports in a queue (R169). -/
def routineCount (q : List Report) : Nat := (q.filter fun r => !r.body.alarmClass).length

/-- Put a report in the place of the waiting one of its source (R170). -/
def replaceSource (r : Report) : List Report → List Report
  | [] => []
  | x :: t => if x.body.sameSource r.body then r :: t else x :: replaceSource r t

/-- Remove the newest routine report, the last in queue order (R169). -/
def dropNewestRoutine (q : List Report) : List Report :=
  (q.reverse.eraseP fun r => !r.body.alarmClass).reverse

/-- Offer a report to the queue: coalescing first, then the limits (R169, R170). -/
def Link.queueReport (l : Link) (r : Report) : Link :=
  if l.reports.any fun x => x.body.sameSource r.body then { l with reports := replaceSource r l.reports }
  else if r.body.alarmClass then
    if l.reports.length < 64 then { l with reports := l.reports ++ [r] }
    else if routineCount l.reports ≠ 0 then
      { l with reports := dropNewestRoutine l.reports ++ [r], reportsLost := true }
    else { l with reportsLost := true }
  else if routineCount l.reports < 48 ∧ l.reports.length < 64 then { l with reports := l.reports ++ [r] }
  else { l with reportsLost := true }

/-- The choice of the outgoing line when it is free (R167): the ready reply of the oldest place, else the head report, else
nothing. -/
def Link.chooseFrame (l : Link) : Link :=
  match l.outgoing with
  | some _ => l
  | none =>
    match l.places with
    | { tag, kind, wait := .ready status body } :: _ => { l with outgoing := some (.reply tag kind status body) }
    | _ =>
      match l.reports with
      | r :: t => { l with outgoing := some (.report r), reports := t }
      | [] => l

/-- Offer one report unless the mask covers it, stamped with the counts of the site (R171). A free line chooses again as the
report is queued (R167). -/
def Link.offerOne (s : Site) (l : Link) (b : ReportBody) : Link :=
  if s.mask.covers b then l else (l.queueReport { count := s.count, label := s.label, body := b }).chooseFrame

/-- Offer reports in order. -/
def Link.offerAll (s : Site) (l : Link) (bs : List ReportBody) : Link := bs.foldl (Link.offerOne s) l

/-- A RESTART has been taken and its restart has not begun (R177): a place holds it with its
OK reply. -/
def Link.restartPending (l : Link) : Bool := l.places.any fun p => p.kind == 0x05 && p.wait == .ready .ok .empty

/-- A discard of the link: its counters as raised, and a LINK_ERROR report carrying all five (R165). -/
def Link.discarded (s : Site) (l : Link) (c : LinkCounters) : Link :=
  Link.offerOne s { l with receiver := .hunting, counters := c } (.linkError c)

/-- The mode write serves its places: each reply becomes ready with the mode now stored (R162). -/
def Place.modeStored (m : Mode) (p : Place) : Place :=
  if p.wait = .modeWrite then { p with wait := .ready .ok (.modeStored m) } else p

/-- The pending mode write begins: the requests that joined it now wait for the write under way (R162). -/
def Place.modeBegun (p : Place) : Place := if p.wait = .modePending then { p with wait := .modeWrite } else p

/-- The reply of STORE_SETTINGS becomes ready (R175). -/
def Place.settingsStored (p : Place) : Place :=
  if p.wait = .storeWrite then { p with wait := .ready .ok .empty } else p

end Sys2Proof.Machine
end

