-- ==== Sys2Proof/Machine/Ops.lean ====
section
/-! DEFINITION. Named operations on the site while a command is taken: record updates, report offers, the events of R66,
the ALERT queues, the URGENT queues and the Pending Urgent List (Chapter 4). -/

set_option Elab.async false

namespace Sys2Proof.Machine

/-- Begin the work of a command. -/
def Work.start (s : Site) : Work := { site := s, out := [], offers := [] }

/-- Change the site. -/
def Work.modSite (w : Work) (f : Site → Site) : Work := { w with site := f w.site }

/-- Offer a report after those already offered. -/
def Work.emit (w : Work) (b : ReportBody) : Work := { w with out := w.out ++ [b] }

/-- Mark an event of R66 at a channel. -/
def Work.offer (w : Work) (c : Chan) : Work := { w with offers := w.offers ++ [c] }

/-- Mark an event of R66 that concerns every channel. -/
def Work.offerEvery (w : Work) : Work := { w with offers := w.offers ++ [0, 1, 2, 3] }

/-- Change channel `c`. -/
def Work.modChan (w : Work) (c : Chan) (f : Channel → Channel) : Work :=
  w.modSite fun s => { s with channels := s.channels.set c.val (f (s.chan c)) c.isLt }

/-- Change every listed channel. -/
def Work.modChans (w : Work) (cs : List Chan) (f : Channel → Channel) : Work := cs.foldl (fun w c => w.modChan c f) w

/-- Change the roster record at index `i`. -/
def Work.modTerminal (w : Work) (i : Nat) (f : Terminal → Terminal) : Work :=
  w.modSite fun s => { s with roster := s.roster.adjust i f }

/-- Change a crew record. -/
def Work.modCrew (w : Work) (n : Nat) (f : Crew → Crew) : Work :=
  w.modSite fun s => { s with crews := s.crews.adjust n f }

/-- Change a live order. -/
def Work.modOrder (w : Work) (n : Nat) (f : Order → Order) : Work :=
  w.modSite fun s => { s with orders := s.orders.adjust n f }

/-- Change a supervision record. -/
def Work.modWatch (w : Work) (u : Nat) (f : Watch → Watch) : Work :=
  w.modSite fun s => { s with watches := s.watches.adjust u f }

/-- Change a permit record. -/
def Work.modPermit (w : Work) (k : Nat) (f : Permit → Permit) : Work :=
  w.modSite fun s => { s with permits := s.permits.adjust k f }

/-- Raise a statistics counter of channel `c`. -/
def Work.bumpStat (w : Work) (c : Chan) (f : Stats → Stats) : Work :=
  w.modChan c fun ch => { ch with stats := f ch.stats }

/-! ### The ALERT queue (R67) -/

/-- How often an ALERT frame is sent (R65). -/
def AlertContent.sends (a : AlertContent) : Nat :=
  match a with
  | .assist _ _ _ _ _ | .danger _ _ _ => 3
  | .alarmSeen _ _ => 1

/-- The ALERT queue of the logical channel of `c` can take a frame (R67). -/
def Site.alertRoom (s : Site) (c : Chan) : Bool :=
  (s.chan (s.logical c)).state == .up && decide ((s.chan (s.logical c)).alerts.length < 8)

/-- Place an ALERT frame at the tail of the queue of the logical channel of `c`; the caller has seen that there is room. -/
def Work.pushAlert (w : Work) (c : Chan) (a : AlertContent) : Work :=
  (w.modChan (w.site.logical c) fun ch =>
    { ch with alerts := ch.alerts ++ [{ content := a, sendsLeft := a.sends, sending := false }] }).offer (w.site.logical c)

/-- What becomes of the entry whose frame has been sent or has failed: its sends remaining fall by 1, it leaves at 0 and
moves to the tail otherwise (R67). -/
def alertsAfterSend (q : List AlertEntry) : List AlertEntry :=
  match q.find? (·.sending) with
  | none => q
  | some e =>
    (q.eraseP (·.sending))
      ++ (if e.sendsLeft ≤ 1 then [] else [{ e with sendsLeft := e.sendsLeft - 1, sending := false }])

/-! ### The URGENT queue (R65, R68) -/

/-- The entry holds the item. -/
def UrgentEntry.holds (e : UrgentEntry) (id : Nat) : Bool :=
  match e.frame with
  | .item k _ _ => k == id
  | .reply _ => false

/-- The content's frame needs acknowledgement (R53, R68). -/
def ItemContent.needsAck (c : ItemContent) : Bool :=
  match c with
  | .recall _ _ | .permit _ _ _ _ _ | .watchStart _ _ _ | .watchStop => true
  | .permitResult _ r _ => r == .accepted
  | .prompt => false

/-- The entry's frame needs acknowledgement (R68). -/
def UrgentEntry.needsAck (e : UrgentEntry) : Bool :=
  match e.frame with
  | .item _ _ c => c.needsAck
  | .reply _ => false

/-- Room in the URGENT queue of channel `c` (R65). -/
def Site.urgentRoom (s : Site) (c : Chan) : Bool := decide ((s.chan c).urgents.length < 16)

/-- Join the tail of the URGENT queue of channel `c` (R68). -/
def Work.pushUrgent (w : Work) (c : Chan) (f : UrgentFrame) : Work :=
  (w.modChan c fun ch => { ch with urgents := ch.urgents ++ [{ frame := f, status := .waiting, cancelled := false }] }).offer c

/-- The entry that holds item `id` leaves the URGENT queue of channel `c`. -/
def Work.removeEntry (w : Work) (c : Chan) (id : Nat) : Work :=
  w.modChan c fun ch => { ch with urgents := ch.urgents.filter fun e => !e.holds id }

/-- Change the entry that holds item `id`. -/
def Work.modEntry (w : Work) (c : Chan) (id : Nat) (f : UrgentEntry → UrgentEntry) : Work :=
  w.modChan c fun ch => { ch with urgents := ch.urgents.map fun e => if e.holds id then f e else e }

/-- The entry that holds item `id` on channel `c`. -/
def Site.entryOf (s : Site) (c : Chan) (id : Nat) : Option UrgentEntry := (s.chan c).urgents.find? (·.holds id)

/-! ### The Pending Urgent List (R81 to R84) -/

/-- The kinds of which an owner holds at most one item each; PERMIT and PERMIT_RESULT count as one (R81, R82). -/
inductive ItemKind where
  | recall | permit | watchSet | prompt
  deriving DecidableEq, Repr

/-- The kind of an item (R81, R82). -/
def ItemContent.kind (c : ItemContent) : ItemKind :=
  match c with
  | .recall _ _ => .recall
  | .permit _ _ _ _ _ | .permitResult _ _ _ => .permit
  | .watchStart _ _ _ | .watchStop => .watchSet
  | .prompt => .prompt

/-- The item of a kind that an owner holds. -/
def Site.owned (s : Site) (o : Owner) (k : ItemKind) : Option (Nat × PulItem) :=
  Table.seek s.pul fun _ it => it.owner == o && it.content.kind == k

/-- The item is owned by a terminal (R81). -/
def Owner.isTerminal (o : Owner) : Bool :=
  match o with
  | .terminal _ => true
  | .watch _ | .order _ | .permit _ => false

/-- Terminal-owned items hold 16 places: a further placement by a terminal is refused (R81, R82). -/
def Site.terminalItemsFull (s : Site) : Bool := decide (16 ≤ Table.tally s.pul fun _ it => it.owner.isTerminal)

/-- The oldest waiting item whose addressee is AFFILIATED on channel `c` (R83). -/
def Site.nextWaiting (s : Site) (c : Chan) : Option (Nat × PulItem) :=
  Table.seek s.pul fun _ it => it.location == none && s.affiliatedOn it.addressee c

/-- Move an item from the LIST to the tail of the URGENT queue of channel `c` (R83). -/
def Work.moveItem (w : Work) (id : Nat) (it : PulItem) (c : Chan) : Work :=
  (w.modSite fun s => { s with pul := s.pul.put id { it with location := some c } }).pushUrgent c
    (.item id it.addressee it.content)

/-- Offer room to the waiting items, oldest first, at most `n` of them, while the channel is UP and has room (R83). -/
def Work.fillSome (c : Chan) : Nat → Work → Work
  | 0, w => w
  | n + 1, w =>
    if (w.site.chan c).state = .up ∧ w.site.urgentRoom c then
      match w.site.nextWaiting c with
      | some (id, it) => Work.fillSome c n (w.moveItem id it c)
      | none => w
    else w

/-- Offer the room of the URGENT queue of channel `c` to the Pending Urgent List (R83); the queue has 16 entries. -/
def Work.fill (w : Work) (c : Chan) : Work := Work.fillSome c 16 w

/-- The logical channel in UP on which the terminal at index `i` is AFFILIATED. -/
def Site.servingChannel (s : Site) (i : Nat) : Option Chan :=
  match Table.look s.roster i with
  | some t =>
    match t.channel with
    | some c => if t.state = .affiliated ∧ (s.chan c).state = .up then some c else none
    | none => none
  | none => none

/-- Place an item at the tail of the list, and move it at once when its addressee's queue has room (R82). -/
def Work.insertItem (w : Work) (o : Owner) (addressee : Nat) (c : ItemContent) : Work :=
  let id := w.site.nextItem
  let it : PulItem := { owner := o, addressee, content := c, location := none }
  let w := w.modSite fun s => { s with pul := s.pul.put id it, nextItem := id + 1 }
  match w.site.servingChannel addressee with
  | some ch => if w.site.urgentRoom ch then w.moveItem id it ch else w
  | none => w

/-- Place the RECALL of a terminal's oldest note, when it has notes, owns no RECALL item, and terminal-owned items leave a
place (R108). -/
def Work.placeNoteRecall (w : Work) (i : Nat) : Work :=
  match Table.look w.site.roster i with
  | some t =>
    match t.notes with
    | note :: _ =>
      if (w.site.owned (.terminal i) .recall).isNone ∧ !w.site.terminalItemsFull then
        w.insertItem (.terminal i) i (.recall note t.notes.length)
      else w
    | [] => w
  | none => w

/-- A terminal-owned item has left the system: serve the AFFILIATED terminal of lowest roster index that has notes and
owns no RECALL item (R108). -/
def Work.serveNotes (w : Work) : Work :=
  match Table.seek w.site.roster fun i t =>
      t.state == .affiliated && !t.notes.isEmpty && (w.site.owned (.terminal i) .recall).isNone with
  | some (i, _) => w.placeNoteRecall i
  | none => w

/-- Serve the notes when the item that has left was owned by a terminal (R108). -/
def Work.leftSystem (w : Work) (it : PulItem) : Work := if it.owner.isTerminal then w.serveNotes else w

/-- The item leaves the list. -/
def Work.dropItem (w : Work) (id : Nat) : Work := w.modSite fun s => { s with pul := s.pul.del id }

/-- A cancelled item's entry in the URGENT queue of channel `c` (R77): a WAITING one leaves, and the room is offered to the
list; one in SENDING, AWAITING_ACK or RETRY stays with the cancelled mark. -/
def Work.cancelEntry (w : Work) (c : Chan) (id : Nat) : Work :=
  match w.site.entryOf c id with
  | some e =>
    if e.status = EntryStatus.waiting then (w.removeEntry c id).fill c
    else w.modEntry c id fun e => { e with cancelled := true }
  | none => w

/-- The owner cancels an item (R77, R84): it leaves the list, and its entry, if it stands in a queue, is cancelled. -/
def Work.cancelItem (w : Work) (id : Nat) : Work :=
  match Table.look w.site.pul id with
  | none => w
  | some it =>
    match it.location with
    | none => (w.dropItem id).leftSystem it
    | some c => ((w.dropItem id).cancelEntry c id).leftSystem it

/-- Cancel the item of a kind that an owner holds, if any. -/
def Work.cancelOwned (w : Work) (o : Owner) (k : ItemKind) : Work :=
  match w.site.owned o k with
  | some (id, _) => w.cancelItem id
  | none => w

/-- A terminal's placement would be refused (R82). -/
def Site.placementRefused (s : Site) (o : Owner) : Bool := o.isTerminal && s.terminalItemsFull

/-- An owner places an item (R82): the item of the same kind that it holds is cancelled first. A refused placement leaves
everything as it was. The refusal is judged before that cancellation, also where the item that would be cancelled is one of
the 16 terminal-owned ones: it stays (DESIGN CHOICE, notes/assumptions/35.md). -/
def Work.place (w : Work) (o : Owner) (addressee : Nat) (c : ItemContent) : Work :=
  if w.site.placementRefused o then w else (w.cancelOwned o c.kind).insertItem o addressee c

/-- An item returns to the LIST with its original age (R84). -/
def Work.returnItem (w : Work) (c : Chan) (id : Nat) : Work :=
  (w.modSite fun s => { s with pul := s.pul.adjust id fun it => { it with location := none } }).removeEntry c id

/-- The items in WAITING that stand for the terminal at index `i` in the URGENT queue of channel `c`. -/
def Site.waitingItems (s : Site) (c : Chan) (i : Nat) : List Nat :=
  (s.chan c).urgents.filterMap fun (e : UrgentEntry) =>
    match e.frame with
    | .item id a _ => if a == i && e.status == .waiting then some id else none
    | .reply _ => none

/-- The WAITING entries of the terminal at index `i` return to the list (R76). -/
def Work.returnWaiting (w : Work) (c : Chan) (i : Nat) : Work :=
  (w.site.waitingItems c i).foldl (fun w id => w.returnItem c id) w

/-- Where the item of a kind that an owner holds stands (R117, R153). -/
def Site.standing (s : Site) (o : Owner) (k : ItemKind) : Standing :=
  match s.owned o k with
  | none => .notOwed
  | some (_, it) =>
    match it.location with
    | none => .onList
    | some c => .inQueue c

/-! ### Credit, outstanding frames and in-flight blocks (R4, R5, R94) -/

/-- Set a vehicle's free credit, clamped to its capacity; a rise is an event of R66. A PERSONAL terminal keeps credit 0
(R4). -/
def Work.setCredit (w : Work) (i : Nat) (v : Nat) : Work :=
  match Table.look w.site.roster i with
  | some t =>
    if t.kind = .vehicle then
      let w' := w.modTerminal i fun t => { t with credit := min v t.capacity }
      match t.channel with
      | some c => if t.credit < min v t.capacity then w'.offer c else w'
      | none => w'
    else w
  | none => w

/-- Raise a vehicle's free credit, clamped to its capacity (R4). -/
def Work.raiseCredit (w : Work) (i : Nat) (blocks : Nat) : Work :=
  match Table.look w.site.roster i with
  | some t => w.setCredit i (t.credit + blocks)
  | none => w

/-- The outstanding frame of the terminal at index `i` ends: the window and the frame on the air no longer await its
acknowledgement, and the channel is offered a choice (R5, R59, R66). `toggle` for an acknowledgement or a failure. -/
def Work.endOutstanding (w : Work) (i : Nat) (toggle : Bool) : Work :=
  match (Table.look w.site.roster i).bind Terminal.outstanding with
  | some o =>
    ((w.modTerminal i fun t => { t with outstanding := none, sequenceBit := t.sequenceBit != toggle }).modChan o.channel
      fun ch => { ch with
        window := ch.window.map fun x => if x.acked = some i then { x with acked := none } else x
        onAir := ch.onAir.map fun x => if x.acked = some i then { x with acked := none } else x }).offer o.channel
  | none => w

/-- Lower the in-flight blocks of a channel, an event of R66 (R94). -/
def Work.lowerInFlight (w : Work) (c : Option Chan) (blocks : Nat) : Work :=
  match c with
  | some c => (w.modChan c fun ch => { ch with inFlightBlocks := ch.inFlightBlocks - blocks }).offer c
  | none => w

end Sys2Proof.Machine
end

