-- ==== Sys2Proof/Machine/OrderOps.lean ====
section
/-! DEFINITION. The Order Delivery Engine's operations: changes of an order's state with their reports, the end of ORDER
frames, crew replies, recall notes and final states (Chapter 5). -/

set_option Elab.async false

namespace Sys2Proof.Machine

/-- Queue the ORDER_STATE report of a change of the order `o` (as it stands before the change) to state `new` (R110). -/
def Work.reportOrder (w : Work) (n : Nat) (o : Order) (new : OrderState) (cause : OrderCause)
    (reason : Option ReturnReason) (note : Option NoteResult) : Work :=
  w.emit (.orderState
    { number := n, crew := o.crew, state := new, previous := o.state, cause, reason
      reply := if reason.isSome ∧ o.state = .recalling then o.reply else none
      note
      retry := if o.state = .inFlight then o.retry else none })

/-- Move a live order to another live state: its report is queued, and `f` changes its other fields. -/
def Work.moveOrder (w : Work) (n : Nat) (new : OrderState) (cause : OrderCause) (f : Order → Order) : Work :=
  match Table.look w.site.orders n with
  | some o => (w.reportOrder n o new cause none none).modOrder n fun o => { f o with state := new }
  | none => w

/-- The hold deadline of an order that enters HELD now (R99). -/
def Site.holdDeadline (s : Site) (o : Order) : Nat := s.count + secondsOf o.hold

/-- The order enters HELD with its hold deadline set from the current count (R99). -/
def Work.holdOrder (w : Work) (n : Nat) (cause : OrderCause) : Work :=
  w.moveOrder n .held cause fun o => { o with deadline := some (w.site.holdDeadline o), retry := none, frameChannel := none }

/-- The order enters QUEUED, keeping its submission sequence; that is an event of R66 at its vehicle's channel (R92). -/
def Work.queueOrder (w : Work) (n : Nat) (cause : OrderCause) : Work :=
  let w' := w.moveOrder n .queued cause fun o => { o with deadline := none, retry := none, frameChannel := none }
  match (Table.look w.site.orders n).bind fun o => (w.site.vehicleRecord o.crew).bind fun v => v.2.channel with
  | some c => w'.offer c
  | none => w'

/-- Complete an order that enters a final state (R109): its report, its RECALL item cancelled, its record freed. -/
def Work.finishOrder (w : Work) (n : Nat) (new : OrderState) (cause : OrderCause) (reason : Option ReturnReason)
    (note : Option NoteResult) : Work :=
  match Table.look w.site.orders n with
  | some o =>
    ((w.reportOrder n o new cause reason note).cancelOwned (.order n) .recall).modSite fun s =>
      { s with orders := s.orders.del n }
  | none => w

/-- Add an unconfirmed-recall note to the record that holds the recipient's ID (R107), and say what became of it. -/
def Work.addNote (w : Work) (recipient : Option Nat) (n : Nat) : Work × NoteResult :=
  match recipient.bind w.site.byId with
  | some (i, t) =>
    if t.notes.contains n then (w, .kept)
    else if t.notes.length < 16 then (w.modTerminal i fun t => { t with notes := t.notes ++ [n] }, .kept)
    else (w.modSite fun s => { s with notesDropped := s.notesDropped.bump }, .dropped)
  | none => (w, .none)

/-- End an order RETURNED with reason CANCELLED_UNCONFIRMED: the note, then the completion (R106, R107). -/
def Work.returnUnconfirmed (w : Work) (n : Nat) (cause : OrderCause) : Work :=
  match Table.look w.site.orders n with
  | some o =>
    let (w', note) := w.addNote o.recipient n
    w'.finishOrder n .returned cause (some .cancelledUnconfirmed) (some note)
  | none => w

/-- A reply is ignored and counted (R101). -/
def Work.ignoreReply (w : Work) : Work := w.modSite fun s => { s with repliesIgnored := s.repliesIgnored.bump }

/-- Apply a reply to a DELIVERED or ACCEPTED order (R102). -/
def Work.applyReply (w : Work) (n : Nat) (r : CrewReply) : Work :=
  match (Table.look w.site.orders n).map Order.state, r with
  | some .delivered, .accept => w.moveOrder n .accepted .crewReply id
  | some .delivered, .decline => w.finishOrder n .declined .crewReply none none
  | some .delivered, .done => w.finishOrder n .done .crewReply none none
  | some .accepted, .done => w.finishOrder n .done .crewReply none none
  | _, _ => w.ignoreReply

/-- A reply recorded while the order was not settled replaces the recorded one unless it is an ACCEPT (R103, R106), which is
then not recorded and not counted either (DESIGN CHOICE, notes/assumptions/24.md). -/
def recordedReply (old : Option CrewReply) (r : CrewReply) : Option CrewReply :=
  match r with
  | .accept => if old.isNone then some .accept else old
  | .decline => some .decline
  | .done => some .done

/-- The order becomes DELIVERED, and its recorded reply, if any, is cleared and applied at once (R95, R97, R98). -/
def Work.deliverOrder (w : Work) (n : Nat) (cause : OrderCause) (reply : Option CrewReply) : Work :=
  let w := w.moveOrder n .delivered cause fun o =>
    { o with deadline := none, retry := none, frameChannel := none, reply := none }
  match reply with
  | some r => w.applyReply n r
  | none => w

/-- The ORDER frame of an order ends: the in-flight blocks of its channel fall, and for a RECALLING order the retry count
and frame channel become absent (R94, R105). -/
def Work.endOrderFrame (w : Work) (n : Nat) (o : Order) : Work :=
  let w := w.lowerInFlight o.frameChannel o.blocks
  if o.state = .recalling then w.modOrder n fun o => { o with retry := none, frameChannel := none } else w

/-- The ORDER frame is acknowledged (R95, R105). -/
def Work.orderAcked (w : Work) (n : Nat) : Work :=
  match Table.look w.site.orders n with
  | some o =>
    let w := w.endOrderFrame n o
    if o.state = .inFlight then w.deliverOrder n .acknowledged o.reply else w
  | none => w

/-- The ORDER frame to the terminal at index `i` fails (R97, R105). -/
def Work.orderFailed (w : Work) (i n : Nat) (cause : OrderCause) : Work :=
  match Table.look w.site.orders n with
  | some o =>
    let w := (w.raiseCredit i o.blocks).endOrderFrame n o
    if o.state = .inFlight then
      match o.reply with
      | some r => w.deliverOrder n .crewReply (some r)
      | none => w.holdOrder n cause
    else w
  | none => w

/-- The ORDER frame to the terminal at index `i` is withdrawn as not sent; `capacity` is what the accepted AFFILIATE
declares (R98, R105). -/
def Work.orderWithdrawn (w : Work) (i n capacity : Nat) : Work :=
  match Table.look w.site.orders n with
  | some o =>
    let w := (w.raiseCredit i o.blocks).endOrderFrame n o
    if o.state = .inFlight then
      match o.reply with
      | some r => w.deliverOrder n .crewReply (some r)
      | none => if capacity < o.blocks then w.holdOrder n .oversize else w.queueOrder n .withdrawn
    else w
  | none => w

/-- The first sending of a QUEUED order on channel `c` to the vehicle at index `i` (R93). -/
def Work.orderSent (w : Work) (n : Nat) (c : Chan) (i : Nat) : Work :=
  match Table.look w.site.orders n, Table.look w.site.roster i with
  | some o, some t =>
    (((w.moveOrder n .inFlight .sent fun o =>
        { o with recipient := some t.id, retry := some 0, frameChannel := some c }).modTerminal i fun t =>
        { t with credit := t.credit - o.blocks }).modChan c fun ch =>
        { ch with inFlightBlocks := ch.inFlightBlocks + o.blocks })
  | _, _ => w

/-- An order enters RECALLING and places its RECALL item, addressed to the record that holds the recipient's ID (R104). -/
def Work.recallOrder (w : Work) (n : Nat) : Work :=
  match Table.look w.site.orders n with
  | some o =>
    let w := w.moveOrder n .recalling .hostCancel id
    match o.recipient.bind w.site.byId with
    | some (i, _) => w.place (.order n) i (.recall n 0)
    | none => w
  | none => w

/-- The ODE's reaction to the absence of the terminal at index `i` with ID `tid` (R22): its crew's QUEUED orders become HELD,
and the RECALLING orders whose recipient it is end unconfirmed. The rules give no order among the orders: the QUEUED ones are
taken before the RECALLING ones, each by priority and then submission sequence, which fixes the order of the reports and of the
notes (DESIGN CHOICE, notes/assumptions/25.md). -/
def Work.ordersAtAbsence (w : Work) (i tid : Nat) : Work :=
  let w : Work := match w.site.crewOfVehicle i with
    | some crew =>
      ((w.site.deliveryList crew).filter fun e => e.2.state == .queued).foldl
        (fun w e => w.holdOrder e.1 .vehicleAbsent) w
    | none => w
  (w.site.rankedOrders.filter fun e => e.2.state == .recalling && e.2.recipient == some tid).foldl
    (fun w e => w.returnUnconfirmed e.1 .vehicleAbsent) w

/-- The ODE's reaction to an affiliation of a crew's vehicle, or to a change of the crew's vehicle to an affiliated one,
with the given capacity: HELD orders within it become QUEUED, and QUEUED orders larger than it become HELD (R12, R18,
R100). The rules give no order among the orders: one pass takes the delivery list in its order (DESIGN CHOICE,
notes/assumptions/25.md). -/
def Work.ordersAtVehicle (w : Work) (crew capacity : Nat) (cause : OrderCause) : Work :=
  (w.site.deliveryList crew).foldl (fun w e =>
    if e.2.state = .held ∧ e.2.blocks ≤ capacity then w.queueOrder e.1 cause
    else if e.2.state = .queued ∧ capacity < e.2.blocks then w.holdOrder e.1 .oversize
    else w) w

/-- The ODE's reaction to a change of the crew's vehicle to none or to one that is not AFFILIATED (R12), the orders in the
order of the delivery list (DESIGN CHOICE, notes/assumptions/25.md). -/
def Work.ordersWithoutVehicle (w : Work) (crew : Nat) : Work :=
  ((w.site.deliveryList crew).filter fun e => e.2.state == .queued).foldl
    (fun w e => w.holdOrder e.1 .vehicleChanged) w

end Sys2Proof.Machine
end

