-- ==== Sys2Proof/Machine/WatchOps.lean ====
section
/-! DEFINITION. The Lone Worker Supervisor's operations: reports, alarms, ALARM_SEEN and ASSIST placement, the removal of a
supervision record, and the owner's side of WATCH_SET outcomes (Chapter 6). -/

set_option Elab.async false

namespace Sys2Proof.Machine

/-- The crew the terminal at index `u` is bound to. -/
def Site.boundCrew (s : Site) (u : Nat) : Option Nat := (Table.look s.roster u).bind Terminal.crew

/-- The terminal ID at index `u`; 0 where the roster has no such record. -/
def Site.idAt (s : Site) (u : Nat) : Nat := ((Table.look s.roster u).map Terminal.id).getD 0

/-- Queue a WATCH_STATE report for the record of unit `u`, whose fields are `r` and whose state before was `previous`
(R129). `state` absent is REMOVED. -/
def Work.reportWatch (w : Work) (u : Nat) (r : Watch) (state : Option WatchState) (previous : WatchState)
    (cause : WatchCause) (stopNotPlaced : Bool) : Work :=
  w.emit (.watchState
    { id := w.site.idAt u, index := u, crew := w.site.boundCrew u, state, previous, cause, missed := r.missed
      deadline := r.deadline, lastCheckIn := r.lastCheckIn, stopNotPlaced })

/-- Queue an ALARM report for the record of unit `u` (R128). -/
def Work.reportAlarm (w : Work) (u : Nat) (r : Watch) (reason : AlarmReason) : Work :=
  w.emit (.alarm
    { id := w.site.idAt u, index := u, crew := w.site.boundCrew u, state := r.state, cause := r.cause
      time := r.alarmTime, escalations := r.escalations, reason, lastCheckIn := r.lastCheckIn
      lastPosition := r.lastPosition
      terminalState := if reason = .removed then .removed
        else ((Table.look w.site.roster u).map fun t => t.state.reported).getD .unknown
      channel := if reason = .removed then none else (Table.look w.site.roster u).bind Terminal.channel
      alarmChannel := r.alarmChannel, attended := w.site.attended })

/-- Raise the unresolved-alarm count of the crew the unit is bound to (R15, R125). -/
def Work.raiseAlarms (w : Work) (u : Nat) : Work :=
  match w.site.boundCrew u with
  | some n => w.modCrew n fun c => { c with alarms := c.alarms + 1 }
  | none => w

/-- Lower it; its fall to 0 is an event of R66 at every channel (R15, R116). -/
def Work.lowerAlarms (w : Work) (u : Nat) : Work :=
  match w.site.boundCrew u with
  | some n =>
    let w' := w.modCrew n fun c => { c with alarms := c.alarms - 1 }
    if w.site.alarmsOf n = 1 then w'.offerEvery else w'
  | none => w

/-- Place an ALARM_SEEN for the record of unit `u` on its alarm channel, with the mark its state gives; when it cannot be
placed it is owed (R126). -/
def Work.placeAlarmSeen (w : Work) (u : Nat) : Work :=
  match Table.look w.site.watches u with
  | some r =>
    match r.alarmChannel with
    | some c =>
      if w.site.alertRoom c then
        (w.pushAlert c (.alarmSeen (w.site.idAt u) (r.state == .acknowledged))).modWatch u fun r =>
          { r with seenOwed := false }
      else w.modWatch u fun r => { r with seenOwed := true }
    | none => w.modWatch u fun r => { r with seenOwed := true }
  | none => w

/-- The record of unit `u` enters ALARM (R125): the alarm fields, the crew count when the record did not count before, an owed
PROMPT cancelled, the escalation started, and the ALARM report. `channel` is the alarm channel of the entry, which stands
before the report is queued and so is the one the report carries (DESIGN CHOICE, notes/assumptions/32.md). -/
def Work.enterAlarm (w : Work) (u : Nat) (cause : AlarmCause) (channel : Option Chan) (counted : Bool) : Work :=
  let w := w.modWatch u fun r =>
    { r with state := .alarm, cause := some cause, alarmTime := some w.site.count, escalations := 0
             alarmChannel := channel }
  let w : Work := if counted then w else w.raiseAlarms u
  let w := w.cancelOwned (.watch u) .prompt
  let w := w.modWatch u fun r => { r with escalationExpiry := some (w.site.count + w.site.escalation) }
  match Table.look w.site.watches u with
  | some r => w.reportAlarm u r .entry
  | none => w

/-- Place an ASSIST for the record of unit `u` on every logical channel in UP; a full ALERT queue counts a drop (R127). -/
def Work.placeAssists (w : Work) (u : Nat) (r : Watch) : Work :=
  (w.site.logicals.filter fun c => (w.site.chan c).state == .up).foldl (fun w c =>
    if w.site.alertRoom c then
      w.pushAlert c (.assist ((w.site.boundCrew u).getD 0) (w.site.idAt u) (r.cause.getD .noCheckIn) r.escalations
        r.lastPosition)
    else w.modSite fun s => { s with assistDrops := s.assistDrops.bump }) w

/-- Place the WATCH_SET(START) item of the record of unit `u` (R113, R122). -/
def Work.placeWatchStart (w : Work) (u : Nat) : Work :=
  match Table.look w.site.watches u with
  | some r => w.place (.watch u) u (.watchStart r.interval r.missLimit r.lead)
  | none => w

/-- Place a PROMPT for the record of unit `u` (R118). -/
def Work.placePrompt (w : Work) (u : Nat) : Work := w.place (.watch u) u .prompt

/-- Remove the record of unit `u`, at STOP_WATCH or at RESOLVE_ALARM with removal (R114): its items cancelled, the record
freed, the report, then the WATCH_SET(STOP) item with its stop notice, or the mark STOP_NOT_PLACED. With 16 terminal-owned
items the placement is refused although the unit's own older STOP be one of them: that STOP and its notice stay (DESIGN CHOICE,
notes/assumptions/35.md). -/
def Work.removeWatch (w : Work) (u : Nat) (cause : WatchCause) : Work :=
  match Table.look w.site.watches u with
  | some r =>
    let w := (w.cancelOwned (.watch u) .watchSet).cancelOwned (.watch u) .prompt
    let w := w.modSite fun s => { s with watches := s.watches.del u }
    let refused := w.site.placementRefused (.terminal u)
    let w := w.reportWatch u r none r.state cause refused
    if refused then w
    else
      (w.place (.terminal u) u .watchStop).modSite fun s =>
        { s with stopNotices := s.stopNotices.put u (s.count + secondsOf r.interval) }
  | none => w

/-- Remove the stop notice of unit `u` (R114). -/
def Work.dropNotice (w : Work) (u : Nat) : Work := w.modSite fun s => { s with stopNotices := s.stopNotices.del u }

/-- A WATCH_SET(START) item of the record of unit `u` has failed: it is placed again and reported (R122). -/
def Work.watchSetFailed (w : Work) (u : Nat) : Work :=
  match Table.look w.site.watches u with
  | some r => (w.placeWatchStart u).reportWatch u r (some r.state) r.state .settingsUndelivered false
  | none => w

/-- The LWS's reaction to an accepted AFFILIATE of unit `u` on channel `c`: in ALARM or ACKNOWLEDGED the alarm channel
becomes the new channel and an owed ALARM_SEEN is placed there (R126, R131). -/
def Work.watchAtAcceptance (w : Work) (u : Nat) (c : Chan) : Work :=
  match Table.look w.site.watches u with
  | some r =>
    if r.state.inAlarm then
      let w := w.modWatch u fun r => { r with alarmChannel := some c }
      if r.seenOwed then w.placeAlarmSeen u else w
    else w
  | none => w

/-- The LWS's reaction to the removal of the roster record at index `u` (R131): the supervision record is freed, with an
ALARM report of reason REMOVED when an alarm stood. -/
def Work.watchAtRemoval (w : Work) (u : Nat) : Work :=
  match Table.look w.site.watches u with
  | some r =>
    let w : Work := if r.state.inAlarm then w.reportAlarm u r .removed else w
    (w.modSite fun s => { s with watches := s.watches.del u }).reportWatch u r none r.state .unitRemoved false
  | none => w

end Sys2Proof.Machine
end

