-- ==== Sys2Proof/Machine/PermitOps.lean ====
section
/-! DEFINITION. The Permit Table's and Section Map's operations: reports, PERMIT and PERMIT_RESULT items, reversion,
completion, recorded positions and tag violations, DANGER placement (Chapter 7). -/

set_option Elab.async false

namespace Sys2Proof.Machine

/-- Queue the PERMIT_STATE report of permit `p` as it now stands (R151). `previous` absent is NONE. -/
def Work.reportPermit (w : Work) (p : Permit) (previous : Option PermitState) (cause : PermitCause) : Work :=
  w.emit (.permitState
    { number := p.number, work := p.work, crew := p.crew, state := p.state, previous, cause, attempts := p.attempts
      compromised := p.compromised, restored := p.restored, resultConfirmed := p.resultConfirmed
      violationSwitch := if p.compromised then p.violationSwitch else none, recorded := p.recorded })

/-- Queue the report of the permit in record `k`, if the record is in use. -/
def Work.reportRecord (w : Work) (k : Nat) (previous : Option PermitState) (cause : PermitCause) : Work :=
  match Table.look w.site.permits k with
  | some p => w.reportPermit p previous cause
  | none => w

/-- Free the permit record `k` (R150). -/
def Work.freePermit (w : Work) (k : Nat) : Work := w.modSite fun s => { s with permits := s.permits.del k }

/-- Place a PERMIT_RESULT of the permit in record `k`, addressed to the roster record that holds the recorded vehicle's
ID (R137, R141, R143). -/
def Work.placeResult (w : Work) (k : Nat) (r : ResultCode) : Work :=
  match Table.look w.site.permits k with
  | some p =>
    match p.recorded.bind w.site.byId with
    | some (i, _) => w.place (.permit k) i (.permitResult p.number r p.attempts)
    | none => w
  | none => w

/-- The body of a PERMIT as the permit and the map give it (R54). -/
def Site.permitBody (s : Site) (k : PermitWork) : PermitBody :=
  match k with
  | .clearance l => .clearance l
  | .switching sw op =>
    match Table.look s.switches sw with
    | some p => .switching sw op p.sideA p.sideB
    | none => .switching sw op 0 none

/-- The permit in ISSUING in record `k` reverts to REQUESTED (R141). `result` when the cause places a WITHDRAWN result. -/
def Work.revertPermit (w : Work) (k : Nat) (cause : PermitCause) (result : Bool) : Work :=
  match Table.look w.site.permits k with
  | some p =>
    if p.state = .issuing then
      let w := w.modPermit k fun p => { p with state := .requested, deadline := none }
      let w := w.cancelOwned (.permit k) .permit
      let w : Work := if result then w.placeResult k .withdrawn else w
      w.reportRecord k (some .issuing) cause
    else w
  | none => w

/-- Insert a permit record into a list by ascending permit number. -/
def numberInsert (e : Nat × Permit) : List (Nat × Permit) → List (Nat × Permit)
  | [] => [e]
  | x :: t => if e.2.number ≤ x.2.number then e :: x :: t else x :: numberInsert e t

/-- The records of permits that satisfy a test, in ascending permit number. -/
def Site.permitsBy (s : Site) (f : Permit → Bool) : List (Nat × Permit) :=
  (s.permits.filter fun e => f e.2).foldr numberInsert []

/-- A result carrying WITHDRAWN or VOID is owed for the permit in record `k` (R150). -/
def Site.owesFinalResult (s : Site) (k : Nat) : Bool :=
  match s.owned (.permit k) .permit with
  | some (_, it) =>
    match it.content with
    | .permitResult _ .withdrawn _ | .permitResult _ .void _ => true
    | _ => false
  | none => false

/-- Complete the permit in record `k`, which has entered a final state from `previous` (R150). -/
def Work.completePermit (w : Work) (k : Nat) (previous : PermitState) (cause : PermitCause) : Work :=
  let w := w.reportRecord k (some previous) cause
  match Table.look w.site.permits k with
  | some p =>
    let w := w.modPermit k fun p => { p with deadline := none, dangerOwed := false }
    let owes := w.site.owesFinalResult k
    let w : Work := if owes then w else w.cancelOwned (.permit k) .permit
    let w := w.modCrew p.crew fun c => { c with permits := c.permits - 1 }
    if owes then
      if (p.recorded.bind w.site.byId).any fun e => e.2.state == .affiliated then
        w.modPermit k fun p => { p with retained := true }
      else (w.cancelOwned (.permit k) .permit).freePermit k
    else w.freePermit k
  | none => w

/-- Enter a final state and complete (R150). -/
def Work.finishPermit (w : Work) (k : Nat) (new : PermitState) (cause : PermitCause) : Work :=
  match Table.look w.site.permits k with
  | some p => (w.modPermit k fun p => { p with state := new }).completePermit k p.state cause
  | none => w

/-- Raise the clearance count of each listed section by 1 (R132). -/
def Work.raiseSections (w : Work) (l : List Nat) : Work :=
  l.foldl (fun w n => w.modSite fun s => { s with sections := s.sections.adjust n (· + 1) }) w

/-- Lower the clearance count of each listed section by 1 (R132, R148). -/
def Work.lowerSections (w : Work) (l : List Nat) : Work :=
  l.foldl (fun w n => w.modSite fun s => { s with sections := s.sections.adjust n (· - 1) }) w

/-- A READBACK, SWITCH_DONE or RELEASE_ASK matches no permit in the required state: it is counted (R137, R143). -/
def Work.ignoreArrival (w : Work) : Work := w.modSite fun s => { s with arrivalsIgnored := s.arrivalsIgnored.bump }

/-- A DANGER placement dropped at a full ALERT queue is counted (R136, R137). -/
def Work.dropDanger (w : Work) : Work := w.modSite fun s => { s with dangerDrops := s.dangerDrops.bump }

/-- Offer a DANGER for the clearance in record `k` to its crew's current vehicle, at a tag violation of switch point `sw`
(step 3 of R136), and say what became of it. -/
def Work.offerDanger (w : Work) (k sw : Nat) : Work × WarningOutcome :=
  match Table.look w.site.permits k with
  | some p =>
    match w.site.vehicleRecord p.crew with
    | some (_, t) =>
      match t.channel with
      | some c =>
        if t.state = .affiliated then
          if w.site.alertRoom c then (w.pushAlert c (.danger p.number sw t.id), .placed)
          else if (w.site.chan (w.site.logical c)).state = .up then
            (w.dropDanger.modPermit k fun p => { p with dangerOwed := true }, .dropped)
          else (w.modPermit k fun p => { p with dangerOwed := true }, .owed)
        else (w.modPermit k fun p => { p with dangerOwed := true }, .owed)
      | none => (w.modPermit k fun p => { p with dangerOwed := true }, .owed)
    | none => (w.modPermit k fun p => { p with dangerOwed := true }, .owed)
  | none => (w, .owed)

/-- A tag violation at switch point `sw`, whose record `p` holds the position before the recording in `previous` (R136).
Answers the number of clearances marked. -/
def Work.tagViolation (w : Work) (sw : Nat) (p : SwitchPoint) (previous : SwitchPosition) (source : PositionSource) :
    Work × Nat :=
  let w := w.modSite fun s => { s with switches := s.switches.adjust sw fun p => { p with violated := true } }
  let marked := w.site.permitsBy fun q =>
    (q.state == .issued || q.state == .releasePending) && q.work.meets p
  let w := marked.foldl (fun w e => w.modPermit e.1 fun q =>
    { q with compromised := true, violationSwitch := some sw }) w
  let (w, outcomes) := marked.foldl (fun (a : Work × List MarkedClearance) e =>
    let (w, o) := a.1.offerDanger e.1 sw
    (w, a.2 ++ [{ number := e.2.number, crew := e.2.crew, state := e.2.state, outcome := o }])) (w, [])
  (w.emit (.tagViolation
    { switch := sw, sideA := p.sideA, sideB := p.sideB, countA := w.site.clearances p.sideA
      countB := p.sideB.map w.site.clearances, previous, source, marked := outcomes }), marked.length)

/-- Record the position of switch point `sw` (R135). Answers whether a violation was raised, the number of clearances
marked compromised and the number of clearances reverted. The clearances caught in ISSUING revert in ascending permit number
(DESIGN CHOICE, notes/assumptions/10.md). -/
def Work.recordPosition (w : Work) (sw : Nat) (pos : SwitchPosition) (source : PositionSource) : Work × Bool × Nat × Nat :=
  match Table.look w.site.switches sw with
  | none => (w, false, 0, 0)
  | some p =>
    let w := w.modSite fun s =>
      { s with switches := s.switches.adjust sw fun p =>
          { p with position := pos, violated := if pos = .opened then false else p.violated } }
    let raised := pos == .closed && w.site.tagged p && !p.violated
    let (w, marked) := if raised then w.tagViolation sw p p.position source else (w, 0)
    let caught := if pos = .opened then [] else w.site.permitsBy fun q => q.state == .issuing && q.work.meets p
    (caught.foldl (fun w e => w.revertPermit e.1 .switchNotOpen true) w, raised, marked, caught.length)

/-- Place the owed DANGERs of a crew on the channel of its vehicle, in ascending permit number (R152). -/
def Work.placeOwedDangers (w : Work) (crew : Nat) : Work :=
  match w.site.vehicleRecord crew with
  | some (_, t) =>
    match t.channel with
    | some c =>
      (w.site.permitsBy fun q => q.crew == crew && q.dangerOwed
          && (q.state == .issued || q.state == .releasePending)).foldl (fun w e =>
        if w.site.alertRoom c then
          (w.pushAlert c (.danger e.2.number (e.2.violationSwitch.getD 0) t.id)).modPermit e.1 fun q =>
            { q with dangerOwed := false }
        else w.dropDanger) w
    | none => w
  | none => w

/-- The PMT's reaction to the absence of the terminal with ID `tid` (R145, R152): ISSUING permits recorded to it revert,
and retained records recorded to it lose their item and are freed, each group in ascending permit number (DESIGN CHOICE,
notes/assumptions/10.md). -/
def Work.permitsAtAbsence (w : Work) (tid : Nat) : Work :=
  let w := (w.site.permitsBy fun q => q.state == .issuing && q.recorded == some tid).foldl
    (fun w e => w.revertPermit e.1 .vehicleAbsent false) w
  (w.site.permitsBy fun q => q.retained && q.recorded == some tid).foldl
    (fun w e => (w.cancelOwned (.permit e.1) .permit).freePermit e.1) w

end Sys2Proof.Machine
end

