-- ==== Sys2Proof/Machine/Outcomes.lean ====
section
/-! DEFINITION. The outcomes of urgent items as their owners take them, the withdrawal, failure and miss of an outstanding
frame, the absence of a terminal and the removal of its record (R8, R22, R74 to R76). -/

set_option Elab.async false

namespace Sys2Proof.Machine

/-- The owner of an item that has left the list is told of its acknowledgement (R95, R106, R108, R114, R122, R142,
R145). -/
def Work.itemAcked (w : Work) (it : PulItem) : Work :=
  match it.owner, it.content with
  | .order n, .recall _ _ => w.finishOrder n .returned .recallAcknowledged (some .cancelled) none
  | .terminal i, .recall note _ =>
    ((w.modTerminal i fun t => { t with notes := t.notes.erase note }).placeNoteRecall i).serveNotes
  | .terminal i, .watchStop => (w.dropNotice i).serveNotes
  | .watch u, .watchStart _ _ _ => w.modWatch u fun r => { r with confirmed := true }
  | .permit k, .permit _ _ _ _ _ =>
    w.modPermit k fun p => { p with deadline := some (p.deadline.getD (w.site.count + 180)) }
  | .permit k, .permitResult _ _ _ => w.modPermit k fun p => { p with resultConfirmed := true }
  | _, _ => w

/-- A result carrying ACCEPTED has failed: a live permit in force places it again (R145). -/
def Work.acceptedFailed (w : Work) (k : Nat) : Work :=
  match Table.look w.site.permits k with
  | some p => if p.state = .issued ∨ p.state = .releasePending then w.placeResult k .accepted else w
  | none => w

/-- The owner of an item that has left the list is told of its failure: by retry exhaustion, or by the absence of its
addressee (R106, R108, R114, R122, R142, R145). -/
def Work.itemFailed (w : Work) (it : PulItem) (absent : Bool) : Work :=
  match it.owner, it.content with
  | .order n, .recall _ _ => w.returnUnconfirmed n (if absent then .vehicleAbsent else .recallFailed)
  | .terminal i, .watchStop => w.dropNotice i
  | .watch u, .watchStart _ _ _ => w.watchSetFailed u
  | .permit k, .permit _ _ _ _ _ => w.revertPermit k (if absent then .vehicleAbsent else .deliveryFailed) false
  | .permit k, .permitResult _ _ _ => w.acceptedFailed k
  | _, _ => w

/-- Free the permit record `k` if it is retained: its last result has left the system (R145). -/
def Work.freeRetained (w : Work) (k : Nat) : Work :=
  if (Table.look w.site.permits k).any Permit.retained then w.freePermit k else w

/-- The owner of an item that needs no acknowledgement is told that it was sent (R68, R118, R145). -/
def Work.itemSent (w : Work) (it : PulItem) : Work :=
  match it.owner with
  | .permit k => w.freeRetained k
  | .watch _ | .order _ | .terminal _ => w

/-- The entry of item `id` leaves the URGENT queue of channel `c`, its item leaves the system, and the room is offered to
the list (R68, R74, R75, R83). -/
def Work.leaveQueue (w : Work) (c : Chan) (id : Nat) : Work := ((w.removeEntry c id).dropItem id).fill c

/-- The terminal at index `i` has a terminal-owned item as its outstanding frame. -/
def Site.terminalItemOut (s : Site) (i : Nat) : Bool :=
  match (Table.look s.roster i).bind Terminal.outstanding with
  | some { frame := .item id, .. } => (Table.look s.pul id).any fun it => it.owner.isTerminal
  | _ => false

/-- The outstanding frame `o` of the terminal at index `i` fails to its owner; a cancelled entry tells no owner (R75, R76,
R97). -/
def Work.failFrame (w : Work) (i : Nat) (o : Outstanding) (absent : Bool) : Work :=
  let w := w.endOutstanding i true
  match o.frame with
  | .order n _ => w.orderFailed i n (if absent then .vehicleAbsent else .deliveryFailed)
  | .item id =>
    match Table.look w.site.pul id with
    | some it => (w.leaveQueue o.channel id).itemFailed it absent
    | none => w.leaveQueue o.channel id

/-- Fail the outstanding frame of the terminal at index `i`, if it has one (R22). -/
def Work.failOutstanding (w : Work) (i : Nat) : Work :=
  match (Table.look w.site.roster i).bind Terminal.outstanding with
  | some o => w.failFrame i o true
  | none => w

/-- Withdraw the outstanding frame of the terminal at index `i` as not sent, at a move or renewal (R18, R76, R98);
`capacity` is what the accepted AFFILIATE declares. -/
def Work.withdrawOutstanding (w : Work) (i capacity : Nat) : Work :=
  match (Table.look w.site.roster i).bind Terminal.outstanding with
  | some o =>
    let w := w.endOutstanding i false
    match o.frame with
    | .order n _ => w.orderWithdrawn i n capacity
    | .item id => w.returnItem o.channel id
  | none => w

/-- Queue a TERMINAL_STATE report (R23), with the link quality and last heard of the record as they stand (R3). -/
def Work.reportTerminal (w : Work) (i id : Nat) (state : ReportedState) (channel : Option Chan) (short : Option Nat)
    (cause : TerminalCause) : Work :=
  w.emit (.terminalState
    { id, index := i, state, channel, short, cause
      quality := ((Table.look w.site.roster i).map Terminal.quality).getD 0
      lastHeard := (Table.look w.site.roster i).bind Terminal.lastHeard })

/-- The terminal leaves the pending access set of channel `c` (R78). -/
def Work.leaveAccess (w : Work) (c : Chan) (i : Nat) : Work :=
  w.modChan c fun ch => { ch with accessSet := ch.accessSet.filter (· != i) }

/-- The record's part of an absence (R22). -/
def Terminal.gone (t : Terminal) : Terminal := { t with state := .absent, channel := none, short := none }

/-- The reactions to the absence of the terminal at index `i`, whose record was `t` on channel `c`, in the order of R22's
table. -/
def Work.reactAbsence (w : Work) (i : Nat) (t : Terminal) (c : Chan) (cause : TerminalCause) : Work :=
  let w := (w.failOutstanding i).leaveAccess c i
  let w := (w.returnWaiting c i).fill c
  let w := (w.ordersAtAbsence i t.id).permitsAtAbsence t.id
  w.reportTerminal i t.id .absent none none cause

/-- The terminal at index `i` becomes ABSENT, if it is AFFILIATED (R21, R22). When a terminal-owned item left with it, the
notes of another terminal are served (R108). -/
def Work.absent (w : Work) (i : Nat) (cause : TerminalCause) : Work :=
  match Table.look w.site.roster i with
  | some t =>
    match t.state, t.channel with
    | .affiliated, some c =>
      let out := w.site.terminalItemOut i
      let w := (w.modTerminal i Terminal.gone).reactAbsence i t c cause
      if out then w.serveNotes else w
    | _, _ => w
  | none => w

/-- The frame of a miss within the limit waits in RETRY: an URGENT entry moves to the head of its queue, and an order keeps
its count (R75, R96). -/
def Work.retryFrame (w : Work) (i : Nat) (o : Outstanding) : Work :=
  match o.frame with
  | .order n _ =>
    ((w.modTerminal i fun t =>
        { t with outstanding := some { o with frame := .order n .retry, retry := o.retry + 1 } }).modOrder n fun x =>
        { x with retry := some (o.retry + 1) }).offer o.channel
  | .item id =>
    ((w.modTerminal i fun t => { t with outstanding := some { o with retry := o.retry + 1 } }).modChan o.channel
        fun ch =>
        { ch with
          urgents := ((ch.urgents.filter (·.holds id)).map fun e => { e with status := EntryStatus.retry })
            ++ ch.urgents.filter fun e => !e.holds id }).offer o.channel

/-- The frame of a miss above the limit fails, and its addressee becomes ABSENT with cause RETRY_FAILURE (R75). -/
def Work.exhaustFrame (w : Work) (i : Nat) (o : Outstanding) : Work :=
  let out := w.site.terminalItemOut i
  let w : Work := match o.frame with
    | .order n _ => w.modOrder n fun x => { x with retry := some (o.retry + 1) }
    | .item _ => w
  let w := (w.failFrame i o false).absent i .retryFailure
  if out then w.serveNotes else w

/-- A miss of the outstanding frame of the terminal at index `i` (R75). -/
def Work.miss (w : Work) (i : Nat) : Work :=
  match (Table.look w.site.roster i).bind Terminal.outstanding with
  | some o =>
    let w := w.bumpStat o.channel fun x => { x with acksMissed := x.acksMissed.bump }
    if o.retry + 1 ≤ (w.site.chan o.channel).config.retryLimit then w.retryFrame i o else w.exhaustFrame i o
  | none => w

/-- The acknowledgement of the outstanding frame of the terminal at index `i` (R74). -/
def Work.acknowledge (w : Work) (i free : Nat) : Work :=
  match (Table.look w.site.roster i).bind Terminal.outstanding with
  | some o =>
    let w := (w.setCredit i free).endOutstanding i true
    match o.frame with
    | .order n _ => w.orderAcked n
    | .item id =>
      match Table.look w.site.pul id with
      | some it => (w.leaveQueue o.channel id).itemAcked it
      | none => w.leaveQueue o.channel id
  | none => w

/-- Cancel every item addressed to the terminal at index `i`; a retained permit record whose item is cancelled is freed
(R8, R145). -/
def Work.cancelAddressed (w : Work) (i : Nat) : Work :=
  (Table.pick w.site.pul fun _ it => it.addressee == i).foldl (fun w e =>
    match e.2.owner with
    | .permit k => (w.cancelItem e.1).freeRetained k
    | .watch _ | .order _ | .terminal _ => w.cancelItem e.1) w

/-- Record removal (R8), the same for DROP_TERMINAL and for the guest removal of SET_MODE. The RECALLING orders of the record
end by priority and then submission sequence (DESIGN CHOICE, notes/assumptions/25.md), and the supervision record's ALARM and
WATCH_STATE reports precede the TERMINAL_STATE report with REMOVED (DESIGN CHOICE, notes/assumptions/28.md). -/
def Work.removeTerminal (w : Work) (i : Nat) : Work :=
  match Table.look w.site.roster i with
  | some t =>
    let w := w.absent i .removed
    let w := (w.site.rankedOrders.filter fun e => e.2.state == .recalling && e.2.recipient == some t.id).foldl
      (fun w e => w.finishOrder e.1 .returned .vehicleAbsent (some .cancelledUnconfirmed) (some .none)) w
    let w := ((w.cancelAddressed i).dropNotice i).watchAtRemoval i
    (w.reportTerminal i t.id .removed none none .removed).modSite fun s => { s with roster := s.roster.del i }
  | none => w

end Sys2Proof.Machine
end

