-- ==== Sys2Proof/Machine/Air.lean ====
section
/-! DEFINITION. Outbound frames (rate, FEC, header form, airtime: R50 to R64), the Frame Scheduler's eligibility and choice
(R69 to R72), the Access Arbiter's grant (R79) and the start of a sending (R73). -/

set_option Elab.async false

namespace Sys2Proof.Machine

/-! ### Rate, FEC and airtime (R61 to R64) -/

/-- The lower of two rates. -/
def Rate.least (a b : Rate) : Rate :=
  match a, b with
  | .low, _ => .low
  | _, .low => .low
  | .mid, _ => .mid
  | _, .mid => .mid
  | .high, .high => .high

/-- The rate cap of a link quality; HIGH where there is none (R61). -/
def rateCap (quality : Nat) : Rate := if 10 ≤ quality then .high else if 6 ≤ quality then .mid else .low

/-- Link quality after a good frame with sample `s` (R61). -/
def averaged (quality s : Nat) : Nat := (3 * quality + s + 2) / 4

/-- The rate of a frame on a channel, from the terminal consulted; LOW where there is none (R62). -/
def rateFor (g : ChannelConfig) (t : Option Terminal) : Rate :=
  match t with
  | some t => (g.rate.least t.maxRate).least (rateCap t.quality)
  | none => .low

/-- The FEC setting of a frame at a rate, from the terminal consulted; on where there is none (R63). -/
def fecFor (g : ChannelConfig) (rate : Rate) (t : Option Terminal) : Bool :=
  match t with
  | some t =>
    t.quality < 4 || (match rate with
      | .low | .mid => g.fecLow || t.fecLow
      | .high => g.fecHigh && t.fecHigh)
  | none => true

/-- Bits per second (R62). -/
def bitsPerSecond (rate : Rate) (paired : Bool) : Nat :=
  (match rate with | .low => 4800 | .mid => 9600 | .high => 19200) * (if paired then 2 else 1)

/-- The airtime of a frame in air units (R64). -/
def airtimeOf (long : Bool) (blocks : Nat) (fec : Bool) (rate : Rate) (paired : Bool) : Nat :=
  let p := (if long then 64 else 32) + 96 * blocks
  let c := if fec then (3 * p + 1) / 2 else p
  let bps := bitsPerSecond rate paired
  (200 * (48 + c) + (bps - 1)) / bps

/-! ### Frames before their sending (R53, R67, R68) -/

/-- Whom a frame is addressed to: broadcast, or a terminal ID. `index` is the roster index where the addressee has a
record, `short` the short address it is reached by, `link` the record when it is affiliated on the channel. -/
structure Recipient where
  broadcast : Bool
  id : Nat
  index : Option Nat
  short : Option Nat
  link : Option Terminal
  deriving DecidableEq, Repr

/-- A broadcast. -/
def Recipient.all : Recipient := { broadcast := true, id := 0, index := none, short := none, link := none }

/-- A frame before its grant is settled. -/
structure Draft where
  kind : OutKind
  dest : Recipient
  sequence : Bool
  blocks : Nat
  payload : Payload
  needsAck : Bool
  deriving DecidableEq, Repr

/-- The terminal at index `i` as an addressee, from its record as it stands on channel `c` (R50). -/
def Site.recipientAt (s : Site) (c : Chan) (i : Nat) : Recipient :=
  match Table.look s.roster i with
  | some t =>
    if t.on c then { broadcast := false, id := t.id, index := some i, short := t.short, link := some t }
    else { broadcast := false, id := t.id, index := some i, short := none, link := none }
  | none => { broadcast := false, id := 0, index := some i, short := none, link := none }

/-- A terminal addressed by a recorded ID, whether or not a record holds it (R50, R67). -/
def Site.recipient (s : Site) (c : Chan) (id : Nat) : Recipient :=
  match s.byId id with
  | some (i, _) => s.recipientAt c i
  | none => { broadcast := false, id, index := none, short := none, link := none }

/-- The frame of an ALERT entry (R52, R53, R67). -/
def Site.draftAlert (s : Site) (c : Chan) (a : AlertContent) : Draft :=
  match a with
  | .assist _ _ _ _ _ =>
    { kind := .assist, dest := .all, sequence := false, blocks := 2, payload := .alert a, needsAck := false }
  | .danger _ _ dest =>
    { kind := .danger, dest := s.recipient c dest, sequence := false, blocks := 1, payload := .alert a
      needsAck := false }
  | .alarmSeen dest ack =>
    { kind := .alarmSeen, dest := s.recipient c dest, sequence := ack, blocks := 0, payload := .alert a
      needsAck := false }

/-- The kind of an item's frame (R53). -/
def ItemContent.outKind (i : ItemContent) : OutKind :=
  match i with
  | .recall _ _ => .recall
  | .permit _ _ _ _ _ => .permit
  | .permitResult _ _ _ => .permitResult
  | .watchStart _ _ _ | .watchStop => .watchSet
  | .prompt => .prompt

/-- The kind of an URGENT entry's frame (R53). -/
def UrgentFrame.outKind (f : UrgentFrame) : OutKind :=
  match f with
  | .reply _ => .affilReply
  | .item _ _ content => content.outKind

/-- The blocks of an item's frame (R53). -/
def ItemContent.blocks (i : ItemContent) : Nat :=
  match i with
  | .permit _ _ _ _ (.clearance l) => 1 + (l.length + 3) / 4
  | .permit _ _ _ _ (.switching _ _ _ _) => 2
  | .recall _ _ | .permitResult _ _ _ | .watchStart _ _ _ | .watchStop => 1
  | .prompt => 0

/-- The frame addressed to the terminal at index `i`, affiliated on channel `c`. -/
def Site.draftTo (s : Site) (c : Chan) (i : Nat) (kind : OutKind) (blocks : Nat) (payload : Payload) (needsAck : Bool) :
    Draft :=
  { kind, dest := s.recipientAt c i
    sequence := needsAck && (Table.look s.roster i).any Terminal.sequenceBit
    blocks, payload, needsAck }

/-- The frame of an URGENT entry; an AFFIL_REPLY is always addressed by ID (R50, R53). -/
def Site.draftUrgent (s : Site) (c : Chan) (f : UrgentFrame) : Draft :=
  match f with
  | .reply r =>
    { kind := .affilReply, dest := { s.recipient c r.id with short := none }, sequence := false, blocks := 1
      payload := .reply r, needsAck := false }
  | .item _ i content => s.draftTo c i content.outKind content.blocks (.item content) content.needsAck

/-- The frame of an order to the vehicle at index `i`, the order number in place of the content's first four bytes (R54), its
most significant byte first (DESIGN CHOICE, notes/assumptions/31.md). -/
def Site.draftOrder (s : Site) (c : Chan) (o : Order) (n i : Nat) : Draft :=
  s.draftTo c i .order o.blocks
    (.order ((BitVec.ofNat 32 n).extractLsb' 24 8 :: (BitVec.ofNat 32 n).extractLsb' 16 8
      :: (BitVec.ofNat 32 n).extractLsb' 8 8 :: (BitVec.ofNat 32 n).extractLsb' 0 8 :: o.content.drop 4)) true

/-- An IDLE. -/
def draftIdle : Draft :=
  { kind := .idle, dest := .all, sequence := false, blocks := 0, payload := .empty, needsAck := false }

/-- The frame with its grant settled: header form, rate, FEC and airtime from the state as it stands (R50, R51, R62 to R64).
`grant` tells an explicit grant from an implied one; `target` is the roster index of the explicit grant's target. -/
def Site.formFrame (s : Site) (c : Chan) (d : Draft) (target : Option Nat) : AirFrame :=
  let granted := target.bind (Table.look s.roster)
  let long := if d.dest.broadcast then granted.any (·.short.isNone) else d.dest.short.isNone
  let consulted := if d.kind = .idle then granted else d.dest.link
  let rate := rateFor (s.chan c).config consulted
  let fec := fecFor (s.chan c).config rate consulted
  { header :=
      { kind := d.kind
        addressee := if d.dest.broadcast then 7 else d.dest.short.getD 7
        grant := if d.needsAck then d.dest.short.getD 7 else (granted.bind Terminal.short).getD 7
        sequence := d.sequence, fec, rate, blocks := d.blocks, channel := c
        idField := if long then
            (if d.dest.broadcast then granted.map fun t => (.grant, t.id) else some (.addressee, d.dest.id))
          else none }
    payload := d.payload
    grant := if d.needsAck then .implied else if target.isSome then .explicit else .none
    target := if d.needsAck then d.dest.index else target
    acked := if d.needsAck then d.dest.index else none
    airtime := airtimeOf long d.blocks fec rate (s.paired c) }

/-- The airtime of a head as it would be sent at this moment (R71); its explicit grant does not change it (R51). -/
def Site.airtimeNow (s : Site) (c : Chan) (d : Draft) : Nat := (s.formFrame c d none).airtime

/-! ### Eligibility (R69, R70) -/

/-- The outstanding frame of the terminal at index `i` is a cancelled frame in RETRY (R69, R77). -/
def Site.cancelledRetry (s : Site) (i : Nat) : Bool :=
  match (Table.look s.roster i).bind Terminal.outstanding with
  | some { frame := .item id, channel := c, .. } =>
    (s.entryOf c id).any fun e => e.cancelled && e.status == EntryStatus.retry
  | _ => false

/-- An URGENT entry is eligible (R69). -/
def Site.urgentEligible (s : Site) (c : Chan) (e : UrgentEntry) : Bool :=
  match e.status, e.frame with
  | .sending, _ | .awaitingAck, _ => false
  | .waiting, .reply _ => true
  | .retry, .reply _ => false
  | .retry, .item _ i _ => s.affiliatedOn i c
  | .waiting, .item _ i content =>
    s.affiliatedOn i c
      && (if content.needsAck then ((Table.look s.roster i).bind Terminal.outstanding).isNone
          else !s.cancelledRetry i)

/-- The eligible head of the URGENT class (R69). -/
def Site.urgentHead (s : Site) (c : Chan) : Option UrgentEntry := (s.chan c).urgents.find? (s.urgentEligible c)

/-- No ORDER frame is sent on any channel (R70, R159). -/
def Site.routineBarred (s : Site) : Bool := s.mode == .alarmsOnly || s.supply == .critical

/-- The terminal whose outstanding frame is the ORDER frame of order `n`, missed and waiting in RETRY on channel `c`. -/
def Site.retryHolder (s : Site) (c : Chan) (n : Nat) : Option Nat :=
  (Table.seek s.roster fun _ t =>
    t.outstanding.any fun o => o.frame == .order n .retry && o.channel == c).map Prod.fst

/-- The channel limit allows an order (R70). -/
def Channel.allows (ch : Channel) (blocks : Nat) : Bool :=
  ch.config.blockLimit == 0 || decide (ch.inFlightBlocks + blocks ≤ ch.config.blockLimit)
    || (decide (ch.config.blockLimit < blocks) && ch.inFlightBlocks == 0)

/-- A QUEUED order may have its first send on channel `c` now; answers the vehicle's index (R70). -/
def Site.newSend (s : Site) (c : Chan) (o : Order) : Option Nat :=
  match s.vehicleRecord o.crew with
  | some (i, t) =>
    if o.state = .queued ∧ s.alarmsOf o.crew = 0 ∧ t.on c ∧ t.outstanding.isNone ∧ o.blocks ≤ t.credit
        ∧ (s.chan c).allows o.blocks then some i
    else none
  | none => none

/-- The eligible head of the ROUTINE class: the order, its number and the vehicle's index (R70). -/
def Site.routineHead (s : Site) (c : Chan) : Option (Nat × Order × Nat) :=
  if s.routineBarred then none
  else
    match s.rankedOrders.findSome? fun e =>
        if s.alarmsOf e.2.crew = 0 then (s.retryHolder c e.1).map fun i => (e.1, e.2, i) else none with
    | some x => some x
    | none => s.rankedOrders.findSome? fun e => (s.newSend c e.2).map fun i => (e.1, e.2, i)

/-! ### The choice between URGENT and ROUTINE (R71, R72) -/

/-- The scheduler's account: the turn, the quantum-added mark and the two deficits. -/
structure Account where
  turn : Turn
  added : Bool
  urgent : Nat
  routine : Nat
  deriving DecidableEq, Repr

/-- The other class. -/
def Turn.other (t : Turn) : Turn :=
  match t with
  | .urgent => .routine
  | .routine => .urgent

/-- The deficit of a class. -/
def Account.deficit (a : Account) (t : Turn) : Nat :=
  match t with
  | .urgent => a.urgent
  | .routine => a.routine

/-- Set the deficit of a class. -/
def Account.setDeficit (a : Account) (t : Turn) (v : Nat) : Account :=
  match t with
  | .urgent => { a with urgent := v }
  | .routine => { a with routine := v }

/-- The figures of a class: its value for URGENT or for ROUTINE. -/
def Turn.of (t : Turn) (urgent routine : Nat) : Nat :=
  match t with
  | .urgent => urgent
  | .routine => routine

/-- The turn class gains its quantum, at most to 255, once in its turn (R71). -/
def Account.grow (a : Account) (quantum : Nat) : Account :=
  if a.added then a else { a.setDeficit a.turn (min 255 (a.deficit a.turn + quantum)) with added := true }

/-- One pass of case 3 of R71 for the turn class: the quantum is added once, and the head is sent when the deficit covers
its airtime; otherwise the turn passes on. -/
def Account.pass (a : Account) (quantum airtime : Nat) : Bool × Account :=
  let a := a.grow quantum
  if airtime ≤ a.deficit a.turn then (true, a.setDeficit a.turn (a.deficit a.turn - airtime))
  else (false, { a with turn := a.turn.other, added := false })

/-- Case 3 of R71, applied again until a class affords its head. R71 bounds the passes at 31 additions of each class; the
fuel covers them. -/
def Account.balance (uq rq ua ra : Nat) : Nat → Account → Account
  | 0, a => a
  | n + 1, a =>
    match a.pass (a.turn.of uq rq) (a.turn.of ua ra) with
    | (true, a) => a
    | (false, a) => Account.balance uq rq ua ra n a

/-- The account of a channel. -/
def Channel.account (ch : Channel) : Account :=
  { turn := ch.turn, added := ch.quantumAdded, urgent := ch.urgentDeficit, routine := ch.routineDeficit }

/-- Store the account. -/
def Channel.setAccount (ch : Channel) (a : Account) : Channel :=
  { ch with turn := a.turn, quantumAdded := a.added, urgentDeficit := a.urgent, routineDeficit := a.routine }

/-- The quantum of a class (R72); the routine weight is 1 at RESERVE (R44). -/
def Site.quantum (s : Site) (c : Chan) (t : Turn) : Nat :=
  match t with
  | .urgent => 8 * (s.chan c).config.urgentWeight
  | .routine => 8 * (if s.supply = .reserve then 1 else (s.chan c).config.routineWeight)

/-- What the FSC sends. -/
inductive Pick where
  | alert (e : AlertEntry)
  | urgent (e : UrgentEntry)
  | routine (number : Nat) (o : Order) (index : Nat)
  | idle
  | nothing
  deriving DecidableEq, Repr

/-- The FSC's choice, with the account it leaves (R71). -/
def Site.choose (s : Site) (c : Chan) : Pick × Account :=
  let ch := s.chan c
  let a := ch.account
  match ch.alerts with
  | e :: _ => (.alert e, a)
  | [] =>
    match s.urgentHead c, s.routineHead c with
    | some e, none => (.urgent e, { turn := .routine, added := false, urgent := 0, routine := 0 })
    | none, some (n, o, i) => (.routine n o i, { turn := .urgent, added := false, urgent := 0, routine := 0 })
    | some e, some (n, o, i) =>
      let a := Account.balance (s.quantum c .urgent) (s.quantum c .routine)
        (s.airtimeNow c (s.draftUrgent c e.frame)) (s.airtimeNow c (s.draftOrder c o n i)) 80 a
      (match a.turn with | .urgent => .urgent e | .routine => .routine n o i, a)
    | none, none => (if ch.beaconDue || !ch.accessSet.isEmpty then .idle else .nothing, a)

/-! ### The grant (R51, R79) -/

/-- A roster index lies after a pointer; START lies before index 0 (R78). -/
def afterPointer (p : Option Nat) (i : Nat) : Bool := p.all fun x => x < i

/-- The ACA's choice among the offered members: the member granted, the HIGH pointer and the LOW pointer it leaves (R79). -/
def Site.arbitrate (s : Site) (high low : Option Nat) (offered : List Nat) : Option (Nat × Option Nat × Option Nat) :=
  let highs := offered.filter fun i => s.tier i == .high
  let lows := offered.filter fun i => s.tier i == .low
  match (highs.filter (afterPointer high)).min? with
  | some i => some (i, some i, low)
  | none =>
    match (lows.filter (afterPointer low)).min?, lows.min? with
    | some i, _ => some (i, none, some i)
    | none, some i => some (i, none, some i)
    | none, none => highs.min?.map fun i => (i, some i, low)

/-- The members of the pending access set that a frame can carry as its grant (R51, R79). -/
def Site.carried (s : Site) (c : Chan) (d : Draft) : List Nat :=
  if d.dest.broadcast then (s.chan c).accessSet
  else (s.chan c).accessSet.filter fun i => ((Table.look s.roster i).bind Terminal.short).isSome

/-- The grant is settled (step 1 of R73): an explicit grant leaves the set at once and moves the pointers (R80). A beacon
carries none, and a frame needing acknowledgement carries the implied one. -/
def Work.settleGrant (w : Work) (c : Chan) (d : Draft) (beacon : Bool) : Work × Option Nat :=
  if d.needsAck || beacon then (w, none)
  else
    match w.site.arbitrate (w.site.chan c).highPointer (w.site.chan c).lowPointer (w.site.carried c d) with
    | some (i, high, low) =>
      ((w.leaveAccess c i).modChan c fun ch => { ch with highPointer := high, lowPointer := low }, some i)
    | none => (w, none)

/-! ### The start of a sending (R73) -/

/-- The frame is handed to the transceivers of the logical channel: the activity becomes SENDING, the beacon due mark is
cleared and the beacon timer restarts (R39, R60, step 6 of R73). -/
def Work.transmit (w : Work) (c : Chan) (f : AirFrame) : Work :=
  (w.modChans (w.site.members c) fun ch => { ch with activity := .sending, memberDone := false }).modChan c fun ch =>
    { ch with onAir := some f, window := none, beaconDue := false, beaconTimer := some (w.site.count + 5) }

/-- The retry count with which item `id` is sent: a resend keeps its count, and a first send has 0 (step 4 of R73). -/
def Terminal.retryOf (t : Terminal) (id : Nat) : Nat :=
  match t.outstanding with
  | some o => if o.frame = .item id then o.retry else 0
  | none => 0

/-- The frame of an URGENT entry that needs acknowledgement becomes its addressee's outstanding frame (step 4 of R73). -/
def Work.setOutstandingItem (w : Work) (c : Chan) (i id : Nat) : Work :=
  w.modTerminal i fun t => { t with outstanding := some { frame := .item id, channel := c, retry := t.retryOf id } }

/-- The outstanding frame of an order, and the ODE's part of its first send (steps 4 and 5 of R73). -/
def Work.setOutstandingOrder (w : Work) (c : Chan) (o : Order) (n i : Nat) : Work :=
  if o.state = .queued then
    (w.modTerminal i fun t =>
      { t with outstanding := some { frame := .order n .sending, channel := c, retry := 0 } }).orderSent n c i
  else
    w.modTerminal i fun t =>
      { t with outstanding := t.outstanding.map fun x => { x with frame := .order n .sending } }

/-- Mark the head ALERT entry as being sent (R67). -/
def markHead : List AlertEntry → List AlertEntry
  | [] => []
  | e :: t => { e with sending := true } :: t

/-- The eligible entry that is sent goes to SENDING. An entry is told by what it holds. -/
def markSending (f : UrgentFrame) : List UrgentEntry → List UrgentEntry
  | [] => []
  | e :: t =>
    if e.frame = f ∧ (e.status = EntryStatus.waiting ∨ e.status = EntryStatus.retry) then
      { e with status := EntryStatus.sending } :: t
    else e :: markSending f t

/-- Step 3 of R73 onward for an URGENT entry. -/
def Work.beginUrgent (w : Work) (c : Chan) (e : UrgentEntry) : Work :=
  let w := w.modChan c fun ch => { ch with urgents := markSending e.frame ch.urgents }
  match e.frame with
  | .item id i content => if content.needsAck then w.setOutstandingItem c i id else w
  | .reply _ => w

/-- Start the sending of what was picked (R73). -/
def Work.startSending (w : Work) (c : Chan) (p : Pick) : Work :=
  match p with
  | .alert e =>
    let d := w.site.draftAlert c e.content
    let (w, target) := w.settleGrant c d false
    let f := w.site.formFrame c d target
    (w.modChan c fun ch => { ch with alerts := markHead ch.alerts }).transmit c f
  | .urgent e =>
    let d := w.site.draftUrgent c e.frame
    let (w, target) := w.settleGrant c d false
    let f := w.site.formFrame c d target
    (w.beginUrgent c e).transmit c f
  | .routine n o i =>
    let f := w.site.formFrame c (w.site.draftOrder c o n i) none
    (w.setOutstandingOrder c o n i).transmit c f
  | .idle =>
    let (w, target) := w.settleGrant c draftIdle (w.site.chan c).beaconDue
    let f := w.site.formFrame c draftIdle target
    w.transmit c f
  | .nothing => w

/-- One choice of the FSC of channel `c`, and the sending it starts, when the channel is UP and its transmitter IDLE (R66,
R71). -/
def Work.serveChannel (w : Work) (c : Chan) : Work :=
  if (w.site.chan c).state = .up ∧ (w.site.chan c).activity = .idle ∧ !w.site.secondary c then
    let (p, a) := w.site.choose c
    (w.modChan c fun ch => ch.setAccount a).startSending c p
  else w

/-- The choices offered while the command was taken, in ascending channel (R66). -/
def Work.serve (w : Work) : Work :=
  ([0, 1, 2, 3] : List Chan).foldl (fun x c =>
    if w.offers.any fun o => w.site.logical o == c then x.serveChannel c else x) w

end Sys2Proof.Machine
end

