-- ==== Sys2Proof/Machine/ChannelOps.lean ====
section
/-! DEFINITION. The Channel Units' operations: reports, the departure from UP, abandonment, training, the quiet state,
monitor trips and the completion of draining (Chapter 2). On a paired pair `c` is the logical channel, its primary. -/

set_option Elab.async false

namespace Sys2Proof.Machine

/-- Queue the CHANNEL_STATE report of channel `c` as it stands (R36). -/
def Work.reportChannel (w : Work) (c : Chan) (cause : ChannelCause) : Work :=
  w.emit (.channelState
    { channel := c, state := (w.site.chan c).state, previous := (w.site.chan c).previous
      lampLit := (w.site.chan c).lampLit, cause })

/-- Report every member of the logical channel of `c`: `c` itself with the cause, its partner with PAIR_PARTNER (R41). The
primary reports first, whichever member caused the transition (DESIGN CHOICE, notes/assumptions/10.md). -/
def Work.reportPair (w : Work) (c : Chan) (cause : ChannelCause) : Work :=
  (w.site.members c).foldl (fun w m => w.reportChannel m (if m = c then cause else .pairPartner)) w

/-- Report every member of the logical channel of `c` with one cause, the primary first (DESIGN CHOICE,
notes/assumptions/10.md). -/
def Work.reportMembers (w : Work) (c : Chan) (cause : ChannelCause) : Work :=
  (w.site.members c).foldl (fun w m => w.reportChannel m cause) w

/-- Go to a state; the state left becomes the previous state. -/
def Channel.enter (ch : Channel) (st : ChannelState) : Channel := { ch with previous := ch.state, state := st }

/-- At an entry to DOWN the lamp becomes LIT while the lever is OPEN, and otherwise keeps its value (R33). -/
def Channel.lampAtDown (ch : Channel) : Channel := { ch with lampLit := ch.lampLit || ch.leverOpen }

/-- The item an URGENT entry holds. -/
def UrgentEntry.itemId (e : UrgentEntry) : Option Nat :=
  match e.frame with
  | .item id _ _ => some id
  | .reply _ => none

/-- Withdraw the queues of channel `c` (step 3 of R35): an urgent item returns to the list, an AFFIL_REPLY and every ALERT
frame are discarded. -/
def Work.withdrawQueues (w : Work) (c : Chan) : Work :=
  (((w.site.chan c).urgents.filterMap UrgentEntry.itemId).foldl (fun w id =>
    w.modSite fun s => { s with pul := s.pul.adjust id fun it => { it with location := none } }) w).modChan c fun ch =>
    { ch with alerts := [], urgents := [] }

/-- The scheduler record and the pending access set after a departure or a reset (R35, R65, R78). -/
def Channel.clearScheduler (ch : Channel) : Channel :=
  { ch with urgentDeficit := 0, routineDeficit := 0, turn := .routine, quantumAdded := false, accessSet := [] }

/-- Both runs become 0. -/
def Channel.clearRuns (ch : Channel) : Channel := { ch with sendFailureRun := 0, badWindowRun := 0 }

/-- The departure of channel `c` from UP (R35), each member going to the state `goes` gives it. The report of step 6 is the
caller's, which knows the cause. -/
def Work.departUp (w : Work) (c : Chan) (goes : Chan → ChannelState) : Work :=
  let ms := w.site.members c
  let w := ms.foldl (fun w m => w.modChan m fun ch =>
    { ch.enter (goes m) with beaconTimer := none, beaconDue := false }) w
  let w := (w.site.terminalsOn c).foldl (fun w i => w.absent i .channelDown) w
  ((w.withdrawQueues c).modChan c Channel.clearScheduler).modChans ms Channel.clearRuns

/-- The transmitter of the logical channel of `c` falls IDLE, with no frame on the air and no window. -/
def Work.silence (w : Work) (c : Chan) : Work :=
  w.modChans (w.site.members c) fun ch =>
    { ch with activity := .idle, memberDone := false, onAir := none, window := none }

/-- The addressee whose outstanding frame is on the air or in its window on channel `c`. -/
def Channel.awaited (ch : Channel) : Option Nat :=
  match ch.onAir with
  | some f => f.acked
  | none => ch.window.bind Window.acked

/-- Abandon the frame on the air, with the miss of R29 when it is still its addressee's outstanding frame. -/
def Work.abandon (w : Work) (c : Chan) : Work :=
  match (w.site.chan c).awaited with
  | some i => (w.silence c).miss i
  | none => w.silence c

/-- The members concerned enter TRAINING (R34), with their reports. -/
def Work.beginTraining (w : Work) (c : Chan) : Work :=
  (w.modChans (w.site.members c) fun ch =>
    { ch.enter .training with
      lampLit := false, trainingTimer := some (w.site.count + 5), ready := false, quietTimer := none
      pendingBringUp := false }).reportMembers c .bringUp

/-- Entry to UP (R37): the timers and counts, START for both pointers (R78), and the beacon due, which offers a choice. -/
def Work.enterUp (w : Work) (c : Chan) : Work :=
  (((w.modChans (w.site.members c) fun ch =>
    { ch.enter .up with
      trainingTimer := none, sendFailureRun := 0, badWindowRun := 0, inFlightBlocks := 0
      activity := .idle }).modChan c fun ch =>
    { ch with beaconDue := true, highPointer := none, lowPointer := none }).reportMembers c .ready).offer c

/-- From UP or TRAINING, channel `c` and its partner go to QUIET (R38, R45): a frame on the air is abandoned, the departure
takes place, and the quiet timer starts. -/
def Work.goQuiet (w : Work) (c : Chan) (cause : ChannelCause) : Work :=
  let w : Work := if (w.site.chan c).state = .up then (w.abandon c).departUp c fun _ => .quiet
    else w.modChans (w.site.members c) fun ch => ch.enter .quiet
  (w.modChans (w.site.members c) fun ch =>
    { ch with
      trainingTimer := none, quietTimer := some (w.site.count + 2), pendingBringUp := false }).reportPair c cause

/-- A monitor trip of module `c` (R42): both members go to FAULT, and the departure from UP takes place. -/
def Work.trip (w : Work) (c : Chan) (cause : ChannelCause) : Work :=
  ((w.silence c).departUp (w.site.logical c) fun _ => .fault).reportPair c cause

/-- Draining completes (R32): DOWN with the lamp LIT. -/
def Work.drained (w : Work) (c : Chan) : Work :=
  ((w.silence c).modChans (w.site.members c) fun ch =>
    { ch.enter .down with lampLit := true }).reportMembers c .drained

/-- Clear the pending bring-up of both members. -/
def Work.clearPending (w : Work) (c : Chan) : Work :=
  w.modChans (w.site.members c) fun ch => { ch with pendingBringUp := false }

end Sys2Proof.Machine
end

