-- ==== Sys2Proof/Machine/Request.lean ====
section
/-! DEFINITION. How every command runs: the judgement of a request at its arrival (R130, R166), and the closing of a step, in
which the offered choices are made, the reports are queued and the outgoing line chooses (R66, R167, R169). -/

set_option Elab.async false

namespace Sys2Proof.Machine

/-- Close a step: the choices of R66, then the reports in the order offered, each of them a choice of a free outgoing line
(R167), then the line once more for what else the step has done to the link `l`. -/
def State.conclude (s : State) (l : Link) (w : Work) : State :=
  { s with site := w.serve.site, link := (l.offerAll w.serve.site w.serve.out).chooseFrame }

/-- An event of the part other than a request. A part without power does nothing. -/
def event (f : Work → Work) (s : State) : Host.Outcome State Fault Refusal :=
  if s.powered then .next (s.conclude s.link (f (Work.start s.site))) else .next s

/-- The site at a request arrival: the host-silence timer restarts and the site is ATTENDED (R130). -/
def Site.arrived (s : Site) : Site :=
  { s with
    lastArrival := some s.count, attended := true
    silence := if s.silenceLimit = 0 then none else some (s.count + s.silenceLimit) }

/-- The link at a request arrival: the receiver hunts again, and an end of UNATTENDED is reported (R130, R165). -/
def Link.arrived (l : Link) (s : Site) : Link :=
  let l := { l with receiver := .hunting }
  if s.attended then l else Link.offerOne s l (.attendance true s.silenceLimit (some s.count))

/-- Raise the bad tag counter. -/
def LinkCounters.addBadTag (c : LinkCounters) : LinkCounters := { c with badTag := c.badTag.bump }

/-- Raise the overflow counter. -/
def LinkCounters.addOverflow (c : LinkCounters) : LinkCounters := { c with overflow := c.overflow.bump }

/-- The request is taken, with a reply body. -/
def Work.taken (w : Work) (b : ReplyBody) : Taking := { work := w, wait := .ready .ok b, clearLost := false }

/-- The request is refused with a status: nothing changes. -/
def Work.refused (w : Work) (st : Status) : Taking := { work := w, wait := .ready st .empty, clearLost := false }

/-- A place for a request's reply, which is ready unless it waits for a write of the store (R166). -/
def Link.hold (l : Link) (h : Hdr) (kind : Byte) (t : Taking) : Link :=
  { l with
    places := l.places ++ [{ tag := h.tag, kind, wait := t.wait }]
    reportsLost := l.reportsLost && !t.clearLost }

/-- The work of a request at its arrival, with the effect on host silence and attendance done (R130). -/
def State.begun (s : State) : Work := Work.start s.site.arrived

/-- The state after a request with header `h` and code `kind` that its owner has taken or refused: every effect has occurred,
its reports among them, as the reply becomes ready, and a free line then chooses again (R166, R167). -/
def State.answered (s : State) (h : Hdr) (kind : Byte) (t : Taking) : State :=
  let u := s.conclude (s.link.arrived s.site) t.work
  { u with link := (u.link.hold h kind t).chooseFrame }

/-- A frame discarded by the receiver or by the judgement of R166, with the link counters `c` as raised (R165). -/
def State.discarded (s : State) (l : Link) (c : LinkCounters) (site : Site) : State :=
  s.conclude (l.discarded site c) (Work.start site)

/-- The judgement of a received frame (R166, R177): discarded while a RESTART is pending, then the tag, the place, the length
and the owner. -/
def judge (h : Hdr) (kind : Byte) (fits : Bool) (act : Link → Work → Taking) (s : State) : State :=
  let l := s.link.arrived s.site
  if l.restartPending then s.conclude l s.begun
  else if h.tag = 0 then s.discarded l l.counters.addBadTag s.site.arrived
  else if 4 ≤ l.places.length then s.discarded l l.counters.addOverflow s.site.arrived
  else s.answered h kind (if fits then act l s.begun else s.begun.refused .badLength)

/-- A request frame whose check passed, with the code of its kind, whether its length fits, and the owner's taking of it. -/
def request (h : Hdr) (kind : Byte) (fits : Bool) (act : Link → Work → Taking) (s : State) :
    Host.Outcome State Fault Refusal :=
  if s.powered then .next (judge h kind fits act s) else .next s

/-- The length field equals the length a kind requires. -/
def lengthIs (h : Hdr) (n : Nat) : Bool := h.len.toNat == n

end Sys2Proof.Machine
end

