-- ==== Sys2Proof/Machine/Site.lean ====
section
/-! DEFINITION. Power, the site requests, the settings store, the site timebase and the control link's own events
(Chapter 9, R162). -/

set_option Elab.async false

namespace Sys2Proof.Machine

/-! ### Power-on and restart (R176, R177) -/

/-- A channel after power-on or RESTART, from its lines as read and its configuration (R26). -/
def Channel.booted (ch : Channel) (g : ChannelConfig) : Channel :=
  { Channel.blank with
    present := ch.present, leverOpen := ch.leverOpen, lampLit := ch.present && ch.leverOpen, config := g
    state := if ch.present then .down else .absent, previous := if ch.present then .down else .absent }

/-- The settings the store yields: its image, or the defaults when its check fails (R176). -/
def Site.loaded (s : Site) : Settings := s.image.getD .default

/-- The site after power-on or RESTART: settings loaded, lines as read, every table empty, both counts 0 (R177). -/
def Site.booted (s : Site) : Site :=
  { Site.blank with
    firstSupply := s.firstSupply, secondSupply := s.secondSupply, keyEnable := s.keyEnable
    channels := #v[(s.chan 0).booted (s.loaded.configs.get 0), (s.chan 1).booted (s.loaded.configs.get 1),
      (s.chan 2).booted (s.loaded.configs.get 2), (s.chan 3).booted (s.loaded.configs.get 3)]
    mode := s.loaded.mode, siteId := s.loaded.siteId, escalation := s.loaded.escalation
    silenceLimit := s.loaded.silenceLimit, mask := s.loaded.mask
    silence := if s.loaded.silenceLimit = 0 then none else some s.loaded.silenceLimit
    image := s.image, copy := s.loaded, defaulted := s.image.isNone, freeUsed := s.freeUsed }

/-- The START report (R177). -/
def Site.startReport (s : Site) (powerOn : Bool) (baud : Nat) : StartReport :=
  { powerOn, siteId := s.siteId, baud, defaulted := s.defaulted, mode := s.mode, supply := s.supply
    keyEnable := s.keyEnable, present := s.channels.map Channel.present, leverOpen := s.channels.map Channel.leverOpen }

/-- The part after power-on or the restart of a RESTART, with the straps as read (R164, R177). The line is free, so the
START report is chosen at once (R167). -/
def State.boot (s : State) (site : Site) (powerOn firstTied secondTied : Bool) : State :=
  let baud := baudOf firstTied secondTied
  let site := site.booted
  { s with
    powered := true, site
    link := Link.offerOne site
      { baud, receiver := .hunting, counters := .zero, places := [], outgoing := none, reports := [], reportsLost := false }
      (.start (site.startReport powerOn baud)) }

/-- What a loss of power does to the store: a write under way is ended, and its image fails its check (R162, R175). -/
def Site.cut (s : Site) : Site := { s with image := if s.write.isSome then none else s.image }

/-- Channel `ch` with its lines as the part reads them. -/
def Channel.withLines (ch : Channel) (present leverOpen : Bool) : Channel := { ch with present, leverOpen }

/-- The site with its lines as the part reads them at power-on. -/
def Site.withLines (s : Site) (l : Lines) : Site :=
  { s with
    firstSupply := l.firstSupply, secondSupply := l.secondSupply, keyEnable := l.keyEnable
    channels := #v[(s.chan 0).withLines (l.present.get 0) (l.leverOpen.get 0),
      (s.chan 1).withLines (l.present.get 1) (l.leverOpen.get 1),
      (s.chan 2).withLines (l.present.get 2) (l.leverOpen.get 2),
      (s.chan 3).withLines (l.present.get 3) (l.leverOpen.get 3)] }

/-- POWER_ON (R177). Power that was on is lost first (R175). -/
def execPowerOn (lines : Lines) (s : State) : Host.Outcome State Fault Refusal :=
  .next (s.boot ((if s.powered then s.site.cut else s.site).withLines lines) true lines.firstStrapTied
    lines.secondStrapTied)

/-- POWER_LOSS (R175): the part stops, and a write under way is ended. -/
def execPowerLoss (s : State) : Host.Outcome State Fault Refusal :=
  if s.powered then .next { s with powered := false, site := s.site.cut } else .next s

/-! ### Site requests (R172 to R175, R177) -/

/-- One channel's part of GET_STATUS (R174). -/
def Site.statusOf (s : Site) (c : Chan) : StatusChannel :=
  { state := (s.chan c).state, lampLit := (s.chan c).lampLit, present := (s.chan c).present
    leverOpen := (s.chan c).leverOpen, paired := s.paired c }

/-- The reply body of GET_STATUS (R174). -/
def Site.status (s : Site) (l : Link) : StatusBody :=
  { siteId := s.siteId, count := s.count, label := s.label, mode := s.mode, supply := s.supply, keyEnable := s.keyEnable
    channels := #v[s.statusOf 0, s.statusOf 1, s.statusOf 2, s.statusOf 3]
    terminals := s.roster.length, guests := Table.tally s.roster fun _ t => t.origin == .guest
    crews := s.crews.length, orders := s.orders.length, blocks := s.blocksUsed, watches := s.watches.length
    livePermits := Table.tally s.permits fun _ p => p.live
    retainedPermits := Table.tally s.permits fun _ p => p.retained
    owedItems := s.pul.length, attended := s.attended, reportsLost := l.reportsLost, reportsQueued := l.reports.length
    routineQueued := routineCount l.reports, mask := s.mask, defaulted := s.defaulted, writing := s.write.isSome
    writePending := s.modePending, assistDrops := s.assistDrops, link := l.counters }

/-- GET_STATUS (R174): the reports-lost mark is cleared after the reply's values are taken. -/
def execGetStatus (h : Hdr) (s : State) : Host.Outcome State Fault Refusal :=
  request h 0x01 (lengthIs h 0) (fun l w => { w.taken (.status (w.site.status l)) with clearLost := true }) s

/-- SET_SITE takes its four settings together; the host-silence timer follows the limit (R130, R173). -/
def Site.setSettings (s : Site) (siteId escalation silence : Nat) (mask : ReportMask) : Site :=
  { s with
    siteId, escalation, silenceLimit := silence, mask
    silence := if silence = 0 then none else some (s.count + silence) }

/-- SET_SITE (R173). -/
def execSetSite (h : Hdr) (siteId escalation silence : Half) (mask : Byte) (s : State) :
    Host.Outcome State Fault Refusal :=
  request h 0x02 (lengthIs h 7) (fun _ w =>
    if 30 ≤ escalation.toNat ∧ escalation.toNat ≤ 300
        ∧ (silence.toNat = 0 ∨ 30 ≤ silence.toNat ∧ silence.toNat ≤ 900) then
      (w.modSite fun s => s.setSettings siteId.toNat escalation.toNat silence.toNat (maskOf mask)).taken .empty
    else w.refused .badValue) s

/-- SET_CLOCK (R172): the label takes the value; the monotonic count is left as it was. -/
def execSetClock (h : Hdr) (label : Word) (s : State) : Host.Outcome State Fault Refusal :=
  request h 0x03 (lengthIs h 4) (fun _ w => (w.modSite fun s => { s with label }).taken .empty) s

/-- The current values of every field of the image (R175). -/
def Site.current (s : Site) : Settings :=
  { siteId := s.siteId, mode := s.mode
    configs := #v[(s.chan 0).config, (s.chan 1).config, (s.chan 2).config, (s.chan 3).config]
    escalation := s.escalation, silenceLimit := s.silenceLimit, mask := s.mask }

/-- STORE_SETTINGS (R175): the write begins, and its reply waits for the completion. -/
def execStoreSettings (h : Hdr) (s : State) : Host.Outcome State Fault Refusal :=
  request h 0x04 (lengthIs h 0) (fun _ w =>
    if w.site.write.isSome then w.refused .busy
    else
      { work := w.modSite fun s => { s with write := some { modeOnly := false, image := s.current }, copy := s.current }
        wait := .storeWrite, clearLost := false }) s

/-- RESTART (R177): always taken; the restart begins when its reply has been sent. -/
def execRestart (h : Hdr) (s : State) : Host.Outcome State Fault Refusal :=
  request h 0x05 (lengthIs h 0) (fun _ w => w.taken .empty) s

/-! ### Writes of the store (R162, R175) -/

/-- A mode write begins: the copy's other fields with the mode in force (R162). -/
def Site.beginModeWrite (s : Site) : Site :=
  { s with
    write := some { modeOnly := true, image := { s.copy with mode := s.mode } }
    copy := { s.copy with mode := s.mode }, modePending := false }

/-- A write has completed: its image stands in the store, and a pending mode write begins (R162, R175). -/
def Site.writeDone (s : Site) (w : StoreWrite) : Site :=
  let s := { s with image := some w.image, write := none, defaulted := s.defaulted && w.modeOnly }
  if s.modePending then s.beginModeWrite else s

/-- STORE_WRITE_COMPLETION (R175): the reply of STORE_SETTINGS becomes ready. -/
def execStoreWriteCompletion (s : State) : Host.Outcome State Fault Refusal :=
  match s.site.write with
  | some w =>
    if s.powered ∧ !w.modeOnly then
      .next (s.conclude
        { s.link with places := (s.link.places.map Place.settingsStored).map Place.modeBegun }
        (Work.start (s.site.writeDone w)))
    else .next s
  | none => .next s

/-- MODE_WRITE_COMPLETION (R162): the replies of the write become ready with the mode now stored. -/
def execModeWriteCompletion (s : State) : Host.Outcome State Fault Refusal :=
  match s.site.write with
  | some w =>
    if s.powered ∧ w.modeOnly then
      .next (s.conclude
        { s.link with places := (s.link.places.map (Place.modeStored w.image.mode)).map Place.modeBegun }
        (Work.start (s.site.writeDone w)))
    else .next s
  | none => .next s

/-! ### Time (R130, R172) -/

/-- The monotonic count a second later. R172 lets it run to 0xFFFFFFFF and states no successor: that one is a free value
(notes/assumptions/6.md). -/
def Site.tick (s : Site) : Site :=
  if s.count < 0xFFFFFFFF then { s with count := s.count + 1, label := s.label + 1 }
  else
    { s with
      count := Config.countAfterEnd s.freeUsed % 0x100000000, label := s.label + 1, freeUsed := s.freeUsed + 1 }

/-- SECOND_TICK (R172). -/
def execSecondTick (s : State) : Host.Outcome State Fault Refusal :=
  event (fun w => w.modSite Site.tick) s

/-- A timer that is running has reached its set time (R172). -/
def due (t : Option Nat) (count : Nat) : Bool := t.any fun e => decide (e ≤ count)

/-- HOST_SILENCE_EXPIRY (R130). -/
def execHostSilenceExpiry (s : State) : Host.Outcome State Fault Refusal :=
  event (fun w =>
    if due w.site.silence w.site.count then
      (w.modSite fun s => { s with silence := none, attended := false }).emit
        (.attendance false w.site.silenceLimit w.site.lastArrival)
    else w) s

/-! ### The control link's own events (R165 to R167, R177) -/

/-- A frame discarded by the receiver: not a request arrival (R165). -/
def discard (c : LinkCounters → LinkCounters) (s : State) : Host.Outcome State Fault Refusal :=
  if s.powered then .next (s.conclude (s.link.discarded s.site (c s.link.counters)) (Work.start s.site)) else .next s

/-- BAD_CHECK_DISCARD (R165). -/
def execBadCheckDiscard (s : State) : Host.Outcome State Fault Refusal :=
  discard (fun c => { c with badCheck := c.badCheck.bump }) s

/-- TOO_LONG_DISCARD (R165). -/
def execTooLongDiscard (s : State) : Host.Outcome State Fault Refusal :=
  discard (fun c => { c with tooLong := c.tooLong.bump }) s

/-- GAP_EXPIRY (R165). -/
def execGapExpiry (s : State) : Host.Outcome State Fault Refusal :=
  discard (fun c => { c with gap := c.gap.bump }) s

/-- BAD_TAG_DISCARD (R166): a received frame with tag 0. -/
def execBadTagDiscard (s : State) : Host.Outcome State Fault Refusal :=
  request { tag := 0, len := 0 } 0x00 true (fun _ w => w.taken .empty) s

/-- OVERFLOW_DISCARD (R166): a received frame that finds four places held. -/
def execOverflowDiscard (h : Hdr) (s : State) : Host.Outcome State Fault Refusal :=
  if 4 ≤ s.link.places.length then request h 0x00 true (fun _ w => w.taken .empty) s else .next s

/-- UNKNOWN_KIND_REFUSAL (R166): a received frame whose kind names no request. -/
def execUnknownKindRefusal (h : Hdr) (kind : Byte) (s : State) : Host.Outcome State Fault Refusal :=
  if requestCodes.contains kind then .next s
  else request h kind true (fun _ w => w.refused .unknownKind) s

/-- REQUEST_DISCARDED_AFTER_RESTART (R130, R177): a request that arrives while a RESTART waits to begin. -/
def execRequestDiscardedAfterRestart (s : State) : Host.Outcome State Fault Refusal :=
  if s.link.restartPending then request { tag := 1, len := 0 } 0x00 true (fun _ w => w.taken .empty) s else .next s

/-- OUTGOING_FRAME_SENT (R167, R177): the line is free again. A sent reply frees its request's place; the sent reply of a
RESTART begins the restart, which reads the straps as given. -/
def execOutgoingFrameSent (firstTied secondTied : Bool) (s : State) : Host.Outcome State Fault Refusal :=
  if s.powered then
    match s.link.outgoing with
    | none => .next s
    | some (.report _) => .next (s.conclude { s.link with outgoing := none } (Work.start s.site))
    | some (.reply _ kind status _) =>
      if kind = 0x05 ∧ status = .ok then .next (s.boot s.site false firstTied secondTied)
      else .next (s.conclude { s.link with outgoing := none, places := s.link.places.tail } (Work.start s.site))
  else .next s

/-! ### The supply and key lines (R44, R45, R157) -/

/-- KEY_SWITCH_MOVED (R157): the key position follows the switch, and nothing besides. -/
def execKeySwitchMoved (enable : Bool) (s : State) : Host.Outcome State Fault Refusal :=
  event (fun w => w.modSite fun s => { s with keyEnable := enable }) s

/-- What a change to CRITICAL does at channel `c`, when the level holds it quiet (R45). The channels are taken in ascending
number, so that of the held pair 2 and 3 channel 2 reports SUPPLY and channel 3 PAIR_PARTNER: R45's cause for each held channel
and R41's for a partner differ there, and R41 is followed (DESIGN CHOICE, notes/assumptions/10.md). -/
def Work.criticalAt (w : Work) (c : Chan) : Work :=
  if w.site.heldQuiet c then
    match (w.site.chan c).state with
    | .up | .training => w.goQuiet c .supply
    | .quiet => w.clearPending c
    | .absent | .down | .draining | .fault => w
  else w

/-- SUPPLY_LEVEL_CHANGE (R44, R45): the levels of the two lines as they now stand. -/
def execSupplyLevelChange (first second : Bool) (s : State) : Host.Outcome State Fault Refusal :=
  event (fun w =>
    let old := w.site.supply
    let new := supplyLevelOf first second
    let w := w.modSite fun s => { s with firstSupply := first, secondSupply := second }
    if new = old then w
    else
      let w := w.emit (.supplyState new old)
      if new = .critical then ([0, 1, 2, 3] : List Chan).foldl Work.criticalAt w
      else if old = .critical then w.offerEvery
      else w) s

end Sys2Proof.Machine
end

