-- ==== Sys2Proof/Machine/Authorization.lean ====
section
/-! DEFINITION. The authorization requests (Chapter 8). -/

set_option Elab.async false

namespace Sys2Proof.Machine

/-- SET_AUTH_LIST's checks and effect (R160). -/
def takeSetAuthList (crews : List Half) (w : Work) : Taking :=
  if crews.length ≤ 32 ∧ crews.all (fun c => (crewOf c).isSome) ∧ crews.Nodup then
    (w.modSite fun s => { s with authList := crews.map BitVec.toNat }).taken (.authCount crews.length)
  else w.refused .badValue

/-- SET_AUTH_LIST (R160). -/
def execSetAuthList (h : Hdr) (count : Byte) (crews : List Half) (s : State) : Host.Outcome State Fault Refusal :=
  request h 0x60 (lengthIs h (1 + 2 * count.toNat) && crews.length == count.toNat)
    (fun _ w => takeSetAuthList crews w) s

/-- Each permit in ISSUING reverts with cause MODE_CHANGE, in ascending permit number (step 1 of R161). -/
def Work.revertIssuing (w : Work) : Work :=
  (w.site.permitsBy fun p => p.state == .issuing).foldl (fun w e => w.revertPermit e.1 .modeChange true) w

/-- Each GUEST record not bound to a crew is removed, in ascending index (step 4 of R161). -/
def Work.removeGuests (w : Work) : Work :=
  (Table.pick w.site.roster fun _ t => t.origin == .guest && t.crew.isNone).foldl (fun w e => w.removeTerminal e.1) w

/-- The first four effects of SET_MODE in order (R161); the mode leaving ALARMS_ONLY offers every channel a choice (R66). -/
def Work.changeMode (w : Work) (m : Mode) : Work :=
  let old := w.site.mode
  let w := w.revertIssuing.modSite fun s => { s with authList := [], mode := m }
  let w := if old = .openMode ∧ m ≠ .openMode then w.removeGuests else w
  if old = .alarmsOnly ∧ m ≠ .alarmsOnly then w.offerEvery else w

/-- The mode write of SET_MODE begins, or is set pending, or is joined; the reply waits for it (R162). -/
def Work.writeMode (w : Work) : Taking :=
  if w.site.write.isSome then
    { work := w.modSite fun s => { s with modePending := true }, wait := .modePending, clearLost := false }
  else { work := w.modSite Site.beginModeWrite, wait := .modeWrite, clearLost := false }

/-- SET_MODE's checks (R161). -/
def takeSetMode (mode : Byte) (w : Work) : Taking :=
  match modeOf mode with
  | none => w.refused .badValue
  | some m => if w.site.keyEnable then (w.changeMode m).writeMode else w.refused .key

/-- SET_MODE (R161). -/
def execSetMode (h : Hdr) (mode : Byte) (s : State) : Host.Outcome State Fault Refusal :=
  request h 0x61 (lengthIs h 1) (fun _ w => takeSetMode mode w) s

/-- The mode write with the mode it stores, and the pending one, which stores the mode in force when it begins (R163). -/
def Site.modeWriting (s : Site) : Option Mode := s.write.bind fun w => if w.modeOnly then some w.image.mode else none

/-- GET_AUTH (R163): always taken. -/
def execGetAuth (h : Hdr) (s : State) : Host.Outcome State Fault Refusal :=
  request h 0x62 (lengthIs h 0) (fun _ w =>
    w.taken (.auth w.site.mode w.site.authList w.site.keyEnable w.site.modeWriting
      (if w.site.modePending then some w.site.mode else none)
      (Table.tally w.site.roster fun _ t => t.origin == .guest))) s

end Sys2Proof.Machine
end

