-- ==== Sys2Proof/Machine/Channels.lean ====
section
/-! DEFINITION. The channel requests, the module, lever, transceiver and channel timer events (Chapter 2), and the windows of
outbound frames (section 3.4). -/

set_option Elab.async false

namespace Sys2Proof.Machine

/-! ### Requests -/

/-- BRING_UP taken on channel `c` (R34). -/
def Work.bringUp (w : Work) (c : Chan) : Taking :=
  if (w.site.members c).all fun m => (w.site.chan m).state != .quiet || (w.site.chan m).quietTimer.isNone then
    (w.beginTraining c).taken (.bringUp true)
  else
    let lit := (w.site.members c).filter fun m => (w.site.chan m).lampLit
    let w := (w.modChans (w.site.members c) fun ch => { ch with lampLit := false }).modChan c fun ch =>
      { ch with pendingBringUp := true }
    (lit.foldl (fun w m => w.reportChannel m .bringUp) w).taken (.bringUp false)

/-- A state from which a channel is brought up (R34). -/
def ChannelState.bringable (t : ChannelState) : Bool := t == .down || t == .fault || t == .quiet

/-- BRING_UP's checks (R34). -/
def takeBringUp (channel : Byte) (w : Work) : Taking :=
  match chanOf channel with
  | none => w.refused .badValue
  | some c =>
    if w.site.secondary c then w.refused .badState
    else if !(w.site.members c).all fun m => (w.site.chan m).state.bringable then w.refused .badState
    else if (w.site.members c).any fun m => (w.site.chan m).leverOpen then w.refused .badState
    else if w.site.supply = .critical ∧ w.site.heldQuiet c then w.refused .supply
    else w.bringUp c

/-- BRING_UP (R34). -/
def execBringUp (h : Hdr) (channel : Byte) (s : State) : Host.Outcome State Fault Refusal :=
  request h 0x20 (lengthIs h 1) (fun _ w => takeBringUp channel w) s

/-- QUIET's checks and effect (R38). -/
def takeQuiet (channel : Byte) (w : Work) : Taking :=
  match chanOf channel with
  | none => w.refused .badValue
  | some c =>
    if w.site.secondary c then w.refused .badState
    else
      match (w.site.chan c).state with
      | .up => (w.goQuiet c .quietRequest).taken .empty
      | .quiet => (w.clearPending c).taken .empty
      | .absent | .down | .training | .draining | .fault => w.refused .badState

/-- QUIET (R38). -/
def execQuiet (h : Hdr) (channel : Byte) (s : State) : Host.Outcome State Fault Refusal :=
  request h 0x21 (lengthIs h 1) (fun _ w => takeQuiet channel w) s

/-- What a reset leaves of a member that is present (steps 2 to 5 of R46, R59, R78). A member
already in DOWN keeps its previous state. -/
def Channel.afterReset (ch : Channel) : Channel :=
  { (if ch.state = .down then ch else ch.enter .down).lampAtDown.clearRuns.clearScheduler with
    trainingTimer := none, quietTimer := none, beaconTimer := none, beaconDue := false, pendingBringUp := false
    ready := false, stats := .zero, highPointer := none, lowPointer := none, memberDone := false }

/-- CHANNEL_RESET taken on the logical channel `c` (R46). -/
def Work.resetChannel (w : Work) (c : Chan) : Work :=
  let present := (w.site.members c).filter fun m => (w.site.chan m).present
  let w : Work := match (w.site.chan c).state with
    | .up => (w.abandon c).departUp c fun _ => .down
    | .draining => w.abandon c
    | .absent | .down | .training | .quiet | .fault => w
  let w := (w.withdrawQueues c).modChans present Channel.afterReset
  present.foldl (fun w m => w.reportChannel m .reset) w

/-- CHANNEL_RESET's checks (R46). -/
def takeChannelReset (channel : Byte) (w : Work) : Taking :=
  match chanOf channel with
  | none => w.refused .badValue
  | some c =>
    if (w.site.members c).all fun m => (w.site.chan m).state == .absent then w.refused .badState
    else (w.resetChannel (w.site.logical c)).taken .empty

/-- CHANNEL_RESET (R46). -/
def execChannelReset (h : Hdr) (channel : Byte) (s : State) : Host.Outcome State Fault Refusal :=
  request h 0x22 (lengthIs h 1) (fun _ w => takeChannelReset channel w) s

/-- A state in which the pairing of a member may change (R27). -/
def ChannelState.pairable (t : ChannelState) : Bool := t == .down || t == .quiet || t == .fault

/-- SET_CHANNEL's checks and effect (R27): turning pairing on or off clears the pending bring-up of both members (R40). The
taking offers the channel a choice (R66); a paired secondary is no channel of its own, and none is offered. -/
def takeSetChannel (channel : Byte) (f : ChannelFields) (w : Work) : Taking :=
  match chanOf channel, configOf f with
  | some c, some g =>
    if g.pairing ∧ primaryOf c ≠ c then w.refused .badValue
    else if g.pairing ≠ (w.site.chan c).config.pairing then
      if (w.site.chan c).state.pairable ∧ (w.site.chan (partnerOf c)).state.pairable then
        ((w.modChans [c, partnerOf c] fun ch => { ch with pendingBringUp := false }).modChan c fun ch =>
          { ch with config := g }).taken .empty
      else w.refused .badState
    else
      let w' := w.modChan c fun ch => { ch with config := g }
      (if w.site.secondary c then w' else w'.offer c).taken .empty
  | _, _ => w.refused .badValue

/-- SET_CHANNEL (R27). -/
def execSetChannel (h : Hdr) (channel : Byte) (f : ChannelFields) (s : State) : Host.Outcome State Fault Refusal :=
  request h 0x23 (lengthIs h 10) (fun _ w => takeSetChannel channel f w) s

/-- The channels TAKE_STATS names: one, or all four (R48, 10.2). -/
def statsChannels (b : Byte) : Option (List Chan) := if b = 0xFF then some [0, 1, 2, 3] else (chanOf b).map fun c => [c]

/-- TAKE_STATS's checks and effect (R48). -/
def takeTakeStats (channel clear : Byte) (w : Work) : Taking :=
  match statsChannels channel, markOf clear with
  | some cs, some m =>
    let w' := if m then w.modChans cs fun ch => { ch with stats := .zero } else w
    w'.taken (.stats (cs.map fun c => (c, (w.site.chan c).stats)))
  | _, _ => w.refused .badValue

/-- TAKE_STATS (R48). -/
def execTakeStats (h : Hdr) (channel clear : Byte) (s : State) : Host.Outcome State Fault Refusal :=
  request h 0x24 (lengthIs h 2) (fun _ w => takeTakeStats channel clear w) s

/-- The reply body of GET_CHANNEL (R49). -/
def Site.channelBody (s : Site) (c : Chan) : ChannelBody :=
  let ch := s.chan c
  { state := ch.state, previous := ch.previous, present := ch.present, leverOpen := ch.leverOpen, lampLit := ch.lampLit
    activity := ch.activity, pendingBringUp := ch.pendingBringUp
    pairedWith := if s.paired c then some (primaryOf c) else none
    config := ch.config, inFlightBlocks := ch.inFlightBlocks, affiliated := (s.terminalsOn c).length
    accessPending := ch.accessSet.length, alerts := ch.alerts.length, urgents := ch.urgents.length
    sendFailureRun := ch.sendFailureRun, badWindowRun := ch.badWindowRun }

/-- GET_CHANNEL's check and reply (R49). -/
def takeGetChannel (channel : Byte) (w : Work) : Taking :=
  match chanOf channel with
  | none => w.refused .badValue
  | some c => w.taken (.channel (w.site.channelBody c))

/-- GET_CHANNEL (R49). -/
def execGetChannel (h : Hdr) (channel : Byte) (s : State) : Host.Outcome State Fault Refusal :=
  request h 0x25 (lengthIs h 1) (fun _ w => takeGetChannel channel w) s

/-! ### Modules and levers -/

/-- The module-present line is asserted (R28). -/
def Work.insertModule (w : Work) (c : Chan) : Work :=
  if (w.site.chan c).state = .absent ∧ !(w.site.chan c).present then
    (w.modChan c fun ch => ({ ch with present := true }.enter .down).lampAtDown.clearRuns).reportChannel c .inserted
  else w

/-- MODULE_INSERTED (R28). -/
def execModuleInserted (channel : Chan) (s : State) : Host.Outcome State Fault Refusal :=
  event (fun w => w.insertModule channel) s

/-- The removed module's own record (steps 1 and 4 of R29). -/
def Channel.removed (ch : Channel) : Channel :=
  { ch.clearRuns with
    present := false, trainingTimer := none, quietTimer := none, beaconTimer := none, beaconDue := false
    pendingBringUp := false, ready := false, lampLit := false }

/-- The partner of a removed module leaves TRAINING or DRAINING for DOWN (R33, R41). -/
def Channel.partnerDown (ch : Channel) : Channel := { (ch.enter .down).lampAtDown with trainingTimer := none }

/-- The module-present line is released (R29, R41). -/
def Work.removeModule (w : Work) (c : Chan) : Work :=
  if (w.site.chan c).present then
    let lc := w.site.logical c
    let others := (w.site.members c).filter (· != c)
    let w := (w.clearPending c).modChan c Channel.removed
    match (w.site.chan c).state with
    | .up =>
      let w := (w.abandon lc).departUp lc fun m => if m = c then .absent else .down
      (w.modChans others Channel.lampAtDown).reportPair c .removed
    | .training | .draining =>
      let w := (w.abandon lc).modChan c fun ch => ch.enter .absent
      (w.modChans others Channel.partnerDown).reportPair c .removed
    | .absent | .down | .quiet | .fault => (w.modChan c fun ch => ch.enter .absent).reportChannel c .removed
  else w

/-- MODULE_REMOVED (R29). -/
def execModuleRemoved (channel : Chan) (s : State) : Host.Outcome State Fault Refusal :=
  event (fun w => w.removeModule channel) s

/-- The lever of an UP channel opens: both members drain, and draining completes at once when the transmitter is IDLE (R31,
R32, R41). -/
def Work.startDraining (w : Work) (c : Chan) : Work :=
  let lc := w.site.logical c
  let idle := (w.site.chan lc).activity = .idle
  let w := (w.departUp lc fun _ => .draining).reportPair c .lever
  if idle then w.drained lc else w

/-- The release lever opens on channel `c` (R30, R41). -/
def Work.openLever (w : Work) (c : Chan) : Work :=
  if (w.site.chan c).leverOpen then w
  else
    let w := (w.clearPending c).modChan c fun ch => { ch with leverOpen := true }
    match (w.site.chan c).state with
    | .up => w.startDraining c
    | .training =>
      ((w.modChans (w.site.members c) Channel.partnerDown).modChan c fun ch => { ch with lampLit := true }).reportPair c
        .lever
    | .quiet | .fault =>
      (w.modChan c fun ch => { ch.enter .down with quietTimer := none, lampLit := true }).reportChannel c .lever
    | .down =>
      if (w.site.chan c).lampLit then w
      else (w.modChan c fun ch => { ch with lampLit := true }).reportChannel c .lever
    | .draining | .absent => w

/-- LEVER_OPENED (R30). -/
def execLeverOpened (channel : Chan) (s : State) : Host.Outcome State Fault Refusal :=
  event (fun w => w.openLever channel) s

/-- LEVER_CLOSED (R30): the lever field alone. -/
def execLeverClosed (channel : Chan) (s : State) : Host.Outcome State Fault Refusal :=
  event (fun w => w.modChan channel fun ch => { ch with leverOpen := false }) s

/-! ### Training and the channel timers -/

/-- A transceiver in TRAINING reports ready; a pair goes to UP when both have (R37). -/
def Work.ready (w : Work) (c : Chan) : Work :=
  if (w.site.chan c).state = .training then
    let w := w.modChan c fun ch => { ch with ready := true }
    if (w.site.members c).all fun m => (w.site.chan m).ready then w.enterUp (w.site.logical c) else w
  else w

/-- TRANSCEIVER_READY (R37). -/
def execTransceiverReady (channel : Chan) (s : State) : Host.Outcome State Fault Refusal :=
  event (fun w => w.ready channel) s

/-- The training timer of channel `c` expires: both members go to FAULT (R37, R41). -/
def Work.trainingFails (w : Work) (c : Chan) : Work :=
  if (w.site.chan c).state = .training ∧ due (w.site.chan c).trainingTimer w.site.count then
    (w.modChans (w.site.members c) fun ch => { ch.enter .fault with trainingTimer := none }).reportPair c
      .trainingTimeout
  else w

/-- TRAINING_TIMEOUT (R37). -/
def execTrainingTimeout (channel : Chan) (s : State) : Host.Outcome State Fault Refusal :=
  event (fun w => w.trainingFails channel) s

/-- The quiet timer of channel `c` expires; a pending bring-up starts training at the last expiry (R34, R38). -/
def Work.quietExpires (w : Work) (c : Chan) : Work :=
  if due (w.site.chan c).quietTimer w.site.count then
    let w := w.modChan c fun ch => { ch with quietTimer := none }
    let lc := w.site.logical c
    if (w.site.chan lc).pendingBringUp ∧ (w.site.members c).all fun m => (w.site.chan m).quietTimer.isNone then
      w.beginTraining lc
    else w
  else w

/-- QUIET_TIMER_EXPIRY (R38). -/
def execQuietTimerExpiry (channel : Chan) (s : State) : Host.Outcome State Fault Refusal :=
  event (fun w => w.quietExpires channel) s

/-- The beacon timer of channel `c` expires: the beacon is due, and the idle channel is offered a frame (R60). -/
def Work.beaconExpires (w : Work) (c : Chan) : Work :=
  if (w.site.chan c).state = .up ∧ due (w.site.chan c).beaconTimer w.site.count then
    (w.modChan c fun ch => { ch with beaconDue := true, beaconTimer := none }).offer c
  else w

/-- BEACON_TIMER_EXPIRY (R60). -/
def execBeaconTimerExpiry (channel : Chan) (s : State) : Host.Outcome State Fault Refusal :=
  event (fun w => w.beaconExpires (w.site.logical channel)) s

/-! ### Sends and windows -/

/-- The urgent entry whose frame is on the air. -/
def Site.sendingEntry (s : Site) (c : Chan) : Option UrgentEntry :=
  (s.chan c).urgents.find? fun e => e.status == EntryStatus.sending

/-- An entry whose frame needs no acknowledgement leaves at the end of its send, and its owner is told that it was sent
(R68); a cancelled entry tells no owner. -/
def Work.sentUnacknowledged (w : Work) (c : Chan) (e : UrgentEntry) : Work :=
  match e.frame with
  | .item id _ _ =>
    match Table.look w.site.pul id with
    | some it => (w.leaveQueue c id).itemSent it
    | none => w.leaveQueue c id
  | .reply _ =>
    (w.modChan c fun ch => { ch with
      urgents := ch.urgents.eraseP fun e => e.status == EntryStatus.sending }).fill c

/-- What becomes of the queue entries when a send has ended without an acknowledgement to wait for (R67, R68). -/
def Work.endUnacknowledged (w : Work) (c : Chan) : Work :=
  let w := w.modChan c fun ch => { ch with alerts := alertsAfterSend ch.alerts }
  match w.site.sendingEntry c with
  | some e => if e.needsAck then w else w.sentUnacknowledged c e
  | none => w

/-- The frame of an order awaits its acknowledgement. -/
def FrameRef.await (r : FrameRef) : FrameRef :=
  match r with
  | .order n _ => .order n .awaitingAck
  | .item id => .item id

/-- The outstanding frame that was on the air now awaits its acknowledgement (R68). -/
def Work.awaitAck (w : Work) (c : Chan) (f : AirFrame) : Work :=
  match f.acked with
  | some i =>
    (w.modTerminal i fun t =>
      { t with outstanding := t.outstanding.map fun o => { o with frame := o.frame.await } }).modChan c fun ch =>
      { ch with urgents := ch.urgents.map fun e =>
          if e.status = EntryStatus.sending then { e with status := EntryStatus.awaitingAck } else e }
  | none => w

/-- The window record at its opening (R59). -/
def AirFrame.window (f : AirFrame) : Window :=
  { length := if f.grant = .none then 10 else 40, target := f.target, grant := f.grant, acked := f.acked
    goodSeen := false, badSeen := false, targetHeard := false }

/-- Every member has reported completion: the frame is sent and its window opens (R39, R59). -/
def Work.openWindow (w : Work) (c : Chan) (f : AirFrame) : Work :=
  let w := w.bumpStat c fun x => { x with outbound := x.outbound.bump }
  let w := (w.endUnacknowledged c).awaitAck c f
  (w.modChans (w.site.members c) fun ch => { ch with activity := .listening, memberDone := false }).modChan c fun ch =>
    { ch with onAir := none, window := some f.window }

/-- The transceiver of module `c` reports completion; a pair's frame is complete when both have (R39, R40). -/
def Work.sendCompletes (w : Work) (c : Chan) : Work :=
  let lc := w.site.logical c
  match (w.site.chan lc).onAir with
  | some f =>
    if (w.site.chan c).activity = .sending ∧ !(w.site.chan c).memberDone then
      let w := w.modChan c fun ch => { ch with memberDone := true, sendFailureRun := 0 }
      if (w.site.members c).all fun m => (w.site.chan m).memberDone then w.openWindow lc f else w
    else w
  | none => w

/-- SEND_COMPLETION (R39). -/
def execSendCompletion (channel : Chan) (s : State) : Host.Outcome State Fault Refusal :=
  event (fun w => w.sendCompletes channel) s

/-- The frame on the air ends by a send failure (R39): its grant counts as unanswered, a frame without acknowledgement leaves
as a sent frame would, and an acknowledged-delivery frame takes a miss. -/
def Work.frameFails (w : Work) (c : Chan) (f : AirFrame) : Work :=
  let w := w.silence c
  let w := if f.grant = .explicit then w.bumpStat c fun x => { x with grantsUnanswered := x.grantsUnanswered.bump } else w
  let w := w.endUnacknowledged c
  match f.acked with
  | some i => w.miss i
  | none => w

/-- A send failure of module `c` (R39, R42). -/
def Work.sendFails (w : Work) (c : Chan) : Work :=
  let lc := w.site.logical c
  match (w.site.chan lc).onAir with
  | some f =>
    if (w.site.chan c).activity = .sending then
      let w := w.bumpStat c fun x => { x with sendFailures := x.sendFailures.bump }
      if (w.site.chan lc).state = .draining then (w.frameFails lc f).drained lc
      else
        let w := w.modChan c fun ch => { ch with sendFailureRun := ch.sendFailureRun + 1 }
        let tripped := 3 ≤ (w.site.chan c).sendFailureRun
        let w := w.frameFails lc f
        if tripped then w.trip c .sendFailures else w.offer lc
    else w
  | none => w

/-- SEND_FAILURE (R39). -/
def execSendFailure (channel : Chan) (s : State) : Host.Outcome State Fault Refusal :=
  event (fun w => w.sendFails channel) s

/-- The bad window run after a window of an UP channel (R43). -/
def Channel.judged (ch : Channel) (x : Window) : Nat :=
  if x.goodSeen then 0
  else if x.badSeen ∧ x.grant ≠ .none then ch.badWindowRun + 1
  else ch.badWindowRun

/-- The limit of the receiver monitor (R43). -/
def ChannelConfig.monitorLimit (g : ChannelConfig) : Nat := if g.extended then 64 else 16

/-- The window raised the run to its limit (R43). -/
def Channel.monitorTrips (ch : Channel) (x : Window) : Bool :=
  decide (ch.badWindowRun < ch.judged x) && decide (ch.config.monitorLimit ≤ ch.judged x)

/-- An explicit grant whose target was not heard counts as unanswered (R47, R59). -/
def Work.countUnanswered (w : Work) (c : Chan) (x : Window) : Work :=
  if x.grant = .explicit ∧ !x.targetHeard then
    w.bumpStat c fun y => { y with grantsUnanswered := y.grantsUnanswered.bump }
  else w

/-- The acknowledged frame of a closed window is still outstanding: a miss (R59, R75). -/
def Work.missOf (w : Work) (acked : Option Nat) : Work :=
  match acked with
  | some i => w.miss i
  | none => w

/-- The window of logical channel `c` closes (R59): the receiver monitor, the grant, the miss, and the transmit opportunity
or the completion of draining. -/
def Work.closeWindow (w : Work) (c : Chan) : Work :=
  match (w.site.chan c).window with
  | some x =>
    let ch := w.site.chan c
    let w := w.silence c
    if ch.state = .draining then ((w.countUnanswered c x).missOf x.acked).drained c
    else
      let w := w.modChan c fun y => { y with badWindowRun := ch.judged x }
      if ch.monitorTrips x then (w.trip c .receiverMonitor).countUnanswered c x
      else ((w.countUnanswered c x).missOf x.acked).offer c
  | none => w

/-- WINDOW_CLOSE (R59). -/
def execWindowClose (channel : Chan) (s : State) : Host.Outcome State Fault Refusal :=
  event (fun w => w.closeWindow (w.site.logical channel)) s

end Sys2Proof.Machine
end

