-- ==== Sys2Proof/Machine/Inbound.lean ====
section
/-! DEFINITION. Inbound air frames: the check, the roster fields and the placement in the window (section 3.3), and the frames
owned by the FSC, the TRT and the ACA: ACK, AFFILIATE, DEPART and ACCESS. -/

set_option Elab.async false

namespace Sys2Proof.Machine

/-! ### Every arrival (R57, R58) -/

/-- A good frame at logical channel `c`: the counter and the mark of the open window (step 2 of R57). -/
def Work.goodFrame (w : Work) (c : Chan) : Work :=
  w.modChan c fun ch =>
    { ch with
      stats := { ch.stats with inboundGood := ch.stats.inboundGood.bump }
      window := ch.window.map fun x => { x with goodSeen := true } }

/-- A bad-check frame at logical channel `c` (step 1 of R57). -/
def Work.badFrame (w : Work) (c : Chan) : Work :=
  w.modChan c fun ch =>
    { ch with
      stats := { ch.stats with inboundBad := ch.stats.inboundBad.bump }
      window := ch.window.map fun x => { x with badSeen := true } }

/-- Last heard, and the average of link quality when the frame arrives on the terminal's own channel (R3, R61). -/
def Terminal.heard (t : Terminal) (c : Chan) (count sample : Nat) : Terminal :=
  { t with lastHeard := some count, quality := if t.on c then averaged t.quality sample else t.quality }

/-- Steps 2 and 3 of R57 for a frame whose sender field is `f`. -/
def Work.receive (w : Work) (c : Chan) (f : Sender) (sample : Nat) : Work :=
  let w := w.goodFrame c
  match w.site.resolve c f with
  | some i => w.modTerminal i fun t => t.heard c w.site.count sample
  | none => w

/-- An arrival at the module of `a`, which on a paired pair is one at the pair (R40): steps 2 and 3 of R57, then what the
owner does, given the logical channel and the sender as resolved. -/
def arrival (a : Arrival) (act : Chan → Option Nat → Work → Work) (s : State) : Host.Outcome State Fault Refusal :=
  event (fun w =>
    let c := w.site.logical a.channel
    act c (w.site.resolve c a.sender) (w.receive c a.sender a.sample.val)) s

/-- The open window carries a grant to the terminal at index `i`, and it has not been heard there (R58). R58's table asks that
no earlier granted-kind frame of the target was placed, its prose rules out any second one: a target heard by a frame that was
itself out of place (R22) has no further frame in place in the window (DESIGN CHOICE, notes/assumptions/33.md). -/
def Channel.awaitsGrant (ch : Channel) (i : Nat) : Bool :=
  ch.window.any fun x => x.grant != .none && x.target == some i && !x.targetHeard

/-- The target of the open window is heard (R58, R59). -/
def Channel.hear (ch : Channel) (i : Nat) : Channel :=
  { ch with window := ch.window.map fun x => if x.target = some i then { x with targetHeard := true } else x }

/-- A granted-kind frame: its target is marked as heard, and the owner acts when the frame is in place (R58). A frame from a
terminal that is no more AFFILIATED is out of place (R22); one that has moved since its grant is in place
(notes/assumptions/4.md). -/
def granted (a : Arrival) (act : Chan → Nat → Work → Work) (s : State) : Host.Outcome State Fault Refusal :=
  arrival a (fun c sender w =>
    match sender with
    | some i =>
      let placed := (w.site.chan c).awaitsGrant i && w.site.affiliated i
      let w := w.modChan c fun ch => ch.hear i
      if placed then act c i w else w
    | none => w) s

/-- INBOUND_BAD_CHECK (R57). -/
def execInboundBadCheck (channel : Chan) (s : State) : Host.Outcome State Fault Refusal :=
  event (fun w => w.badFrame (w.site.logical channel)) s

/-- INBOUND_UNDECODABLE (R57): counted as inbound good, with the roster fields updated, and ignored. -/
def execInboundUndecodable (a : Arrival) (s : State) : Host.Outcome State Fault Refusal :=
  arrival a (fun _ _ w => w) s

/-! ### ACCESS (R78) -/

/-- A terminal joins the pending access set of channel `c`; a second ACCESS is absorbed (R78). -/
def Work.joinAccess (w : Work) (c : Chan) (i : Nat) : Work :=
  if (w.site.chan c).accessSet.contains i then w
  else (w.modChan c fun ch => { ch with accessSet := ch.accessSet ++ [i] }).offer c

/-- ACCESS (R78). -/
def execAccess (a : Arrival) (s : State) : Host.Outcome State Fault Refusal :=
  arrival a (fun c sender w =>
    match sender with
    | some i => if w.site.affiliatedOn i c then w.joinAccess c i else w
    | none => w) s

/-! ### ACK (R58, R74) -/

/-- The open window awaits the acknowledgement of the terminal at index `i`, whose frame carried its sequence bit. -/
def Site.awaitsAck (s : Site) (c : Chan) (i : Nat) (bit : Bool) : Bool :=
  (s.chan c).window.any (fun x => x.acked == some i) && (Table.look s.roster i).any fun t => t.sequenceBit == bit

/-- ACK (R74). An ACK out of place, or with the other bit, is ignored. -/
def execAck (a : Arrival) (bit : Bool) (free : Byte) (s : State) : Host.Outcome State Fault Refusal :=
  arrival a (fun c sender w =>
    match sender with
    | some i => if w.site.awaitsAck c i bit then w.acknowledge i free.toNat else w
    | none => w) s

/-! ### AFFILIATE (R17 to R20) -/

/-- The judgement of an AFFILIATE (R17): accepted, for a record or for a guest to be created, or refused with the reason it
replies with; absent reason is NOT_UP. -/
inductive AffilVerdict where
  | accept (index : Nat)
  | enter (index : Nat)
  | refuse (reason : Option AffilResult)
  deriving DecidableEq, Repr

/-- The record, or the free index for a guest, that an AFFILIATE stands for (second check of R17). -/
def Site.affiliant (s : Site) (id : Nat) (c : AffiliateContent) : AffilVerdict :=
  if 1 ≤ id ∧ id ≤ 0xFFFFFFFE then
    match s.byId id with
    | some (i, t) => if t.kind = declaredKind c then .accept i else .refuse (some .unknown)
    | none =>
      match (if s.mode = .openMode then Table.firstFree s.roster 160 else none) with
      | some i => .enter i
      | none => .refuse (some .unknown)
  else .refuse (some .unknown)

/-- Channel `ch` has a place for the terminal at index `i` (last check of R17). -/
def Site.channelRoom (s : Site) (ch : Chan) (i : Nat) : Bool :=
  decide ((s.terminalsOn ch).length < 40) || s.affiliatedOn i ch

/-- The checks of R17 in order. -/
def Site.judgeAffiliate (s : Site) (ch : Chan) (id : Nat) (c : AffiliateContent) : AffilVerdict :=
  if (s.chan ch).state ≠ .up then .refuse none
  else
    match s.affiliant id c with
    | .refuse r => .refuse r
    | .accept i =>
      if s.paired ch ∧ !c.pairCapable then .refuse (some .pair)
      else if s.channelRoom ch i then .accept i else .refuse (some .full)
    | .enter i =>
      if s.paired ch ∧ !c.pairCapable then .refuse (some .pair)
      else if s.channelRoom ch i then .enter i else .refuse (some .full)

/-- A refused or ignored AFFILIATE is counted (R17). -/
def Work.countRefusal (w : Work) (ch : Chan) : Work :=
  w.bumpStat ch fun x => { x with affilRefusals := x.affilRefusals.bump }

/-- Refuse an AFFILIATE (R17): a refusing AFFIL_REPLY is placed when the reason has one, the ID can be addressed and the
queue has room. -/
def Work.refuseAffiliate (w : Work) (ch : Chan) (id : Nat) (reason : Option AffilResult) : Work :=
  let w := w.countRefusal ch
  match reason with
  | some r =>
    if 1 ≤ id ∧ id ≤ 0xFFFFFFFE ∧ w.site.urgentRoom ch then
      w.pushUrgent ch (.reply { id, result := r, channel := ch, short := none })
    else w
  | none => w

/-- The guest record of R20. -/
def Terminal.guest (id : Nat) (kind : TerminalKind) : Terminal :=
  { id, kind, origin := .guest, crew := none, state := .unknown, channel := none, short := none, maxRate := .low
    fecLow := false, fecHigh := false, pairCapable := false, capacity := 0, credit := 0, quality := 0
    sequenceBit := false, outstanding := none, lastHeard := none, notes := [] }

/-- The lowest short address that no other terminal affiliated on channel `ch` holds (R19). -/
def Site.freeShort (s : Site) (ch : Chan) (i : Nat) : Option Nat :=
  (List.range 7).find? fun a => !(s.roster.any fun e => e.1 != i && e.2.on ch && e.2.short == some a)

/-- The record of an accepted terminal (step 2 of R18, R3, R4). -/
def Terminal.accepted (t : Terminal) (ch : Chan) (short : Option Nat) (c : AffiliateContent) (sample count : Nat) :
    Terminal :=
  let capacity := if t.kind = .personal then 0 else c.capacity.toNat
  { t with
    state := .affiliated, channel := some ch, short, maxRate := declaredRate c.maxRate, fecLow := c.fecLow
    fecHigh := c.fecHigh, pairCapable := c.pairCapable, capacity, credit := capacity, quality := sample
    sequenceBit := false, lastHeard := some count }

/-- Step 1 of R18: the previous affiliation of the record `t` ends as a move, or is renewed. -/
def Work.leavePrevious (w : Work) (i : Nat) (t : Terminal) (ch : Chan) (c : AffiliateContent) : Work :=
  match t.state, t.channel with
  | .affiliated, some old =>
    let capacity := if t.kind = .personal then 0 else c.capacity.toNat
    let w := (w.withdrawOutstanding i capacity).leaveAccess old i
    if old = ch then w else w.returnWaiting old i
  | _, _ => w

/-- The room gained in the queue of the channel left by a move is offered to the list (R76). -/
def Work.fillLeft (w : Work) (t : Terminal) (ch : Chan) : Work :=
  match t.state, t.channel with
  | .affiliated, some old => if old = ch then w else w.fill old
  | _, _ => w

/-- The ODE's and the PMT's part of the announcement, when the terminal is the vehicle of a crew (step 4 of R18, R152). -/
def Work.announceVehicle (w : Work) (i capacity : Nat) : Work :=
  match w.site.crewOfVehicle i with
  | some n => w.ordersAtVehicle n capacity .vehicleJoined
  | none => w

/-- The owed DANGERs of the crew whose vehicle is the terminal at index `i` (R152). -/
def Work.announceDangers (w : Work) (i : Nat) : Work :=
  match w.site.crewOfVehicle i with
  | some n => w.placeOwedDangers n
  | none => w

/-- The announcement (step 4 of R18): orders, owed items, notes, the alarm channel, owed DANGERs, the report. -/
def Work.announce (w : Work) (i : Nat) (ch : Chan) (id capacity : Nat) (short : Option Nat) (cause : TerminalCause) :
    Work :=
  let w := ((w.announceVehicle i capacity).fill ch).placeNoteRecall i
  let w := (w.watchAtAcceptance i ch).announceDangers i
  (w.reportTerminal i id .affiliated (some ch) short cause).offer ch

/-- Accept an AFFILIATE for the record `t` at index `i` (R18). -/
def Work.acceptAffiliate (w : Work) (i : Nat) (t : Terminal) (ch : Chan) (c : AffiliateContent) (sample : Nat) : Work :=
  let renewal := t.on ch
  let short := if renewal then t.short else w.site.freeShort ch i
  let w := w.leavePrevious i t ch c
  let w := w.modTerminal i fun t => t.accepted ch short c sample w.site.count
  let w := (w.fillLeft t ch).pushUrgent ch (.reply { id := t.id, result := .accepted, channel := ch, short })
  let capacity := if t.kind = .personal then 0 else c.capacity.toNat
  w.announce i ch t.id capacity short (if renewal then .renewed else .joined)

/-- An AFFILIATE whose checks pass is accepted when the URGENT queue has room for the reply, and otherwise ignored (R17). -/
def Work.acceptAt (w : Work) (i : Nat) (ch : Chan) (c : AffiliateContent) (sample : Nat) : Work :=
  match Table.look w.site.roster i with
  | some t => w.acceptAffiliate i t ch c sample
  | none => w

/-- An AFFILIATE at logical channel `ch` (R17). -/
def Work.affiliate (w : Work) (ch : Chan) (id : Nat) (c : AffiliateContent) (sample : Nat) : Work :=
  match w.site.judgeAffiliate ch id c with
  | .refuse r => w.refuseAffiliate ch id r
  | .accept i => if w.site.urgentRoom ch then w.acceptAt i ch c sample else w.countRefusal ch
  | .enter i =>
    if w.site.urgentRoom ch then
      (w.modSite fun s => { s with roster := s.roster.put i (.guest id (declaredKind c)) }).acceptAt i ch c sample
    else w.countRefusal ch

/-- AFFILIATE (R17, R18). -/
def execAffiliate (channel : Chan) (sample : Fin 16) (id : Word) (content : AffiliateContent) (s : State) :
    Host.Outcome State Fault Refusal :=
  arrival { channel, sample, sender := .id id } (fun c _ w => w.affiliate c id.toNat content sample.val) s

/-! ### DEPART (R21) -/

/-- DEPART (R21): in place, a terminal AFFILIATED on the channel becomes ABSENT. -/
def execDepart (a : Arrival) (s : State) : Host.Outcome State Fault Refusal :=
  granted a (fun c i w => if w.site.affiliatedOn i c then w.absent i .depart else w) s

end Sys2Proof.Machine
end

