-- ==== Sys2Proof/Machine/Orders.lean ====
section
/-! DEFINITION. The order requests, ORDER_REPLY and the hold expiry (Chapter 5). -/

set_option Elab.async false

namespace Sys2Proof.Machine

/-- The ranges of SEND_ORDER's first check (R88). -/
def orderRanges (number : Word) (crew : Half) (priority count : Byte) : Bool :=
  decide (1 ≤ number.toNat) && (crewOf crew).isSome && decide (1 ≤ priority.toNat) && decide (priority.toNat ≤ 4)
    && decide (1 ≤ count.toNat) && decide (count.toNat ≤ 40)

/-- The order a taken SEND_ORDER creates (R88), QUEUED when the vehicle `t` is AFFILIATED and can hold it. -/
def Site.newOrder (s : Site) (t : Terminal) (crew priority hold blocks : Nat) (content : List Byte) : Order :=
  let held := !(t.state == .affiliated && decide (blocks ≤ t.capacity))
  { crew, priority, hold, blocks, content, state := if held then .held else .queued, seq := s.nextSeq
    recipient := none, retry := none, frameChannel := none
    deadline := if held then some (s.count + secondsOf hold) else none, reply := none }

/-- An order's record is created (R88); an order that becomes QUEUED offers the vehicle's channel a choice (R66). -/
def Work.createOrder (w : Work) (n : Nat) (o : Order) (channel : Option Chan) : Work :=
  let w := w.modSite fun s => { s with orders := s.orders.put n o, nextSeq := s.nextSeq + 1 }
  match channel with
  | some c => if o.state = .queued then w.offer c else w
  | none => w

/-- SEND_ORDER's checks and effect (R88). -/
def takeSendOrder (number : Word) (crew : Half) (priority hold count : Byte) (content : List Byte) (w : Work) : Taking :=
  if !orderRanges number crew priority count then w.refused .badValue
  else
    match Table.look w.site.crews crew.toNat with
    | none => w.refused .notFound
    | some _ =>
      match w.site.vehicleRecord crew.toNat with
      | none => w.refused .badState
      | some (_, t) =>
        if (Table.look w.site.orders number.toNat).isSome then w.refused .duplicate
        else if 256 ≤ w.site.orders.length ∨ 3072 < w.site.blocksUsed + count.toNat then w.refused .noRoom
        else
          let o := w.site.newOrder t crew.toNat priority.toNat (durationCodeOf hold) count.toNat content
          (w.createOrder number.toNat o t.channel).taken (.orderState o.state)

/-- SEND_ORDER (R88). -/
def execSendOrder (h : Hdr) (number : Word) (crew : Half) (priority hold count : Byte) (content : List Byte) (s : State) :
    Host.Outcome State Fault Refusal :=
  request h 0x30 (lengthIs h (9 + 12 * count.toNat) && content.length == 12 * count.toNat)
    (fun _ w => takeSendOrder number crew priority hold count content w) s

/-- The recipient of an order is AFFILIATED (R104). -/
def Site.recipientAffiliated (s : Site) (o : Order) : Bool :=
  (o.recipient.bind s.byId).any fun e => e.2.state == .affiliated

/-- CANCEL_ORDER by the order's state (R89, R104). -/
def Work.cancelOrder (w : Work) (n : Nat) (o : Order) : Taking :=
  match o.state with
  | .queued | .held =>
    (w.finishOrder n .returned .hostCancel (some .cancelled) none).taken (.orderState .returned)
  | .inFlight => (w.recallOrder n).taken (.orderState .recalling)
  | .delivered | .accepted =>
    if w.site.recipientAffiliated o then (w.recallOrder n).taken (.orderState .recalling)
    else (w.returnUnconfirmed n .hostCancel).taken (.orderState .returned)
  | .recalling | .done | .declined | .returned => w.refused .badState

/-- CANCEL_ORDER's checks (R89). -/
def takeCancelOrder (number : Word) (w : Work) : Taking :=
  if number = 0 then w.refused .badValue
  else
    match Table.look w.site.orders number.toNat with
    | none => w.refused .notFound
    | some o => w.cancelOrder number.toNat o

/-- CANCEL_ORDER (R89). -/
def execCancelOrder (h : Hdr) (number : Word) (s : State) : Host.Outcome State Fault Refusal :=
  request h 0x31 (lengthIs h 4) (fun _ w => takeCancelOrder number w) s

/-- CLOSE_ORDER's checks and effect (R90). -/
def takeCloseOrder (number : Word) (w : Work) : Taking :=
  if number = 0 then w.refused .badValue
  else
    match Table.look w.site.orders number.toNat with
    | none => w.refused .notFound
    | some o =>
      match o.state with
      | .delivered | .accepted => (w.finishOrder number.toNat .done .hostClose none none).taken .empty
      | .queued | .inFlight | .held | .recalling | .done | .declined | .returned => w.refused .badState

/-- CLOSE_ORDER (R90). -/
def execCloseOrder (h : Hdr) (number : Word) (s : State) : Host.Outcome State Fault Refusal :=
  request h 0x32 (lengthIs h 4) (fun _ w => takeCloseOrder number w) s

/-- How many live orders are in a state (R91). -/
def Site.ordersIn (s : Site) (t : OrderState) : Nat := Table.tally s.orders fun _ o => o.state == t

/-- The store summary (R91). -/
def Site.orderSummary (s : Site) : OrderSummary :=
  { live := s.orders.length, queued := s.ordersIn .queued, inFlight := s.ordersIn .inFlight, held := s.ordersIn .held
    delivered := s.ordersIn .delivered, accepted := s.ordersIn .accepted, recalling := s.ordersIn .recalling
    blocksUsed := s.blocksUsed, blocksFree := 3072 - s.blocksUsed, repliesIgnored := s.repliesIgnored
    notesDropped := s.notesDropped }

/-- An order's position on its crew's delivery list, counting from 1 (R91). -/
def Site.positionOf (s : Site) (n : Nat) (o : Order) : Nat :=
  ((s.deliveryList o.crew).findIdx fun e => e.1 == n) + 1

/-- GET_ORDER's check and reply (R91). -/
def takeGetOrder (number : Word) (w : Work) : Taking :=
  if number = 0 then w.taken (.orderSummary w.site.orderSummary)
  else
    match Table.look w.site.orders number.toNat with
    | none => w.refused .notFound
    | some o =>
      w.taken (.order number.toNat o (w.site.positionOf number.toNat o) (o.deadline.map fun d => d - w.site.count))

/-- GET_ORDER (R91). -/
def execGetOrder (h : Hdr) (number : Word) (s : State) : Host.Outcome State Fault Refusal :=
  request h 0x33 (lengthIs h 4) (fun _ w => takeGetOrder number w) s

/-! ### ORDER_REPLY (R101 to R106) -/

/-- The reply's free blocks set the free credit (R4): while the outstanding frame is an ORDER, less that order's blocks. -/
def Work.creditFromReply (w : Work) (i free : Nat) : Work :=
  match (Table.look w.site.roster i).bind Terminal.outstanding with
  | some { frame := .order n _, .. } => w.setCredit i (free - ((Table.look w.site.orders n).map Order.blocks).getD 0)
  | _ => w.setCredit i free

/-- A reply from the terminal at index `i` with ID `id` matches an order (R101). -/
def Site.replyMatches (s : Site) (o : Order) (i id : Nat) : Bool :=
  match o.recipient with
  | some r => r == id
  | none => s.vehicleOf o.crew == some i

/-- A matching reply acts in the order's state (R102, R103, R106). A reply to an IN_FLIGHT or RECALLING order is a reply taken,
whether or not it is recorded: an ACCEPT that R103 leaves unrecorded is not counted as ignored (DESIGN CHOICE,
notes/assumptions/24.md). -/
def Work.orderReplied (w : Work) (n id : Nat) (o : Order) (r : CrewReply) : Work :=
  match o.state with
  | .queued | .held => (w.modOrder n fun o => { o with recipient := some id }).deliverOrder n .crewReply (some r)
  | .inFlight | .recalling => w.modOrder n fun o => { o with reply := recordedReply o.reply r }
  | .delivered | .accepted => w.applyReply n r
  | .done | .declined | .returned => w.ignoreReply

/-- An ORDER_REPLY in place from the terminal at index `i` (R101). -/
def Work.takeReply (w : Work) (i number : Nat) (r : CrewReply) (free : Nat) : Work :=
  match Table.look w.site.roster i with
  | some t =>
    let w := if t.kind = .vehicle then w.creditFromReply i free else w
    match Table.look w.site.orders number with
    | some o => if w.site.replyMatches o i t.id then w.orderReplied number t.id o r else w.ignoreReply
    | none => w.ignoreReply
  | none => w

/-- ORDER_REPLY (R101). -/
def execOrderReply (a : Arrival) (number : Word) (reply : CrewReply) (free : Byte) (s : State) :
    Host.Outcome State Fault Refusal :=
  granted a (fun _ i w => w.takeReply i number.toNat reply free.toNat) s

/-! ### The hold expiry (R99, R100) -/

/-- The hold deadline of a HELD order expires (R100). -/
def Work.holdExpires (w : Work) (n : Nat) : Work :=
  match Table.look w.site.orders n with
  | some o =>
    if o.state = .held ∧ due o.deadline w.site.count then
      w.finishOrder n .returned .holdExpiry (some .expired) none
    else w
  | none => w

/-- HOLD_EXPIRY (R100). -/
def execHoldExpiry (number : Word) (s : State) : Host.Outcome State Fault Refusal :=
  event (fun w => w.holdExpires number.toNat) s

end Sys2Proof.Machine
end

