-- ==== Sys2Proof/Machine/Terminals.lean ====
section
/-! DEFINITION. The roster and crew requests (sections 1.2 and 1.3). -/

set_option Elab.async false

namespace Sys2Proof.Machine

/-- The record LOAD_TERMINAL creates (R7). -/
def Terminal.loadedNow (id : Nat) (kind : TerminalKind) : Terminal :=
  { id, kind, origin := .loaded, crew := none, state := .unknown, channel := none, short := none, maxRate := .low
    fecLow := false, fecHigh := false, pairCapable := false, capacity := 0, credit := 0, quality := 0
    sequenceBit := false, outstanding := none, lastHeard := none, notes := [] }

/-- A roster record is created at an index. -/
def Work.addTerminal (w : Work) (i : Nat) (t : Terminal) : Work :=
  w.modSite fun s => { s with roster := s.roster.put i t }

/-- LOAD_TERMINAL's checks and effect (R7). -/
def takeLoadTerminal (id : Word) (kind : Byte) (w : Work) : Taking :=
  match idOf id, terminalKindOf kind with
  | some n, some k =>
    match w.site.byId n with
    | some (i, t) =>
      if t.origin = .loaded then w.refused .duplicate
      else if t.kind = k then (w.modTerminal i fun t => { t with origin := .loaded }).taken (.rosterIndex i)
      else w.refused .badValue
    | none =>
      match Table.firstFree w.site.roster 160 with
      | some i => (w.addTerminal i (.loadedNow n k)).taken (.rosterIndex i)
      | none => w.refused .noRoom
  | _, _ => w.refused .badValue

/-- LOAD_TERMINAL (R7). -/
def execLoadTerminal (h : Hdr) (id : Word) (kind : Byte) (s : State) : Host.Outcome State Fault Refusal :=
  request h 0x10 (lengthIs h 5) (fun _ w => takeLoadTerminal id kind w) s

/-- DROP_TERMINAL's checks and effect (R8). -/
def takeDropTerminal (id : Word) (w : Work) : Taking :=
  match idOf id with
  | none => w.refused .badValue
  | some n =>
    match w.site.byId n with
    | none => w.refused .notFound
    | some (i, t) =>
      if t.crew.isSome ∨ (Table.look w.site.watches i).isSome then w.refused .badState
      else (w.removeTerminal i).taken .empty

/-- DROP_TERMINAL (R8). -/
def execDropTerminal (h : Hdr) (id : Word) (s : State) : Host.Outcome State Fault Refusal :=
  request h 0x11 (lengthIs h 4) (fun _ w => takeDropTerminal id w) s

/-- An outstanding frame with its kind and owner (R2): an order is its own owner, and an urgent item's owner is the one the
Pending Urgent List holds it for. -/
def Site.outstandingBody (s : Site) (o : Outstanding) : OutstandingBody :=
  match o.frame with
  | .order n _ => { kind := some .order, owner := some (.order n), channel := o.channel, retry := o.retry }
  | .item id =>
    { kind := (s.entryOf o.channel id).map fun e => e.frame.outKind, owner := (Table.look s.pul id).map PulItem.owner
      channel := o.channel, retry := o.retry }

/-- What GET_TERMINAL returns of the record at index `i` (R9). -/
def Work.describeTerminal (w : Work) (i : Nat) : Taking :=
  match Table.look w.site.roster i with
  | some t =>
    w.taken (.terminal i t (t.outstanding.map w.site.outstandingBody) (w.site.tier i) (w.site.accessPending i))
  | none => w.refused .notFound

/-- GET_TERMINAL's checks (R9, R178). -/
def takeGetTerminal (selector : Byte) (value : Word) (w : Work) : Taking :=
  if selector = 0 then
    match idOf value with
    | some n =>
      match w.site.byId n with
      | some (i, _) => w.describeTerminal i
      | none => w.refused .notFound
    | none => w.refused .badValue
  else if selector = 1 then
    if value.toNat ≤ 159 then w.describeTerminal value.toNat else w.refused .badValue
  else w.refused .badValue

/-- GET_TERMINAL (R9). -/
def execGetTerminal (h : Hdr) (selector : Byte) (value : Word) (s : State) : Host.Outcome State Fault Refusal :=
  request h 0x12 (lengthIs h 5) (fun _ w => takeGetTerminal selector value w) s

/-! ### Crews (R10 to R16) -/

/-- The values LOAD_CREW names, within their ranges: no vehicle is 0 (R11, R178). -/
def crewRanges (crew : Half) (vehicle : Word) (members : List Word) : Bool :=
  (crewOf crew).isSome && decide (members.length ≤ 6)
    && decide ((members ++ (if vehicle = 0 then [] else [vehicle])).Nodup)
    && members.all (fun m => (idOf m).isSome) && (vehicle == 0 || (idOf vehicle).isSome)

/-- The roster index of the vehicle LOAD_CREW names: none named, or a record's index. -/
def Site.namedVehicle (s : Site) (vehicle : Word) : Option Nat :=
  if vehicle = 0 then none else (s.byId vehicle.toNat).map Prod.fst

/-- The roster indices of the members LOAD_CREW names. -/
def Site.namedMembers (s : Site) (members : List Word) : List Nat :=
  members.filterMap fun m => (s.byId m.toNat).map Prod.fst

/-- Every ID LOAD_CREW names is held by a record (R11). -/
def Site.allHeld (s : Site) (vehicle : Word) (members : List Word) : Bool :=
  (vehicle == 0 || (s.byId vehicle.toNat).isSome) && members.all fun m => (s.byId m.toNat).isSome

/-- The record at index `i` is of a kind. -/
def Site.kindAt (s : Site) (i : Nat) (k : TerminalKind) : Bool := (Table.look s.roster i).any fun t => t.kind == k

/-- The record at index `i` is bound to no crew but `n`. -/
def Site.freeFor (s : Site) (n i : Nat) : Bool := (Table.look s.roster i).any fun t => t.crew.all (· == n)

/-- A permit of the crew is ISSUING. -/
def Site.issuing (s : Site) (crew : Nat) : Bool := s.permits.any fun e => e.2.crew == crew && e.2.state == .issuing

/-- An order of the crew is IN_FLIGHT or RECALLING. -/
def Site.moving (s : Site) (crew : Nat) : Bool :=
  s.orders.any fun e => e.2.crew == crew && (e.2.state == .inFlight || e.2.state == .recalling)

/-- The terminals a crew record names. -/
def Crew.terminals (c : Crew) : List Nat := c.vehicle.toList ++ c.members

/-- Bind and unbind at LOAD_CREW (R12): those leaving become unbound, those named become bound and LOADED. -/
def Work.rebind (w : Work) (n : Nat) (leaving named : List Nat) : Work :=
  let w := leaving.foldl (fun w i => w.modTerminal i fun t => { t with crew := none }) w
  named.foldl (fun w i => w.modTerminal i fun t => { t with crew := some n, origin := .loaded }) w

/-- The crew's orders and owed DANGERs are seen again against its vehicle after a change of vehicle (R12, R152). -/
def Work.vehicleChanged (w : Work) (n : Nat) : Work :=
  match w.site.vehicleRecord n with
  | some (_, t) =>
    if t.state = .affiliated then (w.ordersAtVehicle n t.capacity .vehicleChanged).placeOwedDangers n
    else w.ordersWithoutVehicle n
  | none => w.ordersWithoutVehicle n

/-- The supervision records of newly bound members that are in ALARM or ACKNOWLEDGED (R15). -/
def Site.alarmsAmong (s : Site) (l : List Nat) : Nat :=
  (l.filter fun i => (Table.look s.watches i).any fun r => r.state.inAlarm).length

/-- The crew table holds a record under crew number `n`. -/
def Work.putCrew (w : Work) (n : Nat) (c : Crew) : Work := w.modSite fun s => { s with crews := s.crews.put n c }

/-- LOAD_CREW taken for an existing crew (R12). -/
def Work.replaceCrew (w : Work) (n : Nat) (old : Crew) (vehicle : Option Nat) (members : List Nat) (key : Nat) : Work :=
  let new := vehicle.toList ++ members
  let joined := members.filter fun i => !old.members.contains i
  let w' := (w.putCrew n { old with vehicle, members, key, alarms := old.alarms + w.site.alarmsAmong joined }).rebind n
    (old.terminals.filter fun i => !new.contains i) new
  if vehicle = old.vehicle then w' else w'.vehicleChanged n

/-- LOAD_CREW taken for a new crew (R12, R15). -/
def Work.createCrew (w : Work) (n : Nat) (vehicle : Option Nat) (members : List Nat) (key : Nat) : Work :=
  (w.putCrew n { vehicle, members, key, alarms := w.site.alarmsAmong members, permits := 0 }).rebind n []
    (vehicle.toList ++ members)

/-- LOAD_CREW's checks and effect (R11, R12). -/
def takeLoadCrew (crew : Half) (vehicle : Word) (key : Half) (members : List Word) (w : Work) : Taking :=
  let s := w.site
  let n := crew.toNat
  let v := s.namedVehicle vehicle
  let ms := s.namedMembers members
  if !crewRanges crew vehicle members then w.refused .badValue
  else if !s.allHeld vehicle members then w.refused .notFound
  else if !(v.toList.all (s.kindAt · .vehicle) && ms.all (s.kindAt · .personal)) then w.refused .badValue
  else if !(v.toList ++ ms).all (s.freeFor n) then w.refused .badState
  else
    match Table.look s.crews n with
    | some old =>
      if old.vehicle ≠ v ∧ (s.moving n ∨ s.issuing n) then w.refused .badState
      else if old.key ≠ key.toNat ∧ s.issuing n then w.refused .badState
      else if old.members.any fun i => !ms.contains i && (Table.look s.watches i).isSome then w.refused .badState
      else (w.replaceCrew n old v ms key.toNat).taken .empty
    | none =>
      if s.crews.length < 64 then (w.createCrew n v ms key.toNat).taken .empty else w.refused .noRoom

/-- LOAD_CREW (R11). -/
def execLoadCrew (h : Hdr) (crew : Half) (vehicle : Word) (key : Half) (count : Byte) (members : List Word) (s : State) :
    Host.Outcome State Fault Refusal :=
  request h 0x13 (lengthIs h (9 + 4 * count.toNat) && members.length == count.toNat)
    (fun _ w => takeLoadCrew crew vehicle key members w) s

/-- DROP_CREW's checks and effect (R13). -/
def takeDropCrew (crew : Half) (w : Work) : Taking :=
  match crewOf crew with
  | none => w.refused .badValue
  | some n =>
    match Table.look w.site.crews n with
    | none => w.refused .notFound
    | some c =>
      if !(w.site.deliveryList n).isEmpty ∨ c.permits ≠ 0
          ∨ c.members.any (fun i => (Table.look w.site.watches i).isSome) then w.refused .badState
      else ((w.rebind n c.terminals []).modSite fun s => { s with crews := s.crews.del n }).taken .empty

/-- DROP_CREW (R13). -/
def execDropCrew (h : Hdr) (crew : Half) (s : State) : Host.Outcome State Fault Refusal :=
  request h 0x14 (lengthIs h 2) (fun _ w => takeDropCrew crew w) s

/-- One bound terminal in the reply of GET_CREW. -/
def Site.crewTerminal (s : Site) (i : Nat) : Option CrewTerminal :=
  (Table.look s.roster i).map fun t => { id := t.id, index := i, state := t.state }

/-- GET_CREW's checks and reply (R14). -/
def takeGetCrew (crew : Half) (w : Work) : Taking :=
  match crewOf crew with
  | none => w.refused .badValue
  | some n =>
    match Table.look w.site.crews n with
    | none => w.refused .notFound
    | some c =>
      w.taken (.crew
        { number := n, vehicle := c.vehicle.bind w.site.crewTerminal, members := c.members.filterMap w.site.crewTerminal
          key := c.key, alarms := c.alarms, permits := c.permits, orders := (w.site.deliveryList n).length })

/-- GET_CREW (R14). -/
def execGetCrew (h : Hdr) (crew : Half) (s : State) : Host.Outcome State Fault Refusal :=
  request h 0x15 (lengthIs h 2) (fun _ w => takeGetCrew crew w) s

end Sys2Proof.Machine
end

