-- ==== Sys2Proof/Machine/Permits.lean ====
section
/-! DEFINITION. The section map and permit requests, READBACK, SWITCH_DONE, RELEASE_ASK and the readback expiry
(Chapter 7). -/

set_option Elab.async false

namespace Sys2Proof.Machine

/-! ### The section map (R134, R135) -/

/-- A live clearance lists a section (R134). -/
def Site.sectionHeld (s : Site) (n : Nat) : Bool := s.permits.any fun e => e.2.live && e.2.work.sections.contains n

/-- A defined switch point joins a section (R134). -/
def Site.sectionJoined (s : Site) (n : Nat) : Bool := s.switches.any fun e => e.2.joins n

/-- DEFINE_SECTION's checks and effect (R134). -/
def takeDefineSection (number action : Byte) (w : Work) : Taking :=
  match (if number.toNat ≤ 63 then defineOf action else none) with
  | none => w.refused .badValue
  | some true =>
    (w.modSite fun s => { s with
      sections := s.sections.put number.toNat ((Table.look s.sections number.toNat).getD 0) }).taken .empty
  | some false =>
    if (Table.look w.site.sections number.toNat).isNone then w.refused .notFound
    else if w.site.sectionHeld number.toNat ∨ w.site.sectionJoined number.toNat then w.refused .badState
    else (w.modSite fun s => { s with sections := s.sections.del number.toNat }).taken .empty

/-- DEFINE_SECTION (R134). -/
def execDefineSection (h : Hdr) (number action : Byte) (s : State) : Host.Outcome State Fault Refusal :=
  request h 0x50 (lengthIs h 2) (fun _ w => takeDefineSection number action w) s

/-- Side B of DEFINE_SWITCH: 0xFF is NONE (10.2). -/
def sideOf (b : Byte) : Option Nat := if b = 0xFF then none else some b.toNat

/-- The sides of a DEFINE are within their ranges (R134). -/
def sidesInRange (a b : Byte) : Bool := decide (a.toNat ≤ 63) && (b == 0xFF || decide (b.toNat ≤ 63)) && b != a

/-- A live switching permit names a switch point (R134). -/
def Site.switchNamed (s : Site) (n : Nat) : Bool :=
  s.permits.any fun e => e.2.live && (match e.2.work with | .switching sw _ => sw == n | .clearance _ => false)

/-- A live clearance lists one of some sections (R134). -/
def Site.sidesHeld (s : Site) (l : List Nat) : Bool := l.any s.sectionHeld

/-- The sections a switch point joins as it stands; none while it is undefined. -/
def Site.sidesOf (s : Site) (n : Nat) : List Nat := ((Table.look s.switches n).map SwitchPoint.sides).getD []

/-- DEFINE_SWITCH with action DEFINE, its sides within range (R134). -/
def Work.defineSwitch (w : Work) (n : Nat) (p : SwitchPoint) : Taking :=
  if !(p.sides.all fun x => (Table.look w.site.sections x).isSome) then w.refused .badValue
  else if w.site.switchNamed n then w.refused .badState
  else if w.site.sidesHeld (w.site.sidesOf n ++ p.sides) then w.refused .badState
  else (w.modSite fun s => { s with switches := s.switches.put n p }).taken .empty

/-- DEFINE_SWITCH with action REMOVE (R134). -/
def Work.removeSwitch (w : Work) (n : Nat) : Taking :=
  if (Table.look w.site.switches n).isNone then w.refused .notFound
  else if w.site.switchNamed n then w.refused .badState
  else if w.site.sidesHeld (w.site.sidesOf n) then w.refused .badState
  else (w.modSite fun s => { s with switches := s.switches.del n }).taken .empty

/-- DEFINE_SWITCH's checks (R134); the sides are ignored for REMOVE (10.2). -/
def takeDefineSwitch (number action sideA sideB : Byte) (w : Work) : Taking :=
  match (if number.toNat ≤ 127 then defineOf action else none) with
  | none => w.refused .badValue
  | some true =>
    if sidesInRange sideA sideB then
      w.defineSwitch number.toNat
        { sideA := sideA.toNat, sideB := sideOf sideB, position := .unknown, violated := false }
    else w.refused .badValue
  | some false => w.removeSwitch number.toNat

/-- DEFINE_SWITCH (R134). -/
def execDefineSwitch (h : Hdr) (number action sideA sideB : Byte) (s : State) : Host.Outcome State Fault Refusal :=
  request h 0x51 (lengthIs h 4) (fun _ w => takeDefineSwitch number action sideA sideB w) s

/-- SET_SWITCH_POSITION's checks and effect (R135). -/
def takeSetSwitchPosition (number position : Byte) (w : Work) : Taking :=
  match (if number.toNat ≤ 127 then positionOf position else none) with
  | none => w.refused .badValue
  | some pos =>
    if (Table.look w.site.switches number.toNat).isNone then w.refused .notFound
    else
      match w.recordPosition number.toNat pos .host with
      | (w, raised, compromised, reverted) => w.taken (.position pos raised compromised reverted)

/-- SET_SWITCH_POSITION (R135). -/
def execSetSwitchPosition (h : Hdr) (number position : Byte) (s : State) : Host.Outcome State Fault Refusal :=
  request h 0x52 (lengthIs h 2) (fun _ w => takeSetSwitchPosition number position w) s

/-! ### Requesting, issuing and withdrawing (R138 to R144, R149) -/

/-- A permit record as it is created. -/
def Permit.created (number : Nat) (work : PermitWork) (crew : Nat) (state : PermitState) (recorded : Option Nat)
    (keyed restored : Bool) : Permit :=
  { number, work, crew, state, recorded, keyed, attempts := 0, deadline := none, compromised := false
    violationSwitch := none, dangerOwed := false, resultConfirmed := false, restored, retained := false }

/-- A permit is created in record `k`: the crew's live-permit count rises, and its report is queued (R16, R138, R149). -/
def Work.createPermit (w : Work) (k : Nat) (p : Permit) (cause : PermitCause) : Work :=
  ((w.modSite fun s => { s with permits := s.permits.put k p }).modCrew p.crew fun c =>
    { c with permits := c.permits + 1 }).reportPermit p none cause

/-- REQUEST_PERMIT's checks after the ranges, and its effect (R138). SC-1 and SC-2 are the checks of a SWITCHING CLOSE. The new
permit takes the lowest free record (DESIGN CHOICE, notes/assumptions/27.md). -/
def Work.requestPermit (w : Work) (n crew : Nat) (k : PermitWork) : Taking :=
  if !w.site.mode.allowsPermits then w.refused .mode
  else if (Table.look w.site.crews crew).isNone then w.refused .notFound
  else if !w.site.authorized crew then w.refused .mode
  else if !w.site.namesDefined k then w.refused .badValue
  else if (w.site.livePermit n).isSome then w.refused .duplicate
  else
    match Table.firstFree w.site.permits 48 with
    | none => w.refused .noRoom
    | some i =>
      if !k.isClearance ∧ !w.site.interlock k then w.refused .interlock
      else (w.createPermit i (.created n k crew .requested none false false) .requested).taken (.permitState .requested)

/-- REQUEST_PERMIT's first check (R138). -/
def takeRequestPermit (number : Half) (kind : Byte) (crew : Half) (items : List Byte) (w : Work) : Taking :=
  match permitNumberOf number, crewOf crew, permitWorkOf kind items with
  | some n, some c, some k => w.requestPermit n c k
  | _, _, _ => w.refused .badValue

/-- REQUEST_PERMIT (R138). -/
def execRequestPermit (h : Hdr) (number : Half) (kind : Byte) (crew : Half) (count : Byte) (items : List Byte) (s : State) :
    Host.Outcome State Fault Refusal :=
  request h 0x53 (lengthIs h (6 + count.toNat) && items.length == count.toNat)
    (fun _ w => takeRequestPermit number kind crew items w) s

/-- A request that names a live permit: the number's range, then the record; the owner acts on the record. -/
def Work.withPermit (w : Work) (number : Half) (act : Nat → Permit → Taking) : Taking :=
  match permitNumberOf number with
  | none => w.refused .badValue
  | some n =>
    match w.site.livePermit n with
    | none => w.refused .notFound
    | some (k, p) => act k p

/-- ISSUE_PERMIT taken: record `k`, the vehicle at index `i` with ID `tid` (R140, R155). -/
def Work.issuePermit (w : Work) (k i tid : Nat) (p : Permit) : Work :=
  let keyed := w.site.mode == .keyed
  let w := w.modPermit k fun p => { p with state := .issuing, recorded := some tid, keyed, deadline := none }
  let w := w.place (.permit k) i (.permit p.number p.crew (p.attempts + 1) keyed (w.site.permitBody p.work))
  w.reportRecord k (some .requested) .issuedByHost

/-- ISSUE_PERMIT's checks on a live permit (R140). The reply carries the permit's new state, which the rules do not ask for
(DESIGN CHOICE, notes/assumptions/26.md). -/
def Work.checkIssue (w : Work) (k : Nat) (p : Permit) : Taking :=
  if p.state ≠ .requested then w.refused .badState
  else if !w.site.mode.allowsPermits then w.refused .mode
  else if !w.site.authorized p.crew then w.refused .mode
  else
    match w.site.vehicleRecord p.crew with
    | none => w.refused .notAffiliated
    | some (i, t) =>
      if t.state ≠ .affiliated then w.refused .notAffiliated
      else if w.site.issuing p.crew then w.refused .badState
      else if !w.site.interlock p.work then w.refused .interlock
      else (w.issuePermit k i t.id p).taken (.permitState .issuing)

/-- ISSUE_PERMIT (R140). -/
def execIssuePermit (h : Hdr) (number : Half) (s : State) : Host.Outcome State Fault Refusal :=
  request h 0x54 (lengthIs h 2) (fun _ w => w.withPermit number fun k p => w.checkIssue k p) s

/-- WITHDRAW_PERMIT on a live permit (R144): from ISSUING a WITHDRAWN result replaces the PERMIT. -/
def Work.withdrawPermit (w : Work) (k : Nat) (p : Permit) : Taking :=
  match p.state with
  | .requested => (w.finishPermit k .withdrawn .withdrawnByHost).taken (.permitState .withdrawn)
  | .issuing =>
    ((w.placeResult k .withdrawn).finishPermit k .withdrawn .withdrawnByHost).taken (.permitState .withdrawn)
  | .issued | .releasePending | .released | .completed | .withdrawn | .void => w.refused .badState

/-- WITHDRAW_PERMIT (R144). -/
def execWithdrawPermit (h : Hdr) (number : Half) (s : State) : Host.Outcome State Fault Refusal :=
  request h 0x55 (lengthIs h 2) (fun _ w => w.withPermit number fun k p => w.withdrawPermit k p) s

/-- A clearance is released (R148): its sections' counts fall, and it completes. -/
def Work.releasePermit (w : Work) (k : Nat) (p : Permit) (cause : PermitCause) : Work :=
  (w.lowerSections p.work.sections).finishPermit k .released cause

/-- CONFIRM_RELEASE on a live permit (R148). The reply carries the permit's new state, which the rules do not ask for (DESIGN
CHOICE, notes/assumptions/26.md). -/
def Work.confirmRelease (w : Work) (k : Nat) (p : Permit) : Taking :=
  if p.state ≠ .releasePending then w.refused .badState
  else if w.site.alarmsOf p.crew ≠ 0 then w.refused .alarmActive
  else (w.releasePermit k p .confirmed).taken (.permitState .released)

/-- CONFIRM_RELEASE (R148). -/
def execConfirmRelease (h : Hdr) (number : Half) (s : State) : Host.Outcome State Fault Refusal :=
  request h 0x56 (lengthIs h 2) (fun _ w => w.withPermit number fun k p => w.confirmRelease k p) s

/-- REJECT_RELEASE on a live permit (R147). The reply carries the permit's new state, which the rules do not ask for (DESIGN
CHOICE, notes/assumptions/26.md). -/
def Work.rejectRelease (w : Work) (k : Nat) (p : Permit) : Taking :=
  if p.state = .releasePending then
    ((w.modPermit k fun p => { p with state := .issued }).reportRecord k (some .releasePending)
      .releaseRejected).taken (.permitState .issued)
  else w.refused .badState

/-- REJECT_RELEASE (R147). -/
def execRejectRelease (h : Hdr) (number : Half) (s : State) : Host.Outcome State Fault Refusal :=
  request h 0x57 (lengthIs h 2) (fun _ w => w.withPermit number fun k p => w.rejectRelease k p) s

/-- VERBAL_RELEASE on a live permit (R148, R156). The reply carries the permit's new state, which the rules do not ask for
(DESIGN CHOICE, notes/assumptions/26.md). -/
def Work.verbalRelease (w : Work) (k : Nat) (p : Permit) (code : Nat) : Taking :=
  if !(p.work.isClearance && (p.state == .issued || p.state == .releasePending)) then w.refused .badState
  else if code ≠ w.site.releaseCode p then w.refused .mismatch
  else if w.site.alarmsOf p.crew ≠ 0 then w.refused .alarmActive
  else (w.releasePermit k p .verbal).taken (.permitState .released)

/-- VERBAL_RELEASE (R148). -/
def execVerbalRelease (h : Hdr) (number code : Half) (s : State) : Host.Outcome State Fault Refusal :=
  request h 0x58 (lengthIs h 4) (fun _ w =>
    if code.toNat ≤ 9999 then w.withPermit number fun k p => w.verbalRelease k p code.toNat
    else w.refused .badValue) s

/-- RESTORE_PERMIT's checks after the ranges, and its effect (R149). The new permit takes the lowest free record (DESIGN
CHOICE, notes/assumptions/27.md), and the reply carries its state, which the rules do not ask for (DESIGN CHOICE,
notes/assumptions/26.md). -/
def Work.restorePermit (w : Work) (n crew : Nat) (k : PermitWork) : Taking :=
  if !w.site.keyEnable then w.refused .key
  else if (Table.look w.site.crews crew).isNone then w.refused .notFound
  else if !w.site.namesDefined k then w.refused .badValue
  else if (w.site.livePermit n).isSome then w.refused .duplicate
  else
    match Table.firstFree w.site.permits 48 with
    | none => w.refused .noRoom
    | some i =>
      if !w.site.interlock k then w.refused .interlock
      else
        let p := Permit.created n k crew .issued ((w.site.vehicleRecord crew).map fun v => v.2.id)
          (w.site.mode == .keyed) true
        ((w.raiseSections k.sections).createPermit i p .restored).taken (.permitState .issued)

/-- RESTORE_PERMIT's first check (R149). -/
def takeRestorePermit (number : Half) (kind : Byte) (crew : Half) (items : List Byte) (w : Work) : Taking :=
  match permitNumberOf number, crewOf crew, permitWorkOf kind items with
  | some n, some c, some k => w.restorePermit n c k
  | _, _, _ => w.refused .badValue

/-- RESTORE_PERMIT (R149). -/
def execRestorePermit (h : Hdr) (number : Half) (kind : Byte) (crew : Half) (count : Byte) (items : List Byte) (s : State) :
    Host.Outcome State Fault Refusal :=
  request h 0x59 (lengthIs h (6 + count.toNat) && items.length == count.toNat)
    (fun _ w => takeRestorePermit number kind crew items w) s

/-! ### Reading the map and the table (R153) -/

/-- A permit as GET_SECTION and GET_SWITCH list it. -/
def Permit.brief (p : Permit) : PermitBrief := { number := p.number, crew := p.crew, state := p.state }

/-- A switch point that the permit names. -/
def PermitWork.names (k : PermitWork) (n : Nat) : Bool :=
  match k with
  | .switching sw _ => sw == n
  | .clearance _ => false

/-- The live permits that concern a section: those that list it or name a switch point joining it (R153), by record place
(DESIGN CHOICE, notes/assumptions/27.md). -/
def Site.permitsAtSection (s : Site) (n : Nat) : List PermitBrief :=
  (s.permits.filter fun e => e.2.live && (e.2.work.sections.contains n
    || s.switches.any fun x => x.2.joins n && e.2.work.names x.1)).map fun e => e.2.brief

/-- GET_SECTION's check and reply (R153). The bounding switch points are listed in ascending number (DESIGN CHOICE,
notes/assumptions/27.md). -/
def takeGetSection (number : Byte) (w : Work) : Taking :=
  if number.toNat ≤ 63 then
    w.taken (.sectionInfo (Table.look w.site.sections number.toNat).isSome (w.site.clearances number.toNat)
      ((w.site.switches.filter fun e => e.2.joins number.toNat).map fun e => (e.1, e.2.position))
      (w.site.permitsAtSection number.toNat))
  else w.refused .badValue

/-- GET_SECTION (R153). -/
def execGetSection (h : Hdr) (number : Byte) (s : State) : Host.Outcome State Fault Refusal :=
  request h 0x5A (lengthIs h 1) (fun _ w => takeGetSection number w) s

/-- The live permits that name a switch point or list a section it joins (R153), by record place (DESIGN CHOICE,
notes/assumptions/27.md). -/
def Site.permitsAtSwitch (s : Site) (n : Nat) : List PermitBrief :=
  (s.permits.filter fun e => e.2.live && (e.2.work.names n
    || (s.sidesOf n).any fun x => e.2.work.sections.contains x)).map fun e => e.2.brief

/-- GET_SWITCH's check and reply (R153). -/
def takeGetSwitch (number : Byte) (w : Work) : Taking :=
  if number.toNat ≤ 127 then
    w.taken (.switchInfo number.toNat (Table.look w.site.switches number.toNat)
      ((Table.look w.site.switches number.toNat).any w.site.tagged)
      ((w.site.sidesOf number.toNat).map fun x => (x, w.site.clearances x))
      (w.site.permitsAtSwitch number.toNat))
  else w.refused .badValue

/-- GET_SWITCH (R153). -/
def execGetSwitch (h : Hdr) (number : Byte) (s : State) : Host.Outcome State Fault Refusal :=
  request h 0x5B (lengthIs h 1) (fun _ w => takeGetSwitch number w) s

/-- The record GET_PERMIT reports for a number: the live permit, else a retained record (R153), of several that hold the number
the one of lowest place (DESIGN CHOICE, notes/assumptions/27.md). -/
def Site.permitNamed (s : Site) (n : Nat) : Option (Nat × Permit) :=
  (s.livePermit n).or (Table.seek s.permits fun _ p => p.number == n && p.retained)

/-- How many permits are in a state. -/
def Site.permitsIn (s : Site) (t : PermitState) : Nat := Table.tally s.permits fun _ p => p.state == t

/-- The table summary (R153). -/
def Site.permitSummary (s : Site) : PermitSummary :=
  { requested := s.permitsIn .requested, issuing := s.permitsIn .issuing, issued := s.permitsIn .issued
    releasePending := s.permitsIn .releasePending, released := s.permitsIn .released, completed := s.permitsIn .completed
    withdrawn := s.permitsIn .withdrawn, void := s.permitsIn .void, retained := Table.tally s.permits fun _ p => p.retained
    free := 48 - s.permits.length, arrivalsIgnored := s.arrivalsIgnored, dangerDrops := s.dangerDrops }

/-- GET_PERMIT's check and reply (R153). -/
def takeGetPermit (number : Half) (w : Work) : Taking :=
  if number = 0 then w.taken (.permitSummary w.site.permitSummary)
  else
    match w.site.permitNamed number.toNat with
    | none => w.refused .notFound
    | some (k, p) =>
      w.taken (.permit p (p.deadline.map fun d => d - w.site.count) (w.site.standing (.permit k) .permit))

/-- GET_PERMIT (R153). -/
def execGetPermit (h : Hdr) (number : Half) (s : State) : Host.Outcome State Fault Refusal :=
  request h 0x5C (lengthIs h 2) (fun _ w => takeGetPermit number w) s

/-! ### Arrivals and the readback expiry (R141, R143, R146, R147) -/

/-- The live permit with a number whose crew's current vehicle is the sender at index `i`. -/
def Site.permitFrom (s : Site) (number i : Nat) : Option (Nat × Permit) :=
  match s.livePermit number with
  | some (k, p) => if s.vehicleOf p.crew = some i then some (k, p) else none
  | none => none

/-- A READBACK that shows the issue code (R143). -/
def Work.readbackMatch (w : Work) (k : Nat) (p : Permit) : Work :=
  let w := w.modPermit k fun p => { p with state := .issued, deadline := none }
  ((w.raiseSections p.work.sections).placeResult k .accepted).reportRecord k (some .issuing) .readbackMatch

/-- A READBACK that shows another code (R143): at the third the permit is VOID. -/
def Work.readbackMismatch (w : Work) (k : Nat) (p : Permit) : Work :=
  let w := w.modPermit k fun p => { p with attempts := p.attempts + 1 }
  if p.attempts + 1 < 3 then
    ((w.placeResult k .mismatch).modPermit k fun p =>
      { p with deadline := some (p.deadline.getD (w.site.count + 180)) }).reportRecord k (some .issuing)
      .readbackMismatch
  else (w.placeResult k .void).finishPermit k .void .readbackMismatch

/-- A READBACK in place from the terminal at index `i` (R143). -/
def Work.takeReadback (w : Work) (i number code : Nat) : Work :=
  match w.site.permitFrom number i with
  | some (k, p) =>
    if p.state = .issuing then
      if code = w.site.issueCode p then w.readbackMatch k p else w.readbackMismatch k p
    else w.ignoreArrival
  | none => w.ignoreArrival

/-- READBACK (R143). -/
def execReadback (a : Arrival) (number : Half) (code : Fin 10000) (s : State) : Host.Outcome State Fault Refusal :=
  granted a (fun _ i w => w.takeReadback i number.toNat code.val) s

/-- The position a switching operation leaves (R146). -/
def SwitchOp.result (op : SwitchOp) : SwitchPosition :=
  match op with
  | .opening => .opened
  | .closing => .closed

/-- A SWITCH_DONE in place from the terminal at index `i` (R146). -/
def Work.takeSwitchDone (w : Work) (i number : Nat) : Work :=
  match w.site.permitFrom number i with
  | some (k, p) =>
    match p.state, p.work with
    | .issued, .switching sw op =>
      (w.recordPosition sw op.result (.switchDone number)).1.finishPermit k .completed .switchDone
    | _, _ => w.ignoreArrival
  | none => w.ignoreArrival

/-- SWITCH_DONE (R146). -/
def execSwitchDone (a : Arrival) (number : Half) (s : State) : Host.Outcome State Fault Refusal :=
  granted a (fun _ i w => w.takeSwitchDone i number.toNat) s

/-- A RELEASE_ASK in place from the terminal at index `i` (R147). -/
def Work.takeReleaseAsk (w : Work) (i number : Nat) : Work :=
  match w.site.permitFrom number i with
  | some (k, p) =>
    if p.state = .issued ∧ p.work.isClearance then
      (w.modPermit k fun p => { p with state := .releasePending }).reportRecord k (some .issued) .releaseAsk
    else w.ignoreArrival
  | none => w.ignoreArrival

/-- RELEASE_ASK (R147). -/
def execReleaseAsk (a : Arrival) (number : Half) (s : State) : Host.Outcome State Fault Refusal :=
  granted a (fun _ i w => w.takeReleaseAsk i number.toNat) s

/-- The readback deadline of an ISSUING permit expires (R141). -/
def Work.readbackExpires (w : Work) (number : Nat) : Work :=
  match w.site.livePermit number with
  | some (k, p) =>
    if p.state = .issuing ∧ due p.deadline w.site.count then w.revertPermit k .readbackTimeout false else w
  | none => w

/-- READBACK_TIMEOUT (R141). -/
def execReadbackTimeout (number : Half) (s : State) : Host.Outcome State Fault Refusal :=
  event (fun w => w.readbackExpires number.toNat) s

end Sys2Proof.Machine
end

