-- ==== Sys2Proof/Machine/Watches.lean ====
section
/-! DEFINITION. The supervision requests, CHECK_IN, ALARM and the supervision expiries (Chapter 6). -/

set_option Elab.async false

namespace Sys2Proof.Machine

/-! ### Requests -/

/-- The record START_WATCH creates (R113). -/
def Site.newWatch (s : Site) (interval missLimit : Nat) (assist : Bool) : Watch :=
  { state := .watching, interval, lead := leadOf interval, missLimit, missed := 0
    deadline := s.count + secondsOf interval, lastCheckIn := none, lastPosition := none, assist, confirmed := false
    cause := none, alarmTime := none, alarmChannel := none, escalations := 0, escalationExpiry := none
    seenOwed := false }

/-- START_WATCH taken for the unit at index `u` (R113): a held stop notice ends with its item, and the START is placed. -/
def Work.startWatch (w : Work) (u : Nat) (r : Watch) : Work :=
  let w := w.modSite fun s => { s with watches := s.watches.put u r }
  let w : Work := if (Table.look w.site.stopNotices u).isSome then
      (w.cancelOwned (.terminal u) .watchSet).dropNotice u else w
  w.placeWatchStart u

/-- START_WATCH's checks (R113). -/
def takeStartWatch (id : Word) (interval missLimit assist : Byte) (w : Work) : Taking :=
  match idOf id, markOf assist with
  | some n, some m =>
    if 1 ≤ missLimit.toNat ∧ missLimit.toNat ≤ 3 then
      match w.site.byId n with
      | none => w.refused .notFound
      | some (u, t) =>
        if t.kind ≠ .personal ∨ t.crew.isNone then w.refused .badValue
        else if (Table.look w.site.watches u).isSome then w.refused .duplicate
        else if 64 ≤ w.site.watches.length then w.refused .noRoom
        else
          let r := w.site.newWatch (durationCodeOf interval) missLimit.toNat m
          (w.startWatch u r).taken (.watchStarted u r.lead r.deadline)
    else w.refused .badValue
  | _, _ => w.refused .badValue

/-- START_WATCH (R113). -/
def execStartWatch (h : Hdr) (id : Word) (interval missLimit assist : Byte) (s : State) :
    Host.Outcome State Fault Refusal :=
  request h 0x40 (lengthIs h 7) (fun _ w => takeStartWatch id interval missLimit assist w) s

/-- A request that names a supervised unit: its ID's range, then its record; the owner acts on the unit's index and its
record. -/
def Work.withWatch (w : Work) (id : Word) (act : Nat → Watch → Taking) : Taking :=
  match idOf id with
  | none => w.refused .badValue
  | some n =>
    match w.site.byId n with
    | none => w.refused .notFound
    | some (u, _) =>
      match Table.look w.site.watches u with
      | none => w.refused .notFound
      | some r => act u r

/-- STOP_WATCH's checks and effect (R114). -/
def takeStopWatch (id : Word) (w : Work) : Taking :=
  w.withWatch id fun u r =>
    if r.state.inAlarm then w.refused .alarmActive else (w.removeWatch u .stopped).taken .empty

/-- STOP_WATCH (R114). -/
def execStopWatch (h : Hdr) (id : Word) (s : State) : Host.Outcome State Fault Refusal :=
  request h 0x41 (lengthIs h 4) (fun _ w => takeStopWatch id w) s

/-- ACK_ALARM taken (R115). -/
def Work.ackAlarm (w : Work) (u : Nat) (r : Watch) : Work :=
  let w := (w.modWatch u fun r => { r with state := .acknowledged, escalationExpiry := none }).placeAlarmSeen u
  w.reportWatch u r (some .acknowledged) .alarm .acknowledged false

/-- ACK_ALARM's checks (R115). -/
def takeAckAlarm (id : Word) (w : Work) : Taking :=
  w.withWatch id fun u r => if r.state = .alarm then (w.ackAlarm u r).taken .empty else w.refused .badState

/-- ACK_ALARM (R115). -/
def execAckAlarm (h : Hdr) (id : Word) (s : State) : Host.Outcome State Fault Refusal :=
  request h 0x42 (lengthIs h 4) (fun _ w => takeAckAlarm id w) s

/-- The record after the first step of RESOLVE_ALARM (R116). -/
def Watch.settled (r : Watch) : Watch :=
  { r with
    cause := none, alarmTime := none, alarmChannel := none, escalations := 0, escalationExpiry := none
    seenOwed := false }

/-- RESOLVE_ALARM with WATCH, after the alarm is settled (R116): `previous` is the state the alarm stood in. -/
def Work.resumeWatch (w : Work) (u : Nat) (previous : WatchState) : Work :=
  let w := w.modWatch u fun r =>
    { r with state := .watching, missed := 0, deadline := w.site.count + secondsOf r.interval }
  match Table.look w.site.watches u with
  | some r =>
    let w := if r.confirmed then w else w.placeWatchStart u
    w.reportWatch u r (some .watching) previous .resolved false
  | none => w

/-- RESOLVE_ALARM taken (R116). -/
def Work.resolveAlarm (w : Work) (u : Nat) (r : Watch) (watch : Bool) : Work :=
  let w := (w.modWatch u Watch.settled).lowerAlarms u
  if watch then w.resumeWatch u r.state else w.removeWatch u .resolved

/-- RESOLVE_ALARM's checks (R116). -/
def takeResolveAlarm (id : Word) (action : Byte) (w : Work) : Taking :=
  match resolveOf action with
  | none => w.refused .badValue
  | some watch =>
    w.withWatch id fun u r => if r.state.inAlarm then (w.resolveAlarm u r watch).taken .empty else w.refused .badState

/-- RESOLVE_ALARM (R116). -/
def execResolveAlarm (h : Hdr) (id : Word) (action : Byte) (s : State) : Host.Outcome State Fault Refusal :=
  request h 0x43 (lengthIs h 5) (fun _ w => takeResolveAlarm id action w) s

/-- The next expiry of a record and the seconds remaining to it (R117). -/
def Watch.next (r : Watch) (count : Nat) : Option (NextExpiry × Nat) :=
  match r.state with
  | .watching => some (.promptDue, r.deadline - r.lead - count)
  | .prompted => some (.deadline, r.deadline - count)
  | .overdue => some (.graceExpiry, r.deadline + r.lead - count)
  | .alarm => r.escalationExpiry.map fun e => (.escalation, e - count)
  | .acknowledged => none

/-- How many records are in a state (R117). -/
def Site.watchesIn (s : Site) (t : WatchState) : Nat := Table.tally s.watches fun _ r => r.state == t

/-- The site summary (R117). -/
def Site.watchSummary (s : Site) : WatchSummary :=
  { watching := s.watchesIn .watching, prompted := s.watchesIn .prompted, overdue := s.watchesIn .overdue
    alarm := s.watchesIn .alarm, acknowledged := s.watchesIn .acknowledged, free := 64 - s.watches.length
    attended := s.attended, silenceLimit := s.silenceLimit, sinceArrival := s.lastArrival.map fun a => s.count - a
    escalation := s.escalation, assistDrops := s.assistDrops, checkInsIgnored := s.checkInsIgnored
    unsupervised := s.unsupervised, stopNotices := s.stopNotices.length }

/-- What GET_WATCH returns of a record (R117). -/
def Site.watchBody (s : Site) (u : Nat) (r : Watch) : WatchBody :=
  { unit := u, record := r, crew := s.boundCrew u
    terminalState := ((Table.look s.roster u).map Terminal.state).getD .unknown, next := r.next s.count
    watchSet := s.standing (.watch u) .watchSet, prompt := s.standing (.watch u) .prompt }

/-- GET_WATCH's checks and reply (R117). -/
def takeGetWatch (id : Word) (w : Work) : Taking :=
  if id = 0 then w.taken (.watchSummary w.site.watchSummary)
  else w.withWatch id fun u r => w.taken (.watch (w.site.watchBody u r))

/-- GET_WATCH (R117). -/
def execGetWatch (h : Hdr) (id : Word) (s : State) : Host.Outcome State Fault Refusal :=
  request h 0x44 (lengthIs h 4) (fun _ w => takeGetWatch id w) s

/-! ### CHECK_IN (R121) -/

/-- A position carried in a frame becomes the last position (R121, R123). -/
def Watch.placed (r : Watch) (p : Option Position) : Watch := { r with lastPosition := p.or r.lastPosition }

/-- A CHECK_IN for the record of unit `u` (R121). -/
def Work.checkedIn (w : Work) (u : Nat) (r : Watch) (p : Option Position) : Work :=
  let w := w.modWatch u fun r => { r.placed p with lastCheckIn := some w.site.count }
  if r.state.inAlarm then w
  else
    let w := w.modWatch u fun r =>
      { r with state := .watching, missed := 0, deadline := w.site.count + secondsOf r.interval }
    let w := w.cancelOwned (.watch u) .prompt
    match r.state, Table.look w.site.watches u with
    | .watching, _ => w
    | _, some now => w.reportWatch u now (some .watching) r.state .checkedIn false
    | _, none => w

/-- A CHECK_IN in place (R121). -/
def Work.takeCheckIn (w : Work) (i : Nat) (p : Option Position) : Work :=
  match Table.look w.site.watches i with
  | some r => w.checkedIn i r p
  | none => w.modSite fun s => { s with checkInsIgnored := s.checkInsIgnored.bump }

/-- CHECK_IN (R121). -/
def execCheckIn (a : Arrival) (position : RawPosition) (s : State) : Host.Outcome State Fault Refusal :=
  granted a (fun _ i w => w.takeCheckIn i (positionTaken position)) s

/-! ### ALARM (R123, R124) -/

/-- An ALARM for the record of unit `u` (R123). The frame's position becomes the last position before the record enters ALARM,
so the ALARM report of the entry carries it (DESIGN CHOICE, notes/assumptions/34.md). -/
def Work.alarmRaised (w : Work) (u : Nat) (r : Watch) (c : Chan) (cause : AlarmCause) (p : Option Position) : Work :=
  let w := w.modWatch u fun r => r.placed p
  let w : Work := match r.state with
    | .watching | .prompted | .overdue => w.enterAlarm u cause (some c) false
    | .alarm => w.modWatch u fun r => { r with alarmChannel := some c }
    | .acknowledged => w.enterAlarm u cause (some c) true
  w.placeAlarmSeen u

/-- The record an ALARM creates (R124), before its entry to ALARM. -/
def Site.alarmWatch (s : Site) (p : Option Position) : Watch :=
  { state := .alarm, interval := 9, lead := leadOf 9, missLimit := 1, missed := 0, deadline := s.count + secondsOf 9
    lastCheckIn := none, lastPosition := p, assist := true, confirmed := false, cause := none, alarmTime := none
    alarmChannel := none, escalations := 0, escalationExpiry := none, seenOwed := false }

/-- Queue and count an UNSUPERVISED_ALARM report (R124, R128). -/
def Work.unsupervised (w : Work) (c : Chan) (sender : AlarmSender) (t : Option Terminal) (cause : AlarmCause)
    (p : Option Position) (reason : UnsupervisedReason) : Work :=
  (w.modSite fun s => { s with unsupervised := s.unsupervised.bump }).emit (.unsupervisedAlarm
    { channel := c, sender, kind := t.map Terminal.kind, crew := t.bind Terminal.crew, cause, position := p, reason })

/-- An ALARM from the roster record at index `i` (R123, R124). -/
def Work.alarmFrom (w : Work) (i : Nat) (t : Terminal) (c : Chan) (cause : AlarmCause) (p : Option Position) : Work :=
  match t.kind with
  | .vehicle => w.unsupervised c (.record t.id i) (some t) cause p .vehicle
  | .personal =>
    match Table.look w.site.watches i with
    | some r => w.alarmRaised i r c cause p
    | none =>
      if w.site.watches.length < 64 then
        ((w.modSite fun s => { s with watches := s.watches.put i (s.alarmWatch p) }).enterAlarm i cause (some c)
          false).placeAlarmSeen i
      else
        let w := w.unsupervised c (.record t.id i) (some t) cause p .noRecordFree
        if w.site.alertRoom c then w.pushAlert c (.alarmSeen t.id false) else w

/-- An ALARM whose sender resolves to no record (R124). -/
def Work.alarmUnknown (w : Work) (c : Chan) (f : Sender) (cause : AlarmCause) (p : Option Position) : Work :=
  match f with
  | .id t => w.unsupervised c (.idOnly t.toNat) none cause p .notInRoster
  | .short x => w.unsupervised c (.shortOnly x.toNat) none cause p .unresolved

/-- An ALARM with its sender as resolved (R123, R124). -/
def Work.takeAlarm (w : Work) (sender : Option Nat) (c : Chan) (f : Sender) (cause : AlarmCause) (p : Option Position) :
    Work :=
  match sender with
  | some i =>
    match Table.look w.site.roster i with
    | some t => w.alarmFrom i t c cause p
    | none => w
  | none => w.alarmUnknown c f cause p

/-- ALARM (R123, R124): a contention kind, always in place. -/
def execAlarm (a : Arrival) (cause : AlarmCall) (position : RawPosition) (s : State) :
    Host.Outcome State Fault Refusal :=
  arrival a (fun c sender w => w.takeAlarm sender c a.sender (calledCause cause) (positionTaken position)) s

/-! ### The check-in cycle and the escalation (R118 to R120, R127) -/

/-- The prompt is due in WATCHING (R118). -/
def Work.promptExpires (w : Work) (u : Nat) : Work :=
  match Table.look w.site.watches u with
  | some r =>
    if r.state = .watching ∧ r.deadline - r.lead ≤ w.site.count then
      ((w.modWatch u fun r => { r with state := .prompted }).placePrompt u).reportWatch u r (some .prompted) .watching
        .promptDue false
    else w
  | none => w

/-- PROMPT_DUE (R118). -/
def execPromptDue (unit : Fin 160) (s : State) : Host.Outcome State Fault Refusal :=
  event (fun w => w.promptExpires unit.val) s

/-- The deadline is reached in PROMPTED (R119). -/
def Work.deadlineExpires (w : Work) (u : Nat) : Work :=
  match Table.look w.site.watches u with
  | some r =>
    if r.state = .prompted ∧ r.deadline ≤ w.site.count then
      (w.modWatch u fun r => { r with state := .overdue }).reportWatch u r (some .overdue) .prompted .deadline false
    else w
  | none => w

/-- DEADLINE_EXPIRY (R119). -/
def execDeadlineExpiry (unit : Fin 160) (s : State) : Host.Outcome State Fault Refusal :=
  event (fun w => w.deadlineExpires unit.val) s

/-- The alarm channel of an entry with cause NO_CHECKIN: the unit's channel when it is AFFILIATED (R125). -/
def Site.ownChannel (s : Site) (u : Nat) : Option Chan :=
  match Table.look s.roster u with
  | some t => if t.state = .affiliated then t.channel else none
  | none => none

/-- A grace cycle is renewed (R120). -/
def Work.renewGrace (w : Work) (u : Nat) (r : Watch) : Work :=
  let renewed := { r with state := .prompted, missed := r.missed + 1, deadline := w.site.count + r.lead }
  ((w.modWatch u fun _ => renewed).placePrompt u).reportWatch u renewed (some .prompted) .overdue .graceExpiry false

/-- The grace expires in OVERDUE (R120). -/
def Work.graceExpires (w : Work) (u : Nat) : Work :=
  match Table.look w.site.watches u with
  | some r =>
    if r.state = .overdue ∧ r.deadline + r.lead ≤ w.site.count then
      if r.missed + 1 < r.missLimit then w.renewGrace u r
      else
        (w.modWatch u fun r => { r with missed := r.missed + 1 }).enterAlarm u .noCheckIn (w.site.ownChannel u) false
    else w
  | none => w

/-- GRACE_EXPIRY (R120). -/
def execGraceExpiry (unit : Fin 160) (s : State) : Host.Outcome State Fault Refusal :=
  event (fun w => w.graceExpires unit.val) s

/-- One escalation of the record of unit `u` (R127): count, restart, report, assist, owed ALARM_SEEN. -/
def Work.escalate (w : Work) (u : Nat) (r : Watch) : Work :=
  let raised := { r with
    escalations := min 255 (r.escalations + 1), escalationExpiry := some (w.site.count + w.site.escalation) }
  let w := (w.modWatch u fun _ => raised).reportAlarm u raised .escalation
  let w := if raised.assist || !w.site.attended then w.placeAssists u raised else w
  if raised.seenOwed then w.placeAlarmSeen u else w

/-- The escalation expires in ALARM (R127). -/
def Work.escalationExpires (w : Work) (u : Nat) : Work :=
  match Table.look w.site.watches u with
  | some r => if r.state = .alarm ∧ due r.escalationExpiry w.site.count then w.escalate u r else w
  | none => w

/-- ESCALATION_EXPIRY (R127). -/
def execEscalationExpiry (unit : Fin 160) (s : State) : Host.Outcome State Fault Refusal :=
  event (fun w => w.escalationExpires unit.val) s

/-- The drop time of the stop notice of unit `u` (R114): an item on the list is cancelled, one in a queue runs on, and the
notice is removed. -/
def Work.noticeExpires (w : Work) (u : Nat) : Work :=
  if due (Table.look w.site.stopNotices u) w.site.count then
    let w := w.dropNotice u
    match w.site.owned (.terminal u) .watchSet with
    | some (id, it) => if it.location.isNone then w.cancelItem id else w
    | none => w
  else w

/-- STOP_NOTICE_DROP (R114). -/
def execStopNoticeDrop (unit : Fin 160) (s : State) : Host.Outcome State Fault Refusal :=
  event (fun w => w.noticeExpires unit.val) s

end Sys2Proof.Machine
end

