-- ==== Sys2Proof/Machine/Dispatch.lean ====
section
/-! DEFINITION. The dispatch of a command to its meaning, one arm for each constructor of Instr. -/

namespace Sys2Proof.Machine

/-- A command's effect on everything but the queue of waiting commands. -/
def exec (i : Instr) (s : State) : Host.Outcome State Fault Refusal :=
  match i with
  | .powerOn lines => Sys2Proof.Machine.execPowerOn lines s
  | .getStatus h => Sys2Proof.Machine.execGetStatus h s
  | .setSite h siteId escalation silence mask => Sys2Proof.Machine.execSetSite h siteId escalation silence mask s
  | .setClock h label => Sys2Proof.Machine.execSetClock h label s
  | .storeSettings h => Sys2Proof.Machine.execStoreSettings h s
  | .restart h => Sys2Proof.Machine.execRestart h s
  | .loadTerminal h id kind => Sys2Proof.Machine.execLoadTerminal h id kind s
  | .dropTerminal h id => Sys2Proof.Machine.execDropTerminal h id s
  | .getTerminal h selector value => Sys2Proof.Machine.execGetTerminal h selector value s
  | .loadCrew h crew vehicle key count members => Sys2Proof.Machine.execLoadCrew h crew vehicle key count members s
  | .dropCrew h crew => Sys2Proof.Machine.execDropCrew h crew s
  | .getCrew h crew => Sys2Proof.Machine.execGetCrew h crew s
  | .bringUp h channel => Sys2Proof.Machine.execBringUp h channel s
  | .quiet h channel => Sys2Proof.Machine.execQuiet h channel s
  | .channelReset h channel => Sys2Proof.Machine.execChannelReset h channel s
  | .setChannel h channel f => Sys2Proof.Machine.execSetChannel h channel f s
  | .takeStats h channel clear => Sys2Proof.Machine.execTakeStats h channel clear s
  | .getChannel h channel => Sys2Proof.Machine.execGetChannel h channel s
  | .sendOrder h number crew priority hold count content => Sys2Proof.Machine.execSendOrder h number crew priority hold count content s
  | .cancelOrder h number => Sys2Proof.Machine.execCancelOrder h number s
  | .closeOrder h number => Sys2Proof.Machine.execCloseOrder h number s
  | .getOrder h number => Sys2Proof.Machine.execGetOrder h number s
  | .startWatch h id interval missLimit assist => Sys2Proof.Machine.execStartWatch h id interval missLimit assist s
  | .stopWatch h id => Sys2Proof.Machine.execStopWatch h id s
  | .ackAlarm h id => Sys2Proof.Machine.execAckAlarm h id s
  | .resolveAlarm h id action => Sys2Proof.Machine.execResolveAlarm h id action s
  | .getWatch h id => Sys2Proof.Machine.execGetWatch h id s
  | .defineSection h number action => Sys2Proof.Machine.execDefineSection h number action s
  | .defineSwitch h number action sideA sideB => Sys2Proof.Machine.execDefineSwitch h number action sideA sideB s
  | .setSwitchPosition h number position => Sys2Proof.Machine.execSetSwitchPosition h number position s
  | .requestPermit h number kind crew count items => Sys2Proof.Machine.execRequestPermit h number kind crew count items s
  | .issuePermit h number => Sys2Proof.Machine.execIssuePermit h number s
  | .withdrawPermit h number => Sys2Proof.Machine.execWithdrawPermit h number s
  | .confirmRelease h number => Sys2Proof.Machine.execConfirmRelease h number s
  | .rejectRelease h number => Sys2Proof.Machine.execRejectRelease h number s
  | .verbalRelease h number code => Sys2Proof.Machine.execVerbalRelease h number code s
  | .restorePermit h number kind crew count items => Sys2Proof.Machine.execRestorePermit h number kind crew count items s
  | .getSection h number => Sys2Proof.Machine.execGetSection h number s
  | .getSwitch h number => Sys2Proof.Machine.execGetSwitch h number s
  | .getPermit h number => Sys2Proof.Machine.execGetPermit h number s
  | .setAuthList h count crews => Sys2Proof.Machine.execSetAuthList h count crews s
  | .setMode h mode => Sys2Proof.Machine.execSetMode h mode s
  | .getAuth h => Sys2Proof.Machine.execGetAuth h s
  | .badCheckDiscard => Sys2Proof.Machine.execBadCheckDiscard s
  | .tooLongDiscard => Sys2Proof.Machine.execTooLongDiscard s
  | .gapExpiry => Sys2Proof.Machine.execGapExpiry s
  | .badTagDiscard => Sys2Proof.Machine.execBadTagDiscard s
  | .overflowDiscard h => Sys2Proof.Machine.execOverflowDiscard h s
  | .unknownKindRefusal h kind => Sys2Proof.Machine.execUnknownKindRefusal h kind s
  | .requestDiscardedAfterRestart => Sys2Proof.Machine.execRequestDiscardedAfterRestart s
  | .outgoingFrameSent firstStrapTied secondStrapTied => Sys2Proof.Machine.execOutgoingFrameSent firstStrapTied secondStrapTied s
  | .storeWriteCompletion => Sys2Proof.Machine.execStoreWriteCompletion s
  | .modeWriteCompletion => Sys2Proof.Machine.execModeWriteCompletion s
  | .moduleInserted channel => Sys2Proof.Machine.execModuleInserted channel s
  | .moduleRemoved channel => Sys2Proof.Machine.execModuleRemoved channel s
  | .leverOpened channel => Sys2Proof.Machine.execLeverOpened channel s
  | .leverClosed channel => Sys2Proof.Machine.execLeverClosed channel s
  | .supplyLevelChange firstSupply secondSupply => Sys2Proof.Machine.execSupplyLevelChange firstSupply secondSupply s
  | .keySwitchMoved enable => Sys2Proof.Machine.execKeySwitchMoved enable s
  | .transceiverReady channel => Sys2Proof.Machine.execTransceiverReady channel s
  | .trainingTimeout channel => Sys2Proof.Machine.execTrainingTimeout channel s
  | .quietTimerExpiry channel => Sys2Proof.Machine.execQuietTimerExpiry channel s
  | .beaconTimerExpiry channel => Sys2Proof.Machine.execBeaconTimerExpiry channel s
  | .sendCompletion channel => Sys2Proof.Machine.execSendCompletion channel s
  | .sendFailure channel => Sys2Proof.Machine.execSendFailure channel s
  | .windowClose channel => Sys2Proof.Machine.execWindowClose channel s
  | .inboundBadCheck channel => Sys2Proof.Machine.execInboundBadCheck channel s
  | .inboundUndecodable a => Sys2Proof.Machine.execInboundUndecodable a s
  | .access a => Sys2Proof.Machine.execAccess a s
  | .affiliate channel sample id content => Sys2Proof.Machine.execAffiliate channel sample id content s
  | .alarm a cause position => Sys2Proof.Machine.execAlarm a cause position s
  | .ack a bit free => Sys2Proof.Machine.execAck a bit free s
  | .checkIn a position => Sys2Proof.Machine.execCheckIn a position s
  | .orderReply a number reply free => Sys2Proof.Machine.execOrderReply a number reply free s
  | .readback a number code => Sys2Proof.Machine.execReadback a number code s
  | .switchDone a number => Sys2Proof.Machine.execSwitchDone a number s
  | .releaseAsk a number => Sys2Proof.Machine.execReleaseAsk a number s
  | .depart a => Sys2Proof.Machine.execDepart a s
  | .secondTick => Sys2Proof.Machine.execSecondTick s
  | .hostSilenceExpiry => Sys2Proof.Machine.execHostSilenceExpiry s
  | .holdExpiry number => Sys2Proof.Machine.execHoldExpiry number s
  | .promptDue unit => Sys2Proof.Machine.execPromptDue unit s
  | .deadlineExpiry unit => Sys2Proof.Machine.execDeadlineExpiry unit s
  | .graceExpiry unit => Sys2Proof.Machine.execGraceExpiry unit s
  | .escalationExpiry unit => Sys2Proof.Machine.execEscalationExpiry unit s
  | .stopNoticeDrop unit => Sys2Proof.Machine.execStopNoticeDrop unit s
  | .readbackTimeout number => Sys2Proof.Machine.execReadbackTimeout number s
  | .powerLoss => Sys2Proof.Machine.execPowerLoss s

end Sys2Proof.Machine
end

