-- ==== Sys2Proof/Machine/Layouts.lean ====
section
/-! DEFINITION. The byte and bit layouts of Chapter 10: checks, control frames, request bodies, the central report bodies, the
outbound air header and the inbound air frames. -/

set_option Elab.async false

namespace Sys2Proof.Machine

/-! ### Bytes and checks (R178 to R180) -/

/-- Two bytes, most significant first. -/
def bytes2 (w : Half) : List Byte := [w.extractLsb' 8 8, w.extractLsb' 0 8]

/-- Four bytes, most significant first. -/
def bytes4 (w : Word) : List Byte := [w.extractLsb' 24 8, w.extractLsb' 16 8, w.extractLsb' 8 8, w.extractLsb' 0 8]

/-- A number in one byte. -/
def byteOf (n : Nat) : Byte := BitVec.ofNat 8 n

/-- A number in two bytes. -/
def halfOf (n : Nat) : List Byte := bytes2 (BitVec.ofNat 16 n)

/-- A number in four bytes. -/
def wordOf (n : Nat) : List Byte := bytes4 (BitVec.ofNat 32 n)

/-- A mark (R178). -/
def markByte (b : Bool) : Byte := if b then 1 else 0

/-- The byte at an offset; 0 past the end. -/
def at1 (l : List Byte) (i : Nat) : Byte := l.getD i 0

/-- The two bytes at an offset as one field. -/
def at2 (l : List Byte) (i : Nat) : Half := at1 l i ++ at1 l (i + 1)

/-- The four bytes at an offset as one field. -/
def at4 (l : List Byte) (i : Nat) : Word := at2 l i ++ at2 l (i + 2)

/-- `n` fields of four bytes. -/
def wordsAt : Nat → List Byte → List Word
  | 0, _ => []
  | n + 1, l => at4 l 0 :: wordsAt n (l.drop 4)

/-- `n` fields of two bytes. -/
def halvesAt : Nat → List Byte → List Half
  | 0, _ => []
  | n + 1, l => at2 l 0 :: halvesAt n (l.drop 2)

/-- `n` bytes; those past the end read 0. -/
def bytesAt : Nat → List Byte → List Byte
  | 0, _ => []
  | n + 1, l => at1 l 0 :: bytesAt n (l.drop 1)

/-- `k` shifts of the CRC-16 register, polynomial 0x1021 (R178). -/
def crc16Shift : Nat → BitVec 16 → BitVec 16
  | 0, c => c
  | k + 1, c => crc16Shift k (if c.msb then (c <<< 1) ^^^ 0x1021 else c <<< 1)

/-- The CRC-16 of a list of bytes, from initial value 0xFFFF, each byte most significant bit first (R178). -/
def crc16 (l : List Byte) : Half := l.foldl (fun c b => crc16Shift 8 (c ^^^ (b ++ (0 : Byte)))) 0xFFFF

/-- `k` shifts of the CRC-8 register, polynomial 0x07 (R179). -/
def crc8Shift : Nat → BitVec 8 → BitVec 8
  | 0, c => c
  | k + 1, c => crc8Shift k (if c.msb then (c <<< 1) ^^^ 0x07 else c <<< 1)

/-- The CRC-8 of a list of bytes, from initial value 0xFF (R179). -/
def crc8 (l : List Byte) : Byte := l.foldl (fun c b => crc8Shift 8 (c ^^^ b)) 0xFF

/-! ### Control frames (10.1) -/

/-- The bytes of a control frame the check covers: kind, tag, length, body. -/
def checkedBytes (kind tag : Byte) (body : List Byte) : List Byte := kind :: tag :: halfOf body.length ++ body

/-- A control frame. -/
def controlFrame (kind tag : Byte) (body : List Byte) : List Byte :=
  0xA5 :: checkedBytes kind tag body ++ bytes2 (crc16 (checkedBytes kind tag body))

/-- What the receiver does with one byte (R165): it goes on, discards a frame as too long or as a bad check, or has received a
frame, given by its kind, its tag and length, and its body. -/
inductive Received where
  | more
  | tooLong
  | badCheck
  | frame (kind : Byte) (h : Hdr) (body : List Byte)
  deriving DecidableEq, Repr

/-- The bytes of a frame after its sync byte, judged as they stand (R165). -/
def judgeBytes (l : List Byte) : Received :=
  if l.length < 4 then .more
  else if 1024 < (at2 l 2).toNat then .tooLong
  else if l.length < 6 + (at2 l 2).toNat then .more
  else if crc16 (l.take (4 + (at2 l 2).toNat)) = at2 l (4 + (at2 l 2).toNat) then
    .frame (at1 l 0) { tag := at1 l 1, len := at2 l 2 } ((l.drop 4).take (at2 l 2).toNat)
  else .badCheck

/-- The receiver takes one byte (R165). -/
def Receiver.take (r : Receiver) (b : Byte) : Receiver × Received :=
  match r with
  | .hunting => (if b = 0xA5 then .assembling [] else .hunting, .more)
  | .assembling l =>
    match judgeBytes (l ++ [b]) with
    | .more => (.assembling (l ++ [b]), .more)
    | .tooLong => (.hunting, .tooLong)
    | .badCheck => (.hunting, .badCheck)
    | .frame k h body => (.hunting, .frame k h body)

/-! ### Request bodies (10.2) -/

/-- The settings bytes of SET_CHANNEL. -/
def settingBytes (f : ChannelFields) : List Byte :=
  [f.rate, f.fecLow, f.fecHigh, f.urgentWeight, f.routineWeight, f.blockLimit, f.retryLimit, f.extended, f.pairing]

/-- A request command as its kind code, its header and its body; none for the other commands. -/
def requestBody (i : Instr) : Option (Byte × Hdr × List Byte) :=
  match i with
  | .getStatus h => some (0x01, h, [])
  | .setSite h a b c m => some (0x02, h, bytes2 a ++ bytes2 b ++ bytes2 c ++ [m])
  | .setClock h l => some (0x03, h, bytes4 l)
  | .storeSettings h => some (0x04, h, [])
  | .restart h => some (0x05, h, [])
  | .loadTerminal h id k => some (0x10, h, bytes4 id ++ [k])
  | .dropTerminal h id => some (0x11, h, bytes4 id)
  | .getTerminal h x v => some (0x12, h, x :: bytes4 v)
  | .loadCrew h n v k c ms => some (0x13, h, bytes2 n ++ bytes4 v ++ bytes2 k ++ c :: ms.flatMap bytes4)
  | .dropCrew h n => some (0x14, h, bytes2 n)
  | .getCrew h n => some (0x15, h, bytes2 n)
  | .bringUp h c => some (0x20, h, [c])
  | .quiet h c => some (0x21, h, [c])
  | .channelReset h c => some (0x22, h, [c])
  | .setChannel h c f => some (0x23, h, c :: settingBytes f)
  | .takeStats h c m => some (0x24, h, [c, m])
  | .getChannel h c => some (0x25, h, [c])
  | .sendOrder h n c p d b l => some (0x30, h, bytes4 n ++ bytes2 c ++ p :: d :: b :: l)
  | .cancelOrder h n => some (0x31, h, bytes4 n)
  | .closeOrder h n => some (0x32, h, bytes4 n)
  | .getOrder h n => some (0x33, h, bytes4 n)
  | .startWatch h id a m x => some (0x40, h, bytes4 id ++ [a, m, x])
  | .stopWatch h id => some (0x41, h, bytes4 id)
  | .ackAlarm h id => some (0x42, h, bytes4 id)
  | .resolveAlarm h id a => some (0x43, h, bytes4 id ++ [a])
  | .getWatch h id => some (0x44, h, bytes4 id)
  | .defineSection h n a => some (0x50, h, [n, a])
  | .defineSwitch h n a x y => some (0x51, h, [n, a, x, y])
  | .setSwitchPosition h n p => some (0x52, h, [n, p])
  | .requestPermit h n k c m l => some (0x53, h, bytes2 n ++ k :: bytes2 c ++ m :: l)
  | .issuePermit h n => some (0x54, h, bytes2 n)
  | .withdrawPermit h n => some (0x55, h, bytes2 n)
  | .confirmRelease h n => some (0x56, h, bytes2 n)
  | .rejectRelease h n => some (0x57, h, bytes2 n)
  | .verbalRelease h n c => some (0x58, h, bytes2 n ++ bytes2 c)
  | .restorePermit h n k c m l => some (0x59, h, bytes2 n ++ k :: bytes2 c ++ m :: l)
  | .getSection h n => some (0x5A, h, [n])
  | .getSwitch h n => some (0x5B, h, [n])
  | .getPermit h n => some (0x5C, h, bytes2 n)
  | .setAuthList h n l => some (0x60, h, n :: l.flatMap bytes2)
  | .setMode h m => some (0x61, h, [m])
  | .getAuth h => some (0x62, h, [])
  | .powerOn _ | .badCheckDiscard | .tooLongDiscard | .gapExpiry | .badTagDiscard | .overflowDiscard _
  | .unknownKindRefusal _ _ | .requestDiscardedAfterRestart | .outgoingFrameSent _ _ | .storeWriteCompletion
  | .modeWriteCompletion | .moduleInserted _ | .moduleRemoved _ | .leverOpened _ | .leverClosed _
  | .supplyLevelChange _ _ | .keySwitchMoved _ | .transceiverReady _ | .trainingTimeout _ | .quietTimerExpiry _
  | .beaconTimerExpiry _ | .sendCompletion _ | .sendFailure _ | .windowClose _ | .inboundBadCheck _
  | .inboundUndecodable _ | .access _ | .affiliate _ _ _ _ | .alarm _ _ _ | .ack _ _ _ | .checkIn _ _
  | .orderReply _ _ _ _ | .readback _ _ _ | .switchDone _ _ | .releaseAsk _ _ | .depart _ | .secondTick
  | .hostSilenceExpiry | .holdExpiry _ | .promptDue _ | .deadlineExpiry _ | .graceExpiry _ | .escalationExpiry _
  | .stopNoticeDrop _ | .readbackTimeout _ | .powerLoss => none

/-- The command a received frame gives: its fields are read where 10.2 puts them, and a body of another length is refused by
the command itself. A tag of 0 and an unknown kind give their own commands (R166). -/
def readRequest (kind : Byte) (h : Hdr) (b : List Byte) : Instr :=
  if h.tag = 0 then .badTagDiscard
  else
    match kind.toNat with
    | 0x01 => .getStatus h
    | 0x02 => .setSite h (at2 b 0) (at2 b 2) (at2 b 4) (at1 b 6)
    | 0x03 => .setClock h (at4 b 0)
    | 0x04 => .storeSettings h
    | 0x05 => .restart h
    | 0x10 => .loadTerminal h (at4 b 0) (at1 b 4)
    | 0x11 => .dropTerminal h (at4 b 0)
    | 0x12 => .getTerminal h (at1 b 0) (at4 b 1)
    | 0x13 => .loadCrew h (at2 b 0) (at4 b 2) (at2 b 6) (at1 b 8) (wordsAt (at1 b 8).toNat (b.drop 9))
    | 0x14 => .dropCrew h (at2 b 0)
    | 0x15 => .getCrew h (at2 b 0)
    | 0x20 => .bringUp h (at1 b 0)
    | 0x21 => .quiet h (at1 b 0)
    | 0x22 => .channelReset h (at1 b 0)
    | 0x23 => .setChannel h (at1 b 0) ⟨at1 b 1, at1 b 2, at1 b 3, at1 b 4, at1 b 5, at1 b 6, at1 b 7, at1 b 8, at1 b 9⟩
    | 0x24 => .takeStats h (at1 b 0) (at1 b 1)
    | 0x25 => .getChannel h (at1 b 0)
    | 0x30 =>
      .sendOrder h (at4 b 0) (at2 b 4) (at1 b 6) (at1 b 7) (at1 b 8) (bytesAt (12 * (at1 b 8).toNat) (b.drop 9))
    | 0x31 => .cancelOrder h (at4 b 0)
    | 0x32 => .closeOrder h (at4 b 0)
    | 0x33 => .getOrder h (at4 b 0)
    | 0x40 => .startWatch h (at4 b 0) (at1 b 4) (at1 b 5) (at1 b 6)
    | 0x41 => .stopWatch h (at4 b 0)
    | 0x42 => .ackAlarm h (at4 b 0)
    | 0x43 => .resolveAlarm h (at4 b 0) (at1 b 4)
    | 0x44 => .getWatch h (at4 b 0)
    | 0x50 => .defineSection h (at1 b 0) (at1 b 1)
    | 0x51 => .defineSwitch h (at1 b 0) (at1 b 1) (at1 b 2) (at1 b 3)
    | 0x52 => .setSwitchPosition h (at1 b 0) (at1 b 1)
    | 0x53 => .requestPermit h (at2 b 0) (at1 b 2) (at2 b 3) (at1 b 5) (bytesAt (at1 b 5).toNat (b.drop 6))
    | 0x54 => .issuePermit h (at2 b 0)
    | 0x55 => .withdrawPermit h (at2 b 0)
    | 0x56 => .confirmRelease h (at2 b 0)
    | 0x57 => .rejectRelease h (at2 b 0)
    | 0x58 => .verbalRelease h (at2 b 0) (at2 b 2)
    | 0x59 => .restorePermit h (at2 b 0) (at1 b 2) (at2 b 3) (at1 b 5) (bytesAt (at1 b 5).toNat (b.drop 6))
    | 0x5A => .getSection h (at1 b 0)
    | 0x5B => .getSwitch h (at1 b 0)
    | 0x5C => .getPermit h (at2 b 0)
    | 0x60 => .setAuthList h (at1 b 0) (halvesAt (at1 b 0).toNat (b.drop 1))
    | 0x61 => .setMode h (at1 b 0)
    | 0x62 => .getAuth h
    | _ => .unknownKindRefusal h kind

/-! ### Enumeration codes (10.3) -/

/-- Status codes. -/
def Status.code (t : Status) : Byte :=
  match t with
  | .ok => 0x00 | .unknownKind => 0x01 | .badLength => 0x02 | .badValue => 0x03 | .noRoom => 0x04 | .notFound => 0x05
  | .duplicate => 0x06 | .badState => 0x07 | .interlock => 0x08 | .mode => 0x09 | .key => 0x0A | .alarmActive => 0x0B
  | .supply => 0x0C | .notAffiliated => 0x0D | .mismatch => 0x0E | .busy => 0x0F

/-- Mode codes. -/
def Mode.code (m : Mode) : Byte :=
  match m with
  | .openMode => 0 | .listed => 1 | .keyed => 2 | .noPermits => 3 | .alarmsOnly => 4

/-- Supply level codes (10.4). -/
def SupplyLevel.code (l : SupplyLevel) : Byte :=
  match l with
  | .normal => 0 | .reserve => 1 | .critical => 2

/-- Terminal state codes. -/
def ReportedState.code (t : ReportedState) : Byte :=
  match t with
  | .unknown => 0 | .affiliated => 1 | .absent => 2 | .removed => 3

/-- Terminal cause codes. -/
def TerminalCause.code (c : TerminalCause) : Byte :=
  match c with
  | .joined => 0 | .renewed => 1 | .depart => 2 | .retryFailure => 3 | .channelDown => 4 | .removed => 5

/-- Order state codes. -/
def OrderState.code (t : OrderState) : Byte :=
  match t with
  | .queued => 0 | .inFlight => 1 | .held => 2 | .delivered => 3 | .accepted => 4 | .recalling => 5 | .done => 6
  | .declined => 7 | .returned => 8

/-- Order cause codes. -/
def OrderCause.code (c : OrderCause) : Byte :=
  match c with
  | .sent => 0 | .vehicleAbsent => 1 | .vehicleChanged => 2 | .hostCancel => 3 | .crewReply => 4 | .acknowledged => 5
  | .deliveryFailed => 6 | .withdrawn => 7 | .oversize => 8 | .vehicleJoined => 9 | .holdExpiry => 10
  | .hostClose => 11 | .recallAcknowledged => 12 | .recallFailed => 13

/-- Return reason codes. -/
def ReturnReason.code (r : ReturnReason) : Byte :=
  match r with
  | .expired => 0 | .cancelled => 1 | .cancelledUnconfirmed => 2

/-- Crew reply codes. -/
def crewReplyCode (r : CrewReply) : Byte :=
  match r with
  | .accept => 0 | .decline => 1 | .done => 2

/-- Note result codes. -/
def NoteResult.code (r : NoteResult) : Byte :=
  match r with
  | .kept => 0 | .dropped => 1 | .none => 2

/-- Supervision state codes. -/
def WatchState.code (t : WatchState) : Byte :=
  match t with
  | .watching => 0 | .prompted => 1 | .overdue => 2 | .alarm => 3 | .acknowledged => 4

/-- Alarm cause codes. -/
def AlarmCause.code (c : AlarmCause) : Byte :=
  match c with
  | .noCheckIn => 0 | .panic => 1 | .manDown => 2

/-- Alarm report reason codes. -/
def AlarmReason.code (r : AlarmReason) : Byte :=
  match r with
  | .entry => 0 | .escalation => 1 | .removed => 2

/-- Permit state codes. -/
def PermitState.code (t : PermitState) : Byte :=
  match t with
  | .requested => 0 | .issuing => 1 | .issued => 2 | .releasePending => 3 | .released => 4 | .completed => 5
  | .withdrawn => 6 | .void => 7

/-- Permit cause codes. -/
def PermitCause.code (c : PermitCause) : Byte :=
  match c with
  | .requested => 0 | .issuedByHost => 1 | .readbackMatch => 2 | .readbackMismatch => 3 | .readbackTimeout => 4
  | .deliveryFailed => 5 | .vehicleAbsent => 6 | .modeChange => 7 | .switchNotOpen => 8 | .withdrawnByHost => 9
  | .switchDone => 10 | .releaseAsk => 11 | .releaseRejected => 12 | .confirmed => 13 | .verbal => 14 | .restored => 15

/-! ### Reports (10.4) -/

/-- The report codes. -/
def ReportBody.code (b : ReportBody) : Byte :=
  match b with
  | .start _ => 0x70 | .orderState _ => 0x71 | .watchState _ => 0x72 | .alarm _ => 0x73 | .unsupervisedAlarm _ => 0x74
  | .permitState _ => 0x75 | .tagViolation _ => 0x76 | .terminalState _ => 0x77 | .channelState _ => 0x78
  | .supplyState _ _ => 0x79 | .attendance _ _ _ => 0x7A | .linkError _ => 0x7B

/-- An optional one-byte field: 0xFF when absent (R178). -/
def optByte (o : Option Byte) : Byte := o.getD 0xFF

/-- An optional time: 0xFFFFFFFF when absent or never (R178). -/
def optTime (o : Option Nat) : List Byte :=
  match o with
  | some n => wordOf n
  | none => bytes4 0xFFFFFFFF

/-- A position in 10 bytes (10.4). -/
def positionBytes (p : Option Position) : List Byte :=
  match p with
  | some p => 1 :: bytes4 (BitVec.ofInt 32 p.latitude) ++ bytes4 (BitVec.ofInt 32 p.longitude) ++ [byteOf p.age]
  | none => List.replicate 10 0

/-- TERMINAL_STATE, 9 bytes: 10.4 gives no place to the link quality and last heard of R3 (notes/assumptions/29.md). -/
def TerminalReport.bytes (r : TerminalReport) : List Byte :=
  wordOf r.id ++ [byteOf r.index, r.state.code, optByte (r.channel.map fun c => byteOf c.val),
    optByte (r.short.map byteOf), r.cause.code]

/-- ORDER_STATE, 13 bytes. -/
def OrderReport.bytes (r : OrderReport) : List Byte :=
  wordOf r.number ++ halfOf r.crew ++ [r.state.code, r.previous.code, r.cause.code, optByte (r.reason.map ReturnReason.code),
    optByte (r.reply.map crewReplyCode), optByte (r.note.map NoteResult.code), optByte (r.retry.map byteOf)]

/-- PERMIT_STATE, 15 bytes. -/
def PermitReport.bytes (r : PermitReport) : List Byte :=
  halfOf r.number ++ (if r.work.isClearance then 0 else 1) :: halfOf r.crew ++ [r.state.code,
    optByte (r.previous.map PermitState.code), r.cause.code, byteOf r.attempts,
    markByte r.compromised ||| (markByte r.restored <<< 1) ||| (markByte r.resultConfirmed <<< 2),
    optByte (r.violationSwitch.map byteOf)] ++ wordOf (r.recorded.getD 0)

/-- ALARM, 33 bytes. -/
def AlarmReport.bytes (r : AlarmReport) : List Byte :=
  wordOf r.id ++ byteOf r.index :: halfOf (r.crew.getD 0) ++ [r.state.code, optByte (r.cause.map AlarmCause.code)]
    ++ optTime r.time ++ [byteOf r.escalations, r.reason.code] ++ optTime r.lastCheckIn ++ positionBytes r.lastPosition
    ++ [r.terminalState.code, optByte (r.channel.map fun c => byteOf c.val),
      optByte (r.alarmChannel.map fun c => byteOf c.val), markByte !r.attended]

/-- One channel's lines in START. -/
def lineByte (present leverOpen : Bool) : Byte := markByte present ||| (markByte leverOpen <<< 1)

/-- START, 15 bytes. -/
def StartReport.bytes (r : StartReport) : List Byte :=
  markByte (!r.powerOn) :: halfOf r.siteId ++ wordOf r.baud ++ [markByte r.defaulted, r.mode.code, r.supply.code,
    markByte r.keyEnable, lineByte (r.present.get 0) (r.leverOpen.get 0), lineByte (r.present.get 1) (r.leverOpen.get 1),
    lineByte (r.present.get 2) (r.leverOpen.get 2), lineByte (r.present.get 3) (r.leverOpen.get 3)]

/-- The fields of a report after the common ones: as 10.4 lays them out, or, for the kinds whose byte positions are not given,
a free value of the named fields that fits a frame (notes/assumptions/7.md). -/
def ReportBody.bytes (b : ReportBody) : List Byte :=
  match b with
  | .start r => r.bytes
  | .orderState r => r.bytes
  | .alarm r => r.bytes
  | .permitState r => r.bytes
  | .terminalState r => r.bytes
  | .watchState _ | .unsupervisedAlarm _ | .tagViolation _ | .channelState _ | .supplyState _ _ | .attendance _ _ _
  | .linkError _ => (Config.reportBytes b).take 1016

/-- The body of a report frame: the two common fields first (10.1, R171). -/
def Report.bytes (r : Report) : List Byte := wordOf r.count ++ bytes4 r.label ++ r.body.bytes

/-- A report frame, with tag 0 (10.1, R171). -/
def Report.frame (r : Report) : List Byte := controlFrame r.body.code 0 r.bytes

/-- A reply body: nothing where there is none, one code where it is one enumerated field (R178), and otherwise, its byte
positions not being given, a free value of the named fields that fits a frame (notes/assumptions/7.md). -/
def ReplyBody.bytes (b : ReplyBody) : List Byte :=
  match b with
  | .empty => []
  | .orderState t => [t.code]
  | .permitState t => [t.code]
  | .modeStored m => [m.code]
  | .status _ | .rosterIndex _ | .terminal _ _ _ _ _ | .crew _ | .bringUp _ | .channel _ | .stats _ | .order _ _ _ _
  | .orderSummary _ | .watchStarted _ _ _ | .watch _ | .watchSummary _ | .position _ _ _ _ | .sectionInfo _ _ _ _
  | .switchInfo _ _ _ _ _ | .permit _ _ _ | .permitSummary _ | .authCount _ | .auth _ _ _ _ _ _ =>
    (Config.replyBytes b).take 1023

/-- The frame of a reply: the request's kind with the reply mark, its tag, the status and the body (R167). A kind that carries
the mark already, as an UNKNOWN_KIND refusal can, keeps it (DESIGN CHOICE, notes/assumptions/30.md). -/
def replyFrame (tag kind : Byte) (st : Status) (b : ReplyBody) : List Byte :=
  controlFrame (kind ||| 0x80) tag (st.code :: b.bytes)

/-- The bytes of the frame that the outgoing line sends (R167). -/
def OutFrame.bytes (f : OutFrame) : List Byte :=
  match f with
  | .reply tag kind status body => replyFrame tag kind status body
  | .report r => r.frame

/-! ### The outbound header (R179) -/

/-- Outbound kind codes. -/
def OutKind.code (k : OutKind) : BitVec 4 :=
  match k with
  | .idle => 0 | .order => 1 | .recall => 2 | .permit => 3 | .permitResult => 4 | .watchSet => 5 | .prompt => 6
  | .affilReply => 7 | .assist => 8 | .danger => 9 | .alarmSeen => 10

/-- Rate codes. -/
def Rate.code (r : Rate) : BitVec 2 :=
  match r with
  | .low => 0 | .mid => 1 | .high => 2

/-- The header bits before the ID field and the frame check, form bit first (R179). -/
def Header.lead (h : Header) : BitVec 24 :=
  BitVec.ofBool h.idField.isSome ++ h.kind.code ++ BitVec.ofNat 3 h.addressee ++ BitVec.ofNat 3 h.grant
    ++ BitVec.ofBool h.sequence ++ BitVec.ofBool h.fec ++ h.rate.code ++ BitVec.ofNat 6 h.blocks
    ++ BitVec.ofBool (h.idField.any fun x => x.1 == .grant) ++ BitVec.ofNat 2 h.channel.val

/-- The header's bytes before the frame check. -/
def Header.bytes (h : Header) : List Byte :=
  [h.lead.extractLsb' 16 8, h.lead.extractLsb' 8 8, h.lead.extractLsb' 0 8]
    ++ (match h.idField with | some (_, id) => wordOf id | none => [])

/-- The section numbers of a CLEARANCE, four to a block, the last block padded with 255 (R54). -/
def padSections (l : List Nat) : List Nat := l ++ List.replicate (4 * ((l.length + 3) / 4) - l.length) 255

/-- The named fields of an item's content as numbers (R54, R55). -/
def ItemContent.fields (i : ItemContent) : List Nat :=
  match i with
  | .recall n k => [n, k]
  | .permit n c a k (.clearance l) => [n, 0, c, a, if k then 1 else 0, l.length] ++ padSections l
  | .permit n c a k (.switching sw op x y) =>
    [n, 1, c, a, if k then 1 else 0, sw, match op with | .opening => 0 | .closing => 1, x, y.getD 255]
  | .permitResult n r a =>
    [n, match r with | .accepted => 0 | .mismatch => 1 | .withdrawn => 2 | .void => 3, a]
  | .watchStart i m l => [0, i, m, l]
  | .watchStop => [1]
  | .prompt => []

/-- The named fields of an ALERT content as numbers (R55). -/
def AlertContent.fields (a : AlertContent) : List Nat :=
  match a with
  | .assist c u cause e p => [c, u, cause.code.toNat, e] ++ (positionBytes p).map BitVec.toNat
  | .danger n sw _ => [n, sw]
  | .alarmSeen _ _ => []

/-- The named fields of an AFFIL_REPLY as numbers (R55). -/
def AffilReply.fields (r : AffilReply) : List Nat :=
  [match r.result with | .accepted => 0 | .pair => 1 | .full => 2 | .unknown => 3, r.channel.val, r.short.getD 7]

/-- The payload bytes of a frame, 12 for each block (R179). The order's content is carried as the frame was formed, with
the order number in place (R54); the byte positions of the other kinds are not given, and their bytes are a free value of
their named fields (notes/assumptions/7.md). -/
def payloadOf (kind : OutKind) (blocks : Nat) (p : Payload) : List Byte :=
  match p with
  | .empty => []
  | .order content => content
  | .item i => bytesAt (12 * blocks) (Config.payloadBytes kind.code.toNat i.fields)
  | .reply r => bytesAt (12 * blocks) (Config.payloadBytes kind.code.toNat r.fields)
  | .alert a => bytesAt (12 * blocks) (Config.payloadBytes kind.code.toNat a.fields)

/-- The bytes of an outbound frame before FEC coding: header, frame check, payload. The check covers the header before it and
then every payload bit (R179). -/
def AirFrame.bytes (f : AirFrame) : List Byte :=
  let p := payloadOf f.header.kind f.header.blocks f.payload
  f.header.bytes ++ crc8 (f.header.bytes ++ p) :: p

/-! ### Inbound frames (R180) -/

/-- The content of an inbound frame by its kind (R56). -/
inductive Inbound where
  | access
  | affiliate (c : AffiliateContent)
  | alarm (cause : AlarmCall) (p : RawPosition)
  | ack (bit : Bool) (free : Byte)
  | checkIn (p : RawPosition)
  | orderReply (number : Word) (reply : CrewReply) (free : Byte)
  | readback (number : Half) (code : Fin 10000)
  | switchDone (number : Half)
  | releaseAsk (number : Half)
  | depart
  deriving DecidableEq, Repr

/-- Inbound kind codes. -/
def Inbound.code (i : Inbound) : BitVec 4 :=
  match i with
  | .access => 1 | .affiliate _ => 2 | .alarm _ _ => 3 | .ack _ _ => 4 | .checkIn _ => 5 | .orderReply _ _ _ => 6
  | .readback _ _ => 7 | .switchDone _ => 8 | .releaseAsk _ => 9 | .depart => 10

/-- A position of an inbound frame in 10 bytes (R180). -/
def rawPositionBytes (p : RawPosition) : List Byte := markByte p.present :: bytes4 p.latitude ++ bytes4 p.longitude ++ [p.age]

/-- Four decimal digits as two bytes (R180). -/
def digitBytes (n : Nat) : List Byte :=
  [BitVec.ofNat 4 (n / 1000) ++ BitVec.ofNat 4 (n / 100 % 10), BitVec.ofNat 4 (n / 10 % 10) ++ BitVec.ofNat 4 (n % 10)]

/-- The capability byte of AFFILIATE (R180). -/
def capabilityByte (c : AffiliateContent) : Byte :=
  (0 : BitVec 2) ++ BitVec.ofBool c.pairCapable ++ BitVec.ofBool c.fecHigh ++ BitVec.ofBool c.fecLow
    ++ BitVec.ofNat 2 c.maxRate.val ++ BitVec.ofBool c.personal

/-- The content bytes of an inbound frame (R180). -/
def Inbound.bytes (i : Inbound) : List Byte :=
  match i with
  | .access | .depart => []
  | .affiliate c => [capabilityByte c, c.capacity]
  | .alarm cause p => (match cause with | .panic => 1 | .manDown => 2) :: rawPositionBytes p
  | .ack bit free => [markByte bit, free]
  | .checkIn p => rawPositionBytes p
  | .orderReply n r free => bytes4 n ++ [crewReplyCode r, free]
  | .readback n code => bytes2 n ++ digitBytes code.val
  | .switchDone n | .releaseAsk n => bytes2 n

/-- The lead byte and the ID of an inbound frame (R180). -/
def senderBytes (f : Sender) (kind : BitVec 4) : List Byte :=
  match f with
  | .short a => [(0 : BitVec 1) ++ kind ++ a]
  | .id t => ((1 : BitVec 1) ++ kind ++ (0 : BitVec 3)) :: bytes4 t

/-- An inbound frame without its check, as a terminal sends it (R180). -/
def inboundBytes (f : Sender) (i : Inbound) : List Byte := senderBytes f i.code ++ i.bytes

/-- A position of 10 bytes; a mark other than 0 reads as present (R180). -/
def readPosition (l : List Byte) : RawPosition :=
  { present := at1 l 0 != 0, latitude := at4 l 1, longitude := at4 l 5, age := at1 l 9 }

/-- The number four decimal digits show; none when a digit is above 9 (R180). -/
def readDigits (w : Half) : Option (Fin 10000) :=
  let a := (w.extractLsb' 12 4).toNat
  let b := (w.extractLsb' 8 4).toNat
  let c := (w.extractLsb' 4 4).toNat
  let d := (w.extractLsb' 0 4).toNat
  if h : a ≤ 9 ∧ b ≤ 9 ∧ c ≤ 9 ∧ d ≤ 9 then some ⟨1000 * a + 100 * b + 10 * c + d, by omega⟩ else none

/-- The content of AFFILIATE; none for a max rate code of 3 (R180). Bits 7 and 6 of the capability byte, to which 10.6 gives no
meaning, are ignored (DESIGN CHOICE, notes/assumptions/21.md). -/
def readAffiliate (b capacity : Byte) : Option AffiliateContent :=
  if h : (b.extractLsb' 1 2).toNat < 3 then
    some
      { personal := b.getLsbD 0, maxRate := ⟨(b.extractLsb' 1 2).toNat, h⟩, fecLow := b.getLsbD 3, fecHigh := b.getLsbD 4
        pairCapable := b.getLsbD 5, capacity }
  else none

/-- An alarm cause (R180). -/
def readCall (b : Byte) : Option AlarmCall := if b = 1 then some .panic else if b = 2 then some .manDown else none

/-- A crew reply (R180). -/
def readReply (b : Byte) : Option CrewReply :=
  if b = 0 then some .accept else if b = 1 then some .decline else if b = 2 then some .done else none

/-- The content of an inbound frame; none when it is undecodable: an unknown kind, a length that differs from the kind's, or a
value outside its field's range (R57, R180). AFFILIATE always carries the ID (R56). A number of two or four bytes has its most
significant byte first (DESIGN CHOICE, notes/assumptions/31.md). -/
def readInbound (long : Bool) (kind : BitVec 4) (l : List Byte) : Option Inbound :=
  match kind.toNat, l.length with
  | 1, 0 => some .access
  | 2, 2 => if long then (readAffiliate (at1 l 0) (at1 l 1)).map .affiliate else none
  | 3, 11 => (readCall (at1 l 0)).map fun c => .alarm c (readPosition (l.drop 1))
  | 4, 2 => some (.ack ((at1 l 0).getLsbD 0) (at1 l 1))
  | 5, 10 => some (.checkIn (readPosition l))
  | 6, 6 => (readReply (at1 l 4)).map fun r => .orderReply (at4 l 0) r (at1 l 5)
  | 7, 4 => (readDigits (at2 l 2)).map fun c => .readback (at2 l 0) c
  | 8, 2 => some (.switchDone (at2 l 0))
  | 9, 2 => some (.releaseAsk (at2 l 0))
  | 10, 0 => some .depart
  | _, _ => none

/-- The sender field and the content of an inbound frame, its check set aside (R180). Bits 2 to 0 of the lead byte of a long
frame, where a terminal sends 0, are ignored (DESIGN CHOICE, notes/assumptions/21.md). -/
def readFrame (l : List Byte) : Sender × Option Inbound :=
  let b := at1 l 0
  if b.msb then (.id (at4 l 1), readInbound true (b.extractLsb' 3 4) (l.drop 5))
  else (.short (b.extractLsb' 0 3), readInbound false (b.extractLsb' 3 4) (l.drop 1))

/-- The command an inbound frame gives: the module, whether the check passed, the margin sample and the bytes before the check
(R57, R180). -/
def airCommand (channel : Chan) (checkPassed : Bool) (sample : Fin 16) (l : List Byte) : Instr :=
  if checkPassed then
    match readFrame l with
    | (f, none) => .inboundUndecodable { channel, sample, sender := f }
    | (f, some .access) => .access { channel, sample, sender := f }
    | (.id t, some (.affiliate c)) => .affiliate channel sample t c
    | (.short a, some (.affiliate _)) => .inboundUndecodable { channel, sample, sender := .short a }
    | (f, some (.alarm c p)) => .alarm { channel, sample, sender := f } c p
    | (f, some (.ack b n)) => .ack { channel, sample, sender := f } b n
    | (f, some (.checkIn p)) => .checkIn { channel, sample, sender := f } p
    | (f, some (.orderReply n r x)) => .orderReply { channel, sample, sender := f } n r x
    | (f, some (.readback n c)) => .readback { channel, sample, sender := f } n c
    | (f, some (.switchDone n)) => .switchDone { channel, sample, sender := f } n
    | (f, some (.releaseAsk n)) => .releaseAsk { channel, sample, sender := f } n
    | (f, some .depart) => .depart { channel, sample, sender := f }
  else .inboundBadCheck channel

end Sys2Proof.Machine
end

