-- ==== Sys2Proof/Machine/Wire.lean ====
section
/-! DEFINITION. From the wire to the commands: a byte of the control link through the receiver, and an inbound air frame as the
transceiver reports it (R57, R165, R166, R178, R180). -/

set_option Elab.async false

namespace Sys2Proof.Machine

/-- The command that a frame received at this state of the link is (R166, R177): discarded while a RESTART waits to begin, with
tag 0, or with four places held, and otherwise the request its kind names. -/
def Link.commandOf (l : Link) (kind : Byte) (h : Hdr) (body : List Byte) : Instr :=
  if l.restartPending then .requestDiscardedAfterRestart
  else if h.tag = 0 then .badTagDiscard
  else if 4 ≤ l.places.length then .overflowDiscard h
  else readRequest kind h body

/-- The receiver holds `r`. -/
def State.receiving (s : State) (r : Receiver) : State := { s with link := { s.link with receiver := r } }

/-- A byte arrives on the control link (R165). -/
def State.receiveByte (s : State) (b : Byte) : Host.Outcome State Fault Refusal :=
  if s.powered then
    match s.link.receiver.take b with
    | (r, .more) => .next (s.receiving r)
    | (_, .tooLong) => exec .tooLongDiscard s
    | (_, .badCheck) => exec .badCheckDiscard s
    | (_, .frame kind h body) => exec (s.link.commandOf kind h body) s
  else .next s

/-- The transceiver of a module reports an inbound frame (section 3.3). -/
def State.receiveAir (s : State) (channel : Chan) (checkPassed : Bool) (sample : Fin 16) (l : List Byte) :
    Host.Outcome State Fault Refusal :=
  exec (airCommand channel checkPassed sample l) s

end Sys2Proof.Machine
end

