-- ==== Sys2Proof/Safety.lean ====
section
/-! DEFINITION. What a sound state is, and the words in which statements about the part are made: a request that reaches its
owner, the state that answers it, and the state after an event. -/

set_option Elab.async false

namespace Sys2Proof.Machine

/-! ### Sound states -/

/-- The link keeps its limits: at most 64 reports, at most 48 of them routine (R169), and at most four places (R166). -/
def Link.bounded (l : Link) : Bool :=
  decide (l.reports.length ≤ 64) && decide (routineCount l.reports ≤ 48) && decide (l.places.length ≤ 4)

/-- Every table of the site is in its canonical form; the numbers of the Pending Urgent List are below the next one, so that an
item placed stands last, in order of placement (R81). -/
def Site.sorted (s : Site) : Bool :=
  s.roster.wf && s.crews.wf && s.pul.wfBelow s.nextItem && s.orders.wf && s.watches.wf && s.stopNotices.wf && s.sections.wf
    && s.switches.wf && s.permits.wf

/-- A roster record keeps its ranges: free credit within the capacity (R4), a link quality of at most 15 (R61), and a channel
exactly in AFFILIATED, without which there is no short address (R2). -/
def Terminal.sound (t : Terminal) : Bool :=
  decide (t.credit ≤ t.capacity) && decide (t.quality ≤ 15) && (t.state == .affiliated) == t.channel.isSome
    && (t.channel.isSome || t.short.isNone)

/-- Every roster record keeps its ranges. -/
def Site.rosterSound (s : Site) : Bool := s.roster.all fun e => e.2.sound

/-- A channel keeps its ranges: both deficits within 0 to 255 (R72), and no duplicate in the pending access set (R78). -/
def Channel.sound (ch : Channel) : Bool :=
  decide (ch.urgentDeficit ≤ 255) && decide (ch.routineDeficit ≤ 255) && decide ch.accessSet.Nodup

/-- Every channel keeps its ranges. -/
def Site.channelsSound (s : Site) : Bool := ([0, 1, 2, 3] : List Chan).all fun c => (s.chan c).sound

/-- The law of R139: no SWITCHING permit with operation CLOSE is in ISSUING or ISSUED while a section its switch point joins
has a nonzero clearance count or is listed by a CLEARANCE in ISSUING; and, with it, RELEASE_PENDING is a state of clearances.
-/
def Site.lawful (s : Site) : Prop :=
  (∀ e ∈ s.permits, ∀ sw, e.2.work = .switching sw .closing → e.2.state = .issuing ∨ e.2.state = .issued →
    ∀ q, Table.look s.switches sw = some q → ∀ n, q.joins n = true →
      s.clearances n = 0 ∧ ∀ f ∈ s.permits, f.2.state = .issuing → n ∉ f.2.work.sections)
    ∧ ∀ e ∈ s.permits, e.2.state = .releasePending → e.2.work.isClearance = true

/-- The short address that the terminal at index `i` holds on channel `c`, where it is AFFILIATED (R19). -/
def Site.shortOn (s : Site) (c : Chan) (i : Nat) : Option Nat :=
  (Table.look s.roster i).bind fun t => if t.on c then t.short else none

/-- No two terminals hold one short address on one channel (R19). -/
def Site.apart (s : Site) : Prop := ∀ c i j x, s.shortOn c i = some x → s.shortOn c j = some x → i = j

/-- The permit is ISSUED or RELEASE_PENDING, where a clearance stands in the counts of its sections (R132). -/
def Permit.inForce (p : Permit) : Bool := p.state == .issued || p.state == .releasePending

/-- A section's clearance count is the number of clearances in ISSUED or RELEASE_PENDING that list it (R132); and, with it, a
live clearance lists defined sections, each once, and a retained record is not live. -/
structure Site.Cleared (s : Site) : Prop where
  counts : ∀ n, s.clearances n = Table.tally s.permits fun _ p => p.inForce && p.work.sections.contains n
  listed : ∀ k p, Table.look s.permits k = some p → p.live = true →
    p.work.sections.Nodup ∧ ∀ n ∈ p.work.sections, (Table.look s.sections n).isSome = true
  retained : ∀ k p, Table.look s.permits k = some p → p.retained = true → p.live = false

/-- The live-permit count of a crew (R16). -/
def Site.permitsOf (s : Site) (crew : Nat) : Nat := ((Table.look s.crews crew).map Crew.permits).getD 0

/-- A crew's unresolved-alarm count is the number of supervision records in ALARM or ACKNOWLEDGED whose unit is bound to it
(R15), and its live-permit count the number of its live permits (R16); and, with them, a terminal is bound to the crew that
names it, vehicles and members are of their kinds, a supervised unit is PERSONAL, a GUEST record is bound to no crew (R12), and
a retained record is not live. -/
structure Site.Booked (s : Site) : Prop where
  alarms : ∀ n, s.alarmsOf n = Table.tally s.watches fun u r => r.state.inAlarm && s.boundCrew u == some n
  permits : ∀ n, s.permitsOf n = Table.tally s.permits fun _ p => p.live && p.crew == n
  bound : ∀ i n, s.boundCrew i = some n ↔ ∃ c, Table.look s.crews n = some c ∧ i ∈ c.terminals
  kinds : ∀ n c, Table.look s.crews n = some c → c.members.Nodup ∧ (∀ i, c.vehicle = some i → s.kindAt i .vehicle = true)
    ∧ ∀ i ∈ c.members, s.kindAt i .personal = true
  units : ∀ u r, Table.look s.watches u = some r → s.kindAt u .personal = true
  guests : ∀ i t, Table.look s.roster i = some t → t.origin = .guest → t.crew = none
  retained : ∀ k p, Table.look s.permits k = some p → p.retained = true → p.live = false

/-- The part of the site that no traffic changes: what is left when the channels, the tables and the counters of the owners are
blanked. It holds both counts, the lines and levels of the site, the mode and the authorized list, the site settings, the
attendance and the settings store. -/
def Site.fixed (s : Site) : Site :=
  { s with
    channels := Vector.replicate 4 .blank, roster := [], crews := [], pul := [], nextItem := 0, orders := [], nextSeq := 0
    repliesIgnored := .zero, notesDropped := .zero, watches := [], assistDrops := .zero, checkInsIgnored := .zero
    unsupervised := .zero, stopNotices := [], sections := [], switches := [], permits := [], arrivalsIgnored := .zero
    dangerDrops := .zero }

/-- The configurations of the four channels. -/
def Site.configs (s : Site) : List ChannelConfig := ([0, 1, 2, 3] : List Chan).map fun c => (s.chan c).config

/-! ### Requests and events -/

/-- A request with header `h` and required body length `n` reaches its owner: the part has power, no RESTART waits to begin,
the tag is not 0, a place is free, and the length is the one required (R166, R177). -/
def State.admits (s : State) (h : Hdr) (n : Nat) : Prop :=
  s.powered = true ∧ s.link.restartPending = false ∧ h.tag ≠ 0 ∧ s.link.places.length < 4 ∧ h.len.toNat = n

/-- The next state `t` holds the reply of a request with header `h` and code `kind`, behind the replies already held (R167). -/
def State.repliesTo (s t : State) (h : Hdr) (kind : Byte) (st : Status) (body : ReplyBody) : Prop :=
  t.link.places = s.link.places ++ [{ tag := h.tag, kind, wait := .ready st body }]

/-- The state after an event whose work is `w`. -/
def State.after (s : State) (w : Work) : State := s.conclude s.link w

/-- The work of an event at its beginning. -/
def State.work (s : State) : Work := Work.start s.site

/-- The work of an inbound frame whose check passed, once its counter, the window's mark and its sender's fields are updated
(steps 2 and 3 of R57). -/
def State.received (s : State) (a : Arrival) : Work := s.work.receive (s.site.logical a.channel) a.sender a.sample.val

/-- A granted-kind frame from the terminal at index `i` is in place (R22, R58): its sender field identifies the terminal, which
is AFFILIATED, and the channel's window carries a grant to it and has not heard it. -/
def State.inPlace (s : State) (a : Arrival) (i : Nat) : Prop :=
  s.powered = true ∧ s.site.resolve (s.site.logical a.channel) a.sender = some i
    ∧ s.site.affiliated i = true
    ∧ (s.site.chan (s.site.logical a.channel)).awaitsGrant i = true

/-- The work of a granted-kind frame in place: received, and its sender heard in the window (R58). -/
def State.heardFrom (s : State) (a : Arrival) (i : Nat) : Work :=
  (s.received a).modChan (s.site.logical a.channel) fun ch => ch.hear i

/-! ### Power-on and restart -/

/-- Every line released: both straps open, the supply NORMAL, the key at NORMAL, no module present, every lever closed. -/
def releasedLines : Lines :=
  { firstStrapTied := false, secondStrapTied := false, firstSupply := false, secondSupply := false, keyEnable := false
    present := Vector.replicate 4 false, leverOpen := Vector.replicate 4 false }

/-- The lines as the site has read them, with the straps as given. -/
def Site.linesNow (s : Site) (firstTied secondTied : Bool) : Lines :=
  { firstStrapTied := firstTied, secondStrapTied := secondTied, firstSupply := s.firstSupply
    secondSupply := s.secondSupply, keyEnable := s.keyEnable, present := s.channels.map Channel.present
    leverOpen := s.channels.map Channel.leverOpen }

/-- The image that a power-on finds: none when a write was under way as power was lost (R175). -/
def State.imageFound (s : State) : Option Settings :=
  if s.powered = true ∧ s.site.write.isSome = true then none else s.site.image

/-- `t` stands as the part does right after power-on or the restart of a RESTART, with the store's image and the lines as read
(R26, R164, R172, R176, R177): settings loaded, every table empty, both counts 0, and START on the line. -/
def State.freshlyBooted (t : State) (image : Option Settings) (l : Lines) (powerOn : Bool) : Prop :=
  t.powered = true
    ∧ t.link =
      { baud := baudOf l.firstStrapTied l.secondStrapTied, receiver := .hunting, counters := .zero, places := []
        outgoing := some (.report
          { count := 0, label := 0
            body := .start
              { powerOn, siteId := (image.getD .default).siteId, baud := baudOf l.firstStrapTied l.secondStrapTied
                defaulted := image.isNone, mode := (image.getD .default).mode
                supply := supplyLevelOf l.firstSupply l.secondSupply, keyEnable := l.keyEnable, present := l.present
                leverOpen := l.leverOpen } })
        reports := [], reportsLost := false }
    ∧ t.site.count = 0 ∧ t.site.label = 0
    ∧ t.site.roster = [] ∧ t.site.crews = [] ∧ t.site.pul = [] ∧ t.site.orders = [] ∧ t.site.watches = []
    ∧ t.site.stopNotices = [] ∧ t.site.sections = [] ∧ t.site.switches = [] ∧ t.site.permits = [] ∧ t.site.authList = []
    ∧ t.site.repliesIgnored = .zero ∧ t.site.notesDropped = .zero ∧ t.site.assistDrops = .zero
    ∧ t.site.checkInsIgnored = .zero ∧ t.site.unsupervised = .zero ∧ t.site.arrivalsIgnored = .zero
    ∧ t.site.dangerDrops = .zero
    ∧ t.site.attended = true ∧ t.site.write = none ∧ t.site.modePending = false
    ∧ t.site.image = image ∧ t.site.copy = image.getD .default ∧ t.site.defaulted = image.isNone
    ∧ t.site.siteId = (image.getD .default).siteId ∧ t.site.mode = (image.getD .default).mode
    ∧ t.site.escalation = (image.getD .default).escalation ∧ t.site.mask = (image.getD .default).mask
    ∧ t.site.silenceLimit = (image.getD .default).silenceLimit
    ∧ t.site.silence = (if (image.getD .default).silenceLimit = 0 then none else some (image.getD .default).silenceLimit)
    ∧ t.site.firstSupply = l.firstSupply ∧ t.site.secondSupply = l.secondSupply ∧ t.site.keyEnable = l.keyEnable
    ∧ ∀ c : Chan, t.site.chan c =
      { Channel.blank with
        present := l.present.get c, leverOpen := l.leverOpen.get c, lampLit := l.present.get c && l.leverOpen.get c
        state := if l.present.get c then .down else .absent, previous := if l.present.get c then .down else .absent
        config := (image.getD .default).configs.get c }

end Sys2Proof.Machine
end

