-- ==== Sys2Proof/WellFormed.lean ====
section
/-! DEFINITION. The operands a command can have when it reaches the part: what the control link's framing, the request codes
and the sender field of an inbound frame leave possible (R56, R165, R166, 10.2). -/

set_option Elab.async false

namespace Sys2Proof

/-- The length field of a received control frame is at most 1024 (R165), and a request that reaches its owner carries a tag of
1 to 255 (R166). -/
def Hdr.wellFormed (h : Hdr) : Bool := h.tag != 0 && decide (h.len.toNat ≤ 1024)

/-- A short address of a sender field is 0 to 6 (R56). -/
def Sender.wellFormed (f : Sender) : Bool :=
  match f with
  | .short a => a != 7
  | .id _ => true

/-- A command is well-formed: its header is, the items of a counted list number what its count byte says (10.2), the kind of an
UNKNOWN_KIND frame names no request, and a sender field holds an address. -/
def Instr.wellFormed (i : Instr) : Bool :=
  match i with
  | .getStatus h | .setSite h _ _ _ _ | .setClock h _ | .storeSettings h | .restart h | .loadTerminal h _ _
  | .dropTerminal h _ | .getTerminal h _ _ | .dropCrew h _ | .getCrew h _ | .bringUp h _ | .quiet h _ | .channelReset h _
  | .setChannel h _ _ | .takeStats h _ _ | .getChannel h _ | .cancelOrder h _ | .closeOrder h _ | .getOrder h _
  | .startWatch h _ _ _ _ | .stopWatch h _ | .ackAlarm h _ | .resolveAlarm h _ _ | .getWatch h _ | .defineSection h _ _
  | .defineSwitch h _ _ _ _ | .setSwitchPosition h _ _ | .issuePermit h _ | .withdrawPermit h _ | .confirmRelease h _
  | .rejectRelease h _ | .verbalRelease h _ _ | .getSection h _ | .getSwitch h _ | .getPermit h _ | .setMode h _ | .getAuth h
  | .overflowDiscard h => h.wellFormed
  | .loadCrew h _ _ _ count members => h.wellFormed && members.length == count.toNat
  | .sendOrder h _ _ _ _ count content => h.wellFormed && content.length == 12 * count.toNat
  | .requestPermit h _ _ _ count items | .restorePermit h _ _ _ count items =>
    h.wellFormed && items.length == count.toNat
  | .setAuthList h count crews => h.wellFormed && crews.length == count.toNat
  | .unknownKindRefusal h kind => h.wellFormed && !Machine.requestCodes.contains kind
  | .inboundUndecodable a | .access a | .alarm a _ _ | .ack a _ _ | .checkIn a _ | .orderReply a _ _ _ | .readback a _ _
  | .switchDone a _ | .releaseAsk a _ | .depart a => a.sender.wellFormed
  | .powerOn _ | .badCheckDiscard | .tooLongDiscard | .gapExpiry | .badTagDiscard | .requestDiscardedAfterRestart
  | .outgoingFrameSent _ _ | .storeWriteCompletion | .modeWriteCompletion | .moduleInserted _ | .moduleRemoved _
  | .leverOpened _ | .leverClosed _ | .supplyLevelChange _ _ | .keySwitchMoved _ | .transceiverReady _ | .trainingTimeout _
  | .quietTimerExpiry _ | .beaconTimerExpiry _ | .sendCompletion _ | .sendFailure _ | .windowClose _ | .inboundBadCheck _
  | .affiliate _ _ _ _ | .secondTick | .hostSilenceExpiry | .holdExpiry _ | .promptDue _ | .deadlineExpiry _
  | .graceExpiry _ | .escalationExpiry _ | .stopNoticeDrop _ | .readbackTimeout _ | .powerLoss => true

end Sys2Proof
end

