-- ==== Sys2Proof/Certificates/Slice0/Obligations.lean ====
section
/-! DEFINITION. The statements for the provers, each from the numbered rules its docstring names. -/

open Sys2Proof Sys2Proof.Machine

/-! ### The machine, power and the control link (Chapter 9) -/

/-- The commands that wait are taken first in, first out, and an empty queue idles (the idling is a DESIGN CHOICE of the model,
notes/assumptions/5.md; the table's steps are each whole, spec/95_what_each_step_holds.md). -/
def Obligations.StepRunsTheFrontCommand : Prop :=
  (∀ (c : Instr) (rest : List Instr) (s : State),
    step { s with pending := c :: rest } = exec c { s with pending := rest })
    ∧ ∀ s : State, s.pending = [] → step s = .next s

/-- R177, R26, R164, R172, R176: POWER_ON from any state, with any lines, leaves the part freshly booted, whatever it held
before; a write that the loss of power ended leaves no image (R175). The restart of a RESTART begins when its reply has been
sent in full, and does what power-on does, with the store's image and the lines as they stand and the straps as read. That
POWER_ON acts on a part that already has power, as a loss of power with a power-on after it, is the model's choice
(notes/assumptions/14.md). -/
def Obligations.PowerOnAndRestartBootThePart : Prop :=
  (∀ (l : Lines) (s : State), ∃ t, exec (.powerOn l) s = .next t ∧ t.freshlyBooted s.imageFound l true
    ∧ t.pending = s.pending)
    ∧ ∀ (a b : Bool) (tag : Byte) (body : ReplyBody) (s : State), s.powered = true →
      s.link.outgoing = some (.reply tag 0x05 .ok body) →
      ∃ t, exec (.outgoingFrameSent a b) s = .next t ∧ t.freshlyBooted s.site.image (s.site.linesNow a b) false
        ∧ t.pending = s.pending

/-- The state the model begins in is a power-on with every line released and a store whose image fails its check (the lines
and the store are a DESIGN CHOICE, notes/assumptions/1.md); its values are those of R26, R65, R87, R132, R157 and R177. -/
def Obligations.ResetIsAPowerOn : Prop :=
  State.reset.freshlyBooted none releasedLines true ∧ State.reset.pending = []
    ∧ ∀ c : Chan, State.reset.site.chan c = Channel.blank

/-- R175: a loss of power ends a write under way, whose image then fails its check, and leaves the nonvolatile image as it is
otherwise. A part without power does nothing but take power (the model's reading, notes/assumptions/3.md). -/
def Obligations.PowerLossEndsAWrite : Prop :=
  (∀ s : State, s.powered = true → ∃ t, exec .powerLoss s = .next t ∧ t.powered = false ∧ t.pending = s.pending
    ∧ t.site.image = (if s.site.write.isSome = true then none else s.site.image))
    ∧ ∀ (c : Instr) (s : State), s.powered = false → (∀ l, c ≠ .powerOn l) → exec c s = .next s

/-- R169, R166: the link keeps its limits at every step: at most 64 reports, at most 48 routine ones, at most four places. -/
def Obligations.LinkLimitsKept : Prop :=
  ∀ s t : State, s.link.bounded = true → step s = .next t → t.link.bounded = true

/-- R169, R171: a report carries the monotonic count and the site clock label at its offering, and one the mask covers is not
offered; the four marks cover the kinds of R171's table and no other. Where a report that finds no earlier one of its source is
placed, and what a full queue drops or removes. As a report is queued, a free line chooses again (R167). -/
def Obligations.ReportsAreOfferedAndPlaced : Prop :=
  (∀ (s : Site) (l : Link) (b : ReportBody), Link.offerOne s l b =
    (if s.mask.covers b = true then l
    else (l.queueReport { count := s.count, label := s.label, body := b }).chooseFrame))
    ∧ (∀ (m : ReportMask) (b : ReportBody), m.covers b = true ↔
      ((∃ r, b = .terminalState r) ∧ m.terminals = true
        ∨ ((∃ r, b = .channelState r) ∨ ∃ x y, b = .supplyState x y) ∧ m.channels = true
        ∨ (∃ r, b = .orderState r ∧ r.state ≠ .done ∧ r.state ≠ .declined ∧ r.state ≠ .returned) ∧ m.orders = true
        ∨ (∃ r, b = .watchState r
            ∧ (r.cause = .promptDue ∨ r.cause = .deadline ∨ r.cause = .graceExpiry ∨ r.cause = .checkedIn))
          ∧ m.watches = true))
    ∧ ∀ (l : Link) (r : Report), (l.reports.any fun x => x.body.sameSource r.body) = false →
    (r.body.alarmClass = false → routineCount l.reports < 48 → l.reports.length < 64 →
      l.queueReport r = { l with reports := l.reports ++ [r] })
    ∧ (r.body.alarmClass = false → (48 ≤ routineCount l.reports ∨ 64 ≤ l.reports.length) →
      l.queueReport r = { l with reportsLost := true })
    ∧ (r.body.alarmClass = true → l.reports.length < 64 → l.queueReport r = { l with reports := l.reports ++ [r] })
    ∧ (r.body.alarmClass = true → 64 ≤ l.reports.length → ∀ (p q : List Report) (x : Report),
      l.reports = p ++ x :: q → x.body.alarmClass = false → (∀ y ∈ q, y.body.alarmClass = true) →
      l.queueReport r = { l with reports := p ++ q ++ [r], reportsLost := true })
    ∧ (r.body.alarmClass = true → 64 ≤ l.reports.length → (∀ y ∈ l.reports, y.body.alarmClass = true) →
      l.queueReport r = { l with reportsLost := true })

/-- R170: TERMINAL_STATE, CHANNEL_STATE, SUPPLY_STATE and LINK_ERROR coalesce, by terminal ID, channel number, site and link;
a report that finds an earlier one of its source waiting takes its place and nothing else changes, and one that finds none is
placed by the limits of R169. A LINK_ERROR carries the counters as they stand when it is offered. -/
def Obligations.ReportsCoalesceInPlace : Prop :=
  (∀ a b : ReportBody, a.sameSource b = true ↔
    ((∃ x y, a = .terminalState x ∧ b = .terminalState y ∧ x.id = y.id)
      ∨ (∃ x y, a = .channelState x ∧ b = .channelState y ∧ x.channel = y.channel)
      ∨ (∃ x y z w, a = .supplyState x y ∧ b = .supplyState z w) ∨ ∃ x y, a = .linkError x ∧ b = .linkError y))
    ∧ (∀ (l : Link) (r x : Report) (p q : List Report), l.reports = p ++ x :: q →
      (∀ y ∈ p, y.body.sameSource r.body = false) → x.body.sameSource r.body = true →
      l.queueReport r = { l with reports := p ++ r :: q })
    ∧ (∀ (l : Link) (r : Report), (∀ y ∈ l.reports, y.body.sameSource r.body = false) → r.body.alarmClass = false →
      l.queueReport r = (if routineCount l.reports < 48 ∧ l.reports.length < 64 then { l with reports := l.reports ++ [r] }
        else { l with reportsLost := true }))
    ∧ ∀ (l : Link) (s : Site) (c : LinkCounters), l.discarded s c =
      (({ l with receiver := .hunting, counters := c } : Link).queueReport
        { count := s.count, label := s.label, body := .linkError c }).chooseFrame

/-- R167: the free line sends the ready reply of the oldest place, else the report at the head of the queue, else nothing; a
busy line chooses nothing. When a frame other than the reply of a RESTART has been sent, the line is free, a sent reply has
freed the oldest place, the next frame is chosen, and nothing else changes. A report that is queued at a free line with nothing
before it leaves at once. A request's reply becomes ready when its effects, its reports among them, have occurred, and the line
then chooses (that the reports come first is the model's choice, notes/assumptions/2.md). -/
def Obligations.LineChoosesTheNextFrame : Prop :=
  (∀ l : Link,
    (∀ f, l.outgoing = some f → l.chooseFrame = l)
    ∧ (l.outgoing = none → ∀ tag kind st body rest, l.places = { tag, kind, wait := .ready st body } :: rest →
      l.chooseFrame = { l with outgoing := some (.reply tag kind st body) })
    ∧ (l.outgoing = none → (∀ tag kind st body rest, l.places ≠ { tag, kind, wait := .ready st body } :: rest) →
      (∀ r rest, l.reports = r :: rest → l.chooseFrame = { l with outgoing := some (.report r), reports := rest })
      ∧ (l.reports = [] → l.chooseFrame = l
        ∧ ∀ (s : Site) (b : ReportBody), s.mask.covers b = false → Link.offerOne s l b =
          { l with outgoing := some (.report { count := s.count, label := s.label, body := b }) })))
    ∧ (∀ (a b : Bool) (s : State), s.powered = true →
      (∀ r, s.link.outgoing = some (.report r) →
        exec (.outgoingFrameSent a b) s = .next { s with link := ({ s.link with outgoing := none } : Link).chooseFrame })
      ∧ ∀ tag kind st body, s.link.outgoing = some (.reply tag kind st body) → ¬(kind = 0x05 ∧ st = .ok) →
        exec (.outgoingFrameSent a b) s =
          .next { s with link := ({ s.link with outgoing := none, places := s.link.places.tail } : Link).chooseFrame })
    ∧ ∀ (s : State) (h : Hdr) (kind : Byte) (x : Taking),
      let l := ((s.link.arrived s.site).offerAll x.work.serve.site x.work.serve.out).chooseFrame
      s.answered h kind x = { s with
        site := x.work.serve.site
        link := ({ l with
          places := l.places ++ [{ tag := h.tag, kind, wait := x.wait }]
          reportsLost := l.reportsLost && !x.clearLost } : Link).chooseFrame }

/-- R130, R166: every request frame whose check passed is an arrival: the site is ATTENDED, the arrival is recorded, and the
host-silence timer restarts at the limit in force, when that is not 0. An arrival that ends UNATTENDED offers an ATTENDANCE
report with the limit and the count at the arrival, and no other arrival offers one; a request that is judged is answered from
the link as its arrival leaves it. That the ATTENDANCE report goes before what the request itself reports is the model's choice
(notes/assumptions/2.md). -/
def Obligations.RequestsRestartHostSilence : Prop :=
  (∀ (c : Instr) (k : Byte) (h : Hdr) (b : List Byte) (s t : State), requestBody c = some (k, h, b) → s.powered = true →
    exec c s = .next t →
    (t.site.attended = true ∧ t.site.lastArrival = some s.site.count
      ∧ t.site.silence = (if t.site.silenceLimit = 0 then none else some (s.site.count + t.site.silenceLimit)))
      ∧ (s.link.restartPending = true → t = s.conclude (s.link.arrived s.site) s.begun)
      ∧ (s.link.restartPending = false → h.tag ≠ 0 → s.link.places.length < 4 → ∃ x : Taking, t = s.answered h k x))
    ∧ ∀ s : State, let l := { s.link with receiver := .hunting }
      (s.site.attended = true → s.link.arrived s.site = l)
      ∧ (s.site.attended = false → s.link.arrived s.site =
        (l.queueReport
          { count := s.site.count, label := s.site.label
            body := .attendance true s.site.silenceLimit (some s.site.count) }).chooseFrame)

/-- R165, R166, R177, R130: a request frame that is discarded has no effect but its arrival: with a RESTART pending nothing is
counted, with tag 0 the bad tag counter rises, with four places held the overflow counter rises, and no reply is prepared. With
each counter that rises a LINK_ERROR report is queued that carries all five counters as they then stand. The same of the
received frames that no owner sees, of which one of an unknown kind holds a place and is replied to with UNKNOWN_KIND. That a
pending RESTART goes before the tag and the place, so that nothing is counted then, is the model's choice
(notes/assumptions/3.md). -/
def Obligations.DiscardedFramesHaveNoEffect : Prop :=
  ∀ s : State, s.powered = true →
    let counted := fun (c : LinkCounters) => s.conclude
      (({ s.link.arrived s.site with receiver := .hunting, counters := c } : Link).queueReport
        { count := s.site.count, label := s.site.label, body := .linkError c }).chooseFrame s.begun
    let badTag := { s.link.counters with badTag := s.link.counters.badTag.bump }
    let overflow := { s.link.counters with overflow := s.link.counters.overflow.bump }
    (∀ (c : Instr) (k : Byte) (h : Hdr) (b : List Byte) (t : State), requestBody c = some (k, h, b) →
      exec c s = .next t → (s.link.restartPending = true ∨ h.tag = 0 ∨ 4 ≤ s.link.places.length) →
      (t.site = s.site.arrived ∧ t.link.places = s.link.places
        ∧ t.link.counters = (if s.link.restartPending = true then s.link.counters
            else if h.tag = 0 then badTag else overflow))
        ∧ t = if s.link.restartPending = true then s.conclude (s.link.arrived s.site) s.begun
          else if h.tag = 0 then counted badTag else counted overflow)
    ∧ ∀ (h : Hdr) (kind : Byte),
      (s.link.restartPending = false → ∃ t, exec .badTagDiscard s = .next t ∧ t.site = s.site.arrived
        ∧ t.link.places = s.link.places ∧ t.link.counters = badTag ∧ t = counted badTag)
      ∧ (s.link.restartPending = false → h.tag ≠ 0 → 4 ≤ s.link.places.length →
        ∃ t, exec (.overflowDiscard h) s = .next t ∧ t.site = s.site.arrived ∧ t.link.places = s.link.places
          ∧ t.link.counters = overflow ∧ t = counted overflow)
      ∧ (s.link.restartPending = false → h.tag ≠ 0 → s.link.places.length < 4 → requestCodes.contains kind = false →
        ∃ t, exec (.unknownKindRefusal h kind) s = .next t ∧ t.site = s.site.arrived
          ∧ t.link.places = s.link.places ++ [{ tag := h.tag, kind, wait := .ready .unknownKind .empty }]
          ∧ t.link.counters = s.link.counters ∧ t = s.answered h kind (s.begun.refused .unknownKind))
      ∧ (s.link.restartPending = true → ∃ t, exec .requestDiscardedAfterRestart s = .next t ∧ t.site = s.site.arrived
        ∧ t.link.places = s.link.places ∧ t.link.counters = s.link.counters
        ∧ t = s.conclude (s.link.arrived s.site) s.begun)

/-- R166, R167: every request that gets past the place holds one place, after those already held, with its own tag and kind, so
that it receives exactly one reply, in the order of arrival. -/
def Obligations.EveryRequestHoldsOnePlace : Prop :=
  ∀ (c : Instr) (k : Byte) (h : Hdr) (b : List Byte) (s t : State), requestBody c = some (k, h, b) → s.powered = true →
    s.link.restartPending = false → h.tag ≠ 0 → s.link.places.length < 4 → exec c s = .next t →
    ∃ p : Place, t.link.places = s.link.places ++ [p] ∧ p.tag = h.tag ∧ p.kind = k

/-- R166: a request whose length field differs from the length its kind requires is refused with BAD_LENGTH, and the
site changes by its arrival alone. -/
def Obligations.WrongLengthIsRefused : Prop :=
  ∀ (c : Instr) (k : Byte) (h : Hdr) (b : List Byte) (s t : State), requestBody c = some (k, h, b) →
    c.wellFormed = true → s.powered = true → s.link.restartPending = false → s.link.places.length < 4 →
    h.len.toNat ≠ b.length → exec c s = .next t →
    t.site = s.site.arrived
      ∧ t.link.places = s.link.places ++ [{ tag := h.tag, kind := k, wait := .ready .badLength .empty }]

/-- R166: a refused request changes nothing of the site besides its effect on host silence and attendance and counts nothing,
whatever the request, the state and the status, and the body of its reply is empty. -/
def Obligations.RefusedRequestsChangeNothing : Prop :=
  ∀ (c : Instr) (k : Byte) (h : Hdr) (b : List Byte) (s t : State) (st : Status) (body : ReplyBody),
    requestBody c = some (k, h, b) → s.powered = true → exec c s = .next t → st ≠ .ok →
    t.link.places = s.link.places ++ [{ tag := h.tag, kind := k, wait := .ready st body }] →
    t.site = s.site.arrived ∧ body = .empty ∧ t.link.counters = s.link.counters

/-- R165: a frame the receiver discards raises its counter, leaves the receiver hunting and offers a LINK_ERROR report; it is
no request arrival, and the site and the places stay. R47, R101: a counter rises by 1 below 65535; at 65535 it stays and its
saturated mark is set. It never leaves 0 to 65535. -/
def Obligations.ReceiverDiscardsAreCounted : Prop :=
  (∀ s : State, s.powered = true →
    (∃ t, exec .badCheckDiscard s = .next t ∧ t.site = s.site ∧ t.link.places = s.link.places ∧ t.link.receiver = .hunting
      ∧ t.link.counters = { s.link.counters with badCheck := s.link.counters.badCheck.bump }
      ∧ t = s.conclude (s.link.discarded s.site t.link.counters) s.work)
    ∧ (∃ t, exec .tooLongDiscard s = .next t ∧ t.site = s.site ∧ t.link.places = s.link.places
      ∧ t.link.receiver = .hunting
      ∧ t.link.counters = { s.link.counters with tooLong := s.link.counters.tooLong.bump }
      ∧ t = s.conclude (s.link.discarded s.site t.link.counters) s.work)
    ∧ ∃ t, exec .gapExpiry s = .next t ∧ t.site = s.site ∧ t.link.places = s.link.places ∧ t.link.receiver = .hunting
      ∧ t.link.counters = { s.link.counters with gap := s.link.counters.gap.bump }
      ∧ t = s.conclude (s.link.discarded s.site t.link.counters) s.work)
    ∧ ∀ c : Counter, (c.value < 65535 → c.bump = { c with value := c.value + 1 })
      ∧ (c.value = 65535 → c.bump = { c with saturated := true }) ∧ (c.value ≤ 65535 → c.bump.value ≤ 65535)

/-! ### Site requests, the settings store, the timebase and the site lines (Chapters 8 and 9) -/

/-- R172 to R175, R177: the site requests that are taken, with everything they change. SET_SITE takes its four settings
together and restarts the host-silence timer at the new limit; SET_CLOCK sets the label alone; STORE_SETTINGS begins a write of
the current values and its reply waits; RESTART changes nothing until its reply is sent. A SET_SITE with a setting out of range
is refused with BAD_VALUE. GET_STATUS replies with the status as it stands at the taking, its reports-lost mark included, then
clears that mark, and changes nothing else of the site. The status is written out field by field (R174): the GUEST records are
those of that origin, the live permits those in no final state, and the routine reports those queued that are not alarm class.
-/
def Obligations.SiteRequestsTaken : Prop :=
  (∀ (x : Site) (l : Link),
    let line := fun (c : Chan) => ({ state := (x.chan c).state, lampLit := (x.chan c).lampLit, present := (x.chan c).present
                                     leverOpen := (x.chan c).leverOpen, paired := x.paired c } : StatusChannel)
    x.status l =
      { siteId := x.siteId, count := x.count, label := x.label, mode := x.mode, supply := x.supply, keyEnable := x.keyEnable
        channels := #v[line 0, line 1, line 2, line 3], terminals := x.roster.length
        guests := (x.roster.filter fun e => e.2.origin == .guest).length, crews := x.crews.length
        orders := x.orders.length, blocks := (x.orders.map fun e => e.2.blocks).sum, watches := x.watches.length
        livePermits := (x.permits.filter fun e => e.2.state == .requested || e.2.state == .issuing || e.2.state == .issued
          || e.2.state == .releasePending).length
        retainedPermits := (x.permits.filter fun e => e.2.retained).length, owedItems := x.pul.length
        attended := x.attended, reportsLost := l.reportsLost, reportsQueued := l.reports.length
        routineQueued := (l.reports.filter fun r => !r.body.alarmClass).length, mask := x.mask, defaulted := x.defaulted
        writing := x.write.isSome, writePending := x.modePending, assistDrops := x.assistDrops, link := l.counters })
  ∧ ∀ (h : Hdr) (s : State),
    (∀ (id esc sil : Half) (m : Byte), s.admits h 7 → 30 ≤ esc.toNat → esc.toNat ≤ 300 →
      (sil.toNat = 0 ∨ 30 ≤ sil.toNat ∧ sil.toNat ≤ 900) →
      ∃ t, exec (.setSite h id esc sil m) s = .next t
        ∧ t.site = { s.site with
            lastArrival := some s.site.count, attended := true, siteId := id.toNat, escalation := esc.toNat
            silenceLimit := sil.toNat, mask := maskOf m
            silence := if sil.toNat = 0 then none else some (s.site.count + sil.toNat) }
        ∧ t.link.places = s.link.places ++ [{ tag := h.tag, kind := 0x02, wait := .ready .ok .empty }])
    ∧ (∀ v : Word, s.admits h 4 → ∃ t, exec (.setClock h v) s = .next t ∧ t.site = { s.site.arrived with label := v }
        ∧ t.link.places = s.link.places ++ [{ tag := h.tag, kind := 0x03, wait := .ready .ok .empty }])
    ∧ (s.admits h 0 → s.site.write = none → ∃ t, exec (.storeSettings h) s = .next t
        ∧ t.site = { s.site.arrived with
            write := some { modeOnly := false, image := s.site.current }, copy := s.site.current }
        ∧ t.link.places = s.link.places ++ [{ tag := h.tag, kind := 0x04, wait := .storeWrite }])
    ∧ (s.admits h 0 → s.site.write.isSome = true → ∃ t, exec (.storeSettings h) s = .next t ∧ t.site = s.site.arrived
        ∧ t.link.places = s.link.places ++ [{ tag := h.tag, kind := 0x04, wait := .ready .busy .empty }])
    ∧ (∀ (id esc sil : Half) (m : Byte), s.admits h 7 →
        ¬(30 ≤ esc.toNat ∧ esc.toNat ≤ 300 ∧ (sil.toNat = 0 ∨ 30 ≤ sil.toNat ∧ sil.toNat ≤ 900)) →
        exec (.setSite h id esc sil m) s = .next (s.answered h 0x02 (s.begun.refused .badValue)))
    ∧ (s.admits h 0 → ∃ t, exec (.restart h) s = .next t ∧ t.site = s.site.arrived ∧ t.link.restartPending = true
        ∧ t.link.places = s.link.places ++ [{ tag := h.tag, kind := 0x05, wait := .ready .ok .empty }])
    ∧ (s.admits h 0 → ∃ t, exec (.getStatus h) s = .next t ∧ t.site = s.site.arrived ∧ t.link.reportsLost = false
        ∧ t.link.places = s.link.places ++
          [{ tag := h.tag, kind := 0x01, wait := .ready .ok (.status (s.site.arrived.status (s.link.arrived s.site))) }])

/-- R175, R162: at the completion of the STORE_SETTINGS write its image stands in the store, the settings-defaulted mark is
cleared, its reply becomes ready, and a pending mode write begins with the mode in force; nothing else of the site changes. At
the completion of a mode write its image stands in the store, the replies that waited for it become ready with the mode now
stored, the settings-defaulted mark stays, and a pending mode write begins with the mode in force. -/
def Obligations.StoreWritesComplete : Prop :=
  ∀ (s : State) (w : StoreWrite), s.powered = true → s.site.write = some w →
    (w.modeOnly = false → ∃ t, exec .storeWriteCompletion s = .next t
      ∧ t.site = (if s.site.modePending = true then
          { s.site with
            image := some w.image, defaulted := false, modePending := false
            write := some { modeOnly := true, image := { s.site.copy with mode := s.site.mode } }
            copy := { s.site.copy with mode := s.site.mode } }
        else { s.site with image := some w.image, defaulted := false, write := none })
      ∧ t.link.places = s.link.places.map fun p => match p.wait with
        | .storeWrite => { p with wait := .ready .ok .empty }
        | .modePending => { p with wait := .modeWrite }
        | .ready _ _ | .modeWrite => p)
    ∧ (w.modeOnly = true → ∃ t, exec .modeWriteCompletion s = .next t
      ∧ t.site = (if s.site.modePending = true then
          { s.site with
            image := some w.image, modePending := false
            write := some { modeOnly := true, image := { s.site.copy with mode := s.site.mode } }
            copy := { s.site.copy with mode := s.site.mode } }
        else { s.site with image := some w.image, write := none })
      ∧ t.link.places = s.link.places.map fun p => match p.wait with
        | .modeWrite => { p with wait := .ready .ok (.modeStored w.image.mode) }
        | .modePending => { p with wait := .modeWrite }
        | .ready _ _ | .storeWrite => p)

/-- R172: each second the monotonic count and the site clock label rise by 1 together and nothing else changes; the label
passes from 0xFFFFFFFF to 0. What the count becomes after 0xFFFFFFFF is a free value of the model (notes/assumptions/6.md), of
which only the 32-bit range is said. R130: at the expiry of the host-silence timer the site becomes UNATTENDED and an
ATTENDANCE report is offered; nothing else changes. -/
def Obligations.SecondsAndHostSilence : Prop :=
  ∀ s : State, s.powered = true →
    (∃ t, exec .secondTick s = .next t
      ∧ (s.site.count < 0xFFFFFFFF → t.site = { s.site with count := s.site.count + 1, label := s.site.label + 1 })
      ∧ (0xFFFFFFFF ≤ s.site.count → t.site.count ≤ 0xFFFFFFFF
        ∧ t.site = { s.site with
            count := t.site.count, label := s.site.label + 1, freeUsed := s.site.freeUsed + 1 }))
    ∧ ∀ e, s.site.silence = some e → e ≤ s.site.count →
      exec .hostSilenceExpiry s = .next (s.after
        ((s.work.modSite fun x => { x with silence := none, attended := false }).emit
          (.attendance false s.site.silenceLimit s.site.lastArrival)))

/-- R157: a movement of the key switch changes the key position and nothing besides. R44, R45: the levels of the two lines; a
change offers a SUPPLY_STATE report; entering CRITICAL takes each channel it holds quiet, in ascending order, out of UP or
TRAINING to QUIET, and clears a pending bring-up in QUIET; leaving CRITICAL offers every channel a choice; a change between
NORMAL and RESERVE does nothing more. R38: out of TRAINING the members go to QUIET with their training timers stopped, their
quiet timers at two seconds, their pending bring-ups cleared and a report each, the partner's with PAIR_PARTNER (R41), and
nothing else changes; out of UP the frame on the air is abandoned and the departure of R35 goes before. That the primary
reports first is the model's choice (notes/assumptions/10.md). That the SUPPLY_STATE report goes before the channel effects of
a change to CRITICAL is the model's choice (notes/assumptions/10.md). -/
def Obligations.SiteLinesFollowed : Prop :=
  (∀ (e : Bool) (s : State), s.powered = true →
    ∃ t, exec (.keySwitchMoved e) s = .next t ∧ t.site = { s.site with keyEnable := e } ∧ t.link.places = s.link.places)
    ∧ (∀ a b : Bool, supplyLevelOf a b = (if b = true then .critical else if a = true then .reserve else .normal))
    ∧ (∀ (w : Work) (c : Chan), (w.site.heldQuiet c = true ↔ c = 1 ∧ w.site.paired 1 = false ∨ c = 2 ∨ c = 3)
      ∧ (w.site.heldQuiet c = false → w.criticalAt c = w)
      ∧ (w.site.heldQuiet c = true →
        ((w.site.chan c).state = .up ∨ (w.site.chan c).state = .training → w.criticalAt c = w.goQuiet c .supply)
        ∧ ((w.site.chan c).state = .quiet → w.criticalAt c = w.clearPending c)))
    ∧ (∀ (w : Work) (c : Chan) (cause : ChannelCause),
      let ms := w.site.members c
      let t := w.goQuiet c cause
      ((w.site.chan c).state = .up → t = (((w.abandon c).departUp c fun _ => .quiet).modChans ms fun x =>
        { x with trainingTimer := none, quietTimer := some (w.site.count + 2), pendingBringUp := false }).reportPair c cause)
      ∧ ((w.site.chan c).state ≠ .up →
        t.site = { w.site with channels := t.site.channels } ∧ t.offers = w.offers
        ∧ (∀ d, t.site.chan d = if d ∈ ms then
            { w.site.chan d with
              previous := (w.site.chan d).state, state := .quiet, trainingTimer := none
              quietTimer := some (w.site.count + 2), pendingBringUp := false }
          else w.site.chan d)
        ∧ t.out = w.out ++ (ms.map fun m => ReportBody.channelState
          { channel := m, state := .quiet, previous := (w.site.chan m).state, lampLit := (w.site.chan m).lampLit
            cause := if m = c then cause else .pairPartner })))
    ∧ ∀ (a b : Bool) (s : State), s.powered = true →
      let w := s.work.modSite fun x => { x with firstSupply := a, secondSupply := b }
      let v := w.emit (.supplyState (supplyLevelOf a b) s.site.supply)
      (supplyLevelOf a b = s.site.supply → exec (.supplyLevelChange a b) s = .next (s.after w))
      ∧ (supplyLevelOf a b ≠ s.site.supply → supplyLevelOf a b = .critical →
        exec (.supplyLevelChange a b) s = .next (s.after
          ((((v.criticalAt 0).criticalAt 1).criticalAt 2).criticalAt 3)))
      ∧ (supplyLevelOf a b ≠ .critical → s.site.supply = .critical →
        exec (.supplyLevelChange a b) s = .next (s.after v.offerEvery))
      ∧ (supplyLevelOf a b ≠ s.site.supply → supplyLevelOf a b ≠ .critical → s.site.supply ≠ .critical →
        exec (.supplyLevelChange a b) s = .next (s.after v))

/-- R157, R161: the mode changes only at a taken SET_MODE and at a boot. -/
def Obligations.ModeChangesOnlyBySetMode : Prop :=
  ∀ (s t : State) (c : Instr), exec c s = .next t → t.site.mode ≠ s.site.mode →
    (∃ h m, c = .setMode h m) ∨ (∃ l, c = .powerOn l) ∨ ∃ a b tag body, c = .outgoingFrameSent a b
      ∧ s.link.outgoing = some (.reply tag 0x05 .ok body)

/-- R160, R161, R162: SET_AUTH_LIST replaces the authorized list whole, in the order given; SET_MODE with the key at ENABLE
reverts the ISSUING permits, empties the list, sets the mode, removes the unbound guests on leaving OPEN, offers every channel
a choice on leaving ALARMS_ONLY, and begins the mode write or sets it pending; with the key at NORMAL it is refused with KEY.
Step 1: no permit is left ISSUING, each one that was is REQUESTED without a deadline, with a report of cause MODE_CHANGE and a
result carrying WITHDRAWN for its recorded vehicle, and the others are as before; the permits go by ascending number, which is
the model's choice (notes/assumptions/10.md). Step 4 (R8, R131): each unbound guest's record is removed, with its report, and
the supervision record of a supervised one, with a WATCH_STATE report and, from an alarm, an ALARM report of reason REMOVED; no
GUEST record is left where guests are bound to no crew (R12), and every other record stays. The guests go by ascending index,
which is the model's choice (notes/assumptions/10.md). -/
def Obligations.AuthorizationRequestsTaken : Prop :=
  (∀ w : Work, ∃ l : List (Nat × Permit), l.Perm (w.site.permits.filter fun e => e.2.state == .issuing)
    ∧ (l.Pairwise fun a b => a.2.number ≤ b.2.number)
    ∧ (let t := w.revertIssuing
      t = l.foldl (fun v e => v.revertPermit e.1 .modeChange true) w
      ∧ (w.site.sorted = true →
        t.site = { w.site with
          permits := t.site.permits, pul := t.site.pul, nextItem := t.site.nextItem, channels := t.site.channels }
        ∧ (∀ k, Table.look t.site.permits k = (Table.look w.site.permits k).map fun p =>
            if p.state = .issuing then { p with state := .requested, deadline := none } else p)
        ∧ t.out = w.out ++ (l.map fun e => ReportBody.permitState
            { number := e.2.number, work := e.2.work, crew := e.2.crew, state := .requested, previous := some .issuing
              cause := .modeChange, attempts := e.2.attempts, compromised := e.2.compromised, restored := e.2.restored
              resultConfirmed := e.2.resultConfirmed
              violationSwitch := if e.2.compromised = true then e.2.violationSwitch else none, recorded := e.2.recorded })
        ∧ ∀ e ∈ l, ∀ i x, e.2.recorded.bind w.site.byId = some (i, x) → ∃ id place, Table.look t.site.pul id =
            some { owner := .permit e.1, addressee := i
                   content := .permitResult e.2.number .withdrawn e.2.attempts, location := place })))
    ∧ (∀ w : Work,
      let t := w.removeGuests
      t = (w.site.roster.filter fun e => e.2.origin == .guest && e.2.crew.isNone).foldl (fun v e => v.removeTerminal e.1) w
      ∧ (w.site.sorted = true → ∀ i x, Table.look w.site.roster i = some x →
        (¬(x.origin = .guest ∧ x.crew = none) → ∃ notes, Table.look t.site.roster i = some { x with notes })
        ∧ (x.origin = .guest → x.crew = none → Table.look t.site.roster i = none
          ∧ .terminalState { id := x.id, index := i, state := .removed, channel := none, short := none, cause := .removed
                             quality := x.quality, lastHeard := x.lastHeard } ∈ t.out
          ∧ Table.look t.site.watches i = none
          ∧ ∀ r, Table.look w.site.watches i = some r →
            .watchState { id := x.id, index := i, crew := none, state := none, previous := r.state, cause := .unitRemoved
                          missed := r.missed, deadline := r.deadline, lastCheckIn := r.lastCheckIn
                          stopNotPlaced := false } ∈ t.out
            ∧ (r.state = .alarm ∨ r.state = .acknowledged → ∃ a, .alarm a ∈ t.out ∧ a.id = x.id ∧ a.index = i
              ∧ a.crew = none ∧ a.state = r.state ∧ a.cause = r.cause ∧ a.time = r.alarmTime ∧ a.reason = .removed)))
      ∧ (w.site.sorted = true → (∀ i x, Table.look w.site.roster i = some x → x.origin = .guest → x.crew = none) →
        ∀ i y, Table.look t.site.roster i = some y → y.origin = .loaded))
    ∧ ∀ (h : Hdr) (s : State),
    (∀ (n : Byte) (l : List Half), s.admits h (1 + 2 * n.toNat) → l.length = n.toNat → l.length ≤ 32 → l.Nodup →
      (∀ x ∈ l, 1 ≤ x.toNat ∧ x.toNat ≤ 4095) →
      ∃ t, exec (.setAuthList h n l) s = .next t ∧ t.site = { s.site.arrived with authList := l.map BitVec.toNat }
        ∧ t.link.places = s.link.places ++ [{ tag := h.tag, kind := 0x60, wait := .ready .ok (.authCount l.length) }])
    ∧ (∀ (m : Byte) (x : Mode), s.admits h 1 → modeOf m = some x → s.site.keyEnable = true →
      let v := s.begun.revertIssuing.modSite fun y => { y with authList := [], mode := x }
      let u := if s.site.mode = .openMode ∧ x ≠ .openMode then v.removeGuests else v
      let w := if s.site.mode = .alarmsOnly ∧ x ≠ .alarmsOnly then u.offerEvery else u
      w.site.mode = x ∧ w.site.authList = []
        ∧ exec (.setMode h m) s = .next (s.answered h 0x61
          (if s.site.write.isSome = true then
            { work := w.modSite fun y => { y with modePending := true }, wait := .modePending, clearLost := false }
          else { work := w.modSite Site.beginModeWrite, wait := .modeWrite, clearLost := false })))
    ∧ ∀ (m : Byte) (x : Mode), s.admits h 1 → modeOf m = some x → s.site.keyEnable = false →
      exec (.setMode h m) s = .next (s.answered h 0x61 (s.begun.refused .key))

/-! ### What every step keeps -/

/-- The record numbers of every table stay strictly rising and never repeat, whatever the command: equal tables are equal
data. The number of every owed item stays below the next one, so that the Pending Urgent List stays in the order in which its
items were placed (R81). -/
def Obligations.TablesStayCanonical : Prop :=
  ∀ s t : State, s.site.sorted = true → step s = .next t → t.site.sorted = true

/-- R2, R4, R61: whatever the command, every roster record keeps its free credit within its capacity, its link quality within 0
to 15, and a channel exactly while it is AFFILIATED. -/
def Obligations.RosterRangesKept : Prop :=
  ∀ s t : State, s.site.rosterSound = true → step s = .next t → t.site.rosterSound = true

/-- R72, R78: whatever the command, every deficit counter stays within 0 to 255 and no terminal is twice in a pending access
set. -/
def Obligations.ChannelRangesKept : Prop :=
  ∀ s t : State, s.site.channelsSound = true → step s = .next t → t.site.channelsSound = true

/-- R139: the interlock law. Whatever the command, no SWITCHING permit with operation CLOSE comes to be in ISSUING or ISSUED
while a section its switch point joins has a nonzero clearance count or is listed by a CLEARANCE in ISSUING. That
RELEASE_PENDING is a state of clearances alone (R147) is kept with it. -/
def Obligations.InterlockLawKept : Prop :=
  ∀ s t : State, s.site.sorted = true → s.site.lawful → step s = .next t → t.site.lawful

/-- R19: whatever the command, no two terminals AFFILIATED on one channel hold one short address. -/
def Obligations.ShortAddressesStayApart : Prop :=
  ∀ s t : State, s.site.sorted = true → s.site.apart → step s = .next t → t.site.apart

/-- R132: whatever the command, every section's clearance count is the number of clearances in ISSUED or RELEASE_PENDING that
list it. With it is kept what the count rests on: a live clearance lists defined sections (R134, R138), each once, and a
retained record is not live (R150). -/
def Obligations.ClearanceCountsKept : Prop :=
  ∀ s t : State, s.site.sorted = true → s.site.Cleared → step s = .next t → t.site.Cleared

/-- R15, R16: whatever the command, a crew's unresolved-alarm count is the number of supervision records in ALARM or
ACKNOWLEDGED whose unit is bound to it, and its live-permit count is the number of its live permits. With them is kept what the
counts rest on: the bindings of R11 to R13, the kinds of vehicles, members and supervised units, and that a GUEST record is
bound to no crew. -/
def Obligations.CrewCountsKept : Prop :=
  ∀ s t : State, s.site.sorted = true → s.site.Booked → step s = .next t → t.site.Booked

/-- R27: the configuration of a channel changes only at a taken SET_CHANNEL and at a boot. -/
def Obligations.ConfigurationChangesOnlyBySetChannel : Prop :=
  ∀ (s t : State) (c : Instr), exec c s = .next t → t.site.configs ≠ s.site.configs →
    (∃ h b f, c = .setChannel h b f) ∨ (∃ l, c = .powerOn l) ∨ ∃ a b tag body, c = .outgoingFrameSent a b
      ∧ s.link.outgoing = some (.reply tag 0x05 .ok body)

/-- R26, R87, R132, R153, R177: the reset state keeps every limit and range that the statements above say each step keeps, the
counts and short addresses among them. -/
def Obligations.ResetIsSound : Prop :=
  State.reset.link.bounded = true ∧ State.reset.site.sorted = true ∧ State.reset.site.rosterSound = true
    ∧ State.reset.site.channelsSound = true ∧ State.reset.site.lawful ∧ State.reset.site.apart
    ∧ State.reset.site.Cleared ∧ State.reset.site.Booked

/-! ### From the wire to the commands (Chapter 10) -/

/-- 10.2, R178: the body of every well-formed request reads back as the request itself, every field at every value. -/
def Obligations.RequestBodiesReadBack : Prop :=
  ∀ (i : Instr) (k : Byte) (h : Hdr) (b : List Byte), requestBody i = some (k, h, b) → i.wellFormed = true →
    readRequest k h b = i

/-- R165, R178: the receiver hunts through bytes other than 0xA5, assembles a control frame byte by byte, and at its last check
byte has received exactly its kind, its tag, its length and its body, and hunts again. A length above 1024 is discarded as too
long at its second byte; below that the receiver goes on to the last check byte, where a check that is not the CRC-16 of the
bytes from the kind to the body is discarded as a bad check. -/
def Obligations.ControlFramesAreReceived : Prop :=
  (∀ b : Byte, b ≠ 0xA5 → Receiver.hunting.take b = (.hunting, .more))
    ∧ (∀ (kind tag : Byte) (body front : List Byte) (last : Byte), body.length ≤ 1024 →
      controlFrame kind tag body = front ++ [last] →
      (front.foldl (fun r b => (Receiver.take r b).1) .hunting) = .assembling front.tail
        ∧ (Receiver.assembling front.tail).take last =
          (.hunting, .frame kind { tag, len := BitVec.ofNat 16 body.length } body))
    ∧ Receiver.hunting.take 0xA5 = (.assembling [], .more)
    ∧ (∀ (l : List Byte) (b : Byte), l.length < 3 → (Receiver.assembling l).take b = (.assembling (l ++ [b]), .more))
    ∧ ∀ (kind tag : Byte) (len : Half),
      (1024 < len.toNat →
        (Receiver.assembling [kind, tag, len.extractLsb' 8 8]).take (len.extractLsb' 0 8) = (.hunting, .tooLong))
      ∧ (len.toNat ≤ 1024 →
        (∀ (l p : List Byte) (b : Byte), l ++ [b] = kind :: tag :: (bytes2 len ++ p) → p.length < len.toNat + 2 →
          (Receiver.assembling l).take b = (.assembling (l ++ [b]), .more))
        ∧ ∀ (body : List Byte) (check : Half), body.length = len.toNat →
          (Receiver.assembling (kind :: tag :: (bytes2 len ++ body ++ [check.extractLsb' 8 8]))).take
              (check.extractLsb' 0 8) =
            (.hunting, if check = crc16 (kind :: tag :: (bytes2 len ++ body)) then .frame kind { tag, len } body
              else .badCheck))

/-- R165, R166, R177: what the link makes of a byte: nothing while a frame is assembled, the discard of a frame too long or of
a bad check, and, when it completes a frame, by the state of the link: while a RESTART waits to begin a discard that nothing
counts, with tag 0 and with four places held the discards of R166, with a free place the UNKNOWN_KIND reply to a kind that is
no request's, and for a well-formed request that request. A body that fits no request of its kind gives a well-formed request
of the kind whose required length differs from the frame's, which R166 refuses with BAD_LENGTH. A part without power takes no
byte. That a pending RESTART goes before the tag and the place is the model's choice (notes/assumptions/3.md). -/
def Obligations.BytesBecomeCommands : Prop :=
  ∀ (s : State) (b : Byte), (s.powered = false → s.receiveByte b = .next s) ∧ (s.powered = true →
    ((s.link.receiver.take b).2 = .more →
      s.receiveByte b = .next { s with link := { s.link with receiver := (s.link.receiver.take b).1 } })
    ∧ ((s.link.receiver.take b).2 = .tooLong → s.receiveByte b = exec .tooLongDiscard s)
    ∧ ((s.link.receiver.take b).2 = .badCheck → s.receiveByte b = exec .badCheckDiscard s)
    ∧ ∀ (k : Byte) (h : Hdr) (body : List Byte), (s.link.receiver.take b).2 = .frame k h body →
      (s.link.restartPending = true → s.receiveByte b = exec .requestDiscardedAfterRestart s)
      ∧ (s.link.restartPending = false →
        (h.tag = 0 → s.receiveByte b = exec .badTagDiscard s)
        ∧ (h.tag ≠ 0 → 4 ≤ s.link.places.length → s.receiveByte b = exec (.overflowDiscard h) s)
        ∧ (h.tag ≠ 0 → s.link.places.length < 4 →
          (requestCodes.contains k = false → s.receiveByte b = exec (.unknownKindRefusal h k) s)
          ∧ (∀ i : Instr, requestBody i = some (k, h, body) → i.wellFormed = true → s.receiveByte b = exec i s)
          ∧ (requestCodes.contains k = true → ∃ (i : Instr) (required : List Byte), s.receiveByte b = exec i s
            ∧ requestBody i = some (k, h, required) ∧ i.wellFormed = true
            ∧ (required = body ∨ h.len.toNat ≠ required.length)))))

/-- R180, R57: an inbound frame as a terminal sends it reads back as its sender field and its content, every field at every
value (AFFILIATE always carries the ID, R56), and the transceiver's report of it is that kind's command. A frame whose check
failed is counted as bad and nothing else. A content is undecodable exactly by its kind, its length or a value outside its
range, and its frame is then the undecodable command of its sender. That an AFFILIATE in the short form is undecodable, that a
missing byte reads as 0, and which bits are ignored, is the model's choice (notes/assumptions/21.md), and so is the byte order
(notes/assumptions/31.md). -/
def Obligations.InboundFramesReadBack : Prop :=
  (∀ (f : Sender) (i : Inbound), f.wellFormed = true → (∀ c, i = .affiliate c → ∃ t, f = .id t) →
    readFrame (inboundBytes f i) = (f, some i))
    ∧ (∀ l : List Byte,
      let long := (at1 l 0).msb
      let kind := ((at1 l 0).extractLsb' 3 4).toNat
      let body := l.drop (if long then 5 else 1)
      let code := at2 body 2
      (readFrame l).1 = (if long then .id (at4 l 1) else .short ((at1 l 0).extractLsb' 0 3))
      ∧ ((readFrame l).2 = none ↔ kind = 0 ∨ 10 < kind
        ∨ body.length ≠ [0, 0, 2, 11, 2, 10, 6, 4, 2, 2, 0].getD kind 0
        ∨ kind = 2 ∧ (long = false ∨ ((at1 body 0).extractLsb' 1 2).toNat = 3)
        ∨ kind = 3 ∧ at1 body 0 ≠ 1 ∧ at1 body 0 ≠ 2
        ∨ kind = 6 ∧ 2 < (at1 body 4).toNat
        ∨ kind = 7 ∧ ¬((code.extractLsb' 12 4).toNat ≤ 9 ∧ (code.extractLsb' 8 4).toNat ≤ 9
          ∧ (code.extractLsb' 4 4).toNat ≤ 9 ∧ (code.extractLsb' 0 4).toNat ≤ 9)))
    ∧ ∀ (s : State) (channel : Chan) (sample : Fin 16) (l : List Byte),
      s.receiveAir channel false sample l = exec (.inboundBadCheck channel) s
      ∧ ∀ f : Sender,
        let a : Arrival := { channel, sample, sender := f }
        let taken := s.receiveAir channel true sample l
        (readFrame l = (f, none) → taken = exec (.inboundUndecodable a) s)
        ∧ (readFrame l = (f, some .access) → taken = exec (.access a) s)
        ∧ (∀ t c, f = .id t → readFrame l = (f, some (.affiliate c)) → taken = exec (.affiliate channel sample t c) s)
        ∧ (∀ c p, readFrame l = (f, some (.alarm c p)) → taken = exec (.alarm a c p) s)
        ∧ (∀ bit n, readFrame l = (f, some (.ack bit n)) → taken = exec (.ack a bit n) s)
        ∧ (∀ p, readFrame l = (f, some (.checkIn p)) → taken = exec (.checkIn a p) s)
        ∧ (∀ n r x, readFrame l = (f, some (.orderReply n r x)) → taken = exec (.orderReply a n r x) s)
        ∧ (∀ n c, readFrame l = (f, some (.readback n c)) → taken = exec (.readback a n c) s)
        ∧ (∀ n, readFrame l = (f, some (.switchDone n)) → taken = exec (.switchDone a n) s)
        ∧ (∀ n, readFrame l = (f, some (.releaseAsk n)) → taken = exec (.releaseAsk a n) s)
        ∧ (readFrame l = (f, some .depart) → taken = exec (.depart a) s)

/-! ### Numbers (sections 1 to 4, 6 and 7) -/

/-- R1, R112: the minutes of the sixteen duration codes and the seconds they stand for, and the lead of each, by its three
steps and as R112's table gives it. -/
def Obligations.DurationsAndLeads : Prop :=
  (List.range 16).map minutesOf = [1, 2, 3, 5, 10, 15, 20, 30, 45, 60, 90, 120, 180, 240, 360, 480]
    ∧ (∀ c, secondsOf c = 60 * minutesOf c)
    ∧ (∀ c, leadOf c = (let a := secondsOf c / 5
      let b := if a < 30 then 30 else if 600 < a then 600 else a
      if secondsOf c / 2 < b then secondsOf c / 2 else b))
    ∧ (List.range 10).map leadOf = [30, 30, 36, 60, 120, 180, 240, 360, 540, 600] ∧ (∀ c, 10 ≤ c → leadOf c = 600)
    ∧ ∀ c, leadOf c < secondsOf c

/-- R61 to R64: link quality stays within 0 to 15 and follows its average, the rate cap and the forced FEC follow it, the rate
is the lowest of the three, each rate has its bits per second, twice as many on a pair, and the airtime is the least number of
units that hold the 48 bits and the coded bits of R64, which with FEC are the least number not below one and a half times the
header and the payload. The airtime never exceeds 246 units, which the largest frame takes. -/
def Obligations.RateFecAndAirtime : Prop :=
  (∀ q m, averaged q m = (3 * q + m + 2) / 4) ∧ (∀ q m, q ≤ 15 → m ≤ 15 → averaged q m ≤ 15)
    ∧ (∀ q, rateCap q = if 10 ≤ q then .high else if 6 ≤ q then .mid else .low)
    ∧ (∀ (g : ChannelConfig) (t : Terminal), bitsPerSecond (rateFor g (some t)) false =
        min (bitsPerSecond g.rate false) (min (bitsPerSecond t.maxRate false) (bitsPerSecond (rateCap t.quality) false)))
    ∧ (∀ g : ChannelConfig, rateFor g none = .low ∧ ∀ r, fecFor g r none = true)
    ∧ (∀ (g : ChannelConfig) (t : Terminal) (r : Rate), fecFor g r (some t) = true ↔
        (t.quality < 4 ∨ (r ≠ .high ∧ (g.fecLow = true ∨ t.fecLow = true))
          ∨ (r = .high ∧ g.fecHigh = true ∧ t.fecHigh = true)))
    ∧ (bitsPerSecond .low false = 4800 ∧ bitsPerSecond .mid false = 9600 ∧ bitsPerSecond .high false = 19200
      ∧ ∀ r, bitsPerSecond r true = 2 * bitsPerSecond r false)
    ∧ (∀ (long : Bool) (blocks : Nat) (fec : Bool) (r : Rate) (paired : Bool),
      let p := (if long = true then 64 else 32) + 96 * blocks
      let bps := bitsPerSecond r paired
      let units := airtimeOf long blocks fec r paired
      ∃ coded, (fec = false → coded = p) ∧ (fec = true → 3 * p ≤ 2 * coded ∧ 2 * coded < 3 * p + 2)
        ∧ 200 * (48 + coded) ≤ bps * units ∧ bps * units < 200 * (48 + coded) + bps)
    ∧ (∀ (l : Bool) (n : Nat) (f : Bool) (r : Rate) (p : Bool), n ≤ 40 → airtimeOf l n f r p ≤ 246)
    ∧ airtimeOf true 40 true .low false = 246

/-- R79: the arbiter's four cases: the next HIGH member after the HIGH pointer; the LOW tier's one position; the wrap to the
lowest HIGH member; and no grant. -/
def Obligations.ArbiterTakesTheNextInTurn : Prop :=
  ∀ (s : Site) (high low : Option Nat) (l : List Nat),
    let after := fun (p : Option Nat) (i : Nat) => ∀ x, p = some x → x < i
    let H := fun i => i ∈ l ∧ s.tier i = .high
    let L := fun i => i ∈ l ∧ s.tier i = .low
    (∀ i, H i → after high i → (∀ j, H j → after high j → i ≤ j) →
      s.arbitrate high low l = some (i, some i, low))
    ∧ ((∀ j, H j → ¬after high j) →
      (∀ i, L i → after low i → (∀ j, L j → after low j → i ≤ j) → s.arbitrate high low l = some (i, none, some i))
      ∧ ((∀ j, L j → ¬after low j) →
        (∀ i, L i → (∀ j, L j → i ≤ j) → s.arbitrate high low l = some (i, none, some i))
        ∧ ((∀ j, ¬L j) →
          (∀ i, H i → (∀ j, H j → i ≤ j) → s.arbitrate high low l = some (i, some i, low))
          ∧ ((∀ j, ¬H j) → s.arbitrate high low l = none))))

/-- R71, R72: case 3 comes to an end: with quanta of at least 8 and airtimes of at most 246, more passes
than the model allows change nothing, so that its bound is never reached; it ends with the quantum-added mark set, and the
deficits stay within 0 to 255. -/
def Obligations.BalanceComesToAnEnd : Prop :=
  ∀ (uq rq ua ra n : Nat) (a : Account), 8 ≤ uq → 8 ≤ rq → ua ≤ 246 → ra ≤ 246 → a.urgent ≤ 255 → a.routine ≤ 255 → 80 ≤ n →
    Account.balance uq rq ua ra n a = Account.balance uq rq ua ra 80 a
      ∧ (Account.balance uq rq ua ra 80 a).urgent ≤ 255 ∧ (Account.balance uq rq ua ra 80 a).routine ≤ 255
      ∧ (Account.balance uq rq ua ra 80 a).added = true

/-- R154, R155, R156: the issue code is the sum of place times word over the permit's words, modulo 9973, the key entering
after the content when the keyed mark is set; the release code has one further word, 9. -/
def Obligations.ReadbackCodes : Prop :=
  (∀ (l : List Nat), codeOf l = ((List.range l.length).map fun j => (j + 1) * l.getD j 0).sum % 9973)
    ∧ (∀ (s : Site) (p : Permit) (l : List Nat), p.work = .clearance l →
      s.issueCode p = codeOf ([p.number, 1, p.crew] ++ l.map (· + 1) ++ if p.keyed = true then [s.keyOf p.crew] else [])
      ∧ s.releaseCode p =
        codeOf ([p.number, 1, p.crew] ++ l.map (· + 1) ++ (if p.keyed = true then [s.keyOf p.crew] else []) ++ [9]))
    ∧ (∀ (s : Site) (p : Permit) (sw : Nat) (op : SwitchOp), p.work = .switching sw op →
      s.issueCode p = codeOf ([p.number, 2, p.crew, sw + 1, if op = .opening then 1 else 2]
        ++ if p.keyed = true then [s.keyOf p.crew] else []))
    ∧ ∀ l, codeOf l ≤ 9972

/-- R139: what each interlock check asks. -/
def Obligations.InterlockChecksSaid : Prop :=
  ∀ s : Site,
    (∀ l, s.checkCL1 l = true ↔ ∀ e ∈ s.switches, (∃ n ∈ l, e.2.joins n = true) → e.2.position = .opened)
    ∧ (∀ l, s.checkCL2 l = true ↔ ∀ e ∈ s.permits, ∀ sw, e.2.work = .switching sw .closing →
        (e.2.state = .issuing ∨ e.2.state = .issued) →
        ∀ q, Table.look s.switches sw = some q → ∀ n ∈ l, q.joins n = false)
    ∧ (∀ sw, s.checkSC1 sw = true ↔ ∀ q, Table.look s.switches sw = some q → ∀ n, q.joins n = true → s.clearances n = 0)
    ∧ (∀ sw, s.checkSC2 sw = true ↔ ∀ q, Table.look s.switches sw = some q → ∀ e ∈ s.permits, e.2.state = .issuing →
        ∀ l, e.2.work = .clearance l → ∀ n ∈ l, q.joins n = false)
    ∧ (∀ l, s.interlock (.clearance l) = (s.checkCL1 l && s.checkCL2 l))
    ∧ (∀ sw, s.interlock (.switching sw .closing) = (s.checkSC1 sw && s.checkSC2 sw))
    ∧ ∀ sw, s.interlock (.switching sw .opening) = true

/-! ### Terminals and crews (Chapter 1) -/

/-- R7: LOAD_TERMINAL with an ID no record holds creates a LOADED record, UNKNOWN and unbound, in the lowest free index, and
returns the index; with the ID of a GUEST of the same kind it makes the record LOADED. R8: DROP_TERMINAL of an unbound,
unsupervised terminal removes its record, the removal's report last. A removal: an AFFILIATED terminal first becomes ABSENT
with cause REMOVED, the RECALLING orders whose recipient it is end unconfirmed without a note, every item addressed to it is
cancelled, a retained permit whose result was one of them is freed (R145), its stop notice and its supervision record end
(R114, R131), its record is freed, and the other roster records stay. The order in which its RECALLING orders end, and that the
supervision record's reports go before the TERMINAL_STATE report, are the model's choices (notes/assumptions/25.md,
notes/assumptions/28.md). The report carries the link quality and last heard that R3 names beside R23's list
(notes/assumptions/29.md). -/
def Obligations.TerminalRequestsTaken : Prop :=
  (∀ (w : Work) (i : Nat) (x : Terminal), Table.look w.site.roster i = some x →
    let v := w.absent i .removed
    let recalling := v.site.rankedOrders.filter fun e => e.2.state == .recalling && e.2.recipient == some x.id
    let u := recalling.foldl
      (fun y e => y.finishOrder e.1 .returned .vehicleAbsent (some .cancelledUnconfirmed) (some .none)) v
    let t := w.removeTerminal i
    let r := (((u.cancelAddressed i).modSite fun s => { s with stopNotices := s.stopNotices.del i }).watchAtRemoval i).emit
      (.terminalState { id := x.id, index := i, state := .removed, channel := none, short := none, cause := .removed
                        quality := x.quality, lastHeard := x.lastHeard })
    t = { r with site := { r.site with roster := r.site.roster.del i } }
      ∧ Table.look t.site.roster i = none
      ∧ (∀ j y, j ≠ i → Table.look w.site.roster j = some y → ∃ notes, Table.look t.site.roster j = some { y with notes })
      ∧ (∀ c, x.state = .affiliated → x.channel = some c →
        .terminalState { id := x.id, index := i, state := .absent, channel := none, short := none, cause := .removed
                         quality := x.quality, lastHeard := x.lastHeard } ∈ t.out)
      ∧ (w.site.sorted = true → w.site.rosterSound = true → ∀ e ∈ t.site.pul, e.2.addressee ≠ i)
      ∧ Table.look t.site.watches i = none ∧ Table.look t.site.stopNotices i = none
      ∧ (Table.look w.site.watches i = none → w.watchAtRemoval i = w)
      ∧ ∀ r, Table.look w.site.watches i = some r → w.watchAtRemoval i =
        ((if r.state = .alarm ∨ r.state = .acknowledged then w.emit (.alarm
            { id := x.id, index := i, crew := x.crew, state := r.state, cause := r.cause, time := r.alarmTime
              escalations := r.escalations, reason := .removed, lastCheckIn := r.lastCheckIn, lastPosition := r.lastPosition
              terminalState := .removed, channel := none, alarmChannel := r.alarmChannel, attended := w.site.attended })
          else w).modSite fun s => { s with watches := s.watches.del i }).emit (.watchState
          { id := x.id, index := i, crew := x.crew, state := none, previous := r.state, cause := .unitRemoved
            missed := r.missed, deadline := r.deadline, lastCheckIn := r.lastCheckIn, stopNotPlaced := false }))
    ∧ (∀ (w : Work) (i : Nat),
      let t := w.cancelAddressed i
      t = (w.site.pul.filter fun e => e.2.addressee == i).foldl (fun v e =>
        match e.2.owner with
        | .permit k =>
          if (Table.look (v.cancelItem e.1).site.permits k).any Permit.retained = true then
            (v.cancelItem e.1).modSite fun s => { s with permits := s.permits.del k }
          else v.cancelItem e.1
        | .watch _ | .order _ | .terminal _ => v.cancelItem e.1) w
      ∧ (w.site.sorted = true →
        (w.site.affiliated i = false → ∀ e ∈ t.site.pul, e.2.addressee ≠ i)
        ∧ (∀ id it, Table.look w.site.pul id = some it → it.addressee ≠ i →
          ∃ place, Table.look t.site.pul id = some { it with location := place })
        ∧ ∀ k p, Table.look w.site.permits k = some p →
          let itsResult := ∃ e ∈ w.site.pul, e.2.addressee = i ∧ e.2.owner = .permit k
          (p.retained = true → itsResult → Table.look t.site.permits k = none)
          ∧ (p.retained = false ∨ ¬itsResult → Table.look t.site.permits k = some p)))
    ∧ ∀ (h : Hdr) (s : State) (id : Word), 1 ≤ id.toNat → id.toNat ≤ 0xFFFFFFFE → s.site.sorted = true →
    (∀ (k : Byte) (i : Nat), s.admits h 5 → (k = 0 ∨ k = 1) → s.site.byId id.toNat = none →
      Table.firstFree s.site.roster 160 = some i →
      exec (.loadTerminal h id k) s = .next (s.answered h 0x10 (({ s.begun with
        site := { s.site.arrived with
          roster := s.site.roster.put i
            { id := id.toNat, kind := if k = 0 then .vehicle else .personal, origin := .loaded, crew := none
              state := .unknown, channel := none, short := none, maxRate := .low, fecLow := false, fecHigh := false
              pairCapable := false, capacity := 0, credit := 0, quality := 0, sequenceBit := false, outstanding := none
              lastHeard := none, notes := [] } } } : Work).taken (.rosterIndex i))))
    ∧ (∀ (k : Byte) (i : Nat) (x : Terminal), s.admits h 5 → s.site.byId id.toNat = some (i, x) →
      terminalKindOf k = some x.kind →
      exec (.loadTerminal h id k) s = .next (s.answered h 0x10 (match x.origin with
        | .guest => (s.begun.modTerminal i fun y => { y with origin := .loaded }).taken (.rosterIndex i)
        | .loaded => s.begun.refused .duplicate)))
    ∧ ∀ (i : Nat) (x : Terminal), s.admits h 4 → s.site.byId id.toNat = some (i, x) → x.crew = none →
      Table.look s.site.watches i = none →
      let w := s.begun.removeTerminal i
      exec (.dropTerminal h id) s = .next (s.answered h 0x11 (w.taken .empty)) ∧ Table.look w.site.roster i = none
        ∧ w.out.getLast? = some (.terminalState
            { id := id.toNat, index := i, state := .removed, channel := none, short := none, cause := .removed
              quality := x.quality, lastHeard := x.lastHeard })

/-- R11, R12, R15: LOAD_CREW of a new crew puts its record, binds the vehicle and the members it names and makes them LOADED,
and changes nothing else; with the vehicle unchanged it replaces an existing crew's members and key, unbinding those that
leave; a change of vehicle shows the crew's orders and owed DANGERs to the vehicle as it now is. R13: DROP_CREW frees the
record and unbinds its terminals. R12, R18, R92, R100: shown to an AFFILIATED vehicle, the crew's HELD orders within its
capacity become QUEUED and its QUEUED orders above it become HELD with OVERSIZE; without one, its QUEUED orders become HELD
with VEHICLE_CHANGED. Each change is reported, and an order that enters QUEUED offers its vehicle's channel a choice. That the
orders are taken by rank is the model's choice (notes/assumptions/25.md). -/
def Obligations.CrewRequestsTaken : Prop :=
  (∀ (w : Work) (n : Nat),
    ((∀ i x, w.site.vehicleRecord n = some (i, x) → x.state = .affiliated →
      w.vehicleChanged n = (w.ordersAtVehicle n x.capacity .vehicleChanged).placeOwedDangers n)
      ∧ ((∀ i x, w.site.vehicleRecord n = some (i, x) → x.state ≠ .affiliated) →
        w.vehicleChanged n = w.ordersWithoutVehicle n))
    ∧ (w.site.sorted = true →
      let ranked := w.site.rankedOrders.filter fun e => e.2.crew == n
      let report := fun (e : Nat × Order) (st : OrderState) (cause : OrderCause) => ReportBody.orderState
        { number := e.1, crew := e.2.crew, state := st, previous := e.2.state, cause, reason := none, reply := none
          note := none, retry := none }
      let queued := fun (o : Order) => { o with state := .queued, deadline := none, retry := none, frameChannel := none }
      let held := fun (o : Order) => { o with
        state := .held, deadline := some (w.site.count + secondsOf o.hold), retry := none, frameChannel := none }
      (∀ (capacity : Nat) (cause : OrderCause),
        let joins := fun (o : Order) => o.state = .held ∧ o.blocks ≤ capacity
        let leaves := fun (o : Order) => o.state = .queued ∧ capacity < o.blocks
        let t := w.ordersAtVehicle n capacity cause
        t.site = { w.site with orders := t.site.orders }
          ∧ (∀ k, Table.look t.site.orders k = (Table.look w.site.orders k).map fun o =>
            if o.crew = n ∧ joins o then queued o else if o.crew = n ∧ leaves o then held o else o)
          ∧ t.out = w.out ++ (ranked.filterMap fun e =>
            if joins e.2 then some (report e .queued cause) else if leaves e.2 then some (report e .held .oversize) else none)
          ∧ t.offers = w.offers ++ (ranked.filterMap fun e =>
            if joins e.2 then (w.site.vehicleRecord n).bind fun v => v.2.channel else none))
      ∧ (let t := w.ordersWithoutVehicle n
        t.site = { w.site with orders := t.site.orders }
          ∧ (∀ k, Table.look t.site.orders k = (Table.look w.site.orders k).map fun o =>
            if o.crew = n ∧ o.state = .queued then held o else o)
          ∧ t.out = w.out ++ (ranked.filterMap fun e =>
            if e.2.state = .queued then some (report e .held .vehicleChanged) else none)
          ∧ t.offers = w.offers)))
    ∧ ∀ (h : Hdr) (s : State),
    (∀ (crew : Half) (vehicle : Word) (key : Half) (n : Byte) (members : List Word),
      let v := s.site.namedVehicle vehicle
      let ms := s.site.namedMembers members
      s.admits h (9 + 4 * n.toNat) → members.length = n.toNat → crewRanges crew vehicle members = true →
      s.site.allHeld vehicle members = true → (∀ i ∈ v, s.site.kindAt i .vehicle = true) →
      (∀ i ∈ ms, s.site.kindAt i .personal = true) → (∀ i ∈ v.toList ++ ms, s.site.freeFor crew.toNat i = true) →
      (Table.look s.site.crews crew.toNat = none → s.site.crews.length < 64 →
        ∃ t, exec (.loadCrew h crew vehicle key n members) s = .next t ∧ s.repliesTo t h 0x13 .ok .empty
          ∧ t.site = { s.site.arrived with
              roster := t.site.roster
              crews := s.site.crews.put crew.toNat
                { vehicle := v, members := ms, key := key.toNat, alarms := s.site.alarmsAmong ms, permits := 0 } }
          ∧ ∀ i, Table.look t.site.roster i = (Table.look s.site.roster i).map fun x =>
              if i ∈ v.toList ++ ms then { x with crew := some crew.toNat, origin := .loaded } else x)
      ∧ ∀ old : Crew, Table.look s.site.crews crew.toNat = some old →
        (∀ i ∈ old.members, i ∉ ms → Table.look s.site.watches i = none) →
        (old.key = key.toNat ∨ s.site.issuing crew.toNat = false) →
        (old.vehicle = v →
          ∃ t, exec (.loadCrew h crew vehicle key n members) s = .next t ∧ s.repliesTo t h 0x13 .ok .empty
            ∧ t.site = { s.site.arrived with
                roster := t.site.roster
                crews := s.site.crews.put crew.toNat
                  { old with
                    members := ms, key := key.toNat
                    alarms := old.alarms + s.site.alarmsAmong (ms.filter fun i => !old.members.contains i) } }
            ∧ ∀ i, Table.look t.site.roster i = (Table.look s.site.roster i).map fun x =>
                if i ∈ v.toList ++ ms then { x with crew := some crew.toNat, origin := .loaded }
                else if i ∈ old.members then { x with crew := none } else x)
        ∧ (old.vehicle ≠ v → s.site.moving crew.toNat = false → s.site.issuing crew.toNat = false →
          exec (.loadCrew h crew vehicle key n members) s = .next (s.answered h 0x13
            ((((s.begun.putCrew crew.toNat
              { old with
                vehicle := v, members := ms, key := key.toNat
                alarms := old.alarms + s.site.alarmsAmong (ms.filter fun i => !old.members.contains i) }).rebind crew.toNat
              (old.terminals.filter fun i => !(v.toList ++ ms).contains i) (v.toList ++ ms)).vehicleChanged
              crew.toNat).taken .empty))))
    ∧ ∀ (crew : Half) (c : Crew), s.admits h 2 → crewOf crew = some crew.toNat → Table.look s.site.crews crew.toNat = some c →
      s.site.deliveryList crew.toNat = [] → c.permits = 0 → (∀ i ∈ c.members, Table.look s.site.watches i = none) →
      ∃ t, exec (.dropCrew h crew) s = .next t ∧ s.repliesTo t h 0x14 .ok .empty
        ∧ t.site = { s.site.arrived with roster := t.site.roster, crews := s.site.crews.del crew.toNat }
        ∧ ∀ i, Table.look t.site.roster i = (Table.look s.site.roster i).map fun x =>
            if i ∈ c.terminals then { x with crew := none } else x

/-! ### Channels (Chapter 2) -/

/-- R34, R38, R46, R27, R48: the channel requests that are taken. BRING_UP starts training at once, or marks the bring-up
pending while a quiet timer runs; QUIET takes an UP channel through its departure and clears a pending bring-up in QUIET;
CHANNEL_RESET clears what R46 names on every present member, whatever state it is in: from UP its terminals are gone, and from
UP and DRAINING its transmitter is IDLE; SET_CHANNEL takes all its settings together; TAKE_STATS returns the counters and
clears those it is told to clear. R36: BRING_UP reports each member that enters TRAINING, or, while it waits, each whose lamp
it puts out; QUIET reports each member of an UP channel after what its departure reports, and nothing in QUIET; CHANNEL_RESET
reports each present member in DOWN with cause RESET, alone where the channel was neither UP nor DRAINING. That the primary
reports first is the model's choice (notes/assumptions/10.md). That a BRING_UP waits while a quiet timer is set, be its end
reached but not yet taken as an event, is the model's choice (notes/assumptions/19.md), and so is that a reset leaves the
previous state of a channel in DOWN as it was (notes/assumptions/10.md). That a SET_CHANNEL on a paired secondary offers no
choice is the model's reading (notes/assumptions/13.md). -/
def Obligations.ChannelRequestsTaken : Prop :=
  ∀ (h : Hdr) (s : State) (b : Byte) (c : Chan), b.toNat = c.val →
    let said := fun (x : Site) (ms : List Chan) (cause : Chan → ChannelCause) => ms.map fun m => ReportBody.channelState
      { channel := m, state := (x.chan m).state, previous := (x.chan m).previous, lampLit := (x.chan m).lampLit
        cause := cause m }
    let reports := fun (t : State) (kind : Byte) (body : ReplyBody) (ms : List Chan) (cause : Chan → ChannelCause) =>
      t = s.answered h kind (({ site := t.site, out := said t.site ms cause, offers := [] } : Work).taken body)
    (s.admits h 1 → s.site.secondary c = false →
      (∀ m ∈ s.site.members c, (s.site.chan m).state = .down ∨ (s.site.chan m).state = .fault ∨ (s.site.chan m).state = .quiet) →
      (∀ m ∈ s.site.members c, (s.site.chan m).leverOpen = false) →
      ¬(s.site.supply = .critical ∧ s.site.heldQuiet c = true) →
      ((∀ m ∈ s.site.members c, (s.site.chan m).state = .quiet → (s.site.chan m).quietTimer = none) →
        ∃ t, exec (.bringUp h b) s = .next t ∧ s.repliesTo t h 0x20 .ok (.bringUp true)
          ∧ reports t 0x20 (.bringUp true) (s.site.members c) (fun _ => .bringUp)
          ∧ t.site = { s.site.arrived with channels := t.site.channels }
          ∧ ∀ d, t.site.chan d = if d ∈ s.site.members c then
              { s.site.chan d with
                previous := (s.site.chan d).state, state := .training, lampLit := false
                trainingTimer := some (s.site.count + 5), ready := false, quietTimer := none, pendingBringUp := false }
            else s.site.chan d)
      ∧ ((∃ m ∈ s.site.members c, (s.site.chan m).state = .quiet ∧ (s.site.chan m).quietTimer.isSome = true) →
        ∃ t, exec (.bringUp h b) s = .next t ∧ s.repliesTo t h 0x20 .ok (.bringUp false)
          ∧ reports t 0x20 (.bringUp false) ((s.site.members c).filter fun m => (s.site.chan m).lampLit) (fun _ => .bringUp)
          ∧ t.site = { s.site.arrived with channels := t.site.channels }
          ∧ ∀ d, t.site.chan d = if d ∈ s.site.members c then
              { s.site.chan d with
                lampLit := false, pendingBringUp := if d = c then true else (s.site.chan d).pendingBringUp }
            else s.site.chan d))
    ∧ (s.admits h 1 → s.site.secondary c = false →
      ((s.site.chan c).state = .up →
        let w := s.begun.goQuiet c .quietRequest
        exec (.quiet h b) s = .next (s.answered h 0x21 (w.taken .empty))
          ∧ ∃ l, w.out = l ++ said w.site (s.site.members c) fun m => if m = c then .quietRequest else .pairPartner)
      ∧ ((s.site.chan c).state = .quiet →
        ∃ t, exec (.quiet h b) s = .next t ∧ s.repliesTo t h 0x21 .ok .empty
          ∧ reports t 0x21 .empty [] (fun _ => .quietRequest)
          ∧ t.site = { s.site.arrived with channels := t.site.channels }
          ∧ ∀ d, t.site.chan d =
              if d ∈ s.site.members c then { s.site.chan d with pendingBringUp := false } else s.site.chan d))
    ∧ (s.admits h 1 → (∃ m ∈ s.site.members c, (s.site.chan m).state ≠ .absent) →
      let lc := s.site.logical c
      let t := (s.begun.resetChannel lc).site
      exec (.channelReset h b) s = .next (s.answered h 0x22 ((s.begun.resetChannel lc).taken .empty))
        ∧ (let present := (s.site.members c).filter fun m => (s.site.chan m).present
          (∃ l, (s.begun.resetChannel lc).out = l ++ said t present fun _ => .reset)
            ∧ ((s.site.chan lc).state ≠ .up → (s.site.chan lc).state ≠ .draining →
              (s.begun.resetChannel lc).out = said t present fun _ => .reset))
        ∧ (t.chan lc).alerts = [] ∧ (t.chan lc).urgents = []
        ∧ (∀ m ∈ s.site.members c, (s.site.chan m).present = true →
          (t.chan m).state = .down
            ∧ (t.chan m).previous = (if (s.site.chan m).state = .down ∧ (s.site.chan lc).state ≠ .up then
                (s.site.chan m).previous else (s.site.chan m).state)
            ∧ (t.chan m).stats = .zero ∧ (t.chan m).ready = false ∧ (t.chan m).pendingBringUp = false
            ∧ (t.chan m).trainingTimer = none ∧ (t.chan m).quietTimer = none ∧ (t.chan m).beaconTimer = none
            ∧ (t.chan m).beaconDue = false ∧ (t.chan m).sendFailureRun = 0 ∧ (t.chan m).badWindowRun = 0
            ∧ (t.chan m).accessSet = [] ∧ (t.chan m).urgentDeficit = 0 ∧ (t.chan m).routineDeficit = 0
            ∧ (t.chan m).turn = .routine ∧ (t.chan m).quantumAdded = false ∧ (t.chan m).highPointer = none
            ∧ (t.chan m).lowPointer = none ∧ (t.chan m).memberDone = false ∧ (t.chan m).present = true
            ∧ (t.chan m).leverOpen = (s.site.chan m).leverOpen
            ∧ (t.chan m).lampLit = ((s.site.chan m).lampLit || (s.site.chan m).leverOpen)
            ∧ (t.chan m).config = (s.site.chan m).config)
        ∧ ((s.site.chan lc).state = .up ∨ (s.site.chan lc).state = .draining → ∀ m ∈ s.site.members c,
          (t.chan m).activity = .idle ∧ (t.chan m).onAir = none ∧ (t.chan m).window = none)
        ∧ ((s.site.chan lc).state = .up → ∀ i, t.affiliatedOn i lc = false)
        ∧ ((s.site.chan lc).state ≠ .up → (s.site.chan lc).state ≠ .draining →
          t.roster = s.site.roster ∧ t.orders = s.site.orders ∧ t.permits = s.site.permits
            ∧ ∀ d, d ∉ s.site.members c → t.chan d = s.site.chan d))
    ∧ (∀ (f : ChannelFields) (g : ChannelConfig), s.admits h 10 → configOf f = some g →
      (g.pairing = (s.site.chan c).config.pairing → (g.pairing = true → primaryOf c = c) →
        exec (.setChannel h b f) s = .next (s.answered h 0x23
          ((let w := s.begun.modChan c fun ch => { ch with config := g }
            if s.site.secondary c = true then w else w.offer c).taken .empty)))
      ∧ (g.pairing ≠ (s.site.chan c).config.pairing → (g.pairing = true → primaryOf c = c) →
        (s.site.chan c).state.pairable = true → (s.site.chan (partnerOf c)).state.pairable = true →
        ∃ t, exec (.setChannel h b f) s = .next t ∧ s.repliesTo t h 0x23 .ok .empty
          ∧ t.site = { s.site.arrived with channels := t.site.channels }
          ∧ ∀ d, t.site.chan d =
              { s.site.chan d with
                config := if d = c then g else (s.site.chan d).config
                pendingBringUp := if d = c ∨ d = partnerOf c then false else (s.site.chan d).pendingBringUp }))
    ∧ ∀ (k : Byte) (m : Bool), s.admits h 2 → markOf k = some m →
      (∃ t, exec (.takeStats h b k) s = .next t ∧ s.repliesTo t h 0x24 .ok (.stats [(c, (s.site.chan c).stats)])
        ∧ t.site = { s.site.arrived with channels := t.site.channels }
        ∧ ∀ d, t.site.chan d =
            if m = true ∧ d = c then { s.site.chan d with stats := .zero } else s.site.chan d)
      ∧ ∃ t, exec (.takeStats h 0xFF k) s = .next t
        ∧ s.repliesTo t h 0x24 .ok (.stats (([0, 1, 2, 3] : List Chan).map fun d => (d, (s.site.chan d).stats)))
        ∧ t.site = { s.site.arrived with channels := t.site.channels }
        ∧ ∀ d, t.site.chan d = if m = true then { s.site.chan d with stats := .zero } else s.site.chan d

/-- R28, R29, R30, R33, R37, R38, R60: what the module, lever, transceiver and channel timer events do. A module inserted into
an empty slot is DOWN; one removed from DOWN, QUIET or FAULT leaves the slot ABSENT; a lever opening lights the lamp and takes
QUIET and FAULT to DOWN, and an UP channel to its draining; its closing changes the lever alone; the last ready transceiver
takes the channel to UP, and one that reports ready outside TRAINING changes nothing; the training timeout takes both members
to FAULT; the quiet timer's end starts a pending training, once the partner's timer has ended too; the beacon timer's end makes
the beacon due. R31, R32, R35, R37, R41: a lever that opens in TRAINING takes both members to DOWN, and one that opens in
DRAINING or ABSENT changes its own field and the pending bring-up; a module removed from TRAINING or DRAINING takes its partner
to DOWN; and what entry to UP and entry to DRAINING leave of the channel. A departure from UP (R35) records the members'
states, makes each terminal affiliated on the channel ABSENT with cause CHANNEL_DOWN, returns the items of its URGENT queue to
the list, discards its ALERT frames and replies, and clears its scheduler record, its access set and its runs; the terminals go
by ascending index, which is the model's choice (notes/assumptions/10.md). An abandoned frame that is still its addressee's
outstanding frame is missed (R29). A module removed from UP leaves its slot ABSENT and its partner DOWN, with no terminal
affiliated. R36: every transition offers the CHANNEL_STATE report of each member concerned, as it then stands, and nothing else
is offered. That the primary's report goes first, whichever member caused the transition, is the model's choice
(notes/assumptions/10.md), and so is that a lever opening clears the pending bring-up of a member in any state, and that a
beacon expiry which names the secondary of a pair acts on the pair (notes/assumptions/13.md). -/
def Obligations.ChannelEventsTaken : Prop :=
  (∀ (w : Work) (c : Chan) (cause : ChannelCause),
    let said := fun (v : Work) (f : Chan → ChannelCause) => { v with
      out := v.out ++ (v.site.members c).map fun m => .channelState
        { channel := m, state := (v.site.chan m).state, previous := (v.site.chan m).previous
          lampLit := (v.site.chan m).lampLit, cause := f m } }
    w.reportPair c cause = said w (fun m => if m = c then cause else .pairPartner)
      ∧ w.reportMembers c cause = said w (fun _ => cause)
      ∧ w.drained c = ((w.silence c).modChans (w.site.members c) fun x =>
          { x with previous := x.state, state := .down, lampLit := true }).reportMembers c .drained
      ∧ (let lc := w.site.logical c
        let v := (w.departUp lc fun _ => .draining).reportPair c .lever
        w.startDraining c = if (w.site.chan lc).activity = .idle then v.drained lc else v))
    ∧ (∀ (w : Work) (c : Chan),
      (∀ i, (w.site.chan c).awaited = some i → w.abandon c = (w.silence c).miss i)
      ∧ ((w.site.chan c).awaited = none → w.abandon c = w.silence c)
      ∧ (∀ f, (w.site.chan c).onAir = some f → (w.site.chan c).awaited = f.acked)
      ∧ ((w.site.chan c).onAir = none → (w.site.chan c).awaited = (w.site.chan c).window.bind Window.acked)
      ∧ (let t := w.withdrawQueues c
        t.out = w.out ∧ t.offers = w.offers
        ∧ t.site = { w.site with pul := t.site.pul, channels := t.site.channels }
        ∧ (∀ id, Table.look t.site.pul id = (Table.look w.site.pul id).map fun it =>
            if ((w.site.chan c).urgents.any fun e => e.holds id) = true then { it with location := none } else it)
        ∧ ∀ d, t.site.chan d = if d = c then { w.site.chan c with alerts := [], urgents := [] } else w.site.chan d)
      ∧ ∀ goes : Chan → ChannelState,
        let ms := w.site.members c
        let left := ms.foldl (fun u m => u.modChan m fun x =>
          { x with previous := x.state, state := goes m, beaconTimer := none, beaconDue := false }) w
        let gone := (w.site.roster.filter fun e => e.2.state == .affiliated && e.2.channel == some c).foldl
          (fun u e => u.absent e.1 .channelDown) left
        w.departUp c goes = ((gone.withdrawQueues c).modChan c fun x => { x with
          urgentDeficit := 0, routineDeficit := 0, turn := .routine, quantumAdded := false, accessSet := [] }).modChans ms
          fun x => { x with sendFailureRun := 0, badWindowRun := 0 })
    ∧ ∀ (s : State) (c : Chan), s.powered = true →
    let ch := s.site.chan c
    let reports := fun (t : State) (ms : List Chan) (cause : Chan → ChannelCause) =>
      t = { s with
        site := t.site
        link := (s.link.offerAll t.site (ms.map fun m => .channelState
          { channel := m, state := (t.site.chan m).state, previous := (t.site.chan m).previous
            lampLit := (t.site.chan m).lampLit, cause := cause m })).chooseFrame }
    (ch.state = .absent → ch.present = false → ∃ t, exec (.moduleInserted c) s = .next t
      ∧ reports t [c] (fun _ => .inserted)
      ∧ t.site = { s.site with channels := t.site.channels } ∧ (∀ d, d ≠ c → t.site.chan d = s.site.chan d)
      ∧ t.site.chan c =
        { ch with
          present := true, previous := .absent, state := .down, lampLit := ch.lampLit || ch.leverOpen
          sendFailureRun := 0, badWindowRun := 0 })
    ∧ (ch.present = true →
      ((ch.state = .down ∨ ch.state = .quiet ∨ ch.state = .fault) → ∃ t, exec (.moduleRemoved c) s = .next t
        ∧ reports t [c] (fun _ => .removed)
        ∧ t.site = { s.site with channels := t.site.channels }
        ∧ (∀ d, d ≠ c → t.site.chan d = { s.site.chan d with
            pendingBringUp := if d ∈ s.site.members c then false else (s.site.chan d).pendingBringUp })
        ∧ t.site.chan c =
          { ch with
            present := false, previous := ch.state, state := .absent, lampLit := false, trainingTimer := none
            quietTimer := none, beaconTimer := none, beaconDue := false, pendingBringUp := false, ready := false
            sendFailureRun := 0, badWindowRun := 0 })
      ∧ (ch.state = .up →
        let lc := s.site.logical c
        let w := (((((s.work.clearPending c).modChan c Channel.removed).abandon lc).departUp lc
            fun m => if m = c then .absent else .down).modChans ((s.site.members c).filter (· != c))
            Channel.lampAtDown).reportPair c .removed
        exec (.moduleRemoved c) s = .next (s.after w)
          ∧ (∃ l, w.out = l ++ (s.site.members c).map fun m => .channelState
            { channel := m, state := if m = c then .absent else .down, previous := (s.site.chan m).state
              lampLit := m != c && ((s.site.chan m).lampLit || (s.site.chan m).leverOpen)
              cause := if m = c then .removed else .pairPartner })
          ∧ (∀ m ∈ s.site.members c,
            (w.site.chan m).state = (if m = c then .absent else .down) ∧ (w.site.chan m).previous = (s.site.chan m).state
              ∧ (w.site.chan m).present = (m != c && (s.site.chan m).present)
              ∧ (w.site.chan m).lampLit = (m != c && ((s.site.chan m).lampLit || (s.site.chan m).leverOpen))
              ∧ (w.site.chan m).pendingBringUp = false ∧ (w.site.chan m).beaconTimer = none
              ∧ (w.site.chan m).beaconDue = false ∧ (w.site.chan m).sendFailureRun = 0 ∧ (w.site.chan m).badWindowRun = 0
              ∧ (w.site.chan m).activity = .idle ∧ (w.site.chan m).onAir = none ∧ (w.site.chan m).window = none
              ∧ (m = c → (w.site.chan m).trainingTimer = none ∧ (w.site.chan m).quietTimer = none
                ∧ (w.site.chan m).ready = false))
          ∧ (w.site.chan lc).alerts = [] ∧ (w.site.chan lc).urgents = [] ∧ (w.site.chan lc).accessSet = []
          ∧ (w.site.chan lc).urgentDeficit = 0 ∧ (w.site.chan lc).routineDeficit = 0
          ∧ (w.site.chan lc).turn = .routine ∧ (w.site.chan lc).quantumAdded = false
          ∧ ∀ i, w.site.affiliatedOn i lc = false)
      ∧ (ch.state = .training ∨ ch.state = .draining →
        exec (.moduleRemoved c) s = .next (s.after
          (((((s.work.clearPending c).modChan c Channel.removed).abandon (s.site.logical c)).modChan c
            fun x => { x with previous := x.state, state := .absent }).modChans ((s.site.members c).filter (· != c))
            (fun x => { x with
              previous := x.state, state := .down, lampLit := x.lampLit || x.leverOpen, trainingTimer := none })
            |>.reportPair c .removed))
        ∧ ((s.site.chan (s.site.logical c)).awaited = none → ∃ t, exec (.moduleRemoved c) s = .next t
          ∧ reports t (s.site.members c) (fun m => if m = c then .removed else .pairPartner)
          ∧ t.site = { s.site with channels := t.site.channels }
          ∧ ∀ d, t.site.chan d =
            if d = c then
              { ch with
                present := false, previous := ch.state, state := .absent, lampLit := false, trainingTimer := none
                quietTimer := none, beaconTimer := none, beaconDue := false, pendingBringUp := false, ready := false
                sendFailureRun := 0, badWindowRun := 0, activity := .idle, memberDone := false, onAir := none
                window := none }
            else if d ∈ s.site.members c then
              { s.site.chan d with
                previous := (s.site.chan d).state, state := .down, trainingTimer := none
                lampLit := (s.site.chan d).lampLit || (s.site.chan d).leverOpen, pendingBringUp := false
                activity := .idle, memberDone := false, onAir := none, window := none }
            else s.site.chan d)))
    ∧ (ch.leverOpen = false →
      (ch.state = .quiet ∨ ch.state = .fault → ∃ t, exec (.leverOpened c) s = .next t
        ∧ reports t [c] (fun _ => .lever)
        ∧ t.site = { s.site with channels := t.site.channels }
        ∧ (∀ d, d ≠ c → t.site.chan d = { s.site.chan d with
            pendingBringUp := if d ∈ s.site.members c then false else (s.site.chan d).pendingBringUp })
        ∧ t.site.chan c =
          { ch with
            leverOpen := true, lampLit := true, previous := ch.state, state := .down, quietTimer := none
            pendingBringUp := false })
      ∧ (ch.state = .down → ∃ t, exec (.leverOpened c) s = .next t
        ∧ reports t (if ch.lampLit = true then [] else [c]) (fun _ => .lever)
        ∧ t.site = { s.site with channels := t.site.channels }
        ∧ (∀ d, d ≠ c → t.site.chan d = { s.site.chan d with
            pendingBringUp := if d ∈ s.site.members c then false else (s.site.chan d).pendingBringUp })
        ∧ t.site.chan c = { ch with leverOpen := true, lampLit := true, pendingBringUp := false })
      ∧ (ch.state = .training → ∃ t, exec (.leverOpened c) s = .next t
        ∧ reports t (s.site.members c) (fun m => if m = c then .lever else .pairPartner)
        ∧ t.site = { s.site with channels := t.site.channels }
        ∧ ∀ d, t.site.chan d = if d ∈ s.site.members c then
            { s.site.chan d with
              previous := (s.site.chan d).state, state := .down, trainingTimer := none, pendingBringUp := false
              leverOpen := if d = c then true else (s.site.chan d).leverOpen
              lampLit := if d = c then true else (s.site.chan d).lampLit || (s.site.chan d).leverOpen }
          else s.site.chan d)
      ∧ (ch.state = .draining ∨ ch.state = .absent → ∃ t, exec (.leverOpened c) s = .next t
        ∧ reports t [] (fun _ => .lever)
        ∧ t.site = { s.site with channels := t.site.channels }
        ∧ ∀ d, t.site.chan d = if d ∈ s.site.members c then
            { s.site.chan d with
              pendingBringUp := false, leverOpen := if d = c then true else (s.site.chan d).leverOpen }
          else s.site.chan d)
      ∧ (ch.state = .up →
        let lc := s.site.logical c
        let w := ((s.work.clearPending c).modChan c fun x => { x with leverOpen := true }).startDraining c
        exec (.leverOpened c) s = .next (s.after w)
          ∧ (∀ m ∈ s.site.members c,
            (w.site.chan m).state = (if (s.site.chan lc).activity = .idle then .down else .draining)
              ∧ (w.site.chan m).previous = (if (s.site.chan lc).activity = .idle then .draining else (s.site.chan m).state)
              ∧ (w.site.chan m).lampLit = (if (s.site.chan lc).activity = .idle then true else (s.site.chan m).lampLit)
              ∧ (w.site.chan m).leverOpen = (if m = c then true else (s.site.chan m).leverOpen)
              ∧ (w.site.chan m).pendingBringUp = false ∧ (w.site.chan m).beaconTimer = none
              ∧ (w.site.chan m).beaconDue = false ∧ (w.site.chan m).sendFailureRun = 0
              ∧ (w.site.chan m).badWindowRun = 0)
          ∧ ((s.site.chan lc).activity ≠ .idle →
            ∀ m ∈ s.site.members c, (w.site.chan m).activity = (s.site.chan m).activity)
          ∧ ((s.site.chan lc).activity = .idle → ∀ m ∈ s.site.members c,
            (w.site.chan m).activity = .idle ∧ (w.site.chan m).onAir = none ∧ (w.site.chan m).window = none)
          ∧ (w.site.chan lc).alerts = [] ∧ (w.site.chan lc).urgents = [] ∧ (w.site.chan lc).accessSet = []
          ∧ (w.site.chan lc).urgentDeficit = 0 ∧ (w.site.chan lc).routineDeficit = 0
          ∧ (w.site.chan lc).turn = .routine ∧ (w.site.chan lc).quantumAdded = false
          ∧ ∀ i, w.site.affiliatedOn i lc = false))
    ∧ (∃ t, exec (.leverClosed c) s = .next t ∧ reports t [] (fun _ => .lever)
      ∧ t.site = { s.site with channels := t.site.channels }
      ∧ ∀ d, t.site.chan d = if d = c then { ch with leverOpen := false } else s.site.chan d)
    ∧ (ch.state ≠ .training → exec (.transceiverReady c) s = .next { s with link := s.link.chooseFrame })
    ∧ (ch.state = .training →
      ((∃ m ∈ s.site.members c, m ≠ c ∧ (s.site.chan m).ready = false) → ∃ t, exec (.transceiverReady c) s = .next t
        ∧ reports t [] (fun _ => .ready)
        ∧ t.site = { s.site with channels := t.site.channels }
        ∧ ∀ d, t.site.chan d = if d = c then { ch with ready := true } else s.site.chan d)
      ∧ ((∀ m ∈ s.site.members c, m ≠ c → (s.site.chan m).ready = true) →
        let lc := s.site.logical c
        let w := (s.work.modChan c fun x => { x with ready := true }).enterUp lc
        exec (.transceiverReady c) s = .next (s.after w)
          ∧ w.site = { s.site with channels := w.site.channels } ∧ w.offers = [lc]
          ∧ w.out = ((s.site.members c).map fun m => .channelState
            { channel := m, state := (w.site.chan m).state, previous := (w.site.chan m).previous
              lampLit := (w.site.chan m).lampLit, cause := .ready })
          ∧ ∀ d, w.site.chan d = if d ∈ s.site.members c then
              { s.site.chan d with
                previous := (s.site.chan d).state, state := .up, trainingTimer := none, sendFailureRun := 0
                badWindowRun := 0, inFlightBlocks := 0, activity := .idle
                ready := if d = c then true else (s.site.chan d).ready
                beaconDue := if d = lc then true else (s.site.chan d).beaconDue
                highPointer := if d = lc then none else (s.site.chan d).highPointer
                lowPointer := if d = lc then none else (s.site.chan d).lowPointer }
            else s.site.chan d)
      ∧ ((∃ e, ch.trainingTimer = some e ∧ e ≤ s.site.count) → ∃ t, exec (.trainingTimeout c) s = .next t
        ∧ reports t (s.site.members c) (fun m => if m = c then .trainingTimeout else .pairPartner)
        ∧ t.site = { s.site with channels := t.site.channels }
        ∧ ∀ d, t.site.chan d = if d ∈ s.site.members c then
            { s.site.chan d with previous := (s.site.chan d).state, state := .fault, trainingTimer := none }
          else s.site.chan d))
    ∧ (∀ e, ch.quietTimer = some e → e ≤ s.site.count →
      ((s.site.chan (s.site.logical c)).pendingBringUp = false
          ∨ (∃ m ∈ s.site.members c, m ≠ c ∧ (s.site.chan m).quietTimer ≠ none) →
        ∃ t, exec (.quietTimerExpiry c) s = .next t
        ∧ reports t [] (fun _ => .bringUp)
        ∧ t.site = { s.site with channels := t.site.channels }
        ∧ ∀ d, t.site.chan d = if d = c then { ch with quietTimer := none } else s.site.chan d)
      ∧ ((s.site.chan (s.site.logical c)).pendingBringUp = true →
        (∀ m ∈ s.site.members c, m ≠ c → (s.site.chan m).quietTimer = none) → ∃ t, exec (.quietTimerExpiry c) s = .next t
        ∧ reports t (s.site.members c) (fun _ => .bringUp)
        ∧ t.site = { s.site with channels := t.site.channels }
        ∧ ∀ d, t.site.chan d = if d ∈ s.site.members c then
            { s.site.chan d with
              previous := (s.site.chan d).state, state := .training, lampLit := false
              trainingTimer := some (s.site.count + 5), ready := false, quietTimer := none, pendingBringUp := false }
          else s.site.chan d))
    ∧ ∀ e, (s.site.chan (s.site.logical c)).state = .up → (s.site.chan (s.site.logical c)).beaconTimer = some e →
      e ≤ s.site.count → exec (.beaconTimerExpiry c) s = .next (s.after
        ((s.work.modChan (s.site.logical c) fun x => { x with beaconDue := true, beaconTimer := none }).offer
          (s.site.logical c)))

/-- R35, R38: a QUIET taken on an UP channel. Both members of the logical channel end in QUIET with their quiet timers at two
seconds, their transmitters IDLE and no frame or window; the queues and the pending access set are empty, the deficits 0 and
the turn ROUTINE; and no terminal is left AFFILIATED on the channel. -/
def Obligations.QuietDepartsFromUp : Prop :=
  ∀ (h : Hdr) (s t : State) (b : Byte) (c : Chan), s.admits h 1 → b.toNat = c.val → s.site.secondary c = false →
    (s.site.chan c).state = .up → exec (.quiet h b) s = .next t →
    s.repliesTo t h 0x21 .ok .empty
    ∧ (∀ m ∈ s.site.members c,
        (t.site.chan m).state = .quiet ∧ (t.site.chan m).previous = (s.site.chan m).state
          ∧ (t.site.chan m).quietTimer = some (s.site.count + 2) ∧ (t.site.chan m).trainingTimer = none
          ∧ (t.site.chan m).pendingBringUp = false ∧ (t.site.chan m).beaconTimer = none
          ∧ (t.site.chan m).beaconDue = false ∧ (t.site.chan m).sendFailureRun = 0 ∧ (t.site.chan m).badWindowRun = 0
          ∧ (t.site.chan m).activity = .idle ∧ (t.site.chan m).onAir = none ∧ (t.site.chan m).window = none)
    ∧ (t.site.chan c).alerts = [] ∧ (t.site.chan c).urgents = [] ∧ (t.site.chan c).accessSet = []
    ∧ (t.site.chan c).urgentDeficit = 0 ∧ (t.site.chan c).routineDeficit = 0 ∧ (t.site.chan c).turn = .routine
    ∧ ∀ i, t.site.affiliatedOn i c = false

/-! ### Owed items (section 4.3) and orders (Chapter 5) -/

/-- R81 to R84, R77: a placed item joins the tail of the list, after the owner's item of the same kind is cancelled, and moves
to the tail of its addressee's URGENT queue at once when the addressee is AFFILIATED on an UP channel with room; a seventeenth
item of the terminals is refused, and a refused placement leaves everything as it was, also where the owner holds an item of
the kind (that the refusal is judged before the cancellation is the model's choice, notes/assumptions/35.md). A cancelled item
leaves the list and its owner holds it no longer; its WAITING entry leaves the queue and the room is offered to the list, and
an entry in SENDING, AWAITING_ACK or RETRY stays in its place with the cancelled mark; every other item and entry is as before.
Room is offered to the oldest waiting item whose addressee is AFFILIATED on the channel, while the channel is UP and has room.
-/
def Obligations.ItemPlacement : Prop :=
  (∀ (w : Work) (o : Owner) (i : Nat) (x : ItemContent),
    (w.site.placementRefused o = true ↔ (∃ n, o = .terminal n) ∧
      16 ≤ (w.site.pul.filter fun e => e.2.owner.isTerminal).length)
    ∧ (w.site.placementRefused o = true → w.place o i x = w)
    ∧ (w.site.placementRefused o = false →
      let v := w.cancelOwned o x.kind
      let id := v.site.nextItem
      let held := v.modSite fun s => { s with
        nextItem := id + 1, pul := s.pul.put id { owner := o, addressee := i, content := x, location := none } }
      (w.site.sorted = true → held.site.pul = v.site.pul ++ [(id, { owner := o, addressee := i, content := x, location := none })])
      ∧ (v.site.servingChannel i = none → w.place o i x = held)
      ∧ ∀ c, v.site.servingChannel i = some c →
        ((v.site.chan c).urgents.length < 16 →
          let t := w.place o i x
          t = ((held.modSite fun s => { s with
            pul := s.pul.put id { owner := o, addressee := i, content := x, location := some c } }).modChan c fun ch => { ch with
            urgents := ch.urgents ++ [{ frame := .item id i x, status := .waiting, cancelled := false }] }).offer c
          ∧ Table.look t.site.pul id = some { owner := o, addressee := i, content := x, location := some c }
            ∧ (t.site.chan c).urgents =
              (v.site.chan c).urgents ++ [{ frame := .item id i x, status := .waiting, cancelled := false }]
            ∧ t.offers = v.offers ++ [c] ∧ t.out = v.out)
        ∧ (16 ≤ (v.site.chan c).urgents.length → w.place o i x = held)))
    ∧ (∀ o : Owner, o.isTerminal = true ↔ ∃ n, o = .terminal n)
    ∧ (∀ x : ItemContent,
      (x.kind = .recall ↔ ∃ a b, x = .recall a b)
      ∧ (x.kind = .permit ↔ (∃ a b c d e, x = .permit a b c d e) ∨ ∃ a b c, x = .permitResult a b c)
      ∧ (x.kind = .watchSet ↔ (∃ a b c, x = .watchStart a b c) ∨ x = .watchStop) ∧ (x.kind = .prompt ↔ x = .prompt))
    ∧ (∀ (s : Site) (i : Nat) (c : Chan),
      (s.affiliatedOn i c = true ↔ ∃ x, Table.look s.roster i = some x ∧ x.state = .affiliated ∧ x.channel = some c)
      ∧ (s.servingChannel i = some c ↔ s.affiliatedOn i c = true ∧ (s.chan c).state = .up))
    ∧ (∀ (w : Work) (o : Owner) (k : ItemKind),
      let mine := fun (it : PulItem) => it.owner = o ∧ it.content.kind = k
      ((∀ e ∈ w.site.pul, ¬mine e.2) → w.cancelOwned o k = w)
      ∧ (∀ p id it q, w.site.pul = p ++ (id, it) :: q → mine it → (∀ e ∈ p, ¬mine e.2) → w.cancelOwned o k = w.cancelItem id)
      ∧ ((∀ n, o ≠ .terminal n) → (∀ e ∈ w.site.pul, ∀ f ∈ w.site.pul, mine e.2 → mine f.2 → e = f) →
        ∀ e ∈ (w.cancelOwned o k).site.pul, ¬mine e.2))
    ∧ (∀ (e : UrgentEntry) (id : Nat), e.holds id = true ↔ ∃ a x, e.frame = .item id a x)
    ∧ (∀ (w : Work) (id : Nat), Table.look w.site.pul id = none → w.cancelItem id = w)
    ∧ (∀ (w : Work) (id : Nat) (it : PulItem), Table.look w.site.pul id = some it →
      let v := w.modSite fun s => { s with pul := s.pul.del id }
      let left := fun (u : Work) => if it.owner.isTerminal = true then u.serveNotes else u
      (it.location = none → w.cancelItem id = left v)
      ∧ ∀ c, it.location = some c →
        ((∀ y ∈ (w.site.chan c).urgents, y.holds id = false) → w.cancelItem id = left v)
        ∧ ∀ p e q, (w.site.chan c).urgents = p ++ e :: q → e.holds id = true → (∀ y ∈ p ++ q, y.holds id = false) →
          (e.status = .waiting → w.cancelItem id = left ((v.modChan c fun ch => { ch with urgents := p ++ q }).fill c))
          ∧ (e.status ≠ .waiting → w.cancelItem id =
            left (v.modChan c fun ch => { ch with urgents := p ++ { e with cancelled := true } :: q })))
    ∧ ∀ (w : Work) (c : Chan),
      let room := (w.site.chan c).state = .up ∧ (w.site.chan c).urgents.length < 16
      let waits := fun (it : PulItem) => it.location = none ∧ w.site.affiliatedOn it.addressee c = true
      (¬room ∨ (∀ e ∈ w.site.pul, ¬waits e.2) → w.fill c = w)
      ∧ ∀ p id it q, room → w.site.pul = p ++ (id, it) :: q → waits it → (∀ e ∈ p, ¬waits e.2) →
        w.fill c = (((w.modSite fun s => { s with pul := s.pul.put id { it with location := some c } }).modChan c fun ch =>
          { ch with urgents := ch.urgents ++ [{ frame := .item id it.addressee it.content, status := .waiting
                                                cancelled := false }] }).offer c).fill c

/-- R109, R114, R150: what completes at the end of a record. An order reports its change, its own RECALL item is cancelled
(step 2 of R109), and its record is freed. A permit reports its change, its crew's live-permit count falls, its readback
deadline and owed danger are cleared, and its owned item is cancelled (step 3 of R150) unless it is a result carrying WITHDRAWN
or VOID: such a result owed to an AFFILIATED terminal retains the record until it leaves, and one owed to no such terminal is
cancelled; a record that is not retained is freed. A supervision record that is removed is freed, its report carries the state
it stood in, and a WATCH_SET(STOP) is owed under a stop notice of one interval, unless the terminals already own sixteen items;
that the unit's own older STOP is then among them and stays is the model's choice (notes/assumptions/35.md). -/
def Obligations.RecordsComplete : Prop :=
  (∀ (w : Work) (n : Nat) (o : Order) (new : OrderState) (cause : OrderCause) (reason : Option ReturnReason)
      (note : Option NoteResult), Table.look w.site.orders n = some o →
    let t := w.finishOrder n new cause reason note
    t.out = w.out ++ [.orderState
        { number := n, crew := o.crew, state := new, previous := o.state, cause, reason
          reply := if reason.isSome = true ∧ o.state = .recalling then o.reply else none
          note, retry := if o.state = .inFlight then o.retry else none }]
      ∧ t.site.orders = w.site.orders.del n ∧ t.site.permits = w.site.permits ∧ t.site.crews = w.site.crews
      ∧ (∃ rep : OrderReport, t =
          ((w.emit (.orderState rep)).cancelOwned (.order n) .recall).modSite fun s => { s with orders := s.orders.del n })
      ∧ ((∀ e ∈ w.site.pul, ¬(e.2.owner = .order n ∧ e.2.content.kind = .recall)) → t.site.pul = w.site.pul)
      ∧ ((∀ e ∈ w.site.pul, ∀ f ∈ w.site.pul, e.2.owner = .order n → f.2.owner = .order n → e = f) →
        ∀ e ∈ t.site.pul, ¬(e.2.owner = .order n ∧ e.2.content.kind = .recall)))
    ∧ (∀ (s : Site) (k : Nat), s.owesFinalResult k = true ↔ ∃ p id it q, s.pul = p ++ (id, it) :: q
      ∧ it.owner = .permit k ∧ (∃ n a, it.content = .permitResult n .withdrawn a ∨ it.content = .permitResult n .void a)
      ∧ ∀ e ∈ p, ¬(e.2.owner = .permit k ∧ e.2.content.kind = .permit))
    ∧ (∀ (w : Work) (k : Nat) (p : Permit) (new : PermitState) (cause : PermitCause),
      Table.look w.site.permits k = some p →
      let t := w.finishPermit k new cause
      t.out = w.out ++ [.permitState
          { number := p.number, work := p.work, crew := p.crew, state := new, previous := some p.state, cause
            attempts := p.attempts, compromised := p.compromised, restored := p.restored
            resultConfirmed := p.resultConfirmed
            violationSwitch := if p.compromised = true then p.violationSwitch else none, recorded := p.recorded }]
        ∧ t.site.crews = w.site.crews.adjust p.crew (fun c => { c with permits := c.permits - 1 })
        ∧ t.site.sections = w.site.sections ∧ t.site.switches = w.site.switches
        ∧ Table.look t.site.permits k =
          (if w.site.owesFinalResult k = true ∧ (∃ e, p.recorded.bind w.site.byId = some e ∧ e.2.state = .affiliated) then
            some { p with state := new, deadline := none, dangerOwed := false, retained := true }
          else none)
        ∧ (∀ j, j ≠ k → Table.look t.site.permits j = Table.look w.site.permits j)
        ∧ ∃ rep : PermitReport,
          let v := (w.emit (.permitState rep)).modPermit k fun _ => { p with
            state := new, deadline := none, dangerOwed := false }
          let fewer := fun (x : Work) => x.modCrew p.crew fun c => { c with permits := c.permits - 1 }
          let free := fun (x : Work) => x.modSite fun s => { s with permits := s.permits.del k }
          let held := ∃ e, p.recorded.bind w.site.byId = some e ∧ e.2.state = .affiliated
          (w.site.owesFinalResult k = true → held → t = (fewer v).modPermit k fun y => { y with retained := true })
          ∧ (w.site.owesFinalResult k = true → ¬held → t = free ((fewer v).cancelOwned (.permit k) .permit))
          ∧ (w.site.owesFinalResult k = false → t = free (fewer (v.cancelOwned (.permit k) .permit))))
    ∧ ∀ (w : Work) (u : Nat) (r : Watch) (cause : WatchCause), Table.look w.site.watches u = some r →
      let v := (w.cancelOwned (.watch u) .watchSet).cancelOwned (.watch u) .prompt
      let t := w.removeWatch u cause
      t.site.watches = w.site.watches.del u
        ∧ t.out = w.out ++ [.watchState
            { id := w.site.idAt u, index := u, crew := w.site.boundCrew u, state := none, previous := r.state, cause
              missed := r.missed, deadline := r.deadline, lastCheckIn := r.lastCheckIn
              stopNotPlaced := v.site.terminalItemsFull }]
        ∧ t.site.stopNotices = (if v.site.terminalItemsFull = true then w.site.stopNotices
            else w.site.stopNotices.put u (w.site.count + secondsOf r.interval))
        ∧ (v.site.terminalItemsFull = false → ∃ it, it ∈ t.site.pul ∧ it.2.owner = .terminal u ∧ it.2.addressee = u
            ∧ it.2.content = .watchStop)

/-- R88, R89, R90, R100 to R103: orders. SEND_ORDER creates the record, QUEUED when the vehicle is AFFILIATED and can hold it
and HELD otherwise; CANCEL_ORDER returns a QUEUED or HELD order at once and recalls an IN_FLIGHT one; CLOSE_ORDER completes a
DELIVERED or ACCEPTED one; a matching reply delivers, is recorded, or completes by the order's state; the hold deadline returns
a HELD order. R66, R102, R104, R106, R107: what the creation, the recall, the unconfirmed return and the delivery do to the
order, to the recipient's notes and to the offered choices. R4: a vehicle's free credit is set within its capacity, a rise
offers its channel a choice, and a reply's free blocks count less the blocks of an outstanding ORDER; a PERSONAL terminal's
credit stays. R101: a reply matches by the recipient's ID, or by the crew's current vehicle while the order has no recipient,
and one that is ignored is counted. R104: the recipient is AFFILIATED when the record that holds its ID is. That an ACCEPT
which is not recorded (R103) is not counted either is the model's choice (notes/assumptions/24.md). -/
def Obligations.OrdersTaken : Prop :=
  (∀ (w : Work) (i : Nat) (x : Terminal), Table.look w.site.roster i = some x →
    (∀ v, x.kind = .personal → w.setCredit i v = w)
    ∧ (∀ v, x.kind = .vehicle →
      let u := w.modTerminal i fun y => { y with credit := min v y.capacity }
      (∀ c, x.channel = some c → x.credit < min v x.capacity → w.setCredit i v = u.offer c)
      ∧ (x.channel = none ∨ min v x.capacity ≤ x.credit → w.setCredit i v = u))
    ∧ ∀ free,
      (∀ n st c k o, x.outstanding = some { frame := .order n st, channel := c, retry := k } →
        Table.look w.site.orders n = some o → w.creditFromReply i free = w.setCredit i (free - o.blocks))
      ∧ ((∀ o, x.outstanding = some o → ∃ id, o.frame = .item id) → w.creditFromReply i free = w.setCredit i free))
    ∧ (∀ (s : Site) (o : Order),
      (∀ i id, s.replyMatches o i id = true ↔ o.recipient = some id
        ∨ (o.recipient = none ∧ ∃ c, Table.look s.crews o.crew = some c ∧ c.vehicle = some i))
      ∧ (s.recipientAffiliated o = true ↔ ∃ id e, o.recipient = some id ∧ s.byId id = some e ∧ e.2.state = .affiliated))
    ∧ (∀ (s : Site) (n i : Nat) (x : Terminal), s.vehicleRecord n = some (i, x) ↔
      Table.look s.roster i = some x ∧ ∃ c, Table.look s.crews n = some c ∧ c.vehicle = some i)
    ∧ (∀ w : Work, w.ignoreReply = w.modSite fun s => { s with repliesIgnored := s.repliesIgnored.bump })
    ∧ (∀ (w : Work) (n : Nat) (o : Order) (channel : Option Chan),
    let v := w.modSite fun s => { s with orders := s.orders.put n o, nextSeq := s.nextSeq + 1 }
    (∀ c, o.state = .queued → channel = some c → w.createOrder n o channel = v.offer c)
      ∧ ((o.state ≠ .queued ∨ channel = none) → w.createOrder n o channel = v))
    ∧ (∀ (w : Work) (n : Nat) (o : Order), Table.look w.site.orders n = some o →
      let said := fun (v : Work) (old new : OrderState) (cause : OrderCause) => v.emit (.orderState
        { number := n, crew := o.crew, state := new, previous := old, cause, reason := none, reply := none, note := none
          retry := if old = .inFlight then o.retry else none })
      let recalling := (said w o.state .recalling .hostCancel).modOrder n fun y => { y with state := .recalling }
      (∀ e, o.recipient.bind w.site.byId = some e → w.recallOrder n = recalling.place (.order n) e.1 (.recall n 0))
      ∧ (o.recipient.bind w.site.byId = none → w.recallOrder n = recalling)
      ∧ (∀ cause,
        (o.recipient.bind w.site.byId = none →
          w.returnUnconfirmed n cause = w.finishOrder n .returned cause (some .cancelledUnconfirmed) (some .none))
        ∧ ∀ i x, o.recipient.bind w.site.byId = some (i, x) →
          (n ∈ x.notes →
            w.returnUnconfirmed n cause = w.finishOrder n .returned cause (some .cancelledUnconfirmed) (some .kept))
          ∧ (n ∉ x.notes → x.notes.length < 16 → w.returnUnconfirmed n cause =
            (w.modTerminal i fun y => { y with notes := y.notes ++ [n] }).finishOrder n .returned cause
              (some .cancelledUnconfirmed) (some .kept))
          ∧ (n ∉ x.notes → 16 ≤ x.notes.length → w.returnUnconfirmed n cause =
            (w.modSite fun s => { s with notesDropped := s.notesDropped.bump }).finishOrder n .returned cause
              (some .cancelledUnconfirmed) (some .dropped)))
      ∧ ∀ cause,
        let v := (said w o.state .delivered cause).modOrder n fun y =>
          { y with state := .delivered, deadline := none, retry := none, frameChannel := none, reply := none }
        w.deliverOrder n cause none = v
          ∧ w.deliverOrder n cause (some .accept) =
            (said v .delivered .accepted .crewReply).modOrder n (fun y => { y with state := .accepted })
          ∧ w.deliverOrder n cause (some .done) = v.finishOrder n .done .crewReply none none
          ∧ w.deliverOrder n cause (some .decline) = v.finishOrder n .declined .crewReply none none)
    ∧ ∀ (h : Hdr) (s : State) (number : Word), number ≠ 0 →
    (∀ (crew : Half) (priority hold count : Byte) (content : List Byte) (i : Nat) (x : Terminal),
      s.admits h (9 + 12 * count.toNat) → content.length = 12 * count.toNat →
      1 ≤ crew.toNat → crew.toNat ≤ 4095 → 1 ≤ priority.toNat → priority.toNat ≤ 4 → 1 ≤ count.toNat → count.toNat ≤ 40 →
      (Table.look s.site.crews crew.toNat).isSome = true → s.site.vehicleRecord crew.toNat = some (i, x) →
      Table.look s.site.orders number.toNat = none → s.site.orders.length < 256 →
      s.site.blocksUsed + count.toNat ≤ 3072 →
      let fits := x.state = .affiliated ∧ count.toNat ≤ x.capacity
      let st : OrderState := if fits then .queued else .held
      exec (.sendOrder h number crew priority hold count content) s = .next (s.answered h 0x30 ((s.begun.createOrder
        number.toNat
        { crew := crew.toNat, priority := priority.toNat, hold := hold.toNat % 16, blocks := count.toNat, content
          state := st, seq := s.site.nextSeq, recipient := none, retry := none, frameChannel := none
          deadline := if fits then none else some (s.site.count + secondsOf (hold.toNat % 16)), reply := none }
        x.channel).taken (.orderState st))))
    ∧ (∀ o : Order, Table.look s.site.orders number.toNat = some o →
      (s.admits h 4 →
        (o.state = .queued ∨ o.state = .held →
          exec (.cancelOrder h number) s = .next (s.answered h 0x31
            ((s.begun.finishOrder number.toNat .returned .hostCancel (some .cancelled) none).taken (.orderState .returned))))
        ∧ (o.state = .inFlight →
          exec (.cancelOrder h number) s = .next (s.answered h 0x31
            ((s.begun.recallOrder number.toNat).taken (.orderState .recalling))))
        ∧ (o.state = .delivered ∨ o.state = .accepted → s.site.recipientAffiliated o = true →
          exec (.cancelOrder h number) s = .next (s.answered h 0x31
            ((s.begun.recallOrder number.toNat).taken (.orderState .recalling))))
        ∧ (o.state = .delivered ∨ o.state = .accepted → s.site.recipientAffiliated o = false →
          exec (.cancelOrder h number) s = .next (s.answered h 0x31
            ((s.begun.returnUnconfirmed number.toNat .hostCancel).taken (.orderState .returned))))
        ∧ (o.state = .recalling →
          exec (.cancelOrder h number) s = .next (s.answered h 0x31 (s.begun.refused .badState)))
        ∧ (o.state = .delivered ∨ o.state = .accepted →
          exec (.closeOrder h number) s = .next (s.answered h 0x32
            ((s.begun.finishOrder number.toNat .done .hostClose none none).taken .empty))))
      ∧ ∀ e, s.powered = true → o.state = .held → o.deadline = some e → e ≤ s.site.count →
        exec (.holdExpiry number) s = .next (s.after
          (s.work.finishOrder number.toNat .returned .holdExpiry (some .expired) none)))
    ∧ ∀ (a : Arrival) (i : Nat) (x : Terminal) (r : CrewReply) (free : Byte), s.inPlace a i →
      Table.look s.site.roster i = some x →
      let w := if x.kind = .vehicle then (s.heardFrom a i).creditFromReply i free.toNat else s.heardFrom a i
      (Table.look s.site.orders number.toNat = none →
        exec (.orderReply a number r free) s = .next (s.after w.ignoreReply))
      ∧ ∀ o : Order, Table.look s.site.orders number.toNat = some o →
        (s.site.replyMatches o i x.id = false → exec (.orderReply a number r free) s = .next (s.after w.ignoreReply))
        ∧ (s.site.replyMatches o i x.id = true →
          (o.state = .delivered → r = .accept → exec (.orderReply a number r free) s = .next (s.after
            ((w.modOrder number.toNat fun y => { y with state := .accepted }).emit (.orderState
              { number := number.toNat, crew := o.crew, state := .accepted, previous := .delivered, cause := .crewReply
                reason := none, reply := none, note := none, retry := none }))))
          ∧ (o.state = .delivered ∨ o.state = .accepted → r = .done → exec (.orderReply a number r free) s = .next (s.after
              (w.finishOrder number.toNat .done .crewReply none none)))
          ∧ (o.state = .delivered → r = .decline → exec (.orderReply a number r free) s = .next (s.after
              (w.finishOrder number.toNat .declined .crewReply none none)))
          ∧ (o.state = .accepted → r ≠ .done → exec (.orderReply a number r free) s = .next (s.after w.ignoreReply))
          ∧ (o.state = .inFlight ∨ o.state = .recalling → exec (.orderReply a number r free) s = .next (s.after
              (w.modOrder number.toNat fun y =>
                { y with reply := if r = .accept ∧ y.reply.isSome = true then y.reply else some r })))
          ∧ (o.state = .queued ∨ o.state = .held → exec (.orderReply a number r free) s = .next (s.after
              ((w.modOrder number.toNat fun y => { y with recipient := some x.id }).deliverOrder number.toNat .crewReply
                (some r)))))

/-! ### Supervision (Chapter 6) -/

/-- R113, R114, R115, R116: the supervision requests that are taken. START_WATCH creates the record and owes its
WATCH_SET(START), ending a held stop notice; STOP_WATCH and RESOLVE_ALARM with removal free it, report it and owe a
WATCH_SET(STOP) under a stop notice; ACK_ALARM stops the escalation; RESOLVE_ALARM settles the alarm, lowers the crew's count
and, with WATCH, starts the interval again. -/
def Obligations.WatchRequestsTaken : Prop :=
  ∀ (h : Hdr) (s : State) (id : Word) (u : Nat) (x : Terminal), 1 ≤ id.toNat → id.toNat ≤ 0xFFFFFFFE →
    s.site.byId id.toNat = some (u, x) →
    (∀ (interval miss assist : Byte) (m : Bool), s.admits h 7 → markOf assist = some m → 1 ≤ miss.toNat → miss.toNat ≤ 3 →
      x.kind = .personal → x.crew.isSome = true → Table.look s.site.watches u = none → s.site.watches.length < 64 →
      let code := interval.toNat % 16
      let w := { s.begun with site := { s.site.arrived with
        watches := s.site.watches.put u
          { state := .watching, interval := code, lead := leadOf code, missLimit := miss.toNat, missed := 0
            deadline := s.site.count + secondsOf code, lastCheckIn := none, lastPosition := none, assist := m
            confirmed := false, cause := none, alarmTime := none, alarmChannel := none, escalations := 0
            escalationExpiry := none, seenOwed := false } } }
      exec (.startWatch h id interval miss assist) s = .next (s.answered h 0x40
        (((if (Table.look s.site.stopNotices u).isSome = true then (w.cancelOwned (.terminal u) .watchSet).dropNotice u
          else w).place (.watch u) u (.watchStart code miss.toNat (leadOf code))).taken
          (.watchStarted u (leadOf code) (s.site.count + secondsOf code)))))
    ∧ ∀ r : Watch, Table.look s.site.watches u = some r →
      (s.admits h 4 → r.state.inAlarm = false →
        let w := s.begun.removeWatch u .stopped
        exec (.stopWatch h id) s = .next (s.answered h 0x41 (w.taken .empty)) ∧ w.site.watches = s.site.watches.del u)
      ∧ (s.admits h 4 → r.state.inAlarm = true →
        exec (.stopWatch h id) s = .next (s.answered h 0x41 (s.begun.refused .alarmActive)))
      ∧ (s.admits h 4 → r.state = .alarm →
        let w := (s.begun.modWatch u fun y => { y with state := .acknowledged, escalationExpiry := none }).placeAlarmSeen u
        exec (.ackAlarm h id) s = .next (s.answered h 0x42
          ((w.emit (.watchState
            { id := s.site.idAt u, index := u, crew := s.site.boundCrew u, state := some .acknowledged, previous := .alarm
              cause := .acknowledged, missed := r.missed, deadline := r.deadline, lastCheckIn := r.lastCheckIn
              stopNotPlaced := false })).taken .empty))
          ∧ Table.look w.site.watches u = some { r with
              state := .acknowledged, escalationExpiry := none
              seenOwed := !((r.alarmChannel.map s.site.alertRoom).getD false) })
      ∧ (s.admits h 5 → r.state = .alarm ∨ r.state = .acknowledged →
        let settled := { r with
          cause := none, alarmTime := none, alarmChannel := none, escalations := 0, escalationExpiry := none
          seenOwed := false }
        let w := (s.begun.modWatch u fun _ => settled).lowerAlarms u
        let back := { settled with state := .watching, missed := 0, deadline := s.site.count + secondsOf r.interval }
        (exec (.resolveAlarm h id 0) s = .next (s.answered h 0x43
          (((if r.confirmed = true then w.modWatch u fun _ => back
            else (w.modWatch u fun _ => back).place (.watch u) u (.watchStart r.interval r.missLimit r.lead)).emit
            (.watchState
              { id := s.site.idAt u, index := u, crew := s.site.boundCrew u, state := some .watching, previous := r.state
                cause := .resolved, missed := 0, deadline := s.site.count + secondsOf r.interval
                lastCheckIn := r.lastCheckIn, stopNotPlaced := false })).taken .empty)))
        ∧ exec (.resolveAlarm h id 1) s = .next (s.answered h 0x43 ((w.removeWatch u .resolved).taken .empty))
        ∧ ∀ n, s.site.boundCrew u = some n →
            w.site.crews = s.site.crews.adjust n fun c => { c with alarms := c.alarms - 1 })

/-- R118 to R121, R127, R114: the check-in cycle. A check-in in place starts the interval again outside an alarm and is only
recorded in one; the prompt is owed when due; the deadline makes the record OVERDUE; the grace either renews the cycle or
enters ALARM; an escalation counts, restarts and reports, then places ASSIST and an owed ALARM_SEEN; the drop time ends a stop
notice. -/
def Obligations.CheckInCycle : Prop :=
  ∀ (s : State) (u : Fin 160), s.powered = true →
    (∀ r : Watch, Table.look s.site.watches u.val = some r →
      let report := fun (y : Watch) (st : WatchState) (cause : WatchCause) => ReportBody.watchState
        { id := s.site.idAt u.val, index := u.val, crew := s.site.boundCrew u.val, state := some st, previous := r.state, cause
          missed := y.missed, deadline := y.deadline, lastCheckIn := y.lastCheckIn, stopNotPlaced := false }
      (∀ (a : Arrival) (p : RawPosition), s.inPlace a u.val →
        let heard := { r with lastPosition := (positionTaken p).or r.lastPosition, lastCheckIn := some s.site.count }
        let back := { heard with state := .watching, missed := 0, deadline := s.site.count + secondsOf r.interval }
        let w := ((s.heardFrom a u.val).modWatch u.val fun _ => back).cancelOwned (.watch u.val) .prompt
        (r.state.inAlarm = true →
          exec (.checkIn a p) s = .next (s.after ((s.heardFrom a u.val).modWatch u.val fun _ => heard)))
        ∧ (r.state = .watching → exec (.checkIn a p) s = .next (s.after w))
        ∧ (r.state = .prompted ∨ r.state = .overdue →
          exec (.checkIn a p) s = .next (s.after (w.emit (report back .watching .checkedIn)))))
      ∧ (r.state = .watching → r.deadline - r.lead ≤ s.site.count →
        exec (.promptDue u) s = .next (s.after
          (((s.work.modWatch u.val fun y => { y with state := .prompted }).place (.watch u.val) u.val .prompt).emit
            (report r .prompted .promptDue))))
      ∧ (r.state = .prompted → r.deadline ≤ s.site.count →
        exec (.deadlineExpiry u) s = .next (s.after
          ((s.work.modWatch u.val fun y => { y with state := .overdue }).emit (report r .overdue .deadline))))
      ∧ (r.state = .overdue → r.deadline + r.lead ≤ s.site.count →
        (r.missed + 1 < r.missLimit →
          let again := { r with state := .prompted, missed := r.missed + 1, deadline := s.site.count + r.lead }
          exec (.graceExpiry u) s = .next (s.after
            (((s.work.modWatch u.val fun _ => again).place (.watch u.val) u.val .prompt).emit
              (report again .prompted .graceExpiry))))
        ∧ (r.missLimit ≤ r.missed + 1 →
          exec (.graceExpiry u) s = .next (s.after
            ((s.work.modWatch u.val fun y => { y with missed := y.missed + 1 }).enterAlarm u.val .noCheckIn
              (s.site.ownChannel u.val) false))))
      ∧ (∀ e, r.state = .alarm → r.escalationExpiry = some e → e ≤ s.site.count →
        let raised := { r with
          escalations := if r.escalations < 255 then r.escalations + 1 else 255
          escalationExpiry := some (s.site.count + s.site.escalation) }
        let w := (s.work.modWatch u.val fun _ => raised).reportAlarm u.val raised .escalation
        let v := if r.assist = true ∨ s.site.attended = false then w.placeAssists u.val raised else w
        exec (.escalationExpiry u) s = .next (s.after (if r.seenOwed = true then v.placeAlarmSeen u.val else v))))
    ∧ (∀ (a : Arrival) (p : RawPosition), s.inPlace a u.val → Table.look s.site.watches u.val = none →
      exec (.checkIn a p) s = .next (s.after
        ((s.heardFrom a u.val).modSite fun y => { y with checkInsIgnored := y.checkInsIgnored.bump })))
    ∧ ∀ e, Table.look s.site.stopNotices u.val = some e → e ≤ s.site.count →
      (s.site.owned (.terminal u.val) .watchSet = none → exec (.stopNoticeDrop u) s = .next (s.after (s.work.dropNotice u.val)))
      ∧ ∀ id it, s.site.owned (.terminal u.val) .watchSet = some (id, it) →
        exec (.stopNoticeDrop u) s = .next (s.after
          (if it.location = none then (s.work.dropNotice u.val).cancelItem id else s.work.dropNotice u.val))

/-- R123, R124, R125: an ALARM by its sender: a supervised PERSONAL unit, an unsupervised one with and without a free record, a
vehicle, an unknown ID and an unresolved short address; and what an entry to ALARM sets. R126, R127: an ALARM_SEEN is placed on
the alarm channel when it is UP with room, and is owed otherwise; an ASSIST is placed on every logical channel in UP, and a
full queue counts a drop. An entry to ALARM sets the alarm fields, raises the unresolved-alarm count of the crew the unit is
bound to unless the record counted already, cancels an owed PROMPT, starts the escalation and queues the ALARM report. That
this report carries the channel the entry gives the record, and the position of the frame that raised the alarm, is the model's
choice (notes/assumptions/32.md, notes/assumptions/34.md). -/
def Obligations.AlarmsTaken : Prop :=
  ∀ (s : State) (a : Arrival) (call : AlarmCall) (p : RawPosition), s.powered = true →
    let c := s.site.logical a.channel
    let w := s.received a
    let cause := calledCause call
    let unsupervised := fun (v : Work) (sender : AlarmSender) (x : Option Terminal) (reason : UnsupervisedReason) =>
      (v.modSite fun y => { y with unsupervised := y.unsupervised.bump }).emit (.unsupervisedAlarm
        { channel := c, sender, kind := x.map Terminal.kind, crew := x.bind Terminal.crew, cause
          position := positionTaken p, reason })
    let fresh : Watch :=
      { state := .alarm, interval := 9, lead := 600, missLimit := 1, missed := 0, deadline := s.site.count + 3600
        lastCheckIn := none, lastPosition := positionTaken p, assist := true, confirmed := false, cause := none
        alarmTime := none, alarmChannel := none, escalations := 0, escalationExpiry := none, seenOwed := false }
    (∀ i x, s.site.resolve c a.sender = some i → Table.look s.site.roster i = some x →
      (x.kind = .vehicle → exec (.alarm a call p) s = .next (s.after (unsupervised w (.record x.id i) (some x) .vehicle)))
      ∧ (x.kind = .personal → Table.look s.site.watches i = none →
        (s.site.watches.length < 64 →
          exec (.alarm a call p) s = .next (s.after
            (((w.modSite fun y => { y with watches := y.watches.put i fresh }).enterAlarm i cause (some c)
              false).placeAlarmSeen i)))
        ∧ (64 ≤ s.site.watches.length →
          exec (.alarm a call p) s = .next (s.after
            (let v := unsupervised w (.record x.id i) (some x) .noRecordFree
             if s.site.alertRoom c = true then v.pushAlert c (.alarmSeen x.id false) else v))))
      ∧ (x.kind = .personal → ∀ r, Table.look s.site.watches i = some r →
        let v := w.modWatch i fun y => { y with lastPosition := (positionTaken p).or r.lastPosition }
        (r.state = .watching ∨ r.state = .prompted ∨ r.state = .overdue →
          exec (.alarm a call p) s = .next (s.after ((v.enterAlarm i cause (some c) false).placeAlarmSeen i)))
        ∧ (r.state = .alarm →
          exec (.alarm a call p) s = .next (s.after
            ((v.modWatch i fun y => { y with alarmChannel := some c }).placeAlarmSeen i)))
        ∧ (r.state = .acknowledged →
          exec (.alarm a call p) s = .next (s.after ((v.enterAlarm i cause (some c) true).placeAlarmSeen i)))))
    ∧ (∀ id, a.sender = .id id → s.site.resolve c a.sender = none →
      exec (.alarm a call p) s = .next (s.after (unsupervised w (.idOnly id.toNat) none .notInRoster)))
    ∧ (∀ n, a.sender = .short n → s.site.resolve c a.sender = none →
      exec (.alarm a call p) s = .next (s.after (unsupervised w (.shortOnly n.toNat) none .unresolved)))
    ∧ (∀ (v : Work) (u : Nat) (r : Watch), Table.look v.site.watches u = some r →
      let room := fun (d : Chan) => (v.site.chan (v.site.logical d)).state = .up
        ∧ (v.site.chan (v.site.logical d)).alerts.length < 8
      (∀ d, r.alarmChannel = some d → room d → v.placeAlarmSeen u =
        (v.pushAlert d (.alarmSeen (v.site.idAt u) (r.state == .acknowledged))).modWatch u fun y =>
          { y with seenOwed := false })
      ∧ ((∀ d, r.alarmChannel = some d → ¬room d) →
        v.placeAlarmSeen u = v.modWatch u fun y => { y with seenOwed := true })
      ∧ v.placeAssists u r = (([0, 1, 2, 3] : List Chan).filter fun d =>
          !v.site.secondary d && (v.site.chan d).state == .up).foldl (fun x d =>
        if (x.site.chan (x.site.logical d)).state = .up ∧ (x.site.chan (x.site.logical d)).alerts.length < 8 then
          x.pushAlert d (.assist ((x.site.boundCrew u).getD 0) (x.site.idAt u) (r.cause.getD .noCheckIn) r.escalations
            r.lastPosition)
        else x.modSite fun y => { y with assistDrops := y.assistDrops.bump }) v)
    ∧ ∀ (v : Work) (u : Nat) (k : AlarmCause) (d : Option Chan) (counted : Bool) (r : Watch),
      Table.look v.site.watches u = some r →
      let t := v.enterAlarm u k d counted
      let standing := v.modWatch u fun y => { y with
        state := .alarm, cause := some k, alarmTime := some v.site.count, escalations := 0, alarmChannel := d }
      let crew := (Table.look v.site.roster u).bind Terminal.crew
      let raised := fun (n : Nat) => standing.modCrew n fun y => { y with alarms := y.alarms + 1 }
      let counting := if counted = true then standing else crew.elim standing raised
      t = ((counting.cancelOwned (.watch u) .prompt).modWatch u fun y => { y with
            escalationExpiry := some (v.site.count + v.site.escalation) }).emit (.alarm
          { id := ((Table.look v.site.roster u).map Terminal.id).getD 0, index := u, crew, state := .alarm, cause := some k
            time := some v.site.count, escalations := 0, reason := .entry, lastCheckIn := r.lastCheckIn
            lastPosition := r.lastPosition
            terminalState := ((Table.look v.site.roster u).map fun x => x.state.reported).getD .unknown
            channel := (Table.look v.site.roster u).bind Terminal.channel, alarmChannel := d, attended := v.site.attended })
        ∧ Table.look t.site.watches u = some { r with
            state := .alarm, cause := some k, alarmTime := some v.site.count, escalations := 0, alarmChannel := d
            escalationExpiry := some (v.site.count + v.site.escalation) }
        ∧ t.site.crews = (if counted = true then v.site.crews else
            crew.elim v.site.crews fun n => v.site.crews.adjust n fun y => { y with alarms := y.alarms + 1 })

/-! ### The section map and the permits (Chapter 7) -/

/-- R134, R135, R136: the map requests that are taken. DEFINE_SECTION and DEFINE_SWITCH define and remove; a section defined
again keeps its count, and a switch point defined is UNKNOWN with violated clear. SET_SWITCH_POSITION records the position,
raises violated where a tagged point is recorded CLOSED, and clears it where one is recorded OPEN; the reply says what the
recording did. A recording that raises a violation marks the point and each ISSUED or RELEASE_PENDING clearance that meets it,
offers each a DANGER in ascending permit number and then a TAG_VIOLATION report; one that is not OPEN reverts each ISSUING
clearance that meets the point, with cause SWITCH_NOT_OPEN and a WITHDRAWN result (R141). A DANGER goes to the crew's
AFFILIATED vehicle on its UP channel, is dropped and counted at a full queue, and is owed otherwise; owed DANGERs are placed in
ascending permit number (R152). That the reversions go by ascending permit number is the model's choice
(notes/assumptions/10.md), and that a DANGER placed leaves an earlier danger-owed mark is its reading
(notes/assumptions/18.md). -/
def Obligations.MapRequestsTaken : Prop :=
  (∀ (w : Work) (sw : Nat),
    let byNumber := fun (l : List (Nat × Permit)) (f : Permit → Bool) =>
      l.Perm (w.site.permits.filter fun e => f e.2) ∧ l.Pairwise fun a b => a.2.number ≤ b.2.number
    (∀ (k : Nat) (p : Permit), Table.look w.site.permits k = some p →
      let owed := fun (v : Work) => v.modPermit k fun q => { q with dangerOwed := true }
      (∀ i x c, w.site.vehicleRecord p.crew = some (i, x) → x.state = .affiliated → x.channel = some c →
        let ch := w.site.chan (w.site.logical c)
        (ch.state = .up → ch.alerts.length < 8 →
          w.offerDanger k sw = (w.pushAlert c (.danger p.number sw x.id), .placed))
        ∧ (ch.state = .up → 8 ≤ ch.alerts.length → w.offerDanger k sw =
          (owed (w.modSite fun s => { s with dangerDrops := s.dangerDrops.bump }), .dropped))
        ∧ (ch.state ≠ .up → w.offerDanger k sw = (owed w, .owed)))
      ∧ ((∀ i x, w.site.vehicleRecord p.crew = some (i, x) → x.state ≠ .affiliated ∨ x.channel = none) →
        w.offerDanger k sw = (owed w, .owed))
      ∧ (p.state ≠ .issuing → ∀ cause result, w.revertPermit k cause result = w)
      ∧ (p.state = .issuing → ∀ cause result,
        let v := (w.modPermit k fun q => { q with state := .requested, deadline := none }).cancelOwned (.permit k) .permit
        w.revertPermit k cause result = (if result = true then v.placeResult k .withdrawn else v).emit (.permitState
          { number := p.number, work := p.work, crew := p.crew, state := .requested, previous := some .issuing, cause
            attempts := p.attempts, compromised := p.compromised, restored := p.restored
            resultConfirmed := p.resultConfirmed
            violationSwitch := if p.compromised = true then p.violationSwitch else none, recorded := p.recorded })))
    ∧ (∀ (p : SwitchPoint) (previous : SwitchPosition) (source : PositionSource), w.site.sorted = true →
      let meets := fun (q : Permit) => (q.state == .issued || q.state == .releasePending) && q.work.meets p
      ∃ (v : Work) (l : List (Nat × Permit)), v.out = w.out ∧ v.offers = w.offers
        ∧ v.site = { w.site with
            permits := v.site.permits
            switches := w.site.switches.adjust sw fun y => { y with violated := true } }
        ∧ (∀ k, Table.look v.site.permits k = (Table.look w.site.permits k).map fun q =>
            if meets q = true then { q with compromised := true, violationSwitch := some sw } else q)
        ∧ byNumber l meets
        ∧ (let u := l.foldl (fun (a : Work × List MarkedClearance) e =>
            ((a.1.offerDanger e.1 sw).1, a.2 ++ [{ number := e.2.number, crew := e.2.crew, state := e.2.state
                                                   outcome := (a.1.offerDanger e.1 sw).2 }])) (v, [])
          w.tagViolation sw p previous source = (u.1.emit (.tagViolation
            { switch := sw, sideA := p.sideA, sideB := p.sideB, countA := w.site.clearances p.sideA
              countB := p.sideB.map w.site.clearances, previous, source, marked := u.2 }), l.length)))
    ∧ (∀ (pos : SwitchPosition) (source : PositionSource) (p : SwitchPoint), Table.look w.site.switches sw = some p →
      let raised := pos == .closed && w.site.tagged p && !p.violated
      let v := w.modSite fun s => { s with
        switches := s.switches.adjust sw fun y =>
          { y with position := pos, violated := if pos = .opened then false else y.violated } }
      let u := if raised = true then v.tagViolation sw p p.position source else (v, 0)
      ∃ l : List (Nat × Permit), l.Perm (if pos = .opened then [] else
          u.1.site.permits.filter fun e => e.2.state == .issuing && e.2.work.meets p)
        ∧ (l.Pairwise fun a b => a.2.number ≤ b.2.number)
        ∧ w.recordPosition sw pos source =
          (l.foldl (fun x e => x.revertPermit e.1 .switchNotOpen true) u.1, raised, u.2, l.length))
    ∧ (∀ (l : List Nat) (p : SwitchPoint), ((PermitWork.clearance l).meets p = true ↔ ∃ n ∈ l, p.joins n = true)
      ∧ (w.site.tagged p = true ↔ ∃ n, p.joins n = true ∧ w.site.clearances n ≠ 0)
      ∧ ∀ n op, (PermitWork.switching n op).meets p = false)
    ∧ ∀ crew : Nat,
      (∀ i x c, w.site.vehicleRecord crew = some (i, x) → x.channel = some c →
        ∃ l, byNumber l (fun q => q.crew == crew && q.dangerOwed && (q.state == .issued || q.state == .releasePending))
          ∧ w.placeOwedDangers crew = l.foldl (fun v e =>
            if (v.site.chan (v.site.logical c)).state = .up ∧ (v.site.chan (v.site.logical c)).alerts.length < 8 then
              (v.pushAlert c (.danger e.2.number (e.2.violationSwitch.getD 0) x.id)).modPermit e.1 fun q =>
                { q with dangerOwed := false }
            else v.modSite fun s => { s with dangerDrops := s.dangerDrops.bump }) w)
      ∧ ((∀ i x, w.site.vehicleRecord crew = some (i, x) → x.channel = none) → w.placeOwedDangers crew = w))
    ∧ ∀ (h : Hdr) (s : State) (n : Byte),
    (s.admits h 2 → n.toNat ≤ 63 →
      (∃ t, exec (.defineSection h n 0) s = .next t ∧ s.repliesTo t h 0x50 .ok .empty
        ∧ t.site = { s.site.arrived with sections := s.site.sections.put n.toNat (s.site.clearances n.toNat) })
      ∧ (Table.look s.site.sections n.toNat ≠ none → s.site.sectionHeld n.toNat = false →
        s.site.sectionJoined n.toNat = false →
        ∃ t, exec (.defineSection h n 1) s = .next t ∧ s.repliesTo t h 0x50 .ok .empty
          ∧ t.site = { s.site.arrived with sections := s.site.sections.del n.toNat }))
    ∧ (s.admits h 4 → n.toNat ≤ 127 → s.site.switchNamed n.toNat = false →
      (∀ (a b : Byte), a.toNat ≤ 63 → (b = 0xFF ∨ b.toNat ≤ 63) → b ≠ a →
        let p : SwitchPoint := { sideA := a.toNat, sideB := if b = 0xFF then none else some b.toNat, position := .unknown
                                 violated := false }
        (∀ x ∈ p.sides, (Table.look s.site.sections x).isSome = true) →
        (∀ x ∈ s.site.sidesOf n.toNat ++ p.sides, s.site.sectionHeld x = false) →
        ∃ t, exec (.defineSwitch h n 0 a b) s = .next t ∧ s.repliesTo t h 0x51 .ok .empty
          ∧ t.site = { s.site.arrived with switches := s.site.switches.put n.toNat p })
      ∧ ∀ (a b : Byte), Table.look s.site.switches n.toNat ≠ none →
        (∀ x ∈ s.site.sidesOf n.toNat, s.site.sectionHeld x = false) →
        ∃ t, exec (.defineSwitch h n 1 a b) s = .next t ∧ s.repliesTo t h 0x51 .ok .empty
          ∧ t.site = { s.site.arrived with switches := s.site.switches.del n.toNat })
    ∧ ∀ (b : Byte) (pos : SwitchPosition) (p : SwitchPoint), s.admits h 2 → n.toNat ≤ 127 →
      positionOf b = some pos → s.site.sorted = true → Table.look s.site.switches n.toNat = some p →
      let r := s.begun.recordPosition n.toNat pos .host
      let raised := pos == .closed && s.site.tagged p && !p.violated
      exec (.setSwitchPosition h n b) s = .next (s.answered h 0x52
        (r.1.taken (.position pos raised r.2.2.1 r.2.2.2)))
      ∧ Table.look r.1.site.switches n.toNat =
        some { p with position := pos, violated := if pos = .opened then false else p.violated || raised }
      ∧ r.2.2.1 = (if raised = true then
          (s.site.permits.filter fun e => (e.2.state == .issued || e.2.state == .releasePending) && e.2.work.meets p).length
        else 0)
      ∧ r.2.2.2 = (if pos = .opened then 0
        else (s.site.permits.filter fun e => e.2.state == .issuing && e.2.work.meets p).length)

/-- R138, R140, R144, R147, R148, R149, R155, R156: the permit requests that are taken, with the checks that let them through.
REQUEST_PERMIT creates a REQUESTED permit; ISSUE_PERMIT puts it in ISSUING and owes the PERMIT to the crew's vehicle;
WITHDRAW_PERMIT ends a REQUESTED one, and an ISSUING one with a WITHDRAWN result; CONFIRM_RELEASE and VERBAL_RELEASE lower the
counts and complete the clearance; REJECT_RELEASE returns it to ISSUED; RESTORE_PERMIT creates one in ISSUED and raises the
counts. That a new permit takes the lowest free record, and that the replies to all of these but REQUEST_PERMIT and
WITHDRAW_PERMIT carry the permit's new state, are the model's choices (notes/assumptions/27.md, 26.md). -/
def Obligations.PermitRequestsTaken : Prop :=
  ∀ (h : Hdr) (s : State) (number : Half) (n : Nat), permitNumberOf number = some n →
    (∀ (kind : Byte) (crew : Half) (c : Nat) (count : Byte) (items : List Byte) (k : PermitWork) (i : Nat),
      s.admits h (6 + count.toNat) → items.length = count.toNat → crewOf crew = some c →
      permitWorkOf kind items = some k → (Table.look s.site.crews c).isSome = true → s.site.namesDefined k = true →
      s.site.livePermit n = none → Table.firstFree s.site.permits 48 = some i →
      let created := fun (st : PermitState) (v : Option Nat) (keyed restored : Bool) =>
        { number := n, work := k, crew := c, state := st, recorded := v, keyed, attempts := 0, deadline := none
          compromised := false, violationSwitch := none, dangerOwed := false, resultConfirmed := false, restored
          retained := false : Permit }
      let report := fun (p : Permit) (cause : PermitCause) => ReportBody.permitState
        { number := n, work := k, crew := c, state := p.state, previous := none, cause, attempts := 0
          compromised := false, restored := p.restored, resultConfirmed := false, violationSwitch := none
          recorded := p.recorded }
      (s.site.mode.allowsPermits = true → s.site.authorized c = true → (k.isClearance = true ∨ s.site.interlock k = true) →
        let p := created .requested none false false
        exec (.requestPermit h number kind crew count items) s = .next (s.answered h 0x53
          (({ site := { s.site.arrived with
                permits := s.site.permits.put i p
                crews := s.site.crews.adjust c fun y => { y with permits := y.permits + 1 } }
              out := [report p .requested], offers := [] } : Work).taken (.permitState .requested))))
      ∧ (s.site.keyEnable = true → s.site.interlock k = true →
        let p := created .issued ((s.site.vehicleRecord c).map fun v => v.2.id) (s.site.mode == .keyed) true
        exec (.restorePermit h number kind crew count items) s = .next (s.answered h 0x59
          (({ site := { s.site.arrived with
                permits := s.site.permits.put i p
                crews := s.site.crews.adjust c fun y => { y with permits := y.permits + 1 }
                sections := k.sections.foldl (fun l x => l.adjust x (· + 1)) s.site.sections }
              out := [report p .restored], offers := [] } : Work).taken (.permitState .issued)))))
    ∧ ∀ (k : Nat) (p : Permit), s.site.livePermit n = some (k, p) → Table.look s.site.permits k = some p →
      let report := fun (st previous : PermitState) (v : Option Nat) (cause : PermitCause) => ReportBody.permitState
        { number := p.number, work := p.work, crew := p.crew, state := st, previous := some previous, cause
          attempts := p.attempts, compromised := p.compromised, restored := p.restored
          resultConfirmed := p.resultConfirmed
          violationSwitch := if p.compromised = true then p.violationSwitch else none, recorded := v }
      (∀ (i : Nat) (x : Terminal), s.admits h 2 → p.state = .requested → s.site.mode.allowsPermits = true →
        s.site.authorized p.crew = true → s.site.vehicleRecord p.crew = some (i, x) → x.state = .affiliated →
        s.site.issuing p.crew = false → s.site.interlock p.work = true →
        let keyed := s.site.mode == .keyed
        exec (.issuePermit h number) s = .next (s.answered h 0x54
          ((((s.begun.modPermit k fun y => { y with
            state := .issuing, recorded := some x.id, keyed, deadline := none }).place (.permit k) i
            (.permit p.number p.crew (p.attempts + 1) keyed (s.site.permitBody p.work))).emit
            (report .issuing .requested (some x.id) .issuedByHost)).taken (.permitState .issuing))))
      ∧ (s.admits h 2 → p.state = .requested →
        exec (.withdrawPermit h number) s = .next (s.answered h 0x55
          ((s.begun.finishPermit k .withdrawn .withdrawnByHost).taken (.permitState .withdrawn))))
      ∧ (s.admits h 2 → p.state = .issuing →
        exec (.withdrawPermit h number) s = .next (s.answered h 0x55
          (((s.begun.placeResult k .withdrawn).finishPermit k .withdrawn .withdrawnByHost).taken
            (.permitState .withdrawn))))
      ∧ (s.admits h 2 → p.state = .releasePending →
        (s.site.alarmsOf p.crew = 0 →
          exec (.confirmRelease h number) s = .next (s.answered h 0x56
            (((s.begun.lowerSections p.work.sections).finishPermit k .released .confirmed).taken (.permitState .released))))
        ∧ (s.site.alarmsOf p.crew ≠ 0 →
          exec (.confirmRelease h number) s = .next (s.answered h 0x56 (s.begun.refused .alarmActive)))
        ∧ exec (.rejectRelease h number) s = .next (s.answered h 0x57
            (((s.begun.modPermit k fun y => { y with state := .issued }).emit
              (report .issued .releasePending p.recorded .releaseRejected)).taken (.permitState .issued))))
      ∧ ∀ code : Half, s.admits h 4 → code.toNat ≤ 9999 → p.work.isClearance = true →
        (p.state = .issued ∨ p.state = .releasePending) →
        (code.toNat = s.site.releaseCode p → s.site.alarmsOf p.crew = 0 →
          exec (.verbalRelease h number code) s = .next (s.answered h 0x58
            (((s.begun.lowerSections p.work.sections).finishPermit k .released .verbal).taken (.permitState .released))))
        ∧ (code.toNat = s.site.releaseCode p → s.site.alarmsOf p.crew ≠ 0 →
          exec (.verbalRelease h number code) s = .next (s.answered h 0x58 (s.begun.refused .alarmActive)))
        ∧ (code.toNat ≠ s.site.releaseCode p →
          exec (.verbalRelease h number code) s = .next (s.answered h 0x58 (s.begun.refused .mismatch)))

/-- R141, R143, R146, R147: the permit frames of a crew's vehicle, in place, and the readback deadline. A READBACK with the
issue code puts the permit in ISSUED, raises its sections and owes ACCEPTED; another code counts an attempt and owes MISMATCH,
or at the third makes it VOID; a SWITCH_DONE records the position and completes the permit; a RELEASE_ASK makes a clearance
RELEASE_PENDING; the deadline reverts an ISSUING permit to REQUESTED. A frame matches the live permit that holds its number
when the sender is the crew's current vehicle; a frame that matches no permit in the required state, a SWITCH_DONE of a
clearance and a RELEASE_ASK of a switching permit among them, raises the permit arrivals ignored counter and does nothing else.
R137: a PERMIT_RESULT is placed with the permit's number, the result and the attempts, addressed to the record that holds the
recorded vehicle's ID, and not at all where no record holds it. -/
def Obligations.PermitFramesTaken : Prop :=
  (∀ (w : Work) (k : Nat) (r : ResultCode) (p : Permit), Table.look w.site.permits k = some p →
    (∀ i x, p.recorded.bind w.site.byId = some (i, x) →
      w.placeResult k r = w.place (.permit k) i (.permitResult p.number r p.attempts))
    ∧ (p.recorded.bind w.site.byId = none → w.placeResult k r = w))
    ∧ (∀ w : Work, w.ignoreArrival = w.modSite fun s => { s with arrivalsIgnored := s.arrivalsIgnored.bump })
    ∧ (∀ (s : Site) (n i : Nat),
      let holds := fun (p : Permit) => p.number = n
        ∧ (p.state = .requested ∨ p.state = .issuing ∨ p.state = .issued ∨ p.state = .releasePending)
      let isVehicle := fun (crew : Nat) => ∃ c, Table.look s.crews crew = some c ∧ c.vehicle = some i
      ((∀ e ∈ s.permits, ¬holds e.2) → s.livePermit n = none ∧ s.permitFrom n i = none)
      ∧ ∀ f k p q, s.permits = f ++ (k, p) :: q → holds p → (∀ e ∈ f, ¬holds e.2) →
        s.livePermit n = some (k, p) ∧ (isVehicle p.crew → s.permitFrom n i = some (k, p))
          ∧ (¬isVehicle p.crew → s.permitFrom n i = none))
    ∧ ∀ (s : State) (number : Half),
    (∀ (a : Arrival) (i : Nat), s.inPlace a i →
      let w := s.heardFrom a i
      (s.site.permitFrom number.toNat i = none →
        (∀ code, exec (.readback a number code) s = .next (s.after w.ignoreArrival))
        ∧ exec (.switchDone a number) s = .next (s.after w.ignoreArrival)
        ∧ exec (.releaseAsk a number) s = .next (s.after w.ignoreArrival))
      ∧ ∀ (k : Nat) (p : Permit), s.site.permitFrom number.toNat i = some (k, p) → Table.look s.site.permits k = some p →
        let report := fun (st : PermitState) (attempts : Nat) (cause : PermitCause) => ReportBody.permitState
          { number := p.number, work := p.work, crew := p.crew, state := st, previous := some p.state, cause, attempts
            compromised := p.compromised, restored := p.restored, resultConfirmed := p.resultConfirmed
            violationSwitch := if p.compromised = true then p.violationSwitch else none, recorded := p.recorded }
        (∀ code : Fin 10000, p.state = .issuing → code.val = s.site.issueCode p →
          let v := (w.modPermit k fun y => { y with state := .issued, deadline := none }).raiseSections p.work.sections
          exec (.readback a number code) s = .next (s.after
            ((v.placeResult k .accepted).emit (report .issued p.attempts .readbackMatch)))
          ∧ v.site.sections = p.work.sections.foldl (fun l x => l.adjust x (· + 1)) s.site.sections)
        ∧ (∀ code : Fin 10000, p.state = .issuing → code.val ≠ s.site.issueCode p →
          let v := w.modPermit k fun y => { y with attempts := y.attempts + 1 }
          (p.attempts + 1 < 3 →
            exec (.readback a number code) s = .next (s.after
              (((v.placeResult k .mismatch).modPermit k fun y =>
                { y with deadline := some (p.deadline.getD (s.site.count + 180)) }).emit
                (report .issuing (p.attempts + 1) .readbackMismatch))))
          ∧ (3 ≤ p.attempts + 1 →
            exec (.readback a number code) s = .next (s.after
              ((v.placeResult k .void).finishPermit k .void .readbackMismatch))))
        ∧ (∀ sw op, p.state = .issued → p.work = .switching sw op →
          exec (.switchDone a number) s = .next (s.after
            ((w.recordPosition sw (if op = .opening then .opened else .closed)
              (.switchDone number.toNat)).1.finishPermit k .completed .switchDone)))
        ∧ (p.state = .issued → p.work.isClearance = true →
          exec (.releaseAsk a number) s = .next (s.after
            ((w.modPermit k fun y => { y with state := .releasePending }).emit
              (report .releasePending p.attempts .releaseAsk))))
        ∧ ((p.state ≠ .issuing → ∀ code, exec (.readback a number code) s = .next (s.after w.ignoreArrival))
          ∧ (p.state ≠ .issued → exec (.switchDone a number) s = .next (s.after w.ignoreArrival)
            ∧ exec (.releaseAsk a number) s = .next (s.after w.ignoreArrival))
          ∧ (∀ l, p.work = .clearance l → exec (.switchDone a number) s = .next (s.after w.ignoreArrival))
          ∧ ∀ sw op, p.work = .switching sw op → exec (.releaseAsk a number) s = .next (s.after w.ignoreArrival)))
    ∧ ∀ (k : Nat) (p : Permit) (e : Nat), s.powered = true → s.site.livePermit number.toNat = some (k, p) →
      Table.look s.site.permits k = some p → p.state = .issuing → p.deadline = some e → e ≤ s.site.count →
      exec (.readbackTimeout number) s = .next (s.after
        (((s.work.modPermit k fun y => { y with state := .requested, deadline := none }).cancelOwned (.permit k)
          .permit).emit (.permitState
          { number := p.number, work := p.work, crew := p.crew, state := .requested, previous := some .issuing
            cause := .readbackTimeout, attempts := p.attempts, compromised := p.compromised, restored := p.restored
            resultConfirmed := p.resultConfirmed
            violationSwitch := if p.compromised = true then p.violationSwitch else none, recorded := p.recorded })))

/-! ### The requests that read -/

/-- R9, R14, R49, R91, R117, R153, R163: a taken read returns what its rule names, as it stands at the taking, and changes
nothing but the request's arrival; with the number or ID 0, GET_ORDER, GET_WATCH and GET_PERMIT return their summaries. What
those replies are made of is stated first, for every site: the summaries' counts (R91, R117, R153), a place on a delivery list,
whose orders go by priority and then submission sequence (R86), a watch with its next expiry (R117), where an owned item stands
(R117, R153), the permits that concern a section or a switch point (R153), the outstanding frame (R9), the tier (R24) and the
mark of the pending access set. The order in which GET_SECTION and GET_SWITCH list permits, and the record that GET_PERMIT
takes of several, are the model's choices (notes/assumptions/27.md), and so is the form of the outstanding frame in
GET_TERMINAL (notes/assumptions/29.md). -/
def Obligations.ReadsChangeNothing : Prop :=
  (∀ s : Site,
    (let count := fun (x : OrderState) => (s.orders.filter fun e => e.2.state == x).length
      let blocks := (s.orders.map fun e => e.2.blocks).sum
      s.orderSummary =
        { live := s.orders.length, queued := count .queued, inFlight := count .inFlight, held := count .held
          delivered := count .delivered, accepted := count .accepted, recalling := count .recalling
          blocksUsed := blocks, blocksFree := 3072 - blocks, repliesIgnored := s.repliesIgnored
          notesDropped := s.notesDropped })
    ∧ (let count := fun (x : WatchState) => (s.watches.filter fun e => e.2.state == x).length
      s.watchSummary =
        { watching := count .watching, prompted := count .prompted, overdue := count .overdue, alarm := count .alarm
          acknowledged := count .acknowledged, free := 64 - s.watches.length, attended := s.attended
          silenceLimit := s.silenceLimit, sinceArrival := s.lastArrival.map fun a => s.count - a
          escalation := s.escalation, assistDrops := s.assistDrops, checkInsIgnored := s.checkInsIgnored
          unsupervised := s.unsupervised, stopNotices := s.stopNotices.length })
    ∧ (let count := fun (x : PermitState) => (s.permits.filter fun e => e.2.state == x).length
      s.permitSummary =
        { requested := count .requested, issuing := count .issuing, issued := count .issued
          releasePending := count .releasePending, released := count .released, completed := count .completed
          withdrawn := count .withdrawn, void := count .void, retained := (s.permits.filter fun e => e.2.retained).length
          free := 48 - s.permits.length, arrivalsIgnored := s.arrivalsIgnored, dangerDrops := s.dangerDrops })
    ∧ (∀ n : Nat, (s.deliveryList n).Perm (s.orders.filter fun e => e.2.crew == n)
      ∧ (s.deliveryList n).Pairwise fun a b =>
        a.2.priority < b.2.priority ∨ (a.2.priority = b.2.priority ∧ a.2.seq ≤ b.2.seq))
    ∧ (∀ (n : Nat) (o : Order) p q, s.deliveryList o.crew = p ++ (n, o) :: q → (∀ e ∈ p, e.1 ≠ n) →
      s.positionOf n o = p.length + 1)
    ∧ (∀ (u : Nat) (r : Watch),
      let b := s.watchBody u r
      b.unit = u ∧ b.record = r ∧ b.watchSet = s.standing (.watch u) .watchSet ∧ b.prompt = s.standing (.watch u) .prompt
      ∧ (∀ x, Table.look s.roster u = some x → b.crew = x.crew ∧ b.terminalState = x.state)
      ∧ (r.state = .watching → b.next = some (.promptDue, r.deadline - r.lead - s.count))
      ∧ (r.state = .prompted → b.next = some (.deadline, r.deadline - s.count))
      ∧ (r.state = .overdue → b.next = some (.graceExpiry, r.deadline + r.lead - s.count))
      ∧ (r.state = .alarm → ∀ e, r.escalationExpiry = some e → b.next = some (.escalation, e - s.count))
      ∧ (r.state = .acknowledged → b.next = none))
    ∧ (∀ (o : Owner) (k : ItemKind),
      let mine := fun (it : PulItem) => it.owner = o ∧ it.content.kind = k
      ((∀ e ∈ s.pul, ¬mine e.2) → s.standing o k = .notOwed)
      ∧ ∀ p id it q, s.pul = p ++ (id, it) :: q → mine it → (∀ e ∈ p, ¬mine e.2) →
        (it.location = none → s.standing o k = .onList) ∧ ∀ c, it.location = some c → s.standing o k = .inQueue c)
    ∧ (∀ n : Nat,
      let brief := fun (e : Nat × Permit) => ({ number := e.2.number, crew := e.2.crew, state := e.2.state } : PermitBrief)
      let live := fun (p : Permit) => p.state = .requested ∨ p.state = .issuing ∨ p.state = .issued ∨ p.state = .releasePending
      let lists := fun (p : Permit) (x : Nat) => ∃ l, p.work = .clearance l ∧ x ∈ l
      let names := fun (p : Permit) (x : Nat) => ∃ g, p.work = .switching x g
      let joins := fun (x y : Nat) => ∃ sw, (x, sw) ∈ s.switches ∧ (sw.sideA = y ∨ sw.sideB = some y)
      (∃ l : List (Nat × Permit), l.Sublist s.permits ∧ s.permitsAtSection n = l.map brief
        ∧ ∀ e ∈ s.permits, e ∈ l ↔ live e.2 ∧ (lists e.2 n ∨ ∃ x, joins x n ∧ names e.2 x))
      ∧ (s.sorted = true → ∃ l : List (Nat × Permit), l.Sublist s.permits ∧ s.permitsAtSwitch n = l.map brief
        ∧ ∀ e ∈ s.permits, e ∈ l ↔ live e.2 ∧ (names e.2 n ∨ ∃ y, joins n y ∧ lists e.2 y))
      ∧ (∀ p k x q, s.permits = p ++ (k, x) :: q → x.number = n → live x → (∀ e ∈ p, ¬(e.2.number = n ∧ live e.2)) →
        s.permitNamed n = some (k, x))
      ∧ ∀ p k x q, (∀ e ∈ s.permits, ¬(e.2.number = n ∧ live e.2)) → s.permits = p ++ (k, x) :: q → x.number = n →
        x.retained = true → (∀ e ∈ p, ¬(e.2.number = n ∧ e.2.retained = true)) → s.permitNamed n = some (k, x))
    ∧ (∀ o : Outstanding, let b := s.outstandingBody o
      b.channel = o.channel ∧ b.retry = o.retry
      ∧ (∀ n m, o.frame = .order n m → b.kind = some .order ∧ b.owner = some (.order n))
      ∧ ∀ id, o.frame = .item id →
        (∀ p e q, (s.chan o.channel).urgents = p ++ e :: q → e.holds id = true → (∀ y ∈ p, y.holds id = false) →
          b.kind = some e.frame.outKind)
        ∧ (∀ it, Table.look s.pul id = some it → b.owner = some it.owner)
        ∧ (Table.look s.pul id = none → b.owner = none))
    ∧ (∀ (i : Nat) (x : Terminal), Table.look s.roster i = some x →
      (s.tier i = .high ↔ (x.kind = .personal ∧ ∃ r, Table.look s.watches i = some r)
        ∨ (∃ n c, x.crew = some n ∧ Table.look s.crews n = some c ∧ c.alarms ≠ 0)
        ∨ ∃ p n c q, s.crews = p ++ (n, c) :: q ∧ c.vehicle = some i ∧ (∀ e ∈ p, e.2.vehicle ≠ some i)
          ∧ ∃ e ∈ s.permits, e.2.crew = n ∧ (e.2.state = .issuing ∨ e.2.state = .issued ∨ e.2.state = .releasePending))
      ∧ (s.accessPending i = true ↔ ∃ c, x.channel = some c ∧ i ∈ (s.chan c).accessSet)
      ∧ s.crewTerminal i = some { id := x.id, index := i, state := x.state })
    ∧ ∀ i, Table.look s.roster i = none → s.crewTerminal i = none)
  ∧ ∀ (h : Hdr) (s : State),
    let reads := fun (c : Instr) (kind : Byte) (body : ReplyBody) =>
      ∃ t, exec c s = .next t ∧ t.site = s.site.arrived ∧ s.repliesTo t h kind .ok body
    (∀ (v : Word) (i : Nat) (x : Terminal), s.admits h 5 → s.site.byId v.toNat = some (i, x) → 1 ≤ v.toNat →
      v.toNat ≤ 0xFFFFFFFE → Table.look s.site.roster i = some x →
      reads (.getTerminal h 0 v) 0x12 (.terminal i x (x.outstanding.map s.site.outstandingBody) (s.site.tier i)
        (s.site.accessPending i)))
    ∧ (∀ (v : Word) (x : Terminal), s.admits h 5 → v.toNat ≤ 159 → Table.look s.site.roster v.toNat = some x →
      reads (.getTerminal h 1 v) 0x12 (.terminal v.toNat x (x.outstanding.map s.site.outstandingBody)
        (s.site.tier v.toNat) (s.site.accessPending v.toNat)))
    ∧ (∀ (n : Half) (c : Crew), s.admits h 2 → crewOf n = some n.toNat → Table.look s.site.crews n.toNat = some c →
      reads (.getCrew h n) 0x15 (.crew
        { number := n.toNat, vehicle := c.vehicle.bind s.site.crewTerminal, members := c.members.filterMap s.site.crewTerminal
          key := c.key, alarms := c.alarms, permits := c.permits, orders := (s.site.deliveryList n.toNat).length }))
    ∧ (∀ (b : Byte) (c : Chan), s.admits h 1 → b.toNat = c.val →
      reads (.getChannel h b) 0x25 (.channel
        { state := (s.site.chan c).state, previous := (s.site.chan c).previous, present := (s.site.chan c).present
          leverOpen := (s.site.chan c).leverOpen, lampLit := (s.site.chan c).lampLit
          activity := (s.site.chan c).activity, pendingBringUp := (s.site.chan c).pendingBringUp
          pairedWith := if s.site.paired c = true then some (primaryOf c) else none
          config := (s.site.chan c).config, inFlightBlocks := (s.site.chan c).inFlightBlocks
          affiliated := (s.site.terminalsOn c).length, accessPending := (s.site.chan c).accessSet.length
          alerts := (s.site.chan c).alerts.length, urgents := (s.site.chan c).urgents.length
          sendFailureRun := (s.site.chan c).sendFailureRun, badWindowRun := (s.site.chan c).badWindowRun }))
    ∧ (s.admits h 4 →
      reads (.getOrder h 0) 0x33 (.orderSummary s.site.orderSummary)
      ∧ reads (.getWatch h 0) 0x44 (.watchSummary s.site.arrived.watchSummary)
      ∧ (∀ (v : Word) (o : Order), v ≠ 0 → Table.look s.site.orders v.toNat = some o →
        reads (.getOrder h v) 0x33 (.order v.toNat o (s.site.positionOf v.toNat o) (o.deadline.map fun d => d - s.site.count)))
      ∧ ∀ (v : Word) (u : Nat) (x : Terminal) (r : Watch), 1 ≤ v.toNat → v.toNat ≤ 0xFFFFFFFE →
        s.site.byId v.toNat = some (u, x) → Table.look s.site.watches u = some r →
        reads (.getWatch h v) 0x44 (.watch (s.site.watchBody u r)))
    ∧ (∀ b : Byte, s.admits h 1 →
      (b.toNat ≤ 63 → reads (.getSection h b) 0x5A (.sectionInfo (Table.look s.site.sections b.toNat).isSome
        (s.site.clearances b.toNat)
        ((s.site.switches.filter fun e => e.2.joins b.toNat).map fun e => (e.1, e.2.position))
        (s.site.permitsAtSection b.toNat)))
      ∧ (b.toNat ≤ 127 → reads (.getSwitch h b) 0x5B (.switchInfo b.toNat (Table.look s.site.switches b.toNat)
        ((Table.look s.site.switches b.toNat).any s.site.tagged)
        ((s.site.sidesOf b.toNat).map fun x => (x, s.site.clearances x)) (s.site.permitsAtSwitch b.toNat))))
    ∧ (s.admits h 2 →
      reads (.getPermit h 0) 0x5C (.permitSummary s.site.permitSummary)
      ∧ ∀ (n : Half) (k : Nat) (p : Permit), n ≠ 0 → s.site.permitNamed n.toNat = some (k, p) →
        reads (.getPermit h n) 0x5C
          (.permit p (p.deadline.map fun d => d - s.site.count) (s.site.standing (.permit k) .permit)))
    ∧ (s.admits h 0 →
      reads (.getAuth h) 0x62 (.auth s.site.mode s.site.authList s.site.keyEnable s.site.modeWriting
        (if s.site.modePending = true then some s.site.mode else none)
        (s.site.roster.filter fun e => e.2.origin == .guest).length))

/-! ### Frames sent and received (Chapters 3 and 4) -/

/-- R69 to R72, R44, R86, R159: the Frame Scheduler's choice. The eligible head of URGENT is the first entry that R69's table
lets be sent; the head of ROUTINE is barred in ALARMS_ONLY and at CRITICAL, and is otherwise the first retry and then the first
new send by rank, of crews without an unresolved alarm and within credit and channel limit; an ALERT goes first, one class
alone clears the account and hands the turn on, both are balanced pass by pass, and neither leaves an IDLE or nothing. A choice
is made on an UP channel with an IDLE transmitter, and nowhere else. -/
def Obligations.SchedulerChooses : Prop :=
  (∀ (s : Site) (c : Chan),
    let ch := s.chan c
    let waits := fun (n i : Nat) => ∃ x o, (i, x) ∈ s.roster ∧ x.outstanding = some o ∧ o.frame = .order n .retry
      ∧ o.channel = c
    let retries := fun (e : Nat × Order) => s.alarmsOf e.2.crew = 0 ∧ ∃ i, waits e.1 i
    let sends := fun (e : Nat × Order) (i : Nat) => e.2.state = .queued ∧ s.alarmsOf e.2.crew = 0
      ∧ ∃ x, s.vehicleRecord e.2.crew = some (i, x) ∧ x.on c = true ∧ x.outstanding = none ∧ e.2.blocks ≤ x.credit
        ∧ (ch.config.blockLimit = 0 ∨ ch.inFlightBlocks + e.2.blocks ≤ ch.config.blockLimit
          ∨ ch.config.blockLimit < e.2.blocks ∧ ch.inFlightBlocks = 0)
    (∀ e : UrgentEntry, s.urgentEligible c e = true ↔
      e.status = .waiting ∧ (∃ r, e.frame = .reply r)
      ∨ ∃ id i x, e.frame = .item id i x ∧ s.affiliatedOn i c = true
        ∧ (e.status = .retry ∨ e.status = .waiting
          ∧ (x.needsAck = true → (Table.look s.roster i).bind Terminal.outstanding = none)
          ∧ (x.needsAck = false → ∀ o k y, (Table.look s.roster i).bind Terminal.outstanding = some o → o.frame = .item k →
              s.entryOf o.channel k = some y → ¬(y.cancelled = true ∧ y.status = .retry))))
    ∧ (∀ e, s.urgentHead c = some e ↔
      ∃ p q, ch.urgents = p ++ e :: q ∧ s.urgentEligible c e = true ∧ ∀ y ∈ p, s.urgentEligible c y = false)
    ∧ (s.rankedOrders.Perm s.orders ∧ s.rankedOrders.Pairwise fun a b =>
      a.2.priority < b.2.priority ∨ a.2.priority = b.2.priority ∧ a.2.seq ≤ b.2.seq)
    ∧ (s.mode = .alarmsOnly ∨ s.supply = .critical → s.routineHead c = none)
    ∧ (s.mode ≠ .alarmsOnly → s.supply ≠ .critical →
      (∀ p e q, s.rankedOrders = p ++ e :: q → retries e → (∀ y ∈ p, ¬retries y) →
        ∃ i, waits e.1 i ∧ s.routineHead c = some (e.1, e.2, i))
      ∧ ((∀ y ∈ s.rankedOrders, ¬retries y) →
        (∀ p e q i, s.rankedOrders = p ++ e :: q → sends e i → (∀ y ∈ p, ∀ j, ¬sends y j) →
          s.routineHead c = some (e.1, e.2, i))
        ∧ ((∀ y ∈ s.rankedOrders, ∀ j, ¬sends y j) → s.routineHead c = none)))
    ∧ (∀ e rest, ch.alerts = e :: rest → s.choose c = (.alert e, ch.account))
    ∧ (ch.alerts = [] →
      (∀ e, s.urgentHead c = some e → s.routineHead c = none →
        s.choose c = (.urgent e, { turn := .routine, added := false, urgent := 0, routine := 0 }))
      ∧ (∀ n o i, s.urgentHead c = none → s.routineHead c = some (n, o, i) →
        s.choose c = (.routine n o i, { turn := .urgent, added := false, urgent := 0, routine := 0 }))
      ∧ (∀ e n o i, s.urgentHead c = some e → s.routineHead c = some (n, o, i) →
        let b := Account.balance (8 * ch.config.urgentWeight)
          (8 * if s.supply = .reserve then 1 else ch.config.routineWeight)
          (s.formFrame c (s.draftUrgent c e.frame) none).airtime (s.formFrame c (s.draftOrder c o n i) none).airtime 80
          ch.account
        (b.turn = .urgent → s.choose c = (.urgent e, b)) ∧ (b.turn = .routine → s.choose c = (.routine n o i, b)))
      ∧ (s.urgentHead c = none → s.routineHead c = none →
        s.choose c = (if ch.beaconDue = true ∨ ch.accessSet ≠ [] then .idle else .nothing, ch.account))))
    ∧ (∀ (uq rq ua ra n : Nat) (a : Account),
      (a.turn = .urgent →
        let d := if a.added = true then a.urgent else min 255 (a.urgent + uq)
        (ua ≤ d → Account.balance uq rq ua ra (n + 1) a =
          { turn := .urgent, added := true, urgent := d - ua, routine := a.routine })
        ∧ (d < ua → Account.balance uq rq ua ra (n + 1) a =
          Account.balance uq rq ua ra n { turn := .routine, added := false, urgent := d, routine := a.routine }))
      ∧ (a.turn = .routine →
        let d := if a.added = true then a.routine else min 255 (a.routine + rq)
        (ra ≤ d → Account.balance uq rq ua ra (n + 1) a =
          { turn := .routine, added := true, urgent := a.urgent, routine := d - ra })
        ∧ (d < ra → Account.balance uq rq ua ra (n + 1) a =
          Account.balance uq rq ua ra n { turn := .urgent, added := false, urgent := a.urgent, routine := d })))
    ∧ ∀ (w : Work) (c : Chan),
      ((w.site.chan c).state = .up → (w.site.chan c).activity = .idle → w.site.secondary c = false →
        w.serveChannel c = (w.modChan c fun ch => { ch with
          turn := (w.site.choose c).2.turn, quantumAdded := (w.site.choose c).2.added
          urgentDeficit := (w.site.choose c).2.urgent, routineDeficit := (w.site.choose c).2.routine }).startSending c
          (w.site.choose c).1)
      ∧ (¬((w.site.chan c).state = .up ∧ (w.site.chan c).activity = .idle ∧ w.site.secondary c = false) →
        w.serveChannel c = w)

/-- R73, R50, R51, R52, R60, R67, R80, R93: the start of a sending. The grant is settled first: none on a beacon, the implied
one on a frame that needs acknowledgement, and else the arbiter's among the members the frame can carry, which leaves the
access set and moves the pointers. The header, the rate, the FEC and the airtime follow from the state as it then stands. The
entry goes to SENDING, a frame that needs acknowledgement becomes its addressee's outstanding frame, the first send of an order
takes it IN_FLIGHT with its blocks reserved, and the frame is on the air with the beacon restarted. R52 to R55: the kind, the
addressee, the blocks, the payload and the need of an acknowledgement of each outbound kind, and its sequence field: the
addressee's bit on a frame that needs acknowledgement, the acknowledged mark on an ALARM_SEEN, and 0 on the others. An
AFFIL_REPLY is addressed by ID, and a DANGER and an ALARM_SEEN to the record that holds the recorded ID. That the order number
in an ORDER's first four bytes has its most significant byte first is the model's choice (notes/assumptions/31.md). -/
def Obligations.SendingsStart : Prop :=
  (∀ (w : Work) (c : Chan),
    (∀ f : AirFrame, let t := w.transmit c f
      t = { w with site := { w.site with channels := t.site.channels } }
        ∧ ∀ d, t.site.chan d = if d = c then
            { w.site.chan c with
              activity := .sending, memberDone := false, onAir := some f, window := none, beaconDue := false
              beaconTimer := some (w.site.count + 5) }
          else if d ∈ w.site.members c then { w.site.chan d with activity := .sending, memberDone := false }
          else w.site.chan d)
    ∧ (∀ (d : Draft) (beacon : Bool),
      (d.needsAck = true ∨ beacon = true → w.settleGrant c d beacon = (w, none))
      ∧ (d.needsAck = false → beacon = false →
        let offered := (w.site.chan c).accessSet.filter fun i =>
          d.dest.broadcast || ((Table.look w.site.roster i).bind Terminal.short).isSome
        let choice := w.site.arbitrate (w.site.chan c).highPointer (w.site.chan c).lowPointer offered
        (choice = none → w.settleGrant c d beacon = (w, none))
        ∧ ∀ i high low, choice = some (i, high, low) →
          w.settleGrant c d beacon = (w.modChan c fun ch => { ch with
            accessSet := ch.accessSet.filter (· != i), highPointer := high, lowPointer := low }, some i)))
    ∧ (∀ e rest, (w.site.chan c).alerts = e :: rest →
      let v := w.settleGrant c (w.site.draftAlert c e.content) false
      w.startSending c (.alert e) = (v.1.modChan c fun ch => { ch with alerts := { e with sending := true } :: rest }).transmit
        c (v.1.site.formFrame c (w.site.draftAlert c e.content) v.2))
    ∧ (∀ e p q, (w.site.chan c).urgents = p ++ e :: q → (e.status = .waiting ∨ e.status = .retry) →
      (∀ y ∈ p, y.frame ≠ e.frame) →
      let v := w.settleGrant c (w.site.draftUrgent c e.frame) false
      let u := v.1.modChan c fun ch => { ch with urgents := p ++ { e with status := .sending } :: q }
      let f := v.1.site.formFrame c (w.site.draftUrgent c e.frame) v.2
      (e.needsAck = false → w.startSending c (.urgent e) = u.transmit c f)
      ∧ ∀ id i x, e.frame = .item id i x → x.needsAck = true →
        w.startSending c (.urgent e) = (u.modTerminal i fun t => { t with
          outstanding := some
            { frame := .item id, channel := c
              retry := match t.outstanding with
                | some o => if o.frame = .item id then o.retry else 0
                | none => 0 } }).transmit c f)
    ∧ (∀ (n i : Nat) (o : Order),
      let f := w.site.formFrame c (w.site.draftOrder c o n i) none
      (o.state ≠ .queued → w.startSending c (.routine n o i) = (w.modTerminal i fun t => { t with
        outstanding := t.outstanding.map fun x => { x with frame := .order n .sending } }).transmit c f)
      ∧ ∀ x, o.state = .queued → Table.look w.site.orders n = some o → Table.look w.site.roster i = some x →
        w.startSending c (.routine n o i) = (({ w with
          site := { w.site with
            roster := w.site.roster.adjust i fun t =>
              { t with
                outstanding := some { frame := .order n .sending, channel := c, retry := 0 }, credit := t.credit - o.blocks }
            orders := w.site.orders.adjust n fun y =>
              { y with state := .inFlight, recipient := some x.id, retry := some 0, frameChannel := some c } }
          out := w.out ++ [.orderState
            { number := n, crew := o.crew, state := .inFlight, previous := .queued, cause := .sent, reason := none
              reply := none, note := none, retry := none }] } : Work).modChan c fun ch => { ch with
            inFlightBlocks := ch.inFlightBlocks + o.blocks }).transmit c f)
    ∧ (let v := w.settleGrant c draftIdle (w.site.chan c).beaconDue
      w.startSending c .idle = v.1.transmit c (v.1.site.formFrame c draftIdle v.2))
    ∧ w.startSending c .nothing = w)
    ∧ (∀ (s : Site) (c : Chan) (d : Draft) (g : Option Nat),
      let f := s.formFrame c d g
      let record := g.bind (Table.look s.roster)
      f.header.kind = d.kind ∧ f.header.sequence = d.sequence ∧ f.header.blocks = d.blocks ∧ f.header.channel = c
        ∧ f.payload = d.payload
        ∧ (d.dest.broadcast = false → f.header.addressee = d.dest.short.getD 7
          ∧ f.header.idField = if d.dest.short = none then some (.addressee, d.dest.id) else none)
        ∧ (d.dest.broadcast = true → f.header.addressee = 7 ∧ (record = none → f.header.idField = none)
          ∧ ∀ x, record = some x → f.header.idField = if x.short = none then some (.grant, x.id) else none)
        ∧ (d.needsAck = true → f.grant = .implied ∧ f.header.grant = d.dest.short.getD 7 ∧ f.target = d.dest.index
          ∧ f.acked = d.dest.index)
        ∧ (d.needsAck = false → f.grant = (if g.isSome = true then .explicit else .none)
          ∧ f.header.grant = (record.bind Terminal.short).getD 7 ∧ f.target = g ∧ f.acked = none)
        ∧ (let consulted := if d.kind = .idle then record else d.dest.link
          f.header.rate = rateFor (s.chan c).config consulted
            ∧ f.header.fec = fecFor (s.chan c).config f.header.rate consulted)
        ∧ f.airtime = airtimeOf f.header.idField.isSome d.blocks f.header.fec f.header.rate (s.paired c))
    ∧ (∀ (s : Site) (c : Chan) (i : Nat) (x : Terminal), Table.look s.roster i = some x →
      s.recipientAt c i =
        { broadcast := false, id := x.id, index := some i, short := if x.on c = true then x.short else none
          link := if x.on c = true then some x else none })
    ∧ ∀ (s : Site) (c : Chan),
      (∀ id, (s.byId id = none →
          s.recipient c id = { broadcast := false, id, index := none, short := none, link := none })
        ∧ ∀ i x, s.byId id = some (i, x) → s.recipient c id = s.recipientAt c i)
      ∧ (∀ a crew unit cause n position, a = .assist crew unit cause n position → s.draftAlert c a =
        { kind := .assist, dest := .all, sequence := false, blocks := 2, payload := .alert a, needsAck := false })
      ∧ (∀ a permit sw id, a = .danger permit sw id → s.draftAlert c a =
        { kind := .danger, dest := s.recipient c id, sequence := false, blocks := 1, payload := .alert a, needsAck := false })
      ∧ (∀ a id acknowledged, a = .alarmSeen id acknowledged → s.draftAlert c a =
        { kind := .alarmSeen, dest := s.recipient c id, sequence := acknowledged, blocks := 0, payload := .alert a
          needsAck := false })
      ∧ (∀ r, s.draftUrgent c (.reply r) =
        { kind := .affilReply, dest := { s.recipient c r.id with short := none }, sequence := false, blocks := 1
          payload := .reply r, needsAck := false })
      ∧ draftIdle = { kind := .idle, dest := .all, sequence := false, blocks := 0, payload := .empty, needsAck := false }
      ∧ (Recipient.all = { broadcast := true, id := 0, index := none, short := none, link := none })
      ∧ ∀ (i : Nat) (x : Terminal), Table.look s.roster i = some x →
        let draft := fun kind blocks payload needsAck =>
          ({ kind, dest := s.recipientAt c i, sequence := needsAck && x.sequenceBit, blocks, payload, needsAck } : Draft)
        (∀ id y, s.draftUrgent c (.item id i y) = match y with
          | .recall _ _ => draft .recall 1 (.item y) true
          | .permit _ _ _ _ (.switching _ _ _ _) => draft .permit 2 (.item y) true
          | .permit _ _ _ _ (.clearance l) => draft .permit (1 + (l.length + 3) / 4) (.item y) true
          | .permitResult _ r _ => draft .permitResult 1 (.item y) (decide (r = .accepted))
          | .watchStart _ _ _ | .watchStop => draft .watchSet 1 (.item y) true
          | .prompt => draft .prompt 0 (.item y) false)
        ∧ ∀ o n, s.draftOrder c o n i = draft .order o.blocks (.order
          ([BitVec.ofNat 8 (n / 16777216), BitVec.ofNat 8 (n / 65536), BitVec.ofNat 8 (n / 256), BitVec.ofNat 8 n]
            ++ o.content.drop 4)) true

/-- R39, R40, R43, R59, R67, R68: what the end of a sending and of a window does. A completion by the first member of a pair is
noted; when all members have reported it, the frame counts as sent, an entry that needs no acknowledgement leaves, and the
window opens with the length its grant gives. A send failure is counted and the frame fails; the third in a row trips the
channel. R42, R35, R41: a trip silences the transmitter and is a departure from UP: both members of a pair go to FAULT with
their runs 0 and their beacons stopped, the queues and the access set are empty, no terminal is AFFILIATED on the channel, and
each member is reported, the tripping one with its cause and the other with PAIR_PARTNER; that the primary reports first is the
model's choice (notes/assumptions/10.md). A window's close judges the receiver, counts an unanswered grant, takes a miss, and
offers the channel its next choice. An ALERT joins the tail with three sends, an ALARM_SEEN with one (R65, R67); at the end of
its send it leaves at the last and moves to the tail otherwise. An URGENT entry that needs no acknowledgement leaves with its
item, and a retained permit whose result it was is freed (R145); one that needs it awaits it. The order of the draining's end
or the trip against the unanswered grant and the miss is the model's choice (notes/assumptions/12.md), and so are the mark of
the member that has completed and a WINDOW_CLOSE that names a secondary acting on the pair (notes/assumptions/13.md). -/
def Obligations.SendsAndWindows : Prop :=
  (∀ (l : List AlertEntry), ((∀ y ∈ l, y.sending = false) → alertsAfterSend l = l)
    ∧ ∀ p e q, l = p ++ e :: q → (∀ y ∈ p, y.sending = false) → e.sending = true → alertsAfterSend l =
      p ++ q ++ if e.sendsLeft ≤ 1 then [] else [{ e with sendsLeft := e.sendsLeft - 1, sending := false }])
    ∧ (∀ x : ItemContent, x.needsAck = false ↔ x = .prompt ∨ ∃ n r a, x = .permitResult n r a ∧ r ≠ .accepted)
    ∧ (∀ (w : Work) (c : Chan),
      (∀ a : AlertContent, w.pushAlert c a = (w.modChan (w.site.logical c) fun ch => { ch with
          alerts := ch.alerts ++ [{ content := a, sending := false, sendsLeft := match a with
            | .alarmSeen _ _ => 1
            | .assist _ _ _ _ _ | .danger _ _ _ => 3 }] }).offer (w.site.logical c))
      ∧ (let v := w.modChan c fun ch => { ch with alerts := alertsAfterSend ch.alerts }
        ((∀ e ∈ (w.site.chan c).urgents, e.status ≠ .sending) → w.endUnacknowledged c = v)
        ∧ ∀ p e q, (w.site.chan c).urgents = p ++ e :: q → e.status = .sending → (∀ y ∈ p, y.status ≠ .sending) →
          (e.needsAck = true → w.endUnacknowledged c = v)
          ∧ (∀ r, e.frame = .reply r →
            w.endUnacknowledged c = (v.modChan c fun ch => { ch with urgents := p ++ q }).fill c)
          ∧ ∀ id i x, e.frame = .item id i x → x.needsAck = false →
            (∀ it k y, Table.look w.site.pul id = some it → it.owner = .permit k → Table.look w.site.permits k = some y →
              y.retained = true → w.endUnacknowledged c =
                (v.leaveQueue c id).modSite fun s => { s with permits := s.permits.del k })
            ∧ ((∀ it k y, Table.look w.site.pul id = some it → it.owner = .permit k → Table.look w.site.permits k = some y →
              y.retained = false) → w.endUnacknowledged c = v.leaveQueue c id))
      ∧ (w.silence c = w.modChans (w.site.members c) fun ch =>
        { ch with activity := .idle, memberDone := false, onAir := none, window := none })
      ∧ (∀ cause : ChannelCause,
        let lc := w.site.logical c
        let t := w.trip c cause
        t = ((w.silence c).departUp lc fun _ => .fault).reportPair c cause
        ∧ (∃ l, t.out = l ++ (w.site.members c).map fun m => .channelState
          { channel := m, state := .fault, previous := (w.site.chan m).state, lampLit := (w.site.chan m).lampLit
            cause := if m = c then cause else .pairPartner })
        ∧ (∀ m ∈ w.site.members c,
          (t.site.chan m).state = .fault ∧ (t.site.chan m).previous = (w.site.chan m).state
            ∧ (t.site.chan m).lampLit = (w.site.chan m).lampLit ∧ (t.site.chan m).beaconTimer = none
            ∧ (t.site.chan m).beaconDue = false ∧ (t.site.chan m).sendFailureRun = 0
            ∧ (t.site.chan m).badWindowRun = 0 ∧ (t.site.chan m).activity = .idle ∧ (t.site.chan m).onAir = none
            ∧ (t.site.chan m).window = none)
        ∧ (t.site.chan lc).alerts = [] ∧ (t.site.chan lc).urgents = [] ∧ (t.site.chan lc).accessSet = []
        ∧ (t.site.chan lc).urgentDeficit = 0 ∧ (t.site.chan lc).routineDeficit = 0
        ∧ (t.site.chan lc).turn = .routine ∧ (t.site.chan lc).quantumAdded = false
        ∧ ∀ i, t.site.affiliatedOn i lc = false)
      ∧ (∀ x : Window, w.countUnanswered c x = if x.grant = .explicit ∧ x.targetHeard = false then
          w.bumpStat c fun y => { y with grantsUnanswered := y.grantsUnanswered.bump } else w)
      ∧ (∀ i, w.missOf (some i) = w.miss i) ∧ w.missOf none = w
      ∧ ∀ f : AirFrame,
        (let awaiting := fun (r : FrameRef) => match r with
          | .order n _ => FrameRef.order n .awaitingAck
          | .item id => .item id
        let u := (w.bumpStat c fun x => { x with outbound := x.outbound.bump }).endUnacknowledged c
        let v : Work := match f.acked with
          | none => u
          | some i => (u.modTerminal i fun t => { t with
              outstanding := t.outstanding.map fun o => { o with frame := awaiting o.frame } }).modChan c fun ch => { ch with
              urgents := ch.urgents.map fun e => if e.status = .sending then { e with status := .awaitingAck } else e }
        w.openWindow c f = (v.modChans (v.site.members c) fun ch =>
            { ch with activity := .listening, memberDone := false }).modChan c fun ch => { ch with
          onAir := none
          window := some
            { length := if f.grant = .none then 10 else 40, target := f.target, grant := f.grant, acked := f.acked
              goodSeen := false, badSeen := false, targetHeard := false } })
        ∧ (let v := w.silence c
          let u := if f.grant = .explicit then
              v.bumpStat c fun x => { x with grantsUnanswered := x.grantsUnanswered.bump } else v
          w.frameFails c f = (u.endUnacknowledged c).missOf f.acked))
    ∧ ∀ (s : State) (c : Chan), s.powered = true →
    let lc := s.site.logical c
    (∀ f : AirFrame, (s.site.chan lc).onAir = some f → (s.site.chan c).activity = .sending →
      ((s.site.chan c).memberDone = false →
        ((∃ m ∈ s.site.members c, m ≠ c ∧ (s.site.chan m).memberDone = false) →
          ∃ t, exec (.sendCompletion c) s = .next t ∧ t.site = { s.site with channels := t.site.channels }
            ∧ ∀ d, t.site.chan d =
                if d = c then { s.site.chan c with memberDone := true, sendFailureRun := 0 } else s.site.chan d)
        ∧ ((∀ m ∈ s.site.members c, m ≠ c → (s.site.chan m).memberDone = true) →
          let w := (s.work.modChan c fun ch => { ch with memberDone := true, sendFailureRun := 0 }).openWindow lc f
          exec (.sendCompletion c) s = .next (s.after w)
            ∧ (w.site.chan lc).onAir = none
            ∧ (w.site.chan lc).window = some
                { length := if f.grant = .none then 10 else 40, target := f.target, grant := f.grant, acked := f.acked
                  goodSeen := false, badSeen := false, targetHeard := false }
            ∧ ∀ m ∈ s.site.members c, (w.site.chan m).activity = .listening))
      ∧ (let w := s.work.bumpStat c fun x => { x with sendFailures := x.sendFailures.bump }
        ((s.site.chan lc).state = .draining →
          exec (.sendFailure c) s = .next (s.after ((w.frameFails lc f).drained lc)))
        ∧ ((s.site.chan lc).state ≠ .draining →
          let v := (w.modChan c fun ch => { ch with sendFailureRun := ch.sendFailureRun + 1 }).frameFails lc f
          ((s.site.chan c).sendFailureRun < 2 → exec (.sendFailure c) s = .next (s.after (v.offer lc)))
          ∧ (2 ≤ (s.site.chan c).sendFailureRun → exec (.sendFailure c) s = .next (s.after (v.trip c .sendFailures))))))
    ∧ ∀ x : Window, (s.site.chan lc).window = some x →
      let run := (s.site.chan lc).badWindowRun
      let judged := if x.goodSeen = true then 0 else if x.badSeen = true ∧ x.grant ≠ .none then run + 1 else run
      let limit := if (s.site.chan lc).config.extended = true then 64 else 16
      let w := s.work.silence lc
      let v := w.modChan lc fun ch => { ch with badWindowRun := judged }
      ((s.site.chan lc).state = .draining →
        exec (.windowClose c) s = .next (s.after (((w.countUnanswered lc x).missOf x.acked).drained lc)))
      ∧ ((s.site.chan lc).state ≠ .draining → (judged ≤ run ∨ judged < limit) →
        exec (.windowClose c) s = .next (s.after (((v.countUnanswered lc x).missOf x.acked).offer lc)))
      ∧ ((s.site.chan lc).state ≠ .draining → run < judged → limit ≤ judged →
        exec (.windowClose c) s = .next (s.after ((v.trip lc .receiverMonitor).countUnanswered lc x)))

/-- R74, R75, R5, R68, R83, R95, R106, R108, R114, R122, R142, R145: the outcomes of an outstanding frame. At an
acknowledgement the credit is set, the outstanding frame ends and the sequence bit toggles, the entry and its item leave and
the room is offered to the list, and the owner is told. A miss within the limit keeps the frame, in RETRY at the head of its
queue or as a retry of its order; above the limit the frame fails, its owner is told, and the addressee becomes ABSENT. What
each owner then does is said. A terminal's oldest note is recalled when it owns no RECALL and fewer than sixteen items are
owned by terminals, and the room of an item that left goes to the AFFILIATED terminal of lowest index that waits (R108). That
an absence which fails the frame toggles the bit, and that the end of a frame clears the window's mark of it, are the model's
reading (notes/assumptions/8.md); that a terminal's next note goes before other terminals' notes, and when notes are served
after a failure, is its choice (notes/assumptions/20.md). -/
def Obligations.FramesAreAcknowledgedOrMissed : Prop :=
  (∀ (w : Work) (i : Nat) (x : Terminal) (o : Outstanding), Table.look w.site.roster i = some x → x.outstanding = some o →
    (∀ toggle, let t := w.endOutstanding i toggle
      t = { w with
          site := { w.site with
            roster := w.site.roster.adjust i fun y =>
              { y with outstanding := none, sequenceBit := y.sequenceBit != toggle }
            channels := t.site.channels }
          offers := w.offers ++ [o.channel] }
        ∧ ∀ d, t.site.chan d = if d = o.channel then
            { w.site.chan d with
              window := (w.site.chan d).window.map fun y => if y.acked = some i then { y with acked := none } else y
              onAir := (w.site.chan d).onAir.map fun y => if y.acked = some i then { y with acked := none } else y }
          else w.site.chan d)
    ∧ (∀ free,
      let v := (w.setCredit i free).endOutstanding i true
      Table.look v.site.roster i = some { x with
          credit := if x.kind = .vehicle then min free x.capacity else x.credit, outstanding := none
          sequenceBit := !x.sequenceBit }
        ∧ (∀ n st, o.frame = .order n st → w.acknowledge i free = v.orderAcked n)
        ∧ ∀ id, o.frame = .item id →
          (∀ it, Table.look w.site.pul id = some it → w.acknowledge i free = (v.leaveQueue o.channel id).itemAcked it)
          ∧ (Table.look w.site.pul id = none → w.acknowledge i free = v.leaveQueue o.channel id))
    ∧ (∀ absent,
      let v := w.endOutstanding i true
      (∀ n st, o.frame = .order n st →
        w.failFrame i o absent = v.orderFailed i n (if absent = true then .vehicleAbsent else .deliveryFailed))
      ∧ ∀ id, o.frame = .item id →
        (∀ it, Table.look w.site.pul id = some it → w.failFrame i o absent = (v.leaveQueue o.channel id).itemFailed it absent)
        ∧ (Table.look w.site.pul id = none → w.failFrame i o absent = v.leaveQueue o.channel id))
    ∧ (let v := w.bumpStat o.channel fun y => { y with acksMissed := y.acksMissed.bump }
      let limit := (w.site.chan o.channel).config.retryLimit
      (o.retry + 1 ≤ limit →
        (∀ n st, o.frame = .order n st → w.miss i = ((v.modTerminal i fun y => { y with
            outstanding := some { frame := .order n .retry, channel := o.channel, retry := o.retry + 1 } }).modOrder n fun y =>
            { y with retry := some (o.retry + 1) }).offer o.channel)
        ∧ ∀ id, o.frame = .item id → w.miss i = ((v.modTerminal i fun y => { y with
            outstanding := some { frame := .item id, channel := o.channel, retry := o.retry + 1 } }).modChan o.channel
            fun ch => { ch with
              urgents := ((ch.urgents.filter (·.holds id)).map fun e => { e with status := .retry })
                ++ ch.urgents.filter fun e => !e.holds id }).offer o.channel)
      ∧ (limit < o.retry + 1 →
        (∀ n st, o.frame = .order n st → w.miss i =
          ((v.modOrder n fun y => { y with retry := some (o.retry + 1) }).failFrame i o false).absent i .retryFailure)
        ∧ (∀ id, o.frame = .item id →
          let u := (v.failFrame i o false).absent i .retryFailure
          w.miss i = if (∃ it, Table.look w.site.pul id = some it ∧ it.owner.isTerminal = true) then u.serveNotes else u)
        ∧ ∀ d, (w.miss i).site.affiliatedOn i d = false)))
    ∧ (∀ (w : Work) (c : Chan) (id n : Nat),
      w.leaveQueue c id = ((w.modChan c fun ch => { ch with urgents := ch.urgents.filter fun e => !e.holds id }).modSite fun s =>
        { s with pul := s.pul.del id }).fill c
      ∧ (¬((w.site.chan c).state = .up ∧ (w.site.chan c).urgents.length < 16) → Work.fillSome c n w = w)
      ∧ ((∀ e ∈ w.site.pul, e.2.location = none → w.site.affiliatedOn e.2.addressee c = false) → Work.fillSome c n w = w)
      ∧ ∀ p k it q, (w.site.chan c).state = .up → (w.site.chan c).urgents.length < 16 → w.site.pul = p ++ (k, it) :: q →
        it.location = none → w.site.affiliatedOn it.addressee c = true →
        (∀ e ∈ p, e.2.location = none → w.site.affiliatedOn e.2.addressee c = false) →
        Work.fillSome c (n + 1) w = Work.fillSome c n (((w.modSite fun s => { s with
          pul := s.pul.put k { it with location := some c } }).modChan c fun ch => { ch with
          urgents := ch.urgents ++ [{ frame := .item k it.addressee it.content, status := .waiting, cancelled := false }] }).offer
          c))
    ∧ (∀ w : Work,
      let recalls := fun (i : Nat) => ∃ e ∈ w.site.pul, e.2.owner = .terminal i ∧ ∃ a b, e.2.content = .recall a b
      let room := (w.site.pul.filter fun e => e.2.owner.isTerminal).length < 16
      let waits := fun (e : Nat × Terminal) => e.2.state = .affiliated ∧ e.2.notes ≠ [] ∧ ¬recalls e.1
      (∀ i x, Table.look w.site.roster i = some x →
        (∀ note rest, x.notes = note :: rest → ¬recalls i → room →
          w.placeNoteRecall i = w.place (.terminal i) i (.recall note x.notes.length))
        ∧ (x.notes = [] ∨ recalls i ∨ ¬room → w.placeNoteRecall i = w))
      ∧ (∀ p e q, w.site.roster = p ++ e :: q → waits e → (∀ y ∈ p, ¬waits y) → w.serveNotes = w.placeNoteRecall e.1)
      ∧ ((∀ y ∈ w.site.roster, ¬waits y) → w.serveNotes = w))
    ∧ ∀ (w : Work) (it : PulItem),
      (∀ n a b, it.owner = .order n → it.content = .recall a b →
        w.itemAcked it = w.finishOrder n .returned .recallAcknowledged (some .cancelled) none
          ∧ w.itemFailed it false = w.returnUnconfirmed n .recallFailed
          ∧ w.itemFailed it true = w.returnUnconfirmed n .vehicleAbsent)
      ∧ (∀ i a b, it.owner = .terminal i → it.content = .recall a b →
        w.itemAcked it = ((w.modTerminal i fun y => { y with notes := y.notes.erase a }).placeNoteRecall i).serveNotes
          ∧ ∀ absent, w.itemFailed it absent = w)
      ∧ (∀ i, it.owner = .terminal i → it.content = .watchStop →
        w.itemAcked it = (w.modSite fun s => { s with stopNotices := s.stopNotices.del i }).serveNotes
          ∧ ∀ absent, w.itemFailed it absent = w.modSite fun s => { s with stopNotices := s.stopNotices.del i })
      ∧ (∀ u a b d, it.owner = .watch u → it.content = .watchStart a b d →
        w.itemAcked it = (w.modWatch u fun r => { r with confirmed := true })
          ∧ ∀ absent r, Table.look w.site.watches u = some r → w.itemFailed it absent =
            (w.place (.watch u) u (.watchStart r.interval r.missLimit r.lead)).reportWatch u r (some r.state) r.state
              .settingsUndelivered false)
      ∧ (∀ k a b d e y, it.owner = .permit k → it.content = .permit a b d e y →
        w.itemAcked it = (w.modPermit k fun p => { p with deadline := some (p.deadline.getD (w.site.count + 180)) })
          ∧ ∀ absent, w.itemFailed it absent =
            w.revertPermit k (if absent = true then .vehicleAbsent else .deliveryFailed) false)
      ∧ ∀ k a b d, it.owner = .permit k → it.content = .permitResult a b d →
        w.itemAcked it = (w.modPermit k fun p => { p with resultConfirmed := true })
          ∧ ∀ absent p, Table.look w.site.permits k = some p → w.itemFailed it absent =
            if p.state = .issued ∨ p.state = .releasePending then w.placeResult k .accepted else w

/-- R22, R76, R97, R98, R105, R106, R18: absence and withdrawal. At an absence the record alone of the roster becomes ABSENT,
without channel and short address and with all else of it kept; an outstanding frame fails, the access set loses the terminal,
its WAITING items return to the list, its crew's QUEUED orders become HELD and the RECALLING orders it is the recipient of end,
the ISSUING permits recorded to it revert, and TERMINAL_STATE is reported. A withdrawn frame returns with no retry counted. The
end of an ORDER frame drops the in-flight blocks and leaves the order by its state and its recorded reply. The order of the
blocks' reactions, which is that of R22's table, is the model's choice (notes/assumptions/25.md), and so is when notes are
served after an absence (notes/assumptions/20.md). The report carries the link quality and last heard that R3 names beside
R23's list (notes/assumptions/29.md). -/
def Obligations.AbsencesAndWithdrawals : Prop :=
  (∀ (w : Work) (i : Nat) (x : Terminal) (cause : TerminalCause), Table.look w.site.roster i = some x →
    (∀ c, x.state = .affiliated → x.channel = some c →
      let v := ((w.modTerminal i fun y => { y with state := .absent, channel := none, short := none }).failOutstanding
        i).modChan c fun ch => { ch with accessSet := ch.accessSet.filter (· != i) }
      let u := (((v.returnWaiting c i).fill c).ordersAtAbsence i x.id).permitsAtAbsence x.id
      let r := u.emit (.terminalState
        { id := x.id, index := i, state := .absent, channel := none, short := none, cause, quality := x.quality
          lastHeard := x.lastHeard })
      w.absent i cause = (if w.site.terminalItemOut i = true then r.serveNotes else r)
        ∧ (∃ y, Table.look (w.absent i cause).site.roster i = some y ∧ y.state = .absent ∧ y.channel = none ∧ y.short = none
          ∧ y.id = x.id ∧ y.kind = x.kind ∧ y.origin = x.origin ∧ y.crew = x.crew ∧ y.maxRate = x.maxRate
          ∧ y.fecLow = x.fecLow ∧ y.fecHigh = x.fecHigh ∧ y.pairCapable = x.pairCapable ∧ y.capacity = x.capacity
          ∧ y.quality = x.quality ∧ y.lastHeard = x.lastHeard)
        ∧ ∀ j z, j ≠ i → Table.look w.site.roster j = some z → ∃ y, Table.look (w.absent i cause).site.roster j = some y
          ∧ y.state = z.state ∧ y.channel = z.channel ∧ y.short = z.short ∧ y.crew = z.crew)
    ∧ (x.state ≠ .affiliated → w.absent i cause = w)
    ∧ (x.outstanding = none → w.failOutstanding i = w ∧ ∀ n, w.withdrawOutstanding i n = w)
    ∧ ∀ o, x.outstanding = some o → w.failOutstanding i = w.failFrame i o true
      ∧ (∀ n st capacity, o.frame = .order n st →
        w.withdrawOutstanding i capacity = (w.endOutstanding i false).orderWithdrawn i n capacity)
      ∧ ∀ id capacity, o.frame = .item id →
        w.withdrawOutstanding i capacity = ((w.endOutstanding i false).modSite fun s => { s with
          pul := s.pul.adjust id fun it => { it with location := none } }).modChan o.channel fun ch => { ch with
          urgents := ch.urgents.filter fun e => !e.holds id })
    ∧ (∀ (w : Work) (c : Chan) (i : Nat),
      let gone := fun id => ∃ e ∈ (w.site.chan c).urgents, ∃ x, e.frame = .item id i x ∧ e.status = .waiting
      let t := w.returnWaiting c i
      (∀ e, e ∈ (t.site.chan c).urgents ↔ e ∈ (w.site.chan c).urgents ∧ ∀ id, gone id → e.holds id = false)
        ∧ (∀ id it, Table.look w.site.pul id = some it → (gone id → Table.look t.site.pul id = some { it with location := none })
          ∧ (¬gone id → Table.look t.site.pul id = some it))
        ∧ (∀ d, d ≠ c → t.site.chan d = w.site.chan d) ∧ t.site.roster = w.site.roster)
    ∧ (∀ (w : Work) (i id : Nat), w.site.sorted = true →
      (∀ n, Table.look (w.ordersAtAbsence i id).site.orders n = (Table.look w.site.orders n).bind fun o =>
        if o.state = .recalling ∧ o.recipient = some id then none
        else if o.state = .queued ∧ w.site.crewOfVehicle i = some o.crew then
          some { o with
            state := .held, deadline := some (w.site.count + secondsOf o.hold), retry := none, frameChannel := none }
        else some o)
      ∧ ∀ k, Table.look (w.permitsAtAbsence id).site.permits k = (Table.look w.site.permits k).bind fun p =>
        if p.retained = true ∧ p.recorded = some id then none
        else if p.state = .issuing ∧ p.recorded = some id then some { p with state := .requested, deadline := none }
        else some p)
    ∧ ∀ (w : Work) (i n : Nat) (x : Terminal) (o : Order), Table.look w.site.roster i = some x →
      Table.look w.site.orders n = some o →
      (∀ k, w.raiseCredit i k = if x.kind = .vehicle then w.setCredit i (x.credit + k) else w)
      ∧ (∀ v : Work, v.lowerInFlight none o.blocks = v ∧ ∀ c, v.lowerInFlight (some c) o.blocks =
        (v.modChan c fun ch => { ch with inFlightBlocks := ch.inFlightBlocks - o.blocks }).offer c)
      ∧ (let v := w.lowerInFlight o.frameChannel o.blocks
        (o.state = .inFlight → w.orderAcked n = v.deliverOrder n .acknowledged o.reply)
        ∧ (o.state = .recalling → w.orderAcked n = v.modOrder n fun y => { y with retry := none, frameChannel := none }))
      ∧ (let v := (w.raiseCredit i o.blocks).lowerInFlight o.frameChannel o.blocks
        (∀ cause, o.state = .inFlight → o.reply = none → w.orderFailed i n cause = v.holdOrder n cause)
        ∧ (∀ cause r, o.state = .inFlight → o.reply = some r →
          w.orderFailed i n cause = v.deliverOrder n .crewReply (some r))
        ∧ (∀ cause, o.state = .recalling →
          w.orderFailed i n cause = v.modOrder n fun y => { y with retry := none, frameChannel := none })
        ∧ (∀ capacity, o.state = .inFlight → o.reply = none → capacity < o.blocks →
          w.orderWithdrawn i n capacity = v.holdOrder n .oversize)
        ∧ (∀ capacity, o.state = .inFlight → o.reply = none → o.blocks ≤ capacity →
          w.orderWithdrawn i n capacity = v.queueOrder n .withdrawn)
        ∧ (∀ capacity r, o.state = .inFlight → o.reply = some r →
          w.orderWithdrawn i n capacity = v.deliverOrder n .crewReply (some r))
        ∧ ∀ capacity, o.state = .recalling →
          w.orderWithdrawn i n capacity = v.modOrder n fun y => { y with retry := none, frameChannel := none })
      ∧ (∀ cause, (w.holdOrder n cause).out = w.out ++ [.orderState
            { number := n, crew := o.crew, state := .held, previous := o.state, cause, reason := none, reply := none
              note := none, retry := if o.state = .inFlight then o.retry else none }]
          ∧ Table.look (w.holdOrder n cause).site.orders n = some { o with
              state := .held, deadline := some (w.site.count + secondsOf o.hold), retry := none, frameChannel := none })
      ∧ ∀ cause, (w.queueOrder n cause).out = w.out ++ [.orderState
            { number := n, crew := o.crew, state := .queued, previous := o.state, cause, reason := none, reply := none
              note := none, retry := if o.state = .inFlight then o.retry else none }]
          ∧ Table.look (w.queueOrder n cause).site.orders n = some { o with
              state := .queued, deadline := none, retry := none, frameChannel := none }

/-- R57, R58, R61, R74, R78, R17, R18, R21, R22: inbound frames. A bad check is counted alone. Every good frame is counted,
marks the window, and updates its sender's last heard and link quality; an ACCESS joins the set of the channel its sender is
AFFILIATED on; an ACK of the awaited frame with its sequence bit acknowledges; an AFFILIATE that passes R17's checks makes its
terminal AFFILIATED with what it declares; a DEPART in place makes it ABSENT. A short address names the terminal that holds it
among those AFFILIATED on the channel of arrival, and an ID the record that holds it (R57); where a table holds the same twice,
which no run reaches, the lower index is named. A granted-kind frame that is out of place does nothing but what every good
frame does, and marks the target as heard; a frame whose sender is unknown, and an ACK with no window open, do nothing but what
every good frame does. R17, R20: a refused AFFILIATE is counted, with a refusing AFFIL_REPLY of the first check that fails
where the ID can be addressed and the queue has room; one whose checks pass into a full queue is counted alone; and one of an
ID that no record holds, in OPEN mode with a record free, enters a guest at the lowest free index. That a target heard by a
frame out of place has no further frame in place in the window is the model's choice (notes/assumptions/33.md). That a terminal
which has moved since its grant is still in place is the model's reading of R58 and R22 (notes/assumptions/4.md), and so is
that a refused AFFILIATE follows R57 like any other good frame (notes/assumptions/11.md). R18, R19, R131: what an acceptance
does, part by part. The previous affiliation's frame is withdrawn, its access entry goes, and at a move its WAITING items
return; the record takes what is declared, a new sequence, the credit of its capacity and a short address, which a renewal
keeps and which is otherwise the lowest of 0 to 6 that no other terminal holds on the channel, absent only when all are held;
an accepting AFFIL_REPLY joins the tail; and the orders, the list, the notes, the alarm channel and the owed DANGERs follow,
with a TERMINAL_STATE report of JOINED or RENEWED. The sequence of these parts is the model's reading
(notes/assumptions/11.md). -/
def Obligations.ArrivalsTaken : Prop :=
  (∀ (w : Work) (i : Nat) (x : Terminal) (c : Chan) (f : AffiliateContent) (sample : Nat),
    let capacity := if x.kind = .personal then 0 else f.capacity.toNat
    let renewal := x.state = .affiliated ∧ x.channel = some c
    let heldByAnother := fun k => ∃ e ∈ w.site.roster, e.1 ≠ i ∧ e.2.state = .affiliated ∧ e.2.channel = some c
      ∧ e.2.short = some k
    (∀ k, w.site.freeShort c i = some k ↔ k < 7 ∧ ¬heldByAnother k ∧ ∀ m < k, heldByAnother m)
    ∧ (w.site.freeShort c i = none ↔ ∀ k < 7, heldByAnother k)
    ∧ (∀ old, x.state = .affiliated → x.channel = some old →
      let v := (w.withdrawOutstanding i capacity).modChan old fun ch => { ch with
        accessSet := ch.accessSet.filter (· != i) }
      (old = c → w.leavePrevious i x c f = v ∧ ∀ u : Work, u.fillLeft x c = u)
        ∧ (old ≠ c → w.leavePrevious i x c f = v.returnWaiting old i ∧ ∀ u : Work, u.fillLeft x c = u.fill old))
    ∧ (x.state ≠ .affiliated ∨ x.channel = none → w.leavePrevious i x c f = w ∧ ∀ u : Work, u.fillLeft x c = u)
    ∧ (∀ r : Watch, Table.look w.site.watches i = some r →
      let v := w.modWatch i fun y => { y with alarmChannel := some c }
      w.watchAtAcceptance i c = if r.state = .alarm ∨ r.state = .acknowledged then
        if r.seenOwed = true then v.placeAlarmSeen i else v else w)
    ∧ (Table.look w.site.watches i = none → w.watchAtAcceptance i c = w)
    ∧ (∀ n, w.site.crewOfVehicle i = some n → w.announceVehicle i capacity = w.ordersAtVehicle n capacity .vehicleJoined
      ∧ w.announceDangers i = w.placeOwedDangers n)
    ∧ (w.site.crewOfVehicle i = none → w.announceVehicle i capacity = w ∧ w.announceDangers i = w)
    ∧ (Table.look w.site.roster i = some x →
      let short := if renewal then x.short else w.site.freeShort c i
      let v := (w.leavePrevious i x c f).modTerminal i fun y => { y with
        state := .affiliated, channel := some c, short, maxRate := declaredRate f.maxRate, fecLow := f.fecLow
        fecHigh := f.fecHigh, pairCapable := f.pairCapable, capacity, credit := capacity, quality := sample
        sequenceBit := false, lastHeard := some w.site.count }
      let u := (v.fillLeft x c).pushUrgent c (.reply { id := x.id, result := .accepted, channel := c, short })
      let t := (((u.announceVehicle i capacity).fill c).placeNoteRecall i).watchAtAcceptance i c
      w.acceptAffiliate i x c f sample = ((t.announceDangers i).emit (.terminalState
        { id := x.id, index := i, state := .affiliated, channel := some c, short
          cause := if renewal then .renewed else .joined, quality := sample, lastHeard := some w.site.count })).offer c))
    ∧ (∀ s : Site,
      (∀ id, ((∀ e ∈ s.roster, e.2.id ≠ id) → s.byId id = none)
        ∧ ∀ p e q, s.roster = p ++ e :: q → e.2.id = id → (∀ y ∈ p, y.2.id ≠ id) → s.byId id = some e)
      ∧ (∀ i, ((∀ e ∈ s.crews, e.2.vehicle ≠ some i) → s.crewOfVehicle i = none)
        ∧ ∀ p e q, s.crews = p ++ e :: q → e.2.vehicle = some i → (∀ y ∈ p, y.2.vehicle ≠ some i) →
          s.crewOfVehicle i = some e.1)
      ∧ ∀ c f,
        let names := fun (x : Terminal) => (∃ b, f = .short b ∧ x.state = .affiliated ∧ x.channel = some c
          ∧ x.short = some b.toNat) ∨ ∃ id, f = .id id ∧ x.id = id.toNat
        ((∀ e ∈ s.roster, ¬names e.2) → s.resolve c f = none)
        ∧ ∀ p e q, s.roster = p ++ e :: q → names e.2 → (∀ y ∈ p, ¬names y.2) → s.resolve c f = some e.1)
    ∧ (∀ (ch : Channel) (i : Nat),
      (ch.awaitsGrant i = true ↔ ∃ x, ch.window = some x ∧ x.grant ≠ .none ∧ x.target = some i ∧ x.targetHeard = false)
      ∧ ch.hear i = { ch with
          window := ch.window.map fun x => if x.target = some i then { x with targetHeard := true } else x })
    ∧ ∀ (s : State), s.powered = true →
    (∀ (a : Arrival) (x : Instr),
      (∃ p, x = .checkIn a p) ∨ (∃ n r f, x = .orderReply a n r f) ∨ (∃ n k, x = .readback a n k)
        ∨ (∃ n, x = .switchDone a n) ∨ (∃ n, x = .releaseAsk a n) ∨ x = .depart a →
      let c := s.site.logical a.channel
      (s.site.resolve c a.sender = none → exec x s = .next (s.after (s.received a)))
      ∧ ∀ i, s.site.resolve c a.sender = some i → ¬s.inPlace a i → exec x s = .next (s.after
        ((s.received a).modChan c fun ch => ch.hear i)))
    ∧ (∀ m : Chan, ∃ t, exec (.inboundBadCheck m) s = .next t ∧ t.site = { s.site with channels := t.site.channels }
      ∧ ∀ d, t.site.chan d = if d = s.site.logical m then
          { s.site.chan d with
            stats := { (s.site.chan d).stats with inboundBad := (s.site.chan d).stats.inboundBad.bump }
            window := (s.site.chan d).window.map fun x => { x with badSeen := true } }
        else s.site.chan d)
    ∧ (∀ a : Arrival,
      let c := s.site.logical a.channel
      let w := s.received a
      (w.out = [] ∧ w.offers = [] ∧ exec (.inboundUndecodable a) s = .next (s.after w)
        ∧ w.site = { s.site with channels := w.site.channels, roster := w.site.roster }
        ∧ (∀ d, w.site.chan d = if d = c then
            { s.site.chan d with
              stats := { (s.site.chan d).stats with inboundGood := (s.site.chan d).stats.inboundGood.bump }
              window := (s.site.chan d).window.map fun x => { x with goodSeen := true } }
          else s.site.chan d)
        ∧ ∀ i, s.site.resolve c a.sender ≠ some i → Table.look w.site.roster i = Table.look s.site.roster i)
      ∧ (s.site.resolve c a.sender = none → exec (.access a) s = .next (s.after w)
        ∧ ∀ bit free, exec (.ack a bit free) s = .next (s.after w))
      ∧ ((s.site.chan c).window = none → ∀ bit free, exec (.ack a bit free) s = .next (s.after w))
      ∧ (∃ t, exec (.inboundUndecodable a) s = .next t
        ∧ t.site = { s.site with channels := t.site.channels, roster := t.site.roster }
        ∧ (∀ d, t.site.chan d = if d = c then
            { s.site.chan d with
              stats := { (s.site.chan d).stats with inboundGood := (s.site.chan d).stats.inboundGood.bump }
              window := (s.site.chan d).window.map fun x => { x with goodSeen := true } }
          else s.site.chan d)
        ∧ ∀ i, Table.look t.site.roster i = (Table.look s.site.roster i).map fun x =>
            if s.site.resolve c a.sender = some i then
              { x with
                lastHeard := some s.site.count
                quality := if x.state = .affiliated ∧ x.channel = some c then (3 * x.quality + a.sample.val + 2) / 4
                  else x.quality }
            else x)
      ∧ (∀ i, s.site.resolve c a.sender = some i →
        (s.site.affiliatedOn i c = true → i ∈ (s.site.chan c).accessSet → exec (.access a) s = .next (s.after w))
        ∧ (s.site.affiliatedOn i c = true → i ∉ (s.site.chan c).accessSet →
          exec (.access a) s = .next (s.after
            ((w.modChan c fun ch => { ch with accessSet := ch.accessSet ++ [i] }).offer c)))
        ∧ (s.site.affiliatedOn i c = false → exec (.access a) s = .next (s.after w))
        ∧ ∀ (x : Terminal) (y : Window) (bit : Bool) (free : Byte), Table.look s.site.roster i = some x →
          (s.site.chan c).window = some y →
          (y.acked = some i → x.sequenceBit = bit →
            exec (.ack a bit free) s = .next (s.after (w.acknowledge i free.toNat)))
          ∧ (y.acked ≠ some i ∨ x.sequenceBit ≠ bit → exec (.ack a bit free) s = .next (s.after w)))
      ∧ (∀ (i : Nat) (x : Terminal), s.inPlace a i → Table.look s.site.roster i = some x →
        (s.site.affiliatedOn i c = true → exec (.depart a) s = .next (s.after ((s.heardFrom a i).absent i .depart)))
        ∧ (s.site.affiliatedOn i c = false → exec (.depart a) s = .next (s.after (s.heardFrom a i))))
      ∧ (∀ (id : Word) (f : AffiliateContent) (i : Nat) (x : Terminal), a.sender = .id id → 1 ≤ id.toNat →
        id.toNat ≤ 0xFFFFFFFE → (s.site.chan c).state = .up → s.site.sorted = true → s.site.byId id.toNat = some (i, x) →
        Table.look s.site.roster i = some x → x.kind = declaredKind f → (s.site.paired c = true → f.pairCapable = true) →
        ((s.site.terminalsOn c).length < 40 ∨ s.site.affiliatedOn i c = true) → (s.site.chan c).urgents.length < 16 →
        let v := w.acceptAffiliate i { x with
          lastHeard := some s.site.count
          quality := if x.state = .affiliated ∧ x.channel = some c then (3 * x.quality + a.sample.val + 2) / 4
            else x.quality } c f a.sample.val
        exec (.affiliate a.channel a.sample id f) s = .next (s.after v)
          ∧ ∃ y, Table.look v.site.roster i = some y ∧ y.state = .affiliated ∧ y.channel = some c ∧ y.id = x.id
            ∧ y.quality = a.sample.val ∧ y.sequenceBit = false ∧ y.maxRate = declaredRate f.maxRate
            ∧ y.capacity = (if x.kind = .personal then 0 else f.capacity.toNat) ∧ y.credit = y.capacity
            ∧ y.lastHeard = some s.site.count))
    ∧ ∀ (channel : Chan) (sample : Fin 16) (id : Word) (f : AffiliateContent),
      let c := s.site.logical channel
      let w := s.received { channel, sample, sender := .id id }
      let counted := w.modChan c fun ch => { ch with
        stats := { ch.stats with affilRefusals := ch.stats.affilRefusals.bump } }
      let replied := fun r => if (s.site.chan c).urgents.length < 16 then
        counted.pushUrgent c (.reply { id := id.toNat, result := r, channel := c, short := none }) else counted
      let addressed := 1 ≤ id.toNat ∧ id.toNat ≤ 0xFFFFFFFE
      let known := ∃ i x, s.site.byId id.toNat = some (i, x) ∧ x.kind = declaredKind f
      let guest := s.site.byId id.toNat = none ∧ s.site.mode = .openMode
        ∧ ∃ n < 160, Table.look s.site.roster n = none
      let joined := ∃ i x, s.site.byId id.toNat = some (i, x) ∧ s.site.affiliatedOn i c = true
      ((s.site.chan c).state ≠ .up → exec (.affiliate channel sample id f) s = .next (s.after counted))
      ∧ (s.site.sorted = true → (s.site.chan c).state = .up →
        (¬addressed → exec (.affiliate channel sample id f) s = .next (s.after counted))
        ∧ (addressed → ¬known → ¬guest → exec (.affiliate channel sample id f) s = .next (s.after (replied .unknown)))
        ∧ (addressed → known ∨ guest →
          (s.site.paired c = true → f.pairCapable = false →
            exec (.affiliate channel sample id f) s = .next (s.after (replied .pair)))
          ∧ ((s.site.paired c = true → f.pairCapable = true) →
            (40 ≤ (s.site.terminalsOn c).length → ¬joined →
              exec (.affiliate channel sample id f) s = .next (s.after (replied .full)))
            ∧ ((s.site.terminalsOn c).length < 40 ∨ joined → 16 ≤ (s.site.chan c).urgents.length →
              exec (.affiliate channel sample id f) s = .next (s.after counted))
            ∧ (guest → (s.site.terminalsOn c).length < 40 → (s.site.chan c).urgents.length < 16 →
              ∃ n y, n < 160 ∧ Table.look s.site.roster n = none
                  ∧ (∀ m < n, (Table.look s.site.roster m).isSome = true)
                  ∧ let fresh : Terminal :=
                      { id := id.toNat, kind := declaredKind f, origin := .guest, crew := none, state := .unknown
                        channel := none, short := none, maxRate := .low, fecLow := false, fecHigh := false
                        pairCapable := false, capacity := 0, credit := 0, quality := 0, sequenceBit := false
                        outstanding := none, lastHeard := none, notes := [] }
                  let v := (w.modSite fun x => { x with roster := x.roster.put n fresh }).acceptAffiliate n fresh c f
                    sample.val
                  exec (.affiliate channel sample id f) s = .next (s.after v)
                  ∧ Table.look v.site.roster n = some y ∧ y.id = id.toNat ∧ y.kind = declaredKind f
                  ∧ y.origin = .guest ∧ y.crew = none ∧ y.state = .affiliated ∧ y.channel = some c
                  ∧ y.maxRate = declaredRate f.maxRate ∧ y.fecLow = f.fecLow ∧ y.fecHigh = f.fecHigh
                  ∧ y.pairCapable = f.pairCapable
                  ∧ y.capacity = (if declaredKind f = .personal then 0 else f.capacity.toNat)
                  ∧ y.credit = y.capacity ∧ y.quality = sample.val ∧ y.sequenceBit = false ∧ y.outstanding = none
                  ∧ y.lastHeard = some s.site.count ∧ y.notes = []
                  ∧ (∀ k, y.short = some k → k < 7 ∧ ∀ j, s.site.shortOn c j ≠ some k)
                  ∧ (y.short = none → ∀ k < 7, ∃ j, s.site.shortOn c j = some k)))))
end

