-- ==== Sys2Proof/Laws/State.lean ====
section
/-! SUPPORT. The fields of a state after each named update, one lemma for each update and part, so that no later proof unfolds a
record update. -/

set_option Elab.async false

namespace Sys2Proof.Machine

/-! ### Beginning and changing the work of a command -/

@[simp] theorem Work.start_site (s : Site) : (Work.start s).site = s := rfl
@[simp] theorem Work.start_out (s : Site) : (Work.start s).out = [] := rfl
@[simp] theorem Work.start_offers (s : Site) : (Work.start s).offers = [] := rfl

@[simp] theorem Work.modSite_site (w : Work) (f : Site → Site) : (w.modSite f).site = f w.site := rfl
@[simp] theorem Work.modSite_out (w : Work) (f : Site → Site) : (w.modSite f).out = w.out := rfl
@[simp] theorem Work.modSite_offers (w : Work) (f : Site → Site) : (w.modSite f).offers = w.offers := rfl

@[simp] theorem Work.emit_site (w : Work) (b : ReportBody) : (w.emit b).site = w.site := rfl
@[simp] theorem Work.emit_out (w : Work) (b : ReportBody) : (w.emit b).out = w.out ++ [b] := rfl
@[simp] theorem Work.emit_offers (w : Work) (b : ReportBody) : (w.emit b).offers = w.offers := rfl

@[simp] theorem Work.offer_site (w : Work) (c : Chan) : (w.offer c).site = w.site := rfl
@[simp] theorem Work.offer_out (w : Work) (c : Chan) : (w.offer c).out = w.out := rfl
@[simp] theorem Work.offer_offers (w : Work) (c : Chan) : (w.offer c).offers = w.offers ++ [c] := rfl

@[simp] theorem Work.offerEvery_site (w : Work) : w.offerEvery.site = w.site := rfl
@[simp] theorem Work.offerEvery_out (w : Work) : w.offerEvery.out = w.out := rfl
@[simp] theorem Work.offerEvery_offers (w : Work) : w.offerEvery.offers = w.offers ++ [0, 1, 2, 3] := rfl

@[simp] theorem Work.modChan_site (w : Work) (c : Chan) (f : Channel → Channel) :
    (w.modChan c f).site = { w.site with channels := w.site.channels.set c.val (f (w.site.chan c)) c.isLt } := rfl
@[simp] theorem Work.modChan_out (w : Work) (c : Chan) (f : Channel → Channel) : (w.modChan c f).out = w.out := rfl
@[simp] theorem Work.modChan_offers (w : Work) (c : Chan) (f : Channel → Channel) :
    (w.modChan c f).offers = w.offers := rfl

/-- A channel set is read back. -/
@[simp] theorem Site.chan_set_same (s : Site) (c : Chan) (ch : Channel) :
    ({ s with channels := s.channels.set c.val ch c.isLt } : Site).chan c = ch := by
  simp [Site.chan, Vector.get_eq_getElem]

/-- Setting a channel leaves the others alone. -/
theorem Site.chan_set_other (s : Site) (c d : Chan) (ch : Channel) (h : d ≠ c) :
    ({ s with channels := s.channels.set c.val ch c.isLt } : Site).chan d = s.chan d := by
  have : c.val ≠ d.val := fun e => h (Fin.ext e.symm)
  simp [Site.chan, Vector.get_eq_getElem, Vector.getElem_set_ne _ _ this]

@[simp] theorem Work.modTerminal_site (w : Work) (i : Nat) (f : Terminal → Terminal) :
    (w.modTerminal i f).site = { w.site with roster := w.site.roster.adjust i f } := rfl
@[simp] theorem Work.modTerminal_out (w : Work) (i : Nat) (f : Terminal → Terminal) :
    (w.modTerminal i f).out = w.out := rfl
@[simp] theorem Work.modTerminal_offers (w : Work) (i : Nat) (f : Terminal → Terminal) :
    (w.modTerminal i f).offers = w.offers := rfl

@[simp] theorem Work.modCrew_site (w : Work) (n : Nat) (f : Crew → Crew) :
    (w.modCrew n f).site = { w.site with crews := w.site.crews.adjust n f } := rfl
@[simp] theorem Work.modCrew_out (w : Work) (n : Nat) (f : Crew → Crew) : (w.modCrew n f).out = w.out := rfl
@[simp] theorem Work.modCrew_offers (w : Work) (n : Nat) (f : Crew → Crew) : (w.modCrew n f).offers = w.offers := rfl

@[simp] theorem Work.modOrder_site (w : Work) (n : Nat) (f : Order → Order) :
    (w.modOrder n f).site = { w.site with orders := w.site.orders.adjust n f } := rfl
@[simp] theorem Work.modOrder_out (w : Work) (n : Nat) (f : Order → Order) : (w.modOrder n f).out = w.out := rfl
@[simp] theorem Work.modOrder_offers (w : Work) (n : Nat) (f : Order → Order) : (w.modOrder n f).offers = w.offers := rfl

@[simp] theorem Work.modWatch_site (w : Work) (u : Nat) (f : Watch → Watch) :
    (w.modWatch u f).site = { w.site with watches := w.site.watches.adjust u f } := rfl
@[simp] theorem Work.modWatch_out (w : Work) (u : Nat) (f : Watch → Watch) : (w.modWatch u f).out = w.out := rfl
@[simp] theorem Work.modWatch_offers (w : Work) (u : Nat) (f : Watch → Watch) : (w.modWatch u f).offers = w.offers := rfl

@[simp] theorem Work.modPermit_site (w : Work) (k : Nat) (f : Permit → Permit) :
    (w.modPermit k f).site = { w.site with permits := w.site.permits.adjust k f } := rfl
@[simp] theorem Work.modPermit_out (w : Work) (k : Nat) (f : Permit → Permit) : (w.modPermit k f).out = w.out := rfl
@[simp] theorem Work.modPermit_offers (w : Work) (k : Nat) (f : Permit → Permit) :
    (w.modPermit k f).offers = w.offers := rfl

@[simp] theorem Work.bumpStat_out (w : Work) (c : Chan) (f : Stats → Stats) : (w.bumpStat c f).out = w.out := rfl
@[simp] theorem Work.bumpStat_offers (w : Work) (c : Chan) (f : Stats → Stats) : (w.bumpStat c f).offers = w.offers := rfl

@[simp] theorem Work.taken_work (w : Work) (b : ReplyBody) : (w.taken b).work = w := rfl
@[simp] theorem Work.taken_wait (w : Work) (b : ReplyBody) : (w.taken b).wait = .ready .ok b := rfl
@[simp] theorem Work.taken_clearLost (w : Work) (b : ReplyBody) : (w.taken b).clearLost = false := rfl
@[simp] theorem Work.refused_work (w : Work) (st : Status) : (w.refused st).work = w := rfl
@[simp] theorem Work.refused_wait (w : Work) (st : Status) : (w.refused st).wait = .ready st .empty := rfl
@[simp] theorem Work.refused_clearLost (w : Work) (st : Status) : (w.refused st).clearLost = false := rfl

/-! ### The link -/

@[simp] theorem Link.queueReport_places (l : Link) (r : Report) : (l.queueReport r).places = l.places := by
  unfold Link.queueReport; repeat' split
  all_goals rfl
@[simp] theorem Link.queueReport_counters (l : Link) (r : Report) : (l.queueReport r).counters = l.counters := by
  unfold Link.queueReport; repeat' split
  all_goals rfl
@[simp] theorem Link.queueReport_receiver (l : Link) (r : Report) : (l.queueReport r).receiver = l.receiver := by
  unfold Link.queueReport; repeat' split
  all_goals rfl
@[simp] theorem Link.queueReport_baud (l : Link) (r : Report) : (l.queueReport r).baud = l.baud := by
  unfold Link.queueReport; repeat' split
  all_goals rfl
@[simp] theorem Link.queueReport_outgoing (l : Link) (r : Report) : (l.queueReport r).outgoing = l.outgoing := by
  unfold Link.queueReport; repeat' split
  all_goals rfl

@[simp] theorem Link.chooseFrame_places (l : Link) : l.chooseFrame.places = l.places := by
  unfold Link.chooseFrame; repeat' split
  all_goals simp_all
@[simp] theorem Link.chooseFrame_counters (l : Link) : l.chooseFrame.counters = l.counters := by
  unfold Link.chooseFrame; repeat' split
  all_goals rfl
@[simp] theorem Link.chooseFrame_receiver (l : Link) : l.chooseFrame.receiver = l.receiver := by
  unfold Link.chooseFrame; repeat' split
  all_goals rfl
@[simp] theorem Link.chooseFrame_baud (l : Link) : l.chooseFrame.baud = l.baud := by
  unfold Link.chooseFrame; repeat' split
  all_goals rfl
@[simp] theorem Link.chooseFrame_reportsLost (l : Link) : l.chooseFrame.reportsLost = l.reportsLost := by
  unfold Link.chooseFrame; repeat' split
  all_goals rfl

@[simp] theorem Link.offerOne_places (s : Site) (l : Link) (b : ReportBody) : (Link.offerOne s l b).places = l.places := by
  unfold Link.offerOne; split <;> simp
@[simp] theorem Link.offerOne_counters (s : Site) (l : Link) (b : ReportBody) :
    (Link.offerOne s l b).counters = l.counters := by
  unfold Link.offerOne; split <;> simp
@[simp] theorem Link.offerOne_receiver (s : Site) (l : Link) (b : ReportBody) :
    (Link.offerOne s l b).receiver = l.receiver := by
  unfold Link.offerOne; split <;> simp
@[simp] theorem Link.offerOne_baud (s : Site) (l : Link) (b : ReportBody) : (Link.offerOne s l b).baud = l.baud := by
  unfold Link.offerOne; split <;> simp
/-- A busy line goes on with its frame. -/
theorem Link.offerOne_busy {l : Link} {f : OutFrame} (h : l.outgoing = some f) (s : Site) (b : ReportBody) :
    Link.offerOne s l b =
      if s.mask.covers b then l else l.queueReport { count := s.count, label := s.label, body := b } := by
  unfold Link.offerOne; split
  · rfl
  · simp [Link.chooseFrame, h]

@[simp] theorem Link.offerAll_nil (s : Site) (l : Link) : l.offerAll s [] = l := rfl
@[simp] theorem Link.offerAll_cons (s : Site) (l : Link) (b : ReportBody) (bs : List ReportBody) :
    l.offerAll s (b :: bs) = (Link.offerOne s l b).offerAll s bs := rfl
@[simp] theorem Link.offerAll_places (s : Site) (l : Link) (bs : List ReportBody) : (l.offerAll s bs).places = l.places := by
  induction bs generalizing l <;> simp [*]
@[simp] theorem Link.offerAll_counters (s : Site) (l : Link) (bs : List ReportBody) :
    (l.offerAll s bs).counters = l.counters := by
  induction bs generalizing l <;> simp [*]
@[simp] theorem Link.offerAll_receiver (s : Site) (l : Link) (bs : List ReportBody) :
    (l.offerAll s bs).receiver = l.receiver := by
  induction bs generalizing l <;> simp [*]
@[simp] theorem Link.offerAll_baud (s : Site) (l : Link) (bs : List ReportBody) : (l.offerAll s bs).baud = l.baud := by
  induction bs generalizing l <;> simp [*]
@[simp] theorem Link.arrived_places (l : Link) (s : Site) : (l.arrived s).places = l.places := by
  unfold Link.arrived; simp only []; split <;> simp
@[simp] theorem Link.arrived_counters (l : Link) (s : Site) : (l.arrived s).counters = l.counters := by
  unfold Link.arrived; simp only []; split <;> simp
@[simp] theorem Link.arrived_receiver (l : Link) (s : Site) : (l.arrived s).receiver = .hunting := by
  unfold Link.arrived; simp only []; split <;> simp
@[simp] theorem Link.arrived_baud (l : Link) (s : Site) : (l.arrived s).baud = l.baud := by
  unfold Link.arrived; simp only []; split <;> simp
@[simp] theorem Link.arrived_restartPending (l : Link) (s : Site) :
    (l.arrived s).restartPending = l.restartPending := by simp [Link.restartPending]

@[simp] theorem Link.hold_places (l : Link) (h : Hdr) (kind : Byte) (t : Taking) :
    (l.hold h kind t).places = l.places ++ [{ tag := h.tag, kind, wait := t.wait }] := rfl
@[simp] theorem Link.hold_reports (l : Link) (h : Hdr) (kind : Byte) (t : Taking) :
    (l.hold h kind t).reports = l.reports := rfl
@[simp] theorem Link.hold_counters (l : Link) (h : Hdr) (kind : Byte) (t : Taking) :
    (l.hold h kind t).counters = l.counters := rfl

@[simp] theorem Link.discarded_places (s : Site) (l : Link) (c : LinkCounters) : (l.discarded s c).places = l.places := by
  simp [Link.discarded]
@[simp] theorem Link.discarded_counters (s : Site) (l : Link) (c : LinkCounters) : (l.discarded s c).counters = c := by
  simp [Link.discarded]
@[simp] theorem Link.discarded_receiver (s : Site) (l : Link) (c : LinkCounters) :
    (l.discarded s c).receiver = .hunting := by simp [Link.discarded]

/-! ### Closing a step -/

@[simp] theorem State.conclude_powered (s : State) (l : Link) (w : Work) : (s.conclude l w).powered = s.powered := rfl
@[simp] theorem State.conclude_pending (s : State) (l : Link) (w : Work) : (s.conclude l w).pending = s.pending := rfl
@[simp] theorem State.conclude_site (s : State) (l : Link) (w : Work) : (s.conclude l w).site = w.serve.site := rfl
@[simp] theorem State.conclude_places (s : State) (l : Link) (w : Work) : (s.conclude l w).link.places = l.places := by
  simp [State.conclude]
@[simp] theorem State.conclude_counters (s : State) (l : Link) (w : Work) :
    (s.conclude l w).link.counters = l.counters := by simp [State.conclude]
@[simp] theorem State.conclude_receiver (s : State) (l : Link) (w : Work) :
    (s.conclude l w).link.receiver = l.receiver := by simp [State.conclude]
@[simp] theorem State.conclude_baud (s : State) (l : Link) (w : Work) : (s.conclude l w).link.baud = l.baud := by
  simp [State.conclude]

/-! ### A request answered -/

@[simp] theorem State.answered_powered (s : State) (h : Hdr) (kind : Byte) (t : Taking) :
    (s.answered h kind t).powered = s.powered := rfl
@[simp] theorem State.answered_pending (s : State) (h : Hdr) (kind : Byte) (t : Taking) :
    (s.answered h kind t).pending = s.pending := rfl
@[simp] theorem State.answered_site (s : State) (h : Hdr) (kind : Byte) (t : Taking) :
    (s.answered h kind t).site = t.work.serve.site := rfl
@[simp] theorem State.answered_places (s : State) (h : Hdr) (kind : Byte) (t : Taking) :
    (s.answered h kind t).link.places = s.link.places ++ [{ tag := h.tag, kind, wait := t.wait }] := by
  simp [State.answered]
@[simp] theorem State.answered_counters (s : State) (h : Hdr) (kind : Byte) (t : Taking) :
    (s.answered h kind t).link.counters = s.link.counters := by simp [State.answered]

/-- Work that offers no channel a choice is closed as it stands. -/
theorem Work.serve_of_no_offers (w : Work) (h : w.offers = []) : w.serve = w := by
  simp [Work.serve, h]

/-- A step that offers no choice closes with its site as worked on. -/
theorem State.conclude_site_of_no_offers (s : State) (l : Link) (w : Work) (h : w.offers = []) :
    (s.conclude l w).site = w.site := by
  rw [State.conclude_site, Work.serve_of_no_offers w h]

/-! ### Requests and events -/

/-- A request that reaches its owner is answered with the owner's taking of it. -/
theorem request_admitted {s : State} {h : Hdr} {n : Nat} (a : s.admits h n) (kind : Byte) (fits : Bool)
    (hf : fits = true) (act : Link → Work → Taking) :
    request h kind fits act s = .next (s.answered h kind (act (s.link.arrived s.site) s.begun)) := by
  obtain ⟨hp, hr, ht, hl, _⟩ := a
  unfold request
  rw [if_pos hp]
  simp only [judge, Link.arrived_restartPending, hr, Bool.false_eq_true, if_false, if_neg ht, Link.arrived_places,
    if_neg (Nat.not_le.2 hl), hf, if_true]

/-- Every outcome a request can have. -/
theorem request_cases {s : State} {h : Hdr} {kind : Byte} {fits : Bool} {act : Link → Work → Taking} {t : State}
    (e : request h kind fits act s = .next t) :
    (s.powered = false ∧ t = s)
      ∨ s.powered = true ∧
        ((s.link.restartPending = true ∧ t = s.conclude (s.link.arrived s.site) s.begun)
          ∨ s.link.restartPending = false ∧
            ((h.tag = 0 ∧ t = s.discarded (s.link.arrived s.site) s.link.counters.addBadTag s.site.arrived)
              ∨ h.tag ≠ 0 ∧
                ((4 ≤ s.link.places.length
                    ∧ t = s.discarded (s.link.arrived s.site) s.link.counters.addOverflow s.site.arrived)
                  ∨ s.link.places.length < 4 ∧
                    ((fits = false ∧ t = s.answered h kind (s.begun.refused .badLength))
                      ∨ fits = true ∧ t = s.answered h kind (act (s.link.arrived s.site) s.begun))))) := by
  unfold request at e
  split at e
  · rename_i hp
    refine .inr ⟨hp, ?_⟩
    obtain rfl := Host.Outcome.next.inj e
    simp only [judge, Link.arrived_restartPending, Link.arrived_places, Link.arrived_counters]
    split
    · exact .inl ⟨‹_›, rfl⟩
    · rename_i hr
      refine .inr ⟨by simpa using hr, ?_⟩
      split
      · exact .inl ⟨‹_›, rfl⟩
      · refine .inr ⟨‹_›, ?_⟩
        split
        · exact .inl ⟨‹_›, rfl⟩
        · refine .inr ⟨Nat.lt_of_not_le ‹_›, ?_⟩
          cases fits
          · exact .inl ⟨rfl, rfl⟩
          · exact .inr ⟨rfl, rfl⟩
  · rename_i hp
    exact .inl ⟨by simpa using hp, by simpa using e.symm⟩

/-- An event of a part with power. -/
theorem event_powered {s : State} (h : s.powered = true) (f : Work → Work) : event f s = .next (s.after (f s.work)) := by
  simp [event, h, State.after, State.work]

/-- A part without power does nothing at an event. -/
theorem event_unpowered {s : State} (h : s.powered = false) (f : Work → Work) : event f s = .next s := by
  simp [event, h]

end Sys2Proof.Machine
end

