-- ==== Sys2Proof/Laws/Table.lean ====
section
/-! SUPPORT. What each operation of a table of numbered records does: reading back, leaving the other records alone, and keeping
the canonical form. -/

set_option Elab.async false

namespace Sys2Proof.Table
variable {α : Type}

@[simp] theorem look_nil (n : Nat) : look ([] : Table α) n = none := rfl

@[simp] theorem nums_nil : nums ([] : Table α) = [] := rfl

@[simp] theorem nums_cons (e : Nat × α) (t : Table α) : nums (e :: t) = e.1 :: nums t := rfl

/-- A record put is read back. -/
@[simp] theorem look_put_same (t : Table α) (n : Nat) (x : α) : look (put t n x) n = some x := by
  induction t with
  | nil => simp [put, look]
  | cons e t ih => simp only [put]; split <;> [skip; split] <;> simp_all [look]; omega

/-- Putting a record leaves the others alone. -/
theorem look_put_other (t : Table α) (n m : Nat) (x : α) (h : m ≠ n) : look (put t n x) m = look t m := by
  induction t with
  | nil => simp [put, look, h.symm]
  | cons e t ih =>
    simp only [put]
    split <;> [skip; split]
    · simp [look, h.symm]
    · rename_i heq; simp [look, h.symm, ← heq]
    · simp [look, ih]

/-- A number freed reads as free. -/
@[simp] theorem look_del_same (t : Table α) (n : Nat) : look (del t n) n = none := by
  induction t with
  | nil => rfl
  | cons e t ih => by_cases h : e.1 = n <;> simp_all [del, look]

/-- Freeing a number leaves the others alone. -/
theorem look_del_other (t : Table α) (n m : Nat) (h : m ≠ n) : look (del t n) m = look t m := by
  induction t with
  | nil => rfl
  | cons e t ih =>
    by_cases h' : e.1 = n
    · have : e.1 ≠ m := fun x => h (x ▸ h')
      simp_all [del, look]
    · simp_all [del, look]

/-- An adjusted record is the old one changed. -/
@[simp] theorem look_adjust_same (t : Table α) (n : Nat) (f : α → α) : look (adjust t n f) n = (look t n).map f := by
  unfold adjust; split <;> simp_all

/-- Adjusting a record leaves the others alone. -/
theorem look_adjust_other (t : Table α) (n m : Nat) (f : α → α) (h : m ≠ n) : look (adjust t n f) m = look t m := by
  unfold adjust; split <;> simp_all [look_put_other]

theorem mem_of_look {t : Table α} {n : Nat} {x : α} (h : look t n = some x) : (n, x) ∈ t := by
  induction t with
  | nil => simp at h
  | cons e t ih =>
    simp only [look] at h
    split at h
    · rename_i he
      have hx := Option.some.inj h
      exact List.mem_cons.2 (.inl (Prod.ext he.symm hx.symm))
    · exact List.mem_cons_of_mem _ (ih h)

/-- What is in the table after a put was put or was there. -/
theorem mem_put {t : Table α} {n : Nat} {x : α} {e : Nat × α} (h : e ∈ put t n x) : e = (n, x) ∨ e ∈ t := by
  induction t with
  | nil => simpa [put] using h
  | cons y t ih => simp only [put] at h; split at h <;> [skip; split at h] <;> simp_all <;> tauto

theorem mem_del {t : Table α} {n : Nat} {e : Nat × α} (h : e ∈ del t n) : e ∈ t := List.mem_of_mem_filter h

/-- What is in the table after an adjustment was there, or is the adjusted record. -/
theorem mem_adjust {t : Table α} {n : Nat} {f : α → α} {e : Nat × α} (h : e ∈ adjust t n f) :
    e ∈ t ∨ ∃ x, (n, x) ∈ t ∧ e = (n, f x) := by
  unfold adjust at h
  split at h
  · rename_i x hx
    rcases mem_put h with h | h
    · exact .inr ⟨x, mem_of_look hx, h⟩
    · exact .inl h
  · exact .inl h

theorem mem_nums_put {t : Table α} {n m : Nat} {x : α} (h : m ∈ nums (put t n x)) : m = n ∨ m ∈ nums t := by
  simp only [nums, List.mem_map] at h ⊢
  obtain ⟨e, he, rfl⟩ := h
  rcases mem_put he with rfl | h
  · exact .inl rfl
  · exact .inr ⟨e, h, rfl⟩

theorem wf_iff (t : Table α) : wf t = true ↔ (nums t).Pairwise (· < ·) := by simp [wf]

/-- The canonical form survives a put. -/
theorem wf_put {t : Table α} (h : wf t = true) (n : Nat) (x : α) : wf (put t n x) = true := by
  rw [wf_iff] at h ⊢
  induction t with
  | nil => simp [put]
  | cons e t ih =>
    simp only [nums_cons, List.pairwise_cons] at h
    simp only [put]
    split
    · rename_i hlt
      simp only [nums_cons, List.pairwise_cons, List.mem_cons]
      exact ⟨fun a ha => ha.elim (fun x => x ▸ hlt) fun x => hlt.trans (h.1 a x), h⟩
    · split
      · rename_i heq
        simp only [nums_cons, List.pairwise_cons]
        exact ⟨heq ▸ h.1, h.2⟩
      · simp only [nums_cons, List.pairwise_cons]
        refine ⟨fun a ha => ?_, ih h.2⟩
        rcases mem_nums_put ha with rfl | ha
        · omega
        · exact h.1 a ha

/-- The canonical form survives the freeing of a number. -/
theorem wf_del {t : Table α} (h : wf t = true) (n : Nat) : wf (del t n) = true := by
  rw [wf_iff] at h ⊢
  exact h.sublist ((List.filter_sublist (l := t)).map Prod.fst)

/-- The canonical form survives an adjustment. -/
theorem wf_adjust {t : Table α} (h : wf t = true) (n : Nat) (f : α → α) : wf (adjust t n f) = true := by
  unfold adjust; split
  · exact wf_put h _ _
  · exact h

/-- The canonical form of a table numbered as its records come. -/
theorem wfBelow_iff (t : Table α) (n : Nat) : wfBelow t n = true ↔ wf t = true ∧ ∀ e ∈ t, e.1 < n := by
  simp [wfBelow]

theorem wf_of_wfBelow {t : Table α} {n : Nat} (h : wfBelow t n = true) : wf t = true := ((wfBelow_iff t n).1 h).1

theorem wfBelow_del {t : Table α} {n : Nat} (h : wfBelow t n = true) (k : Nat) : wfBelow (del t k) n = true := by
  rw [wfBelow_iff] at h ⊢; exact ⟨wf_del h.1 k, fun e he => h.2 e (mem_del he)⟩

theorem wfBelow_put {t : Table α} {n m k : Nat} (h : wfBelow t n = true) (x : α) (hm : n ≤ m) (hk : k < m) :
    wfBelow (put t k x) m = true := by
  rw [wfBelow_iff] at h ⊢
  refine ⟨wf_put h.1 k x, fun e he => ?_⟩
  rcases mem_put he with rfl | he
  · exact hk
  · exact Nat.lt_of_lt_of_le (h.2 e he) hm

theorem wfBelow_adjust {t : Table α} {n : Nat} (h : wfBelow t n = true) (k : Nat) (f : α → α) :
    wfBelow (adjust t k f) n = true := by
  unfold adjust; split
  · rename_i x e; exact wfBelow_put h _ (Nat.le_refl n) (((wfBelow_iff t n).1 h).2 _ (mem_of_look e))
  · exact h

/-- A record put under the next number stands last. -/
theorem put_next {t : Table α} {n : Nat} (h : ∀ e ∈ t, e.1 < n) (x : α) : put t n x = t ++ [(n, x)] := by
  induction t with
  | nil => rfl
  | cons e t ih =>
    obtain ⟨k, y⟩ := e
    have hk : k < n := h _ (List.mem_cons_self ..)
    rw [put, if_neg (by omega), if_neg (by omega), ih fun e he => h e (List.mem_cons_of_mem _ he)]; rfl

/-- In canonical form every listed record is the one its number reads as. -/
theorem look_of_mem {t : Table α} (h : wf t = true) {n : Nat} {x : α} (hm : (n, x) ∈ t) : look t n = some x := by
  rw [wf_iff] at h
  induction t with
  | nil => simp at hm
  | cons e t ih =>
    simp only [nums_cons, List.pairwise_cons] at h
    rcases List.mem_cons.1 hm with rfl | hm
    · simp [look]
    · have := h.1 n (List.mem_map.2 ⟨_, hm, rfl⟩)
      simp only [look]
      rw [if_neg (by omega)]
      exact ih h.2 hm

/-- In canonical form a record found by a search is the one its number reads as, and it passes the test. -/
theorem look_of_seek {t : Table α} (h : wf t = true) {p : Nat → α → Bool} {n : Nat} {x : α}
    (hs : seek t p = some (n, x)) : look t n = some x ∧ p n x = true :=
  ⟨look_of_mem h (List.mem_of_find?_eq_some hs),
    List.find?_some (p := fun e : Nat × α => p e.1 e.2) (a := (n, x)) hs⟩

/-- The lowest free number is free, below the capacity, and every lower number is in use. -/
theorem firstFree_spec {t : Table α} {cap n : Nat} (h : firstFree t cap = some n) :
    look t n = none ∧ n < cap ∧ ∀ m < n, (look t m).isSome := by
  unfold firstFree at h
  refine ⟨by simpa using List.find?_some h, by simpa using List.mem_of_find?_eq_some h, fun m hm => ?_⟩
  have := List.find?_range_eq_some.1 h
  simpa [Option.ne_none_iff_isSome] using this.2.2 m hm

/-- No number is free when the search finds none. -/
theorem firstFree_none {t : Table α} {cap : Nat} (h : firstFree t cap = none) : ∀ m < cap, (look t m).isSome := by
  unfold firstFree at h
  intro m hm
  have := List.find?_eq_none.1 h m (by simpa using hm)
  simpa [Option.ne_none_iff_isSome] using this

/-- In canonical form a change of one record changes it where it stands. -/
theorem adjust_map {t : Table α} (h : wf t = true) (n : Nat) (f : α → α) :
    adjust t n f = t.map fun e => if e.1 = n then (n, f e.2) else e := by
  induction t with
  | nil => rfl
  | cons e t ih =>
    obtain ⟨k, y⟩ := e
    rw [wf_iff, nums_cons, List.pairwise_cons] at h
    have ih := ih ((wf_iff t).2 h.2)
    unfold adjust at ih ⊢
    by_cases e : k = n
    · subst e
      have g : t.map (fun e => if e.1 = k then (k, f e.2) else e) = t := by
        refine (List.map_congr_left fun e he => ?_).trans (List.map_id t)
        have lt : k < e.1 := h.1 e.1 (List.mem_map.2 ⟨e, he, rfl⟩)
        simp [Nat.ne_of_gt lt]
      simp [look, put, g]
    · simp only [look, e, if_false, List.map_cons]
      cases g : look t n with
      | none => rw [g] at ih; simp only [] at ih ⊢; rw [← ih]
      | some x =>
        rw [g] at ih; simp only [] at ih ⊢
        have lt : k < n := h.1 n (List.mem_map.2 ⟨(n, x), mem_of_look g, rfl⟩)
        simp only [put, Nat.not_lt.2 (Nat.le_of_lt lt), Ne.symm e, if_false, ih]

/-- Two changes of one record make one change of it. -/
theorem put_put (t : Table α) (n : Nat) (x y : α) :
    put (put t n x) n y = put t n y := by
  induction t with
  | nil => simp [put]
  | cons e t ih =>
    obtain ⟨k, z⟩ := e
    simp only [put]
    by_cases h1 : n < k
    · simp [h1, put]
    · by_cases h2 : n = k
      · simp [h2, put]
      · simp [h1, h2, put, ih]

theorem adjust_adjust (t : Table α) (n : Nat) (f g : α → α) : adjust (adjust t n f) n g = adjust t n fun x => g (f x) := by
  unfold adjust
  cases h : look t n
  · simp [h]
  · simp [put_put]

/-- Changes that agree on the record that stands there are the same change. -/
theorem adjust_congr {t : Table α} {n : Nat} {f g : α → α} {x : α} (h : look t n = some x) (e : f x = g x) :
    adjust t n f = adjust t n g := by
  unfold adjust; rw [h]; simp only [e]

end Sys2Proof.Table
end

