-- ==== Sys2Proof/Laws/Arrivals.lean ====
section
/-! SUPPORT. What an inbound frame does before its owner acts, said once: the counters, the window's mark, the sender's fields,
and when a granted-kind frame reaches its owner (R57, R58). -/

set_option Elab.async false

namespace Sys2Proof.Machine

/-! ### Channels after a change of one of them -/

theorem Work.modChan_chan (w : Work) (c d : Chan) (f : Channel → Channel) :
    (w.modChan c f).site.chan d = if d = c then f (w.site.chan c) else w.site.chan d := by
  by_cases e : d = c
  · subst e; simp
  · rw [if_neg e]; exact Site.chan_set_other _ _ _ _ e

/-- A change of no channel's configuration keeps the members of logical channels. -/
theorem Site.members_of_config {a b : Site} (h : ∀ c, (b.chan c).config = (a.chan c).config) (c : Chan) :
    b.members c = a.members c := by
  have e : b.paired c = a.paired c := by simp [Site.paired, h]
  simp [Site.members, e]

theorem Site.logical_of_config {a b : Site} (h : ∀ c, (b.chan c).config = (a.chan c).config) (c : Chan) :
    b.logical c = a.logical c := by
  have e : b.paired c = a.paired c := by simp [Site.paired, h]
  simp [Site.logical, e]

/-- A change of listed channels, one after another. -/
theorem Work.modChans_spec (w : Work) (cs : List Chan) (f : Channel → Channel) (hc : cs.Nodup) :
    (w.modChans cs f).site = { w.site with channels := (w.modChans cs f).site.channels }
      ∧ (w.modChans cs f).out = w.out ∧ (w.modChans cs f).offers = w.offers
      ∧ ∀ d, (w.modChans cs f).site.chan d = if d ∈ cs then f (w.site.chan d) else w.site.chan d := by
  induction cs generalizing w with
  | nil => exact ⟨rfl, rfl, rfl, fun d => by simp [Work.modChans]⟩
  | cons c cs ih =>
    obtain ⟨h1, h2, h3, h4⟩ := ih (w.modChan c f) (List.nodup_cons.1 hc).2
    refine ⟨h1, h2, h3, fun d => ?_⟩
    refine (h4 d).trans ?_
    rw [Work.modChan_chan]
    by_cases e : d = c
    · subst e; simp [(List.nodup_cons.1 hc).1]
    · simp [e]

theorem Site.members_nodup (s : Site) (c : Chan) : (s.members c).Nodup := by
  unfold Site.members; split
  · clear * -; revert c; decide
  · simp

/-! ### Reception -/

/-- What the site is after steps 2 and 3 of R57, in every field. -/
theorem State.received_site (s : State) (a : Arrival) :
    (s.received a).site = { s.site with
      channels := (s.work.goodFrame (s.site.logical a.channel)).site.channels
      roster := match s.site.resolve (s.site.logical a.channel) a.sender with
        | some i => s.site.roster.adjust i fun t => t.heard (s.site.logical a.channel) s.site.count a.sample.val
        | none => s.site.roster } := by
  unfold State.received Work.receive
  have e : (s.work.goodFrame (s.site.logical a.channel)).site.resolve (s.site.logical a.channel) a.sender
      = s.site.resolve (s.site.logical a.channel) a.sender := rfl
  simp only [e]
  cases s.site.resolve (s.site.logical a.channel) a.sender <;> rfl

@[simp] theorem State.received_out (s : State) (a : Arrival) : (s.received a).out = [] := by
  simp only [State.received, Work.receive]; split <;> rfl

@[simp] theorem State.received_offers (s : State) (a : Arrival) : (s.received a).offers = [] := by
  simp only [State.received, Work.receive]; split <;> rfl

theorem State.received_chan (s : State) (a : Arrival) (d : Chan) :
    (s.received a).site.chan d = if d = s.site.logical a.channel then
      { s.site.chan d with
        stats := { (s.site.chan d).stats with inboundGood := (s.site.chan d).stats.inboundGood.bump }
        window := (s.site.chan d).window.map fun x => { x with goodSeen := true } }
    else s.site.chan d := by
  rw [State.received_site]
  show (s.work.goodFrame (s.site.logical a.channel)).site.chan d = _
  unfold Work.goodFrame
  rw [Work.modChan_chan]
  by_cases e : d = s.site.logical a.channel
  · rw [if_pos e, if_pos e, e]; rfl
  · rw [if_neg e, if_neg e]; rfl

theorem State.received_look (s : State) (a : Arrival) (i : Nat) :
    Table.look (s.received a).site.roster i = (Table.look s.site.roster i).map fun t =>
      if s.site.resolve (s.site.logical a.channel) a.sender = some i then
        t.heard (s.site.logical a.channel) s.site.count a.sample.val
      else t := by
  rw [State.received_site]
  simp only
  split
  · rename_i j hj
    by_cases e : j = i
    · subst e; rw [hj]; simp
    · rw [Table.look_adjust_other _ _ _ _ (Ne.symm e), hj]; simp [e]
  · rename_i hj; rw [hj]; simp

theorem State.received_affiliatedOn (s : State) (a : Arrival) (i : Nat) (c : Chan) :
    (s.received a).site.affiliatedOn i c = s.site.affiliatedOn i c := by
  unfold Site.affiliatedOn
  rw [State.received_look]
  cases Table.look s.site.roster i
  · rfl
  · simp only [Option.map_some, Option.any_some]; split <;> rfl

theorem State.received_affiliated (s : State) (a : Arrival) (i : Nat) :
    (s.received a).site.affiliated i = s.site.affiliated i := by
  unfold Site.affiliated
  rw [State.received_look]
  cases Table.look s.site.roster i
  · rfl
  · simp only [Option.map_some, Option.any_some]; split <;> rfl

theorem State.received_awaitsGrant (s : State) (a : Arrival) (i : Nat) (c : Chan) :
    ((s.received a).site.chan c).awaitsGrant i = (s.site.chan c).awaitsGrant i := by
  rw [State.received_chan]; split
  · unfold Channel.awaitsGrant; cases (s.site.chan c).window <;> rfl
  · rfl

/-- An arrival at a part with power hands its owner the sender as resolved. -/
theorem arrival_powered {s : State} (h : s.powered = true) (a : Arrival) (act : Chan → Option Nat → Work → Work) :
    arrival a act s = .next (s.after (act (s.site.logical a.channel)
      (s.site.resolve (s.site.logical a.channel) a.sender) (s.received a))) := by
  unfold arrival event; rw [if_pos h]; rfl

/-- A granted-kind frame in place reaches its owner. -/
theorem granted_inPlace {s : State} {a : Arrival} {i : Nat} (h : s.inPlace a i) (act : Chan → Nat → Work → Work) :
    granted a act s = .next (s.after (act (s.site.logical a.channel) i (s.heardFrom a i))) := by
  obtain ⟨hp, hr, ha, hg⟩ := h
  unfold granted
  rw [arrival_powered hp, hr]
  simp only [State.received_awaitsGrant, State.received_affiliated, hg, ha, Bool.and_self, if_true]
  rfl

/-! ### A sender heard -/

@[simp] theorem State.heardFrom_out (s : State) (a : Arrival) (i : Nat) : (s.heardFrom a i).out = [] := by
  simp [State.heardFrom]

@[simp] theorem State.heardFrom_offers (s : State) (a : Arrival) (i : Nat) : (s.heardFrom a i).offers = [] := by
  simp [State.heardFrom]

/-- Hearing a sender changes the channels and the roster alone. -/
theorem State.heardFrom_site (s : State) (a : Arrival) (i : Nat) :
    (s.heardFrom a i).site = { s.site with
      channels := (s.heardFrom a i).site.channels, roster := (s.heardFrom a i).site.roster } := by
  unfold State.heardFrom
  rw [Work.modChan_site, State.received_site]

theorem State.heardFrom_look (s : State) (a : Arrival) (i j : Nat)
    (h : s.site.resolve (s.site.logical a.channel) a.sender = some i) :
    Table.look (s.heardFrom a i).site.roster j = (Table.look s.site.roster j).map fun t =>
      if i = j then t.heard (s.site.logical a.channel) s.site.count a.sample.val else t := by
  have e : (s.heardFrom a i).site.roster = (s.received a).site.roster := rfl
  rw [e, State.received_look, h]; simp

end Sys2Proof.Machine
end

