-- ==== Sys2Proof/Laws/Books.lean ====
section
/-! SUPPORT. The counts that the site keeps beside its tables, said once: what a change of one record does to a tally, and which
changes keep the short addresses apart and the counts of sections and crews equal to the records counted. -/

set_option Elab.async false

namespace Sys2Proof.Table
variable {α β : Type}

/-- The numbers of the records that satisfy a test. -/
def among (t : Table α) (p : Nat → α → Bool) : Finset Nat := (nums (pick t p)).toFinset

theorem mem_among {t : Table α} (h : wf t = true) {p : Nat → α → Bool} {n : Nat} :
    n ∈ among t p ↔ (look t n).any (p n) = true := by
  simp only [among, nums, pick, List.mem_toFinset, List.mem_map, List.mem_filter]
  constructor
  · rintro ⟨e, ⟨he, hp⟩, rfl⟩
    rw [look_of_mem h (n := e.1) (x := e.2) he]; exact hp
  · intro k
    cases e : look t n with
    | none => simp [e] at k
    | some x => exact ⟨(n, x), ⟨mem_of_look e, by simpa [e] using k⟩, rfl⟩

theorem tally_eq_card {t : Table α} (h : wf t = true) (p : Nat → α → Bool) : tally t p = (among t p).card := by
  have hs : (nums (pick t p)).Nodup :=
    (((wf_iff t).1 h).sublist ((List.filter_sublist (l := t)).map Prod.fst)).imp Nat.ne_of_lt
  rw [among, List.toFinset_card_of_nodup hs]
  simp [tally, pick, nums]

/-- Tables that agree but at number `n` have tallies that differ by that record alone. -/
theorem tally_but {t : Table α} {u : Table β} (ht : wf t = true) (hu : wf u = true) {p : Nat → α → Bool}
    {q : Nat → β → Bool} (n : Nat) (h : ∀ m, m ≠ n → (look t m).any (p m) = (look u m).any (q m)) :
    tally t p + ((look u n).any (q n)).toNat = tally u q + ((look t n).any (p n)).toNat := by
  have e : (among t p).erase n = (among u q).erase n := by
    ext m
    simp only [Finset.mem_erase, mem_among ht, mem_among hu]
    constructor <;> rintro ⟨a, b⟩ <;> exact ⟨a, by rw [h m a] at *; exact b⟩
  have ct : (among t p).card = ((among t p).erase n).card + ((look t n).any (p n)).toNat := by
    by_cases k : n ∈ among t p
    · have := Finset.card_erase_add_one k; rw [mem_among ht] at k; rw [k]; simpa using this.symm
    · rw [Finset.erase_eq_of_notMem k]; rw [mem_among ht] at k; simp [k]
  have cu : (among u q).card = ((among u q).erase n).card + ((look u n).any (q n)).toNat := by
    by_cases k : n ∈ among u q
    · have := Finset.card_erase_add_one k; rw [mem_among hu] at k; rw [k]; simpa using this.symm
    · rw [Finset.erase_eq_of_notMem k]; rw [mem_among hu] at k; simp [k]
  rw [tally_eq_card ht, tally_eq_card hu, ct, cu, e]; omega

/-- Tables that agree have the same tallies. -/
theorem tally_congr {t : Table α} {u : Table β} (ht : wf t = true) (hu : wf u = true) {p : Nat → α → Bool}
    {q : Nat → β → Bool} (h : ∀ m, (look t m).any (p m) = (look u m).any (q m)) : tally t p = tally u q := by
  have := tally_but ht hu 0 fun m _ => h m
  rw [h 0] at this; omega

theorem tally_zero {t : Table α} (ht : wf t = true) {p : Nat → α → Bool} (h : ∀ m x, look t m = some x → p m x = false) :
    tally t p = 0 := by
  rw [tally_eq_card ht, Finset.card_eq_zero, Finset.eq_empty_iff_forall_notMem]
  intro n hn
  rw [mem_among ht] at hn
  cases e : look t n with
  | none => simp [e] at hn
  | some x => simp [e, h n x e] at hn

/-- A tally above 0 has a record that it counts. -/
theorem of_tally_zero {t : Table α} (ht : wf t = true) {p : Nat → α → Bool} (h : tally t p = 0) {m : Nat} {x : α}
    (hm : look t m = some x) : p m x = false := by
  rw [tally_eq_card ht, Finset.card_eq_zero] at h
  by_contra k
  have : m ∈ among t p := (mem_among ht).2 (by simpa [hm] using k)
  simp [h] at this

/-- Two tests that no record passes together have tallies that add up. -/
theorem tally_add {t : Table α} (ht : wf t = true) {p q r : Nat → α → Bool}
    (h : ∀ m x, look t m = some x → (r m x = (p m x || q m x)) ∧ (p m x && q m x) = false) :
    tally t r = tally t p + tally t q := by
  have e : among t r = among t p ∪ among t q := by
    ext n
    simp only [Finset.mem_union, mem_among ht]
    cases e : look t n with
    | none => simp
    | some x => simp [(h n x e).1]
  have d : Disjoint (among t p) (among t q) := by
    rw [Finset.disjoint_left]
    intro n hp hq
    rw [mem_among ht] at hp hq
    cases e : look t n with
    | none => simp [e] at hp
    | some x => have := (h n x e).2; simp [e] at hp hq; simp [hp, hq] at this
  rw [tally_eq_card ht, tally_eq_card ht, tally_eq_card ht, e, Finset.card_union_of_disjoint d]

/-- A tally over listed numbers, counted along the list. -/
theorem tally_listed {t : Table α} (ht : wf t = true) {l : List Nat} (hl : l.Nodup) (p : α → Bool) :
    (l.filter fun i => (look t i).any p).length = tally t fun m x => p x && l.contains m := by
  rw [tally_eq_card ht, ← List.toFinset_card_of_nodup (hl.filter _)]
  congr 1
  ext n
  rw [mem_among ht, List.mem_toFinset, List.mem_filter]
  cases e : look t n <;> simp [and_comm]

/-- A view of the record with number `n`. -/
def view (t : Table α) (f : α → β) (n : Nat) : Option β := (look t n).map f

theorem view_adjust (t : Table α) (n : Nat) (f : α → α) (v : α → β) (h : ∀ x, look t n = some x → v (f x) = v x) (m : Nat) :
    view (adjust t n f) v m = view t v m := by
  unfold view
  by_cases e : m = n
  · subst e; rw [look_adjust_same]
    cases k : look t m with
    | none => rfl
    | some x => exact congrArg some (h x k)
  · rw [look_adjust_other _ _ _ _ e]

theorem any_of_view {t u : Table α} {f : α → β} {n : Nat} (h : view u f n = view t f n) (p : α → Bool) (q : β → Bool)
    (e : ∀ x, p x = q (f x)) : (look u n).any p = (look t n).any p := by
  have g : ∀ v : Table α, (look v n).any p = (view v f n).any q := by
    intro v; unfold view; cases look v n with
    | none => rfl
    | some x => simp [e]
  rw [g, g, h]

theorem look_of_view {t u : Table α} {f : α → β} {n : Nat} (h : view u f n = view t f n) {x : α} (hx : look u n = some x) :
    ∃ y, look t n = some y ∧ f x = f y := by
  unfold view at h
  rw [hx] at h
  cases e : look t n with
  | none => rw [e] at h; simp at h
  | some y => rw [e] at h; exact ⟨y, rfl, by simpa using h⟩

end Sys2Proof.Table

namespace Sys2Proof.Machine

/-- What binds a terminal: its kind, how its record came to be, and its crew. -/
def Terminal.tie (t : Terminal) : TerminalKind × Origin × Option Nat := (t.kind, t.origin, t.crew)

/-- What the counts read of a permit record. -/
def Permit.entry (p : Permit) : Nat × PermitWork × Bool × Bool × Bool := (p.crew, p.work, p.live, p.inForce, p.retained)

/-- The terminals a crew record names, as its vehicle and its members. -/
def Crew.named (c : Crew) : Option Nat × List Nat := (c.vehicle, c.members)

/-- What the counts and bindings read stays as it was, from site `a` to site `b`; a short address may have been given up. -/
structure Level (a b : Site) : Prop where
  shorts : ∀ c i x, b.shortOn c i = some x → a.shortOn c i = some x
  ties : ∀ i, Table.view b.roster Terminal.tie i = Table.view a.roster Terminal.tie i
  crews : b.crews = a.crews
  alarms : ∀ u, Table.view b.watches (fun r => r.state.inAlarm) u = Table.view a.watches (fun r => r.state.inAlarm) u
  permits : ∀ k, Table.view b.permits Permit.entry k = Table.view a.permits Permit.entry k
  sections : b.sections = a.sections

/-- Short addresses stay apart, and the counts stay equal to the records counted, from site `a` to site `b`. -/
structure Books (a b : Site) : Prop where
  apart : a.apart → b.apart
  cleared : a.Cleared → b.Cleared
  booked : a.Booked → b.Booked

theorem Books.refl (a : Site) : Books a a := ⟨id, id, id⟩

theorem Books.trans {a b c : Site} (h : Books a b) (k : Books b c) : Books a c :=
  ⟨k.apart ∘ h.apart, k.cleared ∘ h.cleared, k.booked ∘ h.booked⟩

theorem Level.of_eq {a b : Site} (h1 : b.roster = a.roster) (h2 : b.crews = a.crews) (h3 : b.watches = a.watches)
    (h4 : b.permits = a.permits) (h5 : b.sections = a.sections) : Level a b :=
  ⟨fun c i x h => by unfold Site.shortOn at h ⊢; rw [← h1]; exact h, fun i => by rw [h1], h2, fun u => by rw [h3],
    fun k => by rw [h4], h5⟩

theorem Level.refl (a : Site) : Level a a := .of_eq rfl rfl rfl rfl rfl

theorem Level.trans {a b c : Site} (h : Level a b) (k : Level b c) : Level a c :=
  ⟨fun d i x y => h.shorts d i x (k.shorts d i x y), fun i => (k.ties i).trans (h.ties i), k.crews.trans h.crews,
    fun u => (k.alarms u).trans (h.alarms u), fun i => (k.permits i).trans (h.permits i), k.sections.trans h.sections⟩

/-! ### What the bindings say -/

variable {a b : Site}

theorem Site.boundCrew_view (s : Site) (i : Nat) :
    s.boundCrew i = (Table.view s.roster Terminal.tie i).bind fun t => t.2.2 := by
  unfold Site.boundCrew Table.view; cases Table.look s.roster i <;> rfl

theorem Site.kindAt_view (s : Site) (i : Nat) (k : TerminalKind) :
    s.kindAt i k = (Table.view s.roster Terminal.tie i).any fun t => t.1 == k := by
  unfold Site.kindAt Table.view; cases Table.look s.roster i <;> rfl

theorem boundCrew_of_ties (h : ∀ i, Table.view b.roster Terminal.tie i = Table.view a.roster Terminal.tie i) (i : Nat) :
    b.boundCrew i = a.boundCrew i := by rw [Site.boundCrew_view, Site.boundCrew_view, h]

theorem kindAt_of_ties (h : ∀ i, Table.view b.roster Terminal.tie i = Table.view a.roster Terminal.tie i) (i : Nat)
    (k : TerminalKind) : b.kindAt i k = a.kindAt i k := by rw [Site.kindAt_view, Site.kindAt_view, h]

theorem guests_of_ties (h : ∀ i, Table.view b.roster Terminal.tie i = Table.view a.roster Terminal.tie i)
    (g : ∀ i t, Table.look a.roster i = some t → t.origin = .guest → t.crew = none) (i : Nat) (t : Terminal)
    (ht : Table.look b.roster i = some t) (ho : t.origin = .guest) : t.crew = none := by
  obtain ⟨x, e, q⟩ := Table.look_of_view (h i) ht
  simp only [Terminal.tie, Prod.mk.injEq] at q
  rw [q.2.2]; exact g i x e (q.2.1 ▸ ho)

/-! ### One change of the counts -/

/-- The record of unit `u` counts for crew `n`. -/
def Site.alarmAt (s : Site) (u n : Nat) : Bool :=
  (Table.look s.watches u).any (fun r => r.state.inAlarm) && s.boundCrew u == some n

/-- The record of permit `k` counts for crew `n`. -/
def Site.permitAt (s : Site) (k n : Nat) : Bool := (Table.look s.permits k).any fun p => p.live && p.crew == n

/-- The record of permit `k` counts for section `n`. -/
def Site.clearanceAt (s : Site) (k n : Nat) : Bool :=
  (Table.look s.permits k).any fun p => p.inForce && p.work.sections.contains n

theorem retained_of_view {k : Nat} (h : Table.view b.permits Permit.entry k = Table.view a.permits Permit.entry k)
    (g : ∀ k p, Table.look a.permits k = some p → p.retained = true → p.live = false) (p : Permit)
    (hp : Table.look b.permits k = some p) (hr : p.retained = true) : p.live = false := by
  obtain ⟨q, e, t⟩ := Table.look_of_view h hp
  simp only [Permit.entry, Prod.mk.injEq] at t
  rw [t.2.2.1]; exact g k q e (t.2.2.2.2 ▸ hr)

/-- A change of one permit record and of the counts of sections that answers for it. -/
theorem Site.Cleared.change (h : a.Cleared) (sa : a.permits.wf = true) (sb : b.permits.wf = true) (k : Nat)
    (hp : ∀ j, j ≠ k → Table.view b.permits Permit.entry j = Table.view a.permits Permit.entry j)
    (hs : ∀ n, (Table.look b.sections n).isSome = (Table.look a.sections n).isSome)
    (hc : ∀ n, b.clearances n + (a.clearanceAt k n).toNat = a.clearances n + (b.clearanceAt k n).toNat)
    (hk : ∀ p, Table.look b.permits k = some p → (p.live = true →
      p.work.sections.Nodup ∧ ∀ n ∈ p.work.sections, (Table.look a.sections n).isSome = true)
      ∧ (p.retained = true → p.live = false)) : b.Cleared := by
  refine ⟨fun n => ?_, fun j p hj hl => ?_, fun j p hj hr => ?_⟩
  · have e := Table.tally_but sa sb (p := fun _ p => p.inForce && p.work.sections.contains n)
      (q := fun _ p => p.inForce && p.work.sections.contains n) k fun m hm =>
        (Table.any_of_view (hp m hm) _ (fun x => x.2.2.2.1 && x.2.1.sections.contains n) fun _ => rfl).symm
    have := h.counts n
    have := hc n
    simp only [Site.clearanceAt] at this
    omega
  · by_cases e : j = k
    · subst e
      refine ⟨((hk p hj).1 hl).1, fun n hn => ?_⟩
      rw [hs]; exact ((hk p hj).1 hl).2 n hn
    · obtain ⟨q, g, t⟩ := Table.look_of_view (hp j e) hj
      simp only [Permit.entry, Prod.mk.injEq] at t
      have := h.listed j q g (t.2.2.1 ▸ hl)
      refine ⟨t.2.1 ▸ this.1, fun n hn => ?_⟩
      rw [hs]; exact this.2 n (t.2.1 ▸ hn)
  · by_cases e : j = k
    · subst e; exact (hk p hj).2 hr
    · exact retained_of_view (hp j e) h.retained p hj hr

/-- A change of one supervision record, of one permit record, and of the counts of crews that answers for them. -/
theorem Site.Booked.change (h : a.Booked) (sa : a.sorted = true) (sb : b.sorted = true)
    (ties : ∀ i, Table.view b.roster Terminal.tie i = Table.view a.roster Terminal.tie i)
    (crews : ∀ n, Table.view b.crews Crew.named n = Table.view a.crews Crew.named n) (u k : Nat)
    (hw : ∀ v, v ≠ u → Table.view b.watches (fun r => r.state.inAlarm) v
      = Table.view a.watches (fun r => r.state.inAlarm) v)
    (hu : ∀ r, Table.look b.watches u = some r → a.kindAt u .personal = true)
    (hp : ∀ j, j ≠ k → Table.view b.permits Permit.entry j = Table.view a.permits Permit.entry j)
    (hk : ∀ p, Table.look b.permits k = some p → p.retained = true → p.live = false)
    (ha : ∀ n, b.alarmsOf n + (a.alarmAt u n).toNat = a.alarmsOf n + (b.alarmAt u n).toNat)
    (hn : ∀ n, b.permitsOf n + (a.permitAt k n).toNat = a.permitsOf n + (b.permitAt k n).toNat) : b.Booked := by
  simp only [Site.sorted, Bool.and_eq_true] at sa sb
  have bd := boundCrew_of_ties ties
  have kd := kindAt_of_ties ties
  have names : ∀ {c d : Crew}, c.named = d.named → c.vehicle = d.vehicle ∧ c.members = d.members := by
    intro c d e; simpa [Crew.named] using e
  refine ⟨fun n => ?_, fun n => ?_, fun i n => ?_, fun n c hc => ?_, fun v r hv => ?_, guests_of_ties ties h.guests,
    fun j p hj hr => ?_⟩
  · have e := Table.tally_but sa.1.1.1.1.2 sb.1.1.1.1.2 (p := fun u r => r.state.inAlarm && a.boundCrew u == some n)
      (q := fun u r => r.state.inAlarm && b.boundCrew u == some n) u fun m hm => by
        rw [bd]
        exact (Table.any_of_view (hw m hm) _ (fun x => x && a.boundCrew m == some n) fun _ => rfl).symm
    have f : ∀ s : Site, (Table.look s.watches u).any (fun r => r.state.inAlarm && s.boundCrew u == some n)
        = s.alarmAt u n := by
      intro s; unfold Site.alarmAt; cases Table.look s.watches u <;> rfl
    rw [f, f] at e
    have := h.alarms n
    have := ha n
    omega
  · have e := Table.tally_but sa.2 sb.2 (p := fun _ p => p.live && p.crew == n) (q := fun _ p => p.live && p.crew == n) k
      fun m hm => (Table.any_of_view (hp m hm) _ (fun x => x.2.2.1 && x.1 == n) fun _ => rfl).symm
    have := h.permits n
    have := hn n
    simp only [Site.permitAt] at this
    omega
  · rw [bd, h.bound]
    constructor
    · rintro ⟨d, hd, m⟩
      obtain ⟨c, hc, e⟩ := Table.look_of_view (crews n).symm hd
      exact ⟨c, hc, by unfold Crew.terminals at m ⊢; rw [← (names e).1, ← (names e).2]; exact m⟩
    · rintro ⟨c, hc, m⟩
      obtain ⟨d, hd, e⟩ := Table.look_of_view (crews n) hc
      exact ⟨d, hd, by unfold Crew.terminals at m ⊢; rw [← (names e).1, ← (names e).2]; exact m⟩
  · obtain ⟨d, hd, e⟩ := Table.look_of_view (crews n) hc
    have := h.kinds n d hd
    rw [(names e).1, (names e).2]
    exact ⟨this.1, fun i hi => (kd i _).trans (this.2.1 i hi), fun i hi => (kd i _).trans (this.2.2 i hi)⟩
  · rw [kd]
    by_cases e : v = u
    · subst e; exact hu r hv
    · obtain ⟨x, g, -⟩ := Table.look_of_view (hw v e) hv
      exact h.units v x g
  · by_cases e : j = k
    · subst e; exact hk p hj hr
    · exact retained_of_view (hp j e) h.retained p hj hr

/-- The permits and the counts of sections have not changed where the counts read them. -/
theorem Site.Cleared.level (k : a.Cleared)
    (permits : ∀ k, Table.view b.permits Permit.entry k = Table.view a.permits Permit.entry k)
    (sections : b.sections = a.sections) (sa : a.permits.wf = true) (sb : b.permits.wf = true) : b.Cleared := by
  refine k.change sa sb 0 (fun j _ => permits j) (fun n => by rw [sections]) (fun n => ?_) fun p hp => ?_
  · have e : b.clearanceAt 0 n = a.clearanceAt 0 n :=
      Table.any_of_view (permits 0) _ (fun x => x.2.2.2.1 && x.2.1.sections.contains n) fun _ => rfl
    have : b.clearances n = a.clearances n := by unfold Site.clearances; rw [sections]
    rw [e, this]
  · obtain ⟨q, g, t⟩ := Table.look_of_view (permits 0) hp
    simp only [Permit.entry, Prod.mk.injEq] at t
    rw [t.2.1, t.2.2.1, t.2.2.2.2]
    exact ⟨k.listed 0 q g, k.retained 0 q g⟩

/-- Nothing has changed that the counts of crews read. -/
theorem Site.Booked.level (k : a.Booked)
    (ties : ∀ i, Table.view b.roster Terminal.tie i = Table.view a.roster Terminal.tie i) (crews : b.crews = a.crews)
    (alarms : ∀ u, Table.view b.watches (fun r => r.state.inAlarm) u = Table.view a.watches (fun r => r.state.inAlarm) u)
    (permits : ∀ k, Table.view b.permits Permit.entry k = Table.view a.permits Permit.entry k) (sa : a.sorted = true)
    (sb : b.sorted = true) : b.Booked := by
  refine k.change sa sb ties (fun n => by rw [crews]) 0 0 (fun v _ => alarms v) (fun r hr => ?_)
    (fun j _ => permits j) (fun p hp => retained_of_view (permits 0) k.retained p hp) (fun n => ?_) fun n => ?_
  · obtain ⟨x, g, -⟩ := Table.look_of_view (alarms 0) hr
    exact k.units 0 x g
  · have e : b.alarmAt 0 n = a.alarmAt 0 n := by
      unfold Site.alarmAt
      rw [boundCrew_of_ties ties, Table.any_of_view (alarms 0) (fun r => r.state.inAlarm) id fun _ => rfl]
    have : b.alarmsOf n = a.alarmsOf n := by unfold Site.alarmsOf; rw [crews]
    rw [e, this]
  · have e : b.permitAt 0 n = a.permitAt 0 n :=
      Table.any_of_view (permits 0) _ (fun x => x.2.2.1 && x.1 == n) fun _ => rfl
    have : b.permitsOf n = a.permitsOf n := by unfold Site.permitsOf; rw [crews]
    rw [e, this]

/-- Nothing has changed that the counts read. -/
theorem Level.books (h : Level a b) (sa : a.sorted = true) (sb : b.sorted = true) : Books a b := by
  have wa := sa
  have wb := sb
  simp only [Site.sorted, Bool.and_eq_true] at wa wb
  exact ⟨fun k c i j x hi hj => k c i j x (h.shorts c i x hi) (h.shorts c j x hj),
    fun k => k.level h.permits h.sections wa.2 wb.2, fun k => k.level h.ties h.crews h.alarms h.permits sa sb⟩

/-! ### Changes of one table -/

/-- What the books read of a roster record: where it stands, and what binds it. -/
def Terminal.bond (t : Terminal) : TerminalState × Option Chan × Option Nat × TerminalKind × Origin × Option Nat :=
  (t.state, t.channel, t.short, t.tie)

theorem Site.shortOn_view (s : Site) (c : Chan) (i : Nat) :
    s.shortOn c i = (Table.view s.roster Terminal.bond i).bind fun t =>
      if t.1 == .affiliated && t.2.1 == some c then t.2.2.1 else none := by
  unfold Site.shortOn Table.view; cases Table.look s.roster i <;> rfl

theorem Level.of_terminal {i : Nat} {f : Terminal → Terminal} (h : ∀ t, (f t).bond = t.bond) :
    Level a { a with roster := a.roster.adjust i f } := by
  have e := Table.view_adjust a.roster i f Terminal.bond fun x _ => h x
  refine ⟨fun c j x k => ?_, Table.view_adjust a.roster i f Terminal.tie fun t _ => ?_, rfl, fun _ => rfl, fun _ => rfl, rfl⟩
  · rw [Site.shortOn_view] at k ⊢; rw [← e j]; exact k
  · have := h t
    simp only [Terminal.bond, Prod.mk.injEq] at this
    exact this.2.2.2

/-- A terminal that goes gives up its short address. -/
theorem Level.of_gone (i : Nat) : Level a { a with roster := a.roster.adjust i Terminal.gone } := by
  refine ⟨fun c j x k => ?_, Table.view_adjust a.roster i _ Terminal.tie fun _ _ => rfl, rfl, fun _ => rfl, fun _ => rfl, rfl⟩
  unfold Site.shortOn at k ⊢
  by_cases e : j = i
  · subst e
    rw [Table.look_adjust_same] at k
    cases g : Table.look a.roster j with
    | none => rw [g] at k; simp at k
    | some t => rw [g] at k; simp [Terminal.gone, Terminal.on] at k
  · rwa [Table.look_adjust_other _ _ _ _ e] at k

theorem Level.of_watch {u : Nat} {f : Watch → Watch}
    (h : ∀ r, Table.look a.watches u = some r → (f r).state.inAlarm = r.state.inAlarm) :
    Level a { a with watches := a.watches.adjust u f } :=
  ⟨fun _ _ _ k => k, fun _ => rfl, rfl, Table.view_adjust a.watches u f (fun r => r.state.inAlarm) h, fun _ => rfl, rfl⟩

theorem Level.of_permit {k : Nat} {f : Permit → Permit}
    (h : ∀ p, Table.look a.permits k = some p → (f p).entry = p.entry) :
    Level a { a with permits := a.permits.adjust k f } :=
  ⟨fun _ _ _ k => k, fun _ => rfl, rfl, fun _ => rfl, Table.view_adjust a.permits k f Permit.entry h, rfl⟩

/-- A change of the roster that binds as before. -/
theorem Site.Booked.of_roster (h : a.Booked) (bd : ∀ i, b.boundCrew i = a.boundCrew i)
    (kd : ∀ i k, (Table.look a.roster i).isSome = true → a.kindAt i k = true → b.kindAt i k = true ∨
      a.boundCrew i = none ∧ Table.look a.watches i = none)
    (hg : ∀ i t, Table.look b.roster i = some t → t.origin = .guest → t.crew = none)
    (hc : b.crews = a.crews) (hw : b.watches = a.watches) (hp : b.permits = a.permits) : b.Booked := by
  have some_of : ∀ i k, a.kindAt i k = true → (Table.look a.roster i).isSome = true := by
    intro i k e; unfold Site.kindAt at e; cases g : Table.look a.roster i with
    | none => rw [g] at e; simp at e
    | some _ => rfl
  have named : ∀ n c i, Table.look a.crews n = some c → i ∈ c.terminals → a.boundCrew i ≠ none := by
    intro n c i hn m; rw [(h.bound i n).2 ⟨c, hn, m⟩]; simp
  refine ⟨fun n => ?_, fun n => ?_, fun j n => ?_, fun n c hn => ?_, fun u r hr => ?_, hg, ?_⟩
  · rw [hw]; simp only [bd]; rw [← h.alarms n]; unfold Site.alarmsOf; rw [hc]
  · rw [hp, ← h.permits n]; unfold Site.permitsOf; rw [hc]
  · rw [bd, hc]; exact h.bound j n
  · rw [hc] at hn
    have k := h.kinds n c hn
    refine ⟨k.1, fun j hj => ?_, fun j hj => ?_⟩
    · rcases kd j _ (some_of _ _ (k.2.1 j hj)) (k.2.1 j hj) with e | ⟨e, -⟩
      · exact e
      · exact absurd e (named n c j hn (by simp [Crew.terminals, hj]))
    · rcases kd j _ (some_of _ _ (k.2.2 j hj)) (k.2.2 j hj) with e | ⟨e, -⟩
      · exact e
      · exact absurd e (named n c j hn (by simp [Crew.terminals, hj]))
  · rw [hw] at hr
    have k := h.units u r hr
    rcases kd u _ (some_of _ _ k) k with e | ⟨-, e⟩
    · exact e
    · rw [e] at hr; simp at hr
  · rw [hp]; exact h.retained

/-- A roster record put or freed that is bound to no crew, before and after. -/
theorem Site.Booked.of_unbound (h : a.Booked) (i : Nat)
    (ht : ∀ j, j ≠ i → Table.look b.roster j = Table.look a.roster j) (ha : a.boundCrew i = none)
    (hb : b.boundCrew i = none) (hi : Table.look a.watches i = none)
    (hc : b.crews = a.crews) (hw : b.watches = a.watches) (hp : b.permits = a.permits) : b.Booked := by
  refine h.of_roster (fun j => ?_) (fun j k _ g => ?_) (fun j t hj ho => ?_) hc hw hp
  · by_cases e : j = i
    · rw [e, ha, hb]
    · unfold Site.boundCrew; rw [ht j e]
  · by_cases e : j = i
    · exact .inr ⟨e ▸ ha, e ▸ hi⟩
    · refine .inl ?_; unfold Site.kindAt at g ⊢; rw [ht j e]; exact g
  · by_cases e : j = i
    · subst e
      have : t.crew = b.boundCrew j := by unfold Site.boundCrew; rw [hj]; rfl
      rw [this, hb]
    · exact h.guests j t (by rw [← ht j e]; exact hj) ho

theorem Site.Cleared.of_eq (h : a.Cleared) (hp : b.permits = a.permits) (hs : b.sections = a.sections) : b.Cleared := by
  obtain ⟨h1, h2, h3⟩ := h
  unfold Site.clearances at h1
  refine ⟨?_, ?_, ?_⟩
  · unfold Site.clearances; rw [hp, hs]; exact h1
  · rw [hp, hs]; exact h2
  · rw [hp]; exact h3

/-- A new roster record, bound to no crew and without a short address. -/
theorem Books.putTerminal {i : Nat} {t : Terminal} (hi : Table.look a.roster i = none) (hc : t.crew = none)
    (ht : t.short = none) : Books a { a with roster := a.roster.put i t } := by
  refine ⟨fun h c j k x hj hk => ?_, fun h => h.of_eq rfl rfl, fun h => h.of_unbound i (fun j e => ?_) ?_ ?_ ?_ rfl rfl rfl⟩
  · have g : ∀ j x, ({ a with roster := a.roster.put i t } : Site).shortOn c j = some x → a.shortOn c j = some x := by
      intro j x
      unfold Site.shortOn
      by_cases e : j = i
      · subst e; simp [ht]
      · rw [Table.look_put_other _ _ _ _ e]; exact id
    exact h c j k x (g j x hj) (g k x hk)
  · exact Table.look_put_other _ _ _ _ e
  · unfold Site.boundCrew; rw [hi]; rfl
  · unfold Site.boundCrew; rw [Table.look_put_same]; exact hc
  · cases g : Table.look a.watches i with
    | none => rfl
    | some r => have := h.units i r g; simp [Site.kindAt, hi] at this

/-- A roster record bound to no crew and not supervised is freed. -/
theorem Books.delTerminal {i : Nat} (hc : a.boundCrew i = none) (hw : Table.look a.watches i = none) :
    Books a { a with roster := a.roster.del i } := by
  refine ⟨fun h c j k x hj hk => ?_, fun h => h.of_eq rfl rfl, fun h => h.of_unbound i (fun j e => ?_) hc ?_ hw rfl rfl rfl⟩
  · have g : ∀ j x, ({ a with roster := a.roster.del i } : Site).shortOn c j = some x → a.shortOn c j = some x := by
      intro j x
      unfold Site.shortOn
      by_cases e : j = i
      · subst e; simp
      · rw [Table.look_del_other _ _ _ e]; exact id
    exact h c j k x (g j x hj) (g k x hk)
  · exact Table.look_del_other _ _ _ e
  · unfold Site.boundCrew; rw [Table.look_del_same]; rfl

/-- A roster record becomes LOADED. -/
theorem Books.loaded (i : Nat) : Books a { a with roster := a.roster.adjust i fun t => { t with origin := .loaded } } := by
  have e : ∀ j, Table.look (a.roster.adjust i fun t => { t with origin := .loaded }) j
      = (Table.look a.roster j).map fun t => if j = i then { t with origin := .loaded } else t := by
    intro j
    by_cases k : j = i
    · subst k; rw [Table.look_adjust_same]; simp
    · rw [Table.look_adjust_other _ _ _ _ k]; simp [k]
  refine ⟨fun h c j k x => ?_, fun h => h.of_eq rfl rfl, fun h => h.of_roster (fun j => ?_) (fun j k _ g => .inl ?_)
    (fun j t hj ho => ?_) rfl rfl rfl⟩
  · have g : ∀ j, ({ a with roster := a.roster.adjust i fun t => { t with origin := .loaded } } : Site).shortOn c j
        = a.shortOn c j := by
      intro j; unfold Site.shortOn; rw [e]
      cases Table.look a.roster j with
      | none => rfl
      | some t => simp only [Option.map_some, Option.bind_some]; split <;> rfl
    rw [g, g]; exact h c j k x
  · unfold Site.boundCrew; rw [e]
    cases Table.look a.roster j with
    | none => rfl
    | some t => simp only [Option.map_some, Option.bind_some]; split <;> rfl
  · unfold Site.kindAt at g ⊢; rw [e]
    cases k : Table.look a.roster j with
    | none => rw [k] at g; simp at g
    | some t => rw [k] at g; simp only [Option.map_some, Option.any_some] at g ⊢; split <;> exact g
  · rw [e] at hj
    cases k : Table.look a.roster j with
    | none => rw [k] at hj; simp at hj
    | some u =>
      rw [k] at hj
      simp only [Option.map_some, Option.some.injEq] at hj
      by_cases g : j = i
      · rw [if_pos g] at hj; subst hj; simp at ho
      · rw [if_neg g] at hj; subst hj; exact h.guests j u k ho

/-- A new supervision record of a PERSONAL terminal that is not in alarm. -/
theorem Books.putWatch {u : Nat} {r : Watch} (hr : r.state.inAlarm = false) (hu : Table.look a.watches u = none)
    (hk : a.kindAt u .personal = true) (sa : a.sorted = true)
    (sb : ({ a with watches := a.watches.put u r } : Site).sorted = true) : Books a { a with watches := a.watches.put u r } := by
  refine ⟨id, fun h => h.of_eq rfl rfl, fun h => h.change sa sb (fun _ => rfl) (fun _ => rfl) u 0 (fun v e => ?_)
    (fun _ _ => hk) (fun _ _ => rfl) (h.retained 0) (fun n => ?_) fun n => rfl⟩
  · unfold Table.view; rw [Table.look_put_other _ _ _ _ e]
  · have e1 : a.alarmAt u n = false := by unfold Site.alarmAt; rw [hu]; rfl
    have e2 : ({ a with watches := a.watches.put u r } : Site).alarmAt u n = false := by
      unfold Site.alarmAt; rw [Table.look_put_same]; simp [hr]
    rw [e1, e2]; rfl

/-- A supervision record is freed that is not in alarm, or whose unit is bound to no crew. -/
theorem Books.delWatch {u : Nat}
    (hu : ∀ r, Table.look a.watches u = some r → r.state.inAlarm = true → a.boundCrew u = none) (sa : a.sorted = true)
    (sb : ({ a with watches := a.watches.del u } : Site).sorted = true) : Books a { a with watches := a.watches.del u } := by
  refine ⟨id, fun h => h.of_eq rfl rfl, fun h => h.change sa sb (fun _ => rfl) (fun _ => rfl) u 0 (fun v e => ?_)
    (fun r hr => ?_) (fun _ _ => rfl) (h.retained 0) (fun n => ?_) fun n => rfl⟩
  · unfold Table.view; rw [Table.look_del_other _ _ _ e]
  · simp at hr
  · have e1 : a.alarmAt u n = false := by
      unfold Site.alarmAt
      cases g : Table.look a.watches u with
      | none => rfl
      | some r =>
        cases k : r.state.inAlarm
        · simp [k]
        · rw [hu r g k]; simp
    have e2 : ({ a with watches := a.watches.del u } : Site).alarmAt u n = false := by
      unfold Site.alarmAt; rw [Table.look_del_same]; rfl
    rw [e1, e2]; rfl

/-! ### An alarm and its crew's count -/

/-- The crews after the unresolved-alarm count of the crew that unit `u` is bound to has changed. -/
def Site.recounted (s : Site) (u : Nat) (g : Nat → Nat) : Table Crew :=
  match s.boundCrew u with
  | some n => s.crews.adjust n fun c => { c with alarms := g c.alarms }
  | none => s.crews

theorem Site.recounted_look (s : Site) (u : Nat) (g : Nat → Nat) (n : Nat) :
    Table.look (s.recounted u g) n = (Table.look s.crews n).map fun c =>
      if s.boundCrew u = some n then { c with alarms := g c.alarms } else c := by
  unfold Site.recounted
  cases e : s.boundCrew u with
  | none => simp
  | some m =>
    by_cases k : n = m
    · subst k; rw [Table.look_adjust_same]; simp
    · rw [Table.look_adjust_other _ _ _ _ k]; simp [Ne.symm k]

/-- A crew whose count answers for an alarm counts it. -/
theorem Site.Booked.alarm_pos (h : a.Booked) (sa : a.sorted = true) {u n : Nat} (k : a.alarmAt u n = true) :
    0 < a.alarmsOf n := by
  simp only [Site.sorted, Bool.and_eq_true] at sa
  rw [h.alarms n]
  by_contra c
  simp only [Site.alarmAt, Bool.and_eq_true] at k
  cases e : Table.look a.watches u with
  | none => simp [e] at k
  | some r =>
    have := Table.of_tally_zero sa.1.1.1.1.2 (Nat.eq_zero_of_not_pos c) e
    simp only [e, Option.any_some] at k
    simp [k.1, k.2] at this

/-- The supervision record of unit `u` comes to count as an alarm, or ceases to, together with the count of its crew. -/
theorem Books.alarm {u : Nat} {g : Nat → Nat} (hr : b.roster = a.roster) (hp : b.permits = a.permits)
    (hs : b.sections = a.sections) (hc : b.crews = a.recounted u g)
    (ho : ∀ v, v ≠ u → Table.look b.watches v = Table.look a.watches v)
    (hk : ∀ r, Table.look b.watches u = some r → a.Booked → a.kindAt u .personal = true)
    (hg : ∀ m, ((Table.look a.watches u).any (fun r => r.state.inAlarm) = true → 0 < m) →
      g m + ((Table.look a.watches u).any fun r => r.state.inAlarm).toNat
        = m + ((Table.look b.watches u).any fun r => r.state.inAlarm).toNat)
    (sa : a.sorted = true) (sb : b.sorted = true) : Books a b := by
  have bd : ∀ i, b.boundCrew i = a.boundCrew i := fun i => by unfold Site.boundCrew; rw [hr]
  refine ⟨fun h => ?_, fun h => h.of_eq hp hs, fun h => h.change sa sb (fun i => by rw [hr]) (fun n => ?_) u 0
    (fun v e => by unfold Table.view; rw [ho v e]) (fun r k => hk r k h) (fun j _ => by rw [hp]) (by rw [hp]; exact h.retained 0)
    (fun n => ?_) fun n => ?_⟩
  · intro c i j x; unfold Site.shortOn; rw [hr]; exact h c i j x
  · unfold Table.view
    rw [hc, Site.recounted_look, Option.map_map]
    congr 1; funext c; simp only [Function.comp]; split <;> rfl
  · have e : b.alarmsOf n = ((Table.look a.crews n).map fun c =>
        if a.boundCrew u = some n then g c.alarms else c.alarms).getD 0 := by
      unfold Site.alarmsOf
      rw [hc, Site.recounted_look, Option.map_map]
      congr 2; funext c; simp only [Function.comp]; split <;> rfl
    by_cases k : a.boundCrew u = some n
    · obtain ⟨c, hn, -⟩ := (h.bound u n).1 k
      have := hg (a.alarmsOf n) fun m => h.alarm_pos sa (u := u) (by simp [Site.alarmAt, k, m])
      have ec : a.alarmsOf n = c.alarms := by unfold Site.alarmsOf; rw [hn]; rfl
      rw [e, hn]
      simp only [Option.map_some, k, if_true, Option.getD_some, Site.alarmAt, bd, beq_self_eq_true, Bool.and_true]
      rw [ec] at this ⊢; exact this
    · have f : (a.boundCrew u == some n) = false := by simpa using k
      rw [e]; unfold Site.alarmAt Site.alarmsOf; rw [bd, f]; simp [k]
  · have e1 : b.permitsOf n = a.permitsOf n := by
      unfold Site.permitsOf
      rw [hc, Site.recounted_look, Option.map_map]
      congr 2; funext c; simp only [Function.comp]; split <;> rfl
    have e2 : b.permitAt 0 n = a.permitAt 0 n := by unfold Site.permitAt; rw [hp]
    rw [e1, e2]

/-! ### A permit, its crew's count and the counts of its sections -/

theorem Permit.live_of_inForce {p : Permit} (h : p.inForce = true) : p.live = true := by
  simp only [Permit.inForce, Bool.or_eq_true, beq_iff_eq] at h
  rcases h with h | h <;> simp [Permit.live, h, PermitState.live]

/-- A retained record is freed (R145, R150). -/
theorem Books.freePermit {k : Nat} (hk : ∀ p, Table.look a.permits k = some p → p.retained = true) (sa : a.sorted = true)
    (sb : ({ a with permits := a.permits.del k } : Site).sorted = true) : Books a { a with permits := a.permits.del k } := by
  have wa := sa
  have wb := sb
  simp only [Site.sorted, Bool.and_eq_true] at wa wb
  have ho : ∀ j, j ≠ k → Table.view (a.permits.del k) Permit.entry j = Table.view a.permits Permit.entry j := by
    intro j e; unfold Table.view; rw [Table.look_del_other _ _ _ e]
  refine ⟨id, fun h => h.change wa.2 wb.2 k ho (fun _ => rfl) (fun n => ?_) (fun p hp => ?_),
    fun h => h.change sa sb (fun _ => rfl) (fun _ => rfl) 0 k (fun _ _ => rfl) (fun r hr => h.units 0 r hr) ho (fun p hp => ?_)
      (fun _ => rfl) fun n => ?_⟩
  · have e1 : a.clearanceAt k n = false := by
      unfold Site.clearanceAt
      cases e : Table.look a.permits k with
      | none => rfl
      | some p =>
        have := h.retained k p e (hk p e)
        have : p.inForce = false := by
          cases g : p.inForce
          · rfl
          · rw [Permit.live_of_inForce g] at this; simp at this
        simp [this]
    have e2 : ({ a with permits := a.permits.del k } : Site).clearanceAt k n = false := by
      unfold Site.clearanceAt; rw [Table.look_del_same]; rfl
    rw [e1, e2]; rfl
  · simp at hp
  · simp at hp
  · have e1 : a.permitAt k n = false := by
      unfold Site.permitAt
      cases e : Table.look a.permits k with
      | none => rfl
      | some p => simp [h.retained k p e (hk p e)]
    have e2 : ({ a with permits := a.permits.del k } : Site).permitAt k n = false := by
      unfold Site.permitAt; rw [Table.look_del_same]; rfl
    rw [e1, e2]; rfl

/-- A crew whose count answers for a live permit counts it. -/
theorem Site.Booked.permit_pos (h : a.Booked) (sa : a.sorted = true) {k : Nat} {p : Permit}
    (hk : Table.look a.permits k = some p) (hl : p.live = true) : 0 < a.permitsOf p.crew := by
  simp only [Site.sorted, Bool.and_eq_true] at sa
  rw [h.permits p.crew]
  by_contra c
  have := Table.of_tally_zero sa.2 (Nat.eq_zero_of_not_pos c) hk
  simp [hl] at this

/-- A section that a permit in force lists counts it. -/
theorem Site.Cleared.pos (h : a.Cleared) (sa : a.sorted = true) {k : Nat} {p : Permit} (hk : Table.look a.permits k = some p)
    (hl : p.inForce = true) {n : Nat} (hn : n ∈ p.work.sections) : 0 < a.clearances n := by
  simp only [Site.sorted, Bool.and_eq_true] at sa
  rw [h.counts n]
  by_contra c
  have := Table.of_tally_zero sa.2 (Nat.eq_zero_of_not_pos c) hk
  simp [hl, hn] at this

/-- The counts of sections after a change at the sections that a permit in force lists. -/
def Permit.recount (p : Permit) (g : Nat → Nat) (n m : Nat) : Nat :=
  if p.inForce = true ∧ n ∈ p.work.sections then g m else m

/-- A permit leaves the live states: its crew's count falls, and with a clearance in force the counts of its sections. -/
theorem Books.finish {k : Nat} {p : Permit} (hk : Table.look a.permits k = some p) (hl : p.live = true)
    (hr : b.roster = a.roster) (hw : b.watches = a.watches)
    (hc : b.crews = a.crews.adjust p.crew fun c => { c with permits := c.permits - 1 })
    (ho : ∀ j, j ≠ k → Table.look b.permits j = Table.look a.permits j)
    (hb : ∀ q, Table.look b.permits k = some q → q.live = false)
    (hs : a.Cleared → ∀ n, Table.look b.sections n = (Table.look a.sections n).map (p.recount (· - 1) n)) (sa : a.sorted = true)
    (sb : b.sorted = true) : Books a b := by
  have wa := sa
  have wb := sb
  simp only [Site.sorted, Bool.and_eq_true] at wa wb
  have hv : ∀ j, j ≠ k → Table.view b.permits Permit.entry j = Table.view a.permits Permit.entry j := by
    intro j e; unfold Table.view; rw [ho j e]
  have look : ∀ n, Table.look b.crews n = (Table.look a.crews n).map fun c =>
      if n = p.crew then { c with permits := c.permits - 1 } else c := by
    intro n
    rw [hc]
    by_cases e : n = p.crew
    · subst e; rw [Table.look_adjust_same]; simp
    · rw [Table.look_adjust_other _ _ _ _ e]; simp [e]
  refine ⟨fun h c i j x => ?_, fun h => h.change wa.2 wb.2 k hv (fun n => by rw [hs h]; simp) (fun n => ?_) (fun q hq => ?_),
    fun h => h.change sa sb (fun i => by rw [hr]) (fun n => ?_) 0 k (fun v _ => by rw [hw]) (fun r e => h.units 0 r (hw ▸ e)) hv
      (fun q hq _ => hb q hq) (fun n => ?_) fun n => ?_⟩
  · unfold Site.shortOn; rw [hr]; exact h c i j x
  · have e2 : b.clearanceAt k n = false := by
      unfold Site.clearanceAt
      cases e : Table.look b.permits k with
      | none => rfl
      | some q =>
        have := hb q e
        have : q.inForce = false := by
          cases g : q.inForce
          · rfl
          · rw [Permit.live_of_inForce g] at this; simp at this
        simp [this]
    have e1 : a.clearanceAt k n = decide (p.inForce = true ∧ n ∈ p.work.sections) := by
      unfold Site.clearanceAt; rw [hk]; simp [Bool.decide_and]
    rw [e1, e2]
    unfold Site.clearances
    rw [hs h]
    by_cases g : p.inForce = true ∧ n ∈ p.work.sections
    · have pos := h.pos sa hk g.1 g.2
      unfold Site.clearances at pos
      cases e : Table.look a.sections n with
      | none => rw [e] at pos; simp at pos
      | some m => rw [e] at pos; simp [Permit.recount, g] at pos ⊢; omega
    · cases e : Table.look a.sections n <;> simp [Permit.recount, g]
  · exact ⟨fun l => by rw [hb q hq] at l; simp at l, fun _ => hb q hq⟩
  · unfold Table.view; rw [look, Option.map_map]; congr 1; funext c; simp only [Function.comp]; split <;> rfl
  · have e1 : b.alarmsOf n = a.alarmsOf n := by
      unfold Site.alarmsOf; rw [look, Option.map_map]; congr 2; funext c; simp only [Function.comp]; split <;> rfl
    have e2 : b.alarmAt 0 n = a.alarmAt 0 n := by unfold Site.alarmAt Site.boundCrew; rw [hw, hr]
    rw [e1, e2]
  · have e2 : b.permitAt k n = false := by
      unfold Site.permitAt
      cases e : Table.look b.permits k with
      | none => rfl
      | some q => simp [hb q e]
    have e1 : a.permitAt k n = decide (n = p.crew) := by
      unfold Site.permitAt; rw [hk]; simp [hl, eq_comm, beq_eq_decide]
    rw [e1, e2]
    by_cases g : n = p.crew
    · subst g
      have pos := h.permit_pos sa hk hl
      unfold Site.permitsOf at pos ⊢
      rw [look]
      cases e : Table.look a.crews p.crew with
      | none => rw [e] at pos; simp at pos
      | some c => rw [e] at pos; simp at pos ⊢; omega
    · unfold Site.permitsOf
      rw [look]; simp [g]

/-- A permit is created, with its crew's count and, when it is in force, the counts of its sections. -/
theorem Books.create {k : Nat} {p : Permit} (hk : Table.look a.permits k = none) (hl : p.live = true)
    (hq : p.retained = false) (hx : (Table.look a.crews p.crew).isSome = true)
    (hd : p.work.sections.Nodup ∧ ∀ n ∈ p.work.sections, (Table.look a.sections n).isSome = true)
    (hr : b.roster = a.roster) (hw : b.watches = a.watches)
    (hc : b.crews = a.crews.adjust p.crew fun c => { c with permits := c.permits + 1 })
    (ho : ∀ j, j ≠ k → Table.look b.permits j = Table.look a.permits j) (hb : Table.look b.permits k = some p)
    (hs : ∀ n, Table.look b.sections n = (Table.look a.sections n).map (p.recount (· + 1) n)) (sa : a.sorted = true)
    (sb : b.sorted = true) : Books a b := by
  have wa := sa
  have wb := sb
  simp only [Site.sorted, Bool.and_eq_true] at wa wb
  have hv : ∀ j, j ≠ k → Table.view b.permits Permit.entry j = Table.view a.permits Permit.entry j := by
    intro j e; unfold Table.view; rw [ho j e]
  have look : ∀ n, Table.look b.crews n = (Table.look a.crews n).map fun c =>
      if n = p.crew then { c with permits := c.permits + 1 } else c := by
    intro n
    rw [hc]
    by_cases e : n = p.crew
    · subst e; rw [Table.look_adjust_same]; simp
    · rw [Table.look_adjust_other _ _ _ _ e]; simp [e]
  refine ⟨fun h c i j x => ?_, fun h => h.change wa.2 wb.2 k hv (fun n => by rw [hs]; simp) (fun n => ?_) (fun q e => ?_),
    fun h => h.change sa sb (fun i => by rw [hr]) (fun n => ?_) 0 k (fun v _ => by rw [hw]) (fun r e => h.units 0 r (hw ▸ e)) hv
      (fun q e k => ?_) (fun n => ?_) fun n => ?_⟩
  · unfold Site.shortOn; rw [hr]; exact h c i j x
  · have e1 : a.clearanceAt k n = false := by unfold Site.clearanceAt; rw [hk]; rfl
    have e2 : b.clearanceAt k n = decide (p.inForce = true ∧ n ∈ p.work.sections) := by
      unfold Site.clearanceAt; rw [hb]; simp [Bool.decide_and]
    rw [e1, e2]
    unfold Site.clearances
    rw [hs]
    by_cases g : p.inForce = true ∧ n ∈ p.work.sections
    · have := hd.2 n g.2
      cases e : Table.look a.sections n with
      | none => rw [e] at this; simp at this
      | some m => simp [Permit.recount, g]
    · cases e : Table.look a.sections n <;> simp [Permit.recount, g]
  · obtain rfl : p = q := by rw [hb] at e; exact Option.some.inj e
    exact ⟨fun _ => hd, fun r => by rw [hq] at r; simp at r⟩
  · unfold Table.view; rw [look, Option.map_map]; congr 1; funext c; simp only [Function.comp]; split <;> rfl
  · obtain rfl : p = q := by rw [hb] at e; exact Option.some.inj e
    rw [hq] at k; simp at k
  · have e1 : b.alarmsOf n = a.alarmsOf n := by
      unfold Site.alarmsOf; rw [look, Option.map_map]; congr 2; funext c; simp only [Function.comp]; split <;> rfl
    have e2 : b.alarmAt 0 n = a.alarmAt 0 n := by unfold Site.alarmAt Site.boundCrew; rw [hw, hr]
    rw [e1, e2]
  · have e1 : a.permitAt k n = false := by unfold Site.permitAt; rw [hk]; rfl
    have e2 : b.permitAt k n = decide (n = p.crew) := by
      unfold Site.permitAt; rw [hb]; simp [hl, eq_comm, beq_eq_decide]
    rw [e1, e2]
    unfold Site.permitsOf
    rw [look]
    by_cases g : n = p.crew
    · subst g
      cases e : Table.look a.crews p.crew with
      | none => rw [e] at hx; simp at hx
      | some c => simp
    · simp [g]

/-- A permit enters force: the counts of its sections rise. -/
theorem Books.enforce {k : Nat} {p q : Permit} (hk : Table.look a.permits k = some p) (hp : p.inForce = false)
    (hb : Table.look b.permits k = some q) (hq : q.inForce = true)
    (he : (q.crew, q.work, q.live, q.retained) = (p.crew, p.work, p.live, p.retained))
    (hr : b.roster = a.roster) (hw : b.watches = a.watches) (hc : b.crews = a.crews)
    (ho : ∀ j, j ≠ k → Table.look b.permits j = Table.look a.permits j)
    (hs : a.Cleared → ∀ n, Table.look b.sections n = (Table.look a.sections n).map (q.recount (· + 1) n)) (sa : a.sorted = true)
    (sb : b.sorted = true) : Books a b := by
  have wa := sa
  have wb := sb
  simp only [Site.sorted, Bool.and_eq_true] at wa wb
  simp only [Prod.mk.injEq] at he
  obtain ⟨h1, h2, h3, h4⟩ := he
  have hv : ∀ j, j ≠ k → Table.view b.permits Permit.entry j = Table.view a.permits Permit.entry j := by
    intro j e; unfold Table.view; rw [ho j e]
  have hl := Permit.live_of_inForce hq
  refine ⟨fun h c i j x => ?_, fun h => h.change wa.2 wb.2 k hv (fun n => by rw [hs h]; simp) (fun n => ?_) (fun x e => ?_),
    fun h => h.change sa sb (fun i => by rw [hr]) (fun n => by rw [hc]) 0 k (fun v _ => by rw [hw])
      (fun r e => h.units 0 r (hw ▸ e)) hv (fun x e g => ?_) (fun n => ?_) fun n => ?_⟩
  · unfold Site.shortOn; rw [hr]; exact h c i j x
  · have e1 : a.clearanceAt k n = false := by unfold Site.clearanceAt; rw [hk]; simp [hp]
    have e2 : b.clearanceAt k n = decide (n ∈ p.work.sections) := by
      unfold Site.clearanceAt; rw [hb]; simp [hq, h2]
    rw [e1, e2]
    unfold Site.clearances
    rw [hs h]
    by_cases g : n ∈ p.work.sections
    · have := (h.listed k p hk (h3 ▸ hl)).2 n g
      cases e : Table.look a.sections n with
      | none => rw [e] at this; simp at this
      | some m => simp [Permit.recount, g, hq, h2]
    · cases e : Table.look a.sections n <;> simp [Permit.recount, g, h2]
  · obtain rfl : q = x := by rw [hb] at e; exact Option.some.inj e
    rw [h2, h3, h4]
    exact ⟨h.listed k p hk, h.retained k p hk⟩
  · obtain rfl : q = x := by rw [hb] at e; exact Option.some.inj e
    rw [h3]; exact h.retained k p hk (h4 ▸ g)
  · have e1 : b.alarmsOf n = a.alarmsOf n := by unfold Site.alarmsOf; rw [hc]
    have e2 : b.alarmAt 0 n = a.alarmAt 0 n := by unfold Site.alarmAt Site.boundCrew; rw [hw, hr]
    rw [e1, e2]
  · have e1 : b.permitsOf n = a.permitsOf n := by unfold Site.permitsOf; rw [hc]
    have e2 : b.permitAt k n = a.permitAt k n := by unfold Site.permitAt; rw [hk, hb]; simp [h1, h3]
    rw [e1, e2]

/-! ### The section map -/

/-- A section is defined, or defined again (R134). -/
theorem Books.putSection (n : Nat) : Books a { a with sections := a.sections.put n ((Table.look a.sections n).getD 0) } := by
  have c : ∀ m, ({ a with sections := a.sections.put n ((Table.look a.sections n).getD 0) } : Site).clearances m
      = a.clearances m := by
    intro m; unfold Site.clearances
    by_cases e : m = n
    · subst e; rw [Table.look_put_same]; rfl
    · rw [Table.look_put_other _ _ _ _ e]
  refine ⟨id, fun h => ⟨fun m => (c m).trans (h.counts m), fun k p hp hl => ⟨(h.listed k p hp hl).1, fun m hm => ?_⟩,
    h.retained⟩, fun h => ⟨h.alarms, h.permits, h.bound, h.kinds, h.units, h.guests, h.retained⟩⟩
  by_cases e : m = n
  · subst e; simp
  · rw [Table.look_put_other _ _ _ _ e]; exact (h.listed k p hp hl).2 m hm

/-- A section that no live clearance lists is removed (R134). -/
theorem Books.delSection {n : Nat}
    (hn : ∀ k p, Table.look a.permits k = some p → p.live = true → n ∉ p.work.sections) (sa : a.sorted = true) :
    Books a { a with sections := a.sections.del n } := by
  simp only [Site.sorted, Bool.and_eq_true] at sa
  refine ⟨id, fun h => ⟨fun m => ?_, fun k p hp hl => ⟨(h.listed k p hp hl).1, fun m hm => ?_⟩, h.retained⟩,
    fun h => ⟨h.alarms, h.permits, h.bound, h.kinds, h.units, h.guests, h.retained⟩⟩
  · unfold Site.clearances
    by_cases e : m = n
    · subst e
      rw [Table.look_del_same]
      refine (Table.tally_zero sa.2 fun k p hp => ?_).symm
      cases g : p.inForce
      · rfl
      · have := hn k p hp (Permit.live_of_inForce g); simp [this]
    · rw [Table.look_del_other _ _ _ e]; exact h.counts m
  · have e : m ≠ n := by rintro rfl; exact hn k p hp hl hm
    rw [Table.look_del_other _ _ _ e]; exact (h.listed k p hp hl).2 m hm

end Sys2Proof.Machine
end

