-- ==== Sys2Proof/Laws/Kept.lean ====
section
/-! SUPPORT. What the traffic of the site can do, said once: every shared operation keeps the fixed part of the site, the
configurations, the canonical form of the tables, the ranges of the roster records and of the channels, the interlock law, and
the counts kept beside the tables. -/

set_option Elab.async false

namespace Sys2Proof.Machine

/-- What no step of the traffic breaks, from site `a` to site `b`. -/
structure KeptBut (a b : Site) : Prop where
  fixed : b.fixed = a.fixed
  configs : ∀ c, (b.chan c).config = (a.chan c).config
  sorted : a.sorted = true → b.sorted = true
  roster : a.rosterSound = true → b.rosterSound = true
  channels : ∀ c, (a.chan c).sound = true → (b.chan c).sound = true
  lawful : a.sorted = true → a.lawful → b.lawful

/-- What no traffic breaks, from site `a` to site `b`: besides, what the counts say, which is broken midway where a record and
its count change one after the other. -/
structure Kept (a b : Site) : Prop extends KeptBut a b where
  books : a.sorted = true → Books a b

theorem KeptBut.refl (a : Site) : KeptBut a a := ⟨rfl, fun _ => rfl, id, id, fun _ => id, fun _ => id⟩

theorem KeptBut.trans {a b c : Site} (h : KeptBut a b) (k : KeptBut b c) : KeptBut a c :=
  ⟨k.fixed.trans h.fixed, fun d => (k.configs d).trans (h.configs d), k.sorted ∘ h.sorted, k.roster ∘ h.roster,
    fun d => k.channels d ∘ h.channels d, fun w l => k.lawful (h.sorted w) (h.lawful w l)⟩

theorem Kept.refl (a : Site) : Kept a a := ⟨.refl a, fun _ => .refl a⟩

theorem Kept.trans {a b c : Site} (h : Kept a b) (k : Kept b c) : Kept a c :=
  ⟨h.toKeptBut.trans k.toKeptBut, fun s => (h.books s).trans (k.books (h.sorted s))⟩

theorem KeptBut.kept {a b : Site} (h : KeptBut a b) (k : a.sorted = true → b.sorted = true → Books a b) : Kept a b :=
  ⟨h, fun s => k s (h.sorted s)⟩

/-- What is kept where the tables are in their form. -/
theorem Kept.when {a b c : Site} (h : Kept a b) (hb : KeptBut b c) (k : b.sorted = true → Kept b c) : Kept a c :=
  h.trans (hb.kept fun s _ => (k s).books s)

/-- A change that the counts do not read. -/
theorem KeptBut.level {a b : Site} (h : KeptBut a b) (k : Level a b) : Kept a b := h.kept k.books

/-- Permit `p` asks no more of the interlock than permit `q` did: it is for the same work, a CLOSE in ISSUING or ISSUED was one
already, an ISSUING permit was one already, and RELEASE_PENDING is as it was or stands for a clearance. -/
structure Permit.Calmer (p q : Permit) : Prop where
  work : p.work = q.work
  closing : ∀ sw, p.work = .switching sw .closing → p.state = .issuing ∨ p.state = .issued →
    q.state = .issuing ∨ q.state = .issued
  issuing : p.state = .issuing → q.state = .issuing
  pending : p.state = .releasePending → q.state = .releasePending ∨ p.work.isClearance = true

theorem Permit.Calmer.of_state {p q : Permit} (hw : p.work = q.work) (hs : p.state = q.state) : p.Calmer q :=
  ⟨hw, fun _ _ h => hs ▸ h, fun h => hs ▸ h, fun h => .inl (hs ▸ h)⟩

theorem Permit.Calmer.of_idle {p q : Permit} (hw : p.work = q.work) (hs : p.state = .requested ∨ p.live = false) :
    p.Calmer q := by
  unfold Permit.live PermitState.live at hs
  refine ⟨hw, fun _ _ h => ?_, fun h => ?_, fun h => ?_⟩ <;> exfalso <;> cases e : p.state <;> simp_all

/-- Calmer permits, the same sides and no new clearance keep the law. -/
theorem Site.lawful_of_calmer {a b : Site} (hp : ∀ e ∈ b.permits, ∃ f ∈ a.permits, e.2.Calmer f.2)
    (hs : ∀ k q, Table.look b.switches k = some q → ∃ r, Table.look a.switches k = some r ∧ ∀ n, q.joins n = r.joins n)
    (hc : ∀ n, a.clearances n = 0 → b.clearances n = 0) (h : a.lawful) : b.lawful := by
  refine ⟨fun e he sw hw hst q hq n hn => ?_, fun e he hst => ?_⟩
  · obtain ⟨f, hf, k⟩ := hp e he
    obtain ⟨r, hr, hj⟩ := hs _ _ hq
    obtain ⟨h1, h2⟩ := h.1 f hf sw (k.work ▸ hw) (k.closing sw hw hst) r hr n (hj n ▸ hn)
    refine ⟨hc _ h1, fun g hg hi => ?_⟩
    obtain ⟨g', hg', k'⟩ := hp g hg
    rw [k'.work]
    exact h2 g' hg' (k'.issuing hi)
  · obtain ⟨f, hf, k⟩ := hp e he
    rcases k.pending hst with h' | h'
    · rw [k.work]; exact h.2 f hf h'
    · exact h'

/-- A change that leaves permits, switch points and sections alone keeps the law. -/
theorem Site.lawful_of_eq {a b : Site} (hp : b.permits = a.permits) (hs : b.switches = a.switches)
    (hc : b.sections = a.sections) (h : a.lawful) : b.lawful := by
  unfold Site.lawful Site.clearances at h ⊢
  rw [hp, hs, hc]; exact h

theorem rosterSound_iff (s : Site) : s.rosterSound = true ↔ ∀ e ∈ s.roster, e.2.sound = true := by
  simp [Site.rosterSound]

theorem sorted_iff (s : Site) : s.sorted = true ↔ s.roster.wf = true ∧ s.crews.wf = true
    ∧ s.pul.wfBelow s.nextItem = true
    ∧ s.orders.wf = true ∧ s.watches.wf = true ∧ s.stopNotices.wf = true ∧ s.sections.wf = true ∧ s.switches.wf = true
    ∧ s.permits.wf = true := by
  simp [Site.sorted, and_assoc]

/-- The four channels as a list. -/
theorem channelsSound_iff (s : Site) : s.channelsSound = true ↔ ∀ c, (s.chan c).sound = true := by
  simp only [Site.channelsSound, List.all_cons, List.all_nil, Bool.and_true, Bool.and_eq_true]
  constructor
  · rintro ⟨h0, h1, h2, h3⟩ c; fin_cases c <;> assumption
  · exact fun h => ⟨h 0, h 1, h 2, h 3⟩

/-! ### One table or one channel at a time -/

theorem KeptBut.setChan (s : Site) (c : Chan) (ch : Channel) (hg : ch.config = (s.chan c).config)
    (hs : (s.chan c).sound = true → ch.sound = true) :
    KeptBut s { s with channels := s.channels.set c.val ch c.isLt } := by
  refine ⟨rfl, fun d => ?_, id, id, fun d h => ?_, fun _ => Site.lawful_of_eq rfl rfl rfl⟩
  · by_cases e : d = c
    · subst e; simpa using hg
    · rw [Site.chan_set_other s c d ch e]
  · by_cases e : d = c
    · subst e; simpa using hs h
    · rw [Site.chan_set_other s c d ch e]; exact h

theorem KeptBut.setRoster (s : Site) (x : Table Terminal) (hw : s.roster.wf = true → x.wf = true)
    (hs : (∀ e ∈ s.roster, e.2.sound = true) → ∀ e ∈ x, e.2.sound = true) : KeptBut s { s with roster := x } := by
  refine ⟨rfl, fun _ => rfl, fun h => ?_, fun h => ?_, fun _ h => h, fun _ => Site.lawful_of_eq rfl rfl rfl⟩
  · rw [sorted_iff] at h ⊢; exact ⟨hw h.1, h.2⟩
  · rw [rosterSound_iff] at h ⊢; exact hs h

theorem KeptBut.setCrews (s : Site) (x : Table Crew) (hw : s.crews.wf = true → x.wf = true) :
    KeptBut s { s with crews := x } := by
  refine ⟨rfl, fun _ => rfl, fun h => ?_, id, fun _ h => h, fun _ => Site.lawful_of_eq rfl rfl rfl⟩
  rw [sorted_iff] at h ⊢; exact ⟨h.1, hw h.2.1, h.2.2⟩

theorem KeptBut.setPul (s : Site) (x : Table PulItem) (n : Nat)
    (hw : s.pul.wfBelow s.nextItem = true → x.wfBelow n = true) :
    KeptBut s { s with pul := x, nextItem := n } := by
  refine ⟨rfl, fun _ => rfl, fun h => ?_, id, fun _ h => h, fun _ => Site.lawful_of_eq rfl rfl rfl⟩
  rw [sorted_iff] at h ⊢; exact ⟨h.1, h.2.1, hw h.2.2.1, h.2.2.2⟩

theorem KeptBut.setOrders (s : Site) (x : Table Order) (n : Nat) (hw : s.orders.wf = true → x.wf = true) :
    KeptBut s { s with orders := x, nextSeq := n } := by
  refine ⟨rfl, fun _ => rfl, fun h => ?_, id, fun _ h => h, fun _ => Site.lawful_of_eq rfl rfl rfl⟩
  rw [sorted_iff] at h ⊢; exact ⟨h.1, h.2.1, h.2.2.1, hw h.2.2.2.1, h.2.2.2.2⟩

theorem KeptBut.setWatches (s : Site) (x : Table Watch) (hw : s.watches.wf = true → x.wf = true) :
    KeptBut s { s with watches := x } := by
  refine ⟨rfl, fun _ => rfl, fun h => ?_, id, fun _ h => h, fun _ => Site.lawful_of_eq rfl rfl rfl⟩
  rw [sorted_iff] at h ⊢; exact ⟨h.1, h.2.1, h.2.2.1, h.2.2.2.1, hw h.2.2.2.2.1, h.2.2.2.2.2⟩

theorem KeptBut.setNotices (s : Site) (x : Table Nat) (hw : s.stopNotices.wf = true → x.wf = true) :
    KeptBut s { s with stopNotices := x } := by
  refine ⟨rfl, fun _ => rfl, fun h => ?_, id, fun _ h => h, fun _ => Site.lawful_of_eq rfl rfl rfl⟩
  rw [sorted_iff] at h ⊢; exact ⟨h.1, h.2.1, h.2.2.1, h.2.2.2.1, h.2.2.2.2.1, hw h.2.2.2.2.2.1, h.2.2.2.2.2.2⟩

theorem KeptBut.setSections (s : Site) (x : Table Nat) (hw : s.sections.wf = true → x.wf = true)
    (hl : s.sorted = true → s.lawful → ({ s with sections := x } : Site).lawful) :
    KeptBut s { s with sections := x } := by
  refine ⟨rfl, fun _ => rfl, fun h => ?_, id, fun _ h => h, hl⟩
  rw [sorted_iff] at h ⊢
  exact ⟨h.1, h.2.1, h.2.2.1, h.2.2.2.1, h.2.2.2.2.1, h.2.2.2.2.2.1, hw h.2.2.2.2.2.2.1, h.2.2.2.2.2.2.2⟩

theorem KeptBut.setSwitches (s : Site) (x : Table SwitchPoint) (hw : s.switches.wf = true → x.wf = true)
    (hl : s.sorted = true → s.lawful → ({ s with switches := x } : Site).lawful) :
    KeptBut s { s with switches := x } := by
  refine ⟨rfl, fun _ => rfl, fun h => ?_, id, fun _ h => h, hl⟩
  rw [sorted_iff] at h ⊢
  exact ⟨h.1, h.2.1, h.2.2.1, h.2.2.2.1, h.2.2.2.2.1, h.2.2.2.2.2.1, h.2.2.2.2.2.2.1, hw h.2.2.2.2.2.2.2.1,
    h.2.2.2.2.2.2.2.2⟩

theorem KeptBut.setPermits (s : Site) (x : Table Permit) (hw : s.permits.wf = true → x.wf = true)
    (hl : s.sorted = true → s.lawful → ({ s with permits := x } : Site).lawful) :
    KeptBut s { s with permits := x } := by
  refine ⟨rfl, fun _ => rfl, fun h => ?_, id, fun _ h => h, hl⟩
  rw [sorted_iff] at h ⊢
  exact ⟨h.1, h.2.1, h.2.2.1, h.2.2.2.1, h.2.2.2.2.1, h.2.2.2.2.2.1, h.2.2.2.2.2.2.1, h.2.2.2.2.2.2.2.1,
    hw h.2.2.2.2.2.2.2.2⟩

/-- A change of the counters of the owners. -/
theorem Kept.counters {s : Site} {r n d i u v g : Counter} :
    Kept s { s with
      repliesIgnored := r, notesDropped := n, assistDrops := d, checkInsIgnored := i, unsupervised := u
      arrivalsIgnored := v, dangerDrops := g } :=
  KeptBut.level ⟨rfl, fun _ => rfl, id, id, fun _ k => k, fun _ => Site.lawful_of_eq rfl rfl rfl⟩
    (.of_eq rfl rfl rfl rfl rfl)

theorem Kept.setChan (s : Site) (c : Chan) (ch : Channel) (hg : ch.config = (s.chan c).config)
    (hs : (s.chan c).sound = true → ch.sound = true) :
    Kept s { s with channels := s.channels.set c.val ch c.isLt } :=
  (KeptBut.setChan s c ch hg hs).level (.of_eq rfl rfl rfl rfl rfl)

theorem Kept.setPul (s : Site) (x : Table PulItem) (n : Nat)
    (hw : s.pul.wfBelow s.nextItem = true → x.wfBelow n = true) :
    Kept s { s with pul := x, nextItem := n } := (KeptBut.setPul s x n hw).level (.of_eq rfl rfl rfl rfl rfl)

theorem Kept.setOrders (s : Site) (x : Table Order) (n : Nat) (hw : s.orders.wf = true → x.wf = true) :
    Kept s { s with orders := x, nextSeq := n } := (KeptBut.setOrders s x n hw).level (.of_eq rfl rfl rfl rfl rfl)

theorem Kept.setNotices (s : Site) (x : Table Nat) (hw : s.stopNotices.wf = true → x.wf = true) :
    Kept s { s with stopNotices := x } := (KeptBut.setNotices s x hw).level (.of_eq rfl rfl rfl rfl rfl)

theorem Kept.setSwitches (s : Site) (x : Table SwitchPoint) (hw : s.switches.wf = true → x.wf = true)
    (hl : s.sorted = true → s.lawful → ({ s with switches := x } : Site).lawful) :
    Kept s { s with switches := x } := (KeptBut.setSwitches s x hw hl).level (.of_eq rfl rfl rfl rfl rfl)

/-! ### The named updates -/

variable {a : Site} {w : Work}

theorem Work.modSite_kept (h : Kept a w.site) (f : Site → Site) (hf : Kept w.site (f w.site)) :
    Kept a (w.modSite f).site := h.trans hf

theorem Work.modChan_kept (h : Kept a w.site) (c : Chan) (f : Channel → Channel)
    (hg : (f (w.site.chan c)).config = (w.site.chan c).config)
    (hs : (w.site.chan c).sound = true → (f (w.site.chan c)).sound = true) : Kept a (w.modChan c f).site :=
  h.trans (Kept.setChan _ _ _ hg hs)

theorem foldl_kept {β : Type} (f : Work → β → Work) (hf : ∀ v e, Kept a v.site → Kept a (f v e).site) (l : List β)
    (v : Work) (h : Kept a v.site) : Kept a (l.foldl f v).site := by
  induction l generalizing v with
  | nil => exact h
  | cons e l ih => exact ih _ (hf v e h)

theorem foldl_but {β : Type} (f : Work → β → Work) (hf : ∀ v e, KeptBut v.site (f v e).site) (l : List β) (v : Work) :
    KeptBut v.site (l.foldl f v).site := by
  induction l generalizing v with
  | nil => exact .refl _
  | cons e l ih => exact (hf v e).trans (ih _)

theorem Work.modChans_kept (h : Kept a w.site) (cs : List Chan) (f : Channel → Channel)
    (hg : ∀ ch, (f ch).config = ch.config) (hs : ∀ ch, ch.sound = true → (f ch).sound = true) :
    Kept a (w.modChans cs f).site :=
  foldl_kept _ (fun _ _ hv => Work.modChan_kept hv _ _ (hg _) (hs _)) cs w h

theorem Work.modTerminal_but (w : Work) (i : Nat) (f : Terminal → Terminal)
    (hs : ∀ t, t.sound = true → (f t).sound = true) : KeptBut w.site (w.modTerminal i f).site := by
  refine KeptBut.setRoster _ _ (fun k => Table.wf_adjust k _ _) fun k e he => ?_
  rcases Table.mem_adjust he with he | ⟨x, hx, rfl⟩
  · exact k e he
  · exact hs _ (k _ hx)

/-- A change that leaves alone where a terminal stands and what binds it. -/
theorem Work.modTerminal_kept (h : Kept a w.site) (i : Nat) (f : Terminal → Terminal)
    (hs : ∀ t, t.sound = true → (f t).sound = true) (hb : ∀ t, (f t).bond = t.bond := by exact fun _ => rfl) :
    Kept a (w.modTerminal i f).site :=
  h.trans ((modTerminal_but w i f hs).level (Level.of_terminal hb))

theorem Work.putTerminal_kept (h : Kept a w.site) (i : Nat) (t : Terminal) (hs : t.sound = true)
    (hi : Table.look w.site.roster i = none) (hc : t.crew = none) (ht : t.short = none) :
    Kept a (w.modSite fun s => { s with roster := s.roster.put i t }).site := by
  refine h.trans (KeptBut.kept (KeptBut.setRoster _ _ (fun k => Table.wf_put k _ _) fun k e he => ?_)
    fun _ _ => Books.putTerminal hi hc ht)
  rcases Table.mem_put he with rfl | he
  · exact hs
  · exact k e he

theorem Work.delTerminal_but (w : Work) (i : Nat) :
    KeptBut w.site (w.modSite fun s => { s with roster := s.roster.del i }).site :=
  KeptBut.setRoster _ _ (fun k => Table.wf_del k _) fun k e he => k e (Table.mem_del he)

theorem Work.delTerminal_kept (h : Kept a w.site) (i : Nat) (hc : w.site.boundCrew i = none)
    (hw : Table.look w.site.watches i = none) : Kept a (w.modSite fun s => { s with roster := s.roster.del i }).site :=
  h.trans ((delTerminal_but w i).kept fun _ _ => Books.delTerminal hc hw)

theorem Work.modCrew_but (w : Work) (n : Nat) (f : Crew → Crew) : KeptBut w.site (w.modCrew n f).site :=
  KeptBut.setCrews _ _ fun k => Table.wf_adjust k _ _

theorem Work.modOrder_kept (h : Kept a w.site) (n : Nat) (f : Order → Order) : Kept a (w.modOrder n f).site :=
  h.trans (Kept.setOrders _ _ _ fun k => Table.wf_adjust k _ _)

theorem Work.delOrder_kept (h : Kept a w.site) (n : Nat) :
    Kept a (w.modSite fun s => { s with orders := s.orders.del n }).site :=
  h.trans (Kept.setOrders _ _ _ fun k => Table.wf_del k _)

theorem Work.modWatch_but (w : Work) (u : Nat) (f : Watch → Watch) : KeptBut w.site (w.modWatch u f).site :=
  KeptBut.setWatches _ _ fun k => Table.wf_adjust k _ _

/-- A change that leaves alone whether the record counts as an alarm. -/
theorem Work.modWatch_kept (h : Kept a w.site) (u : Nat) (f : Watch → Watch)
    (hf : ∀ r, Table.look w.site.watches u = some r → (f r).state.inAlarm = r.state.inAlarm := by exact fun _ _ => rfl) :
    Kept a (w.modWatch u f).site :=
  h.trans ((modWatch_but w u f).level (Level.of_watch hf))

theorem Work.putWatch_kept (h : Kept a w.site) (u : Nat) (r : Watch) (hr : r.state.inAlarm = false)
    (hu : Table.look w.site.watches u = none)
    (hk : w.site.sorted = true → w.site.kindAt u .personal = true) :
    Kept a (w.modSite fun s => { s with watches := s.watches.put u r }).site :=
  h.trans (KeptBut.kept (KeptBut.setWatches _ _ fun k => Table.wf_put k _ _)
    fun sa sb => Books.putWatch hr hu (hk sa) sa sb)

theorem Work.delWatch_but (w : Work) (u : Nat) :
    KeptBut w.site (w.modSite fun s => { s with watches := s.watches.del u }).site :=
  KeptBut.setWatches _ _ fun k => Table.wf_del k _

theorem Work.delWatch_kept (h : Kept a w.site) (u : Nat)
    (hu : ∀ r, Table.look w.site.watches u = some r → r.state.inAlarm = true → w.site.boundCrew u = none) :
    Kept a (w.modSite fun s => { s with watches := s.watches.del u }).site :=
  h.trans (KeptBut.kept (delWatch_but w u) fun sa sb => Books.delWatch hu sa sb)

/-- Fewer permits keep the law. -/
theorem Site.lawful_of_subset {s : Site} {x : Table Permit} (hx : ∀ e ∈ x, e ∈ s.permits) (h : s.lawful) :
    ({ s with permits := x } : Site).lawful :=
  Site.lawful_of_calmer (fun e he => ⟨e, hx e he, .of_state rfl rfl⟩) (fun _ q hq => ⟨q, hq, fun _ => rfl⟩)
    (fun _ h => h) h

/-- A permit made calmer keeps the law. -/
theorem Site.lawful_of_adjust {s : Site} (k : Nat) (f : Permit → Permit)
    (hf : ∀ p, Table.look s.permits k = some p → (f p).Calmer p) (h : s.lawful) :
    ({ s with permits := s.permits.adjust k f } : Site).lawful := by
  refine Site.lawful_of_calmer (a := s) (fun e he => ?_) (fun _ q hq => ⟨q, hq, fun _ => rfl⟩) (fun _ h => h) h
  change e ∈ Table.adjust s.permits k f at he
  unfold Table.adjust at he
  split at he
  · rename_i p hp
    rcases Table.mem_put he with rfl | he
    · exact ⟨(k, p), Table.mem_of_look hp, hf p hp⟩
    · exact ⟨e, he, .of_state rfl rfl⟩
  · exact ⟨e, he, .of_state rfl rfl⟩

theorem Work.modPermit_but (w : Work) (k : Nat) (f : Permit → Permit)
    (hf : ∀ p, Table.look w.site.permits k = some p → (f p).Calmer p) : KeptBut w.site (w.modPermit k f).site :=
  KeptBut.setPermits _ _ (fun k => Table.wf_adjust k _ _) fun _ => Site.lawful_of_adjust k f hf

/-- A change of one permit that the counts do not read, judged by the law with the site as it stands. -/
theorem Work.modPermit_law (h : Kept a w.site) (k : Nat) (f : Permit → Permit)
    (hl : w.site.sorted = true → w.site.lawful →
      ({ w.site with permits := w.site.permits.adjust k f } : Site).lawful)
    (he : w.site.sorted = true → ∀ p, Table.look w.site.permits k = some p → (f p).entry = p.entry) :
    Kept a (w.modPermit k f).site :=
  h.trans (KeptBut.kept (KeptBut.setPermits _ _ (fun k => Table.wf_adjust k _ _) hl)
    fun sa sb => (Level.of_permit (he sa)).books sa sb)

theorem Work.modPermit_kept (h : Kept a w.site) (k : Nat) (f : Permit → Permit)
    (hf : ∀ p, Table.look w.site.permits k = some p → (f p).Calmer p)
    (he : ∀ p, Table.look w.site.permits k = some p → (f p).entry = p.entry) : Kept a (w.modPermit k f).site :=
  h.trans ((modPermit_but w k f hf).level (Level.of_permit he))

/-- A change that leaves a permit's work, state, crew and retention alone. -/
theorem Work.modPermit_kept_still (h : Kept a w.site) (k : Nat) (f : Permit → Permit) (hw : ∀ p, (f p).work = p.work)
    (hs : ∀ p, (f p).state = p.state) (hc : ∀ p, (f p).crew = p.crew := by exact fun _ => rfl)
    (hr : ∀ p, (f p).retained = p.retained := by exact fun _ => rfl) : Kept a (w.modPermit k f).site :=
  modPermit_kept h k f (fun p _ => .of_state (hw p) (hs p)) fun p _ => by
    simp [Permit.entry, Permit.live, Permit.inForce, hw, hs, hc, hr]

theorem Work.adjustItem_kept (h : Kept a w.site) (id : Nat) (f : PulItem → PulItem) :
    Kept a (w.modSite fun s => { s with pul := s.pul.adjust id f }).site :=
  h.trans (Kept.setPul _ _ _ fun k => Table.wfBelow_adjust k _ _)

theorem Work.putItem_kept (h : Kept a w.site) (id : Nat) (it : PulItem)
    (hi : w.site.pul.wfBelow w.site.nextItem = true → id < w.site.nextItem) :
    Kept a (w.modSite fun s => { s with pul := s.pul.put id it }).site :=
  h.trans (Kept.setPul _ _ _ fun k => Table.wfBelow_put k _ (Nat.le_refl _) (hi k))

/-- Raising a counter of an owner. -/
theorem Work.count_kept (h : Kept a w.site) (f : Site → Site) (hf : ∀ s, Kept s (f s)) : Kept a (w.modSite f).site :=
  h.trans (hf _)

/-! ### Queues and the Pending Urgent List -/

theorem Work.bumpStat_kept (h : Kept a w.site) (c : Chan) (f : Stats → Stats) : Kept a (w.bumpStat c f).site :=
  modChan_kept h _ _ rfl id

theorem Work.emit_kept (h : Kept a w.site) (b : ReportBody) : Kept a (w.emit b).site := h

theorem Work.offer_kept (h : Kept a w.site) (c : Chan) : Kept a (w.offer c).site := h

theorem Work.offerEvery_kept (h : Kept a w.site) : Kept a w.offerEvery.site := h

theorem Work.pushAlert_kept (h : Kept a w.site) (c : Chan) (x : AlertContent) : Kept a (w.pushAlert c x).site :=
  offer_kept (modChan_kept h _ _ rfl fun k => k) _

theorem Work.pushUrgent_kept (h : Kept a w.site) (c : Chan) (f : UrgentFrame) : Kept a (w.pushUrgent c f).site :=
  offer_kept (modChan_kept h _ _ rfl fun k => k) _

theorem Work.removeEntry_kept (h : Kept a w.site) (c : Chan) (id : Nat) : Kept a (w.removeEntry c id).site :=
  modChan_kept h _ _ rfl fun k => k

theorem Work.modEntry_kept (h : Kept a w.site) (c : Chan) (id : Nat) (f : UrgentEntry → UrgentEntry) :
    Kept a (w.modEntry c id f).site := modChan_kept h _ _ rfl fun k => k

theorem Work.moveItem_kept (h : Kept a w.site) (id : Nat) (it : PulItem) (c : Chan)
    (hi : w.site.pul.wfBelow w.site.nextItem = true → id < w.site.nextItem) :
    Kept a (w.moveItem id it c).site := pushUrgent_kept (putItem_kept h _ _ hi) _ _

theorem Work.fillSome_kept (c : Chan) (n : Nat) (h : Kept a w.site) : Kept a (Work.fillSome c n w).site := by
  induction n generalizing w with
  | zero => exact h
  | succ n ih =>
    unfold Work.fillSome
    split
    · split
      · rename_i id it e
        exact ih (moveItem_kept h _ _ _ fun k => ((Table.wfBelow_iff _ _).1 k).2 (id, it) (List.mem_of_find?_eq_some e))
      · exact h
    · exact h

theorem Work.fill_kept (h : Kept a w.site) (c : Chan) : Kept a (w.fill c).site := fillSome_kept c 16 h

theorem Work.insertItem_kept (h : Kept a w.site) (o : Owner) (i : Nat) (x : ItemContent) :
    Kept a (w.insertItem o i x).site := by
  have h' : ∀ it, Kept a (w.modSite fun s => { s with pul := s.pul.put w.site.nextItem it
                                                      nextItem := w.site.nextItem + 1 }).site :=
    fun it => h.trans (Kept.setPul _ _ _ fun k => Table.wfBelow_put k _ (Nat.le_succ _) (Nat.lt_succ_self _))
  simp only [Work.insertItem]
  split
  · split
    · exact moveItem_kept (h' _) _ _ _ fun _ => Nat.lt_succ_self _
    · exact h' _
  · exact h' _

theorem Work.placeNoteRecall_kept (h : Kept a w.site) (i : Nat) : Kept a (w.placeNoteRecall i).site := by
  unfold Work.placeNoteRecall
  repeat' split
  all_goals first | exact h | exact insertItem_kept h _ _ _

theorem Work.serveNotes_kept (h : Kept a w.site) : Kept a w.serveNotes.site := by
  unfold Work.serveNotes; split
  · exact placeNoteRecall_kept h _
  · exact h

theorem Work.leftSystem_kept (h : Kept a w.site) (it : PulItem) : Kept a (w.leftSystem it).site := by
  unfold Work.leftSystem; split
  · exact serveNotes_kept h
  · exact h

theorem Work.dropItem_kept (h : Kept a w.site) (id : Nat) : Kept a (w.dropItem id).site :=
  h.trans (Kept.setPul _ _ _ fun k => Table.wfBelow_del k _)

theorem Work.cancelEntry_kept (h : Kept a w.site) (c : Chan) (id : Nat) : Kept a (w.cancelEntry c id).site := by
  unfold Work.cancelEntry
  repeat' split
  · exact fill_kept (removeEntry_kept h _ _) _
  · exact modEntry_kept h _ _ _
  · exact h

theorem Work.cancelItem_kept (h : Kept a w.site) (id : Nat) : Kept a (w.cancelItem id).site := by
  unfold Work.cancelItem
  repeat' split
  · exact h
  · exact leftSystem_kept (dropItem_kept h _) _
  · exact leftSystem_kept (cancelEntry_kept (dropItem_kept h _) _ _) _

theorem Work.cancelOwned_kept (h : Kept a w.site) (o : Owner) (k : ItemKind) : Kept a (w.cancelOwned o k).site := by
  unfold Work.cancelOwned; split
  · exact cancelItem_kept h _
  · exact h

theorem Work.place_kept (h : Kept a w.site) (o : Owner) (i : Nat) (x : ItemContent) : Kept a (w.place o i x).site := by
  unfold Work.place; split
  · exact h
  · exact insertItem_kept (cancelOwned_kept h _ _) _ _ _

theorem Work.returnItem_kept (h : Kept a w.site) (c : Chan) (id : Nat) : Kept a (w.returnItem c id).site :=
  removeEntry_kept (adjustItem_kept h _ _) _ _

theorem Work.returnWaiting_kept (h : Kept a w.site) (c : Chan) (i : Nat) : Kept a (w.returnWaiting c i).site :=
  foldl_kept _ (fun _ _ hv => returnItem_kept hv _ _) _ _ h

/-! ### Credit, outstanding frames and in-flight blocks -/

/-- A change that leaves credit, capacity, quality, state, channel and short address alone keeps a record sound. -/
theorem Terminal.sound_of_eq {t u : Terminal} (h : t.sound = true)
    (e : (u.credit, u.capacity, u.quality, u.state, u.channel, u.short)
      = (t.credit, t.capacity, t.quality, t.state, t.channel, t.short)) : u.sound = true := by
  simp only [Prod.mk.injEq] at e
  obtain ⟨h1, h2, h3, h4, h5, h6⟩ := e
  simpa [Terminal.sound, h1, h2, h3, h4, h5, h6] using h

theorem Terminal.sound_credit {t : Terminal} (h : t.sound = true) {v : Nat} (hv : v ≤ t.capacity) :
    ({ t with credit := v } : Terminal).sound = true := by
  simp only [Terminal.sound, Bool.and_eq_true, decide_eq_true_eq] at h ⊢
  exact ⟨⟨⟨hv, h.1.1.2⟩, h.1.2⟩, h.2⟩

theorem Work.setCredit_kept (h : Kept a w.site) (i v : Nat) : Kept a (w.setCredit i v).site := by
  have h' : Kept a (w.modTerminal i fun t => { t with credit := min v t.capacity }).site :=
    modTerminal_kept h _ _ fun t k => Terminal.sound_credit k (Nat.min_le_right _ _)
  simp only [Work.setCredit]
  repeat' split
  all_goals first | exact h | exact h'

theorem Work.raiseCredit_kept (h : Kept a w.site) (i v : Nat) : Kept a (w.raiseCredit i v).site := by
  unfold Work.raiseCredit; split
  · exact setCredit_kept h _ _
  · exact h

theorem Work.endOutstanding_kept (h : Kept a w.site) (i : Nat) (b : Bool) : Kept a (w.endOutstanding i b).site := by
  unfold Work.endOutstanding; split
  · refine offer_kept (modChan_kept (modTerminal_kept h _ _ ?_) _ _ ?_ ?_) _
    exacts [fun _ k => k, rfl, fun k => k]
  · exact h

theorem Work.lowerInFlight_kept (h : Kept a w.site) (c : Option Chan) (n : Nat) :
    Kept a (w.lowerInFlight c n).site := by
  unfold Work.lowerInFlight; split
  · exact offer_kept (modChan_kept h _ _ rfl fun k => k) _
  · exact h

end Sys2Proof.Machine
end

