-- ==== Sys2Proof/Laws/Crews.lean ====
section
/-! SUPPORT. The binding of terminals to crews: what LOAD_CREW and DROP_CREW make of the roster, and why the counts of crews stay
equal to the records counted (R11 to R13, R15, R16). -/

set_option Elab.async false

namespace Sys2Proof.Machine

variable {a b : Site}

/-- A terminal as LOAD_CREW or DROP_CREW leaves it: named, leaving, or neither. -/
def Terminal.rebound (n : Nat) (leaving named : List Nat) (i : Nat) (t : Terminal) : Terminal :=
  if i ∈ named then { t with crew := some n, origin := .loaded } else if i ∈ leaving then { t with crew := none } else t

/-- One change at each of some roster records. -/
theorem roster_fold (f : Terminal → Terminal) (hf : ∀ t, f (f t) = f t) (l : List Nat) (w : Work) :
    (l.foldl (fun w i => w.modTerminal i f) w).site
        = { w.site with roster := (l.foldl (fun w i => w.modTerminal i f) w).site.roster }
      ∧ ∀ i, Table.look (l.foldl (fun w i => w.modTerminal i f) w).site.roster i
        = (Table.look w.site.roster i).map fun t => if i ∈ l then f t else t := by
  induction l generalizing w with
  | nil => exact ⟨rfl, fun i => by simp⟩
  | cons j l ih =>
    obtain ⟨h1, h2⟩ := ih (w.modTerminal j f)
    refine ⟨h1, fun i => ?_⟩
    rw [List.foldl_cons, h2, Work.modTerminal_site]
    by_cases e : i = j
    · subst e
      rw [Table.look_adjust_same, Option.map_map]
      congr 1; funext t; by_cases m : i ∈ l <;> simp [m, hf]
    · rw [Table.look_adjust_other _ _ _ _ e]; simp [e]

/-- What LOAD_CREW makes of the roster (R12). -/
theorem Work.rebind_spec (w : Work) (n : Nat) (leaving named : List Nat) :
    (w.rebind n leaving named).site = { w.site with roster := (w.rebind n leaving named).site.roster }
      ∧ ∀ i, Table.look (w.rebind n leaving named).site.roster i
        = (Table.look w.site.roster i).map (Terminal.rebound n leaving named i) := by
  have h1 := roster_fold (fun t => { t with crew := none }) (fun _ => rfl) leaving w
  have h2 := roster_fold (fun t => { t with crew := some n, origin := .loaded }) (fun _ => rfl) named
    (leaving.foldl (fun w i => w.modTerminal i fun t => { t with crew := none }) w)
  refine ⟨h2.1.trans ?_, fun i => ?_⟩
  · rw [h1.1]; rfl
  · refine (h2.2 i).trans ?_
    rw [h1.2, Option.map_map]
    congr 1; funext t
    simp only [Function.comp, Terminal.rebound]
    by_cases k : i ∈ named <;> by_cases m : i ∈ leaving <;> simp [k, m]

theorem Work.rebind_but (w : Work) (n : Nat) (leaving named : List Nat) :
    KeptBut w.site (w.rebind n leaving named).site := by
  refine (foldl_but _ (fun v i => Work.modTerminal_but v i _ ?_) leaving w).trans
    (foldl_but _ (fun v i => Work.modTerminal_but v i _ ?_) named _)
  exacts [fun _ k => k, fun _ k => k]

theorem Work.putCrew_but (w : Work) (n : Nat) (c : Crew) : KeptBut w.site (w.putCrew n c).site :=
  KeptBut.setCrews _ _ fun k => Table.wf_put k _ _

section
variable {n : Nat} {l k : List Nat}

/-- The site whose roster LOAD_CREW or DROP_CREW has rebound. -/
structure Rebound (n : Nat) (l k : List Nat) (a b : Site) : Prop where
  roster : ∀ i, Table.look b.roster i = (Table.look a.roster i).map (Terminal.rebound n l k i)
  watches : b.watches = a.watches
  permits : b.permits = a.permits
  sections : b.sections = a.sections

theorem Rebound.shortOn (h : Rebound n l k a b) (c : Chan) (i : Nat) : b.shortOn c i = a.shortOn c i := by
  unfold Site.shortOn; rw [h.roster]
  cases Table.look a.roster i with
  | none => rfl
  | some t =>
    simp only [Option.map_some, Option.bind_some, Terminal.rebound]
    split
    · rfl
    · split <;> rfl

theorem Rebound.kindAt (h : Rebound n l k a b) (i : Nat) (x : TerminalKind) : b.kindAt i x = a.kindAt i x := by
  unfold Site.kindAt; rw [h.roster]
  cases Table.look a.roster i with
  | none => rfl
  | some t =>
    simp only [Option.map_some, Option.any_some, Terminal.rebound]
    split
    · rfl
    · split <;> rfl

theorem Rebound.boundCrew (h : Rebound n l k a b) (i : Nat) (hk : i ∈ k → (Table.look a.roster i).isSome = true) :
    b.boundCrew i = if i ∈ k then some n else if i ∈ l then none else a.boundCrew i := by
  unfold Site.boundCrew; rw [h.roster]
  cases e : Table.look a.roster i with
  | none =>
    rw [if_neg (fun m => by have := hk m; rw [e] at this; simp at this)]
    simp
  | some t =>
    simp only [Option.map_some, Option.bind_some, Terminal.rebound]
    split
    · rfl
    · split <;> rfl

theorem Rebound.guests (h : Rebound n l k a b)
    (g : ∀ i t, Table.look a.roster i = some t → t.origin = .guest → t.crew = none) (i : Nat) (t : Terminal)
    (ht : Table.look b.roster i = some t) (ho : t.origin = .guest) : t.crew = none := by
  rw [h.roster] at ht
  cases e : Table.look a.roster i with
  | none => rw [e] at ht; simp at ht
  | some u =>
    rw [e] at ht
    simp only [Option.map_some, Option.some.injEq, Terminal.rebound] at ht
    split at ht
    · subst ht; simp at ho
    · split at ht
      · subst ht; rfl
      · subst ht; exact g i u e ho

theorem Rebound.apart (h : Rebound n l k a b) (g : a.apart) : b.apart := by
  intro c i j x; rw [h.shortOn, h.shortOn]; exact g c i j x

end

/-- DROP_CREW: the crew's terminals become unbound and its record is freed (R13). -/
theorem Books.dropCrew {n : Nat} {c : Crew} (hn : Table.look a.crews n = some c) (hp : c.permits = 0)
    (hr : Rebound n c.terminals [] a b) (hc : b.crews = a.crews.del n)
    (sa : a.sorted = true) : Books a b := by
  have wa := sa
  simp only [Site.sorted, Bool.and_eq_true] at wa
  refine ⟨hr.apart, fun h => h.of_eq hr.permits hr.sections, fun h => ?_⟩
  have bd : ∀ i, b.boundCrew i = if i ∈ c.terminals then none else a.boundCrew i := by
    intro i; rw [hr.boundCrew i (by simp)]; simp
  have mem : ∀ i, i ∈ c.terminals ↔ a.boundCrew i = some n := fun i => by
    rw [h.bound]
    exact ⟨fun m => ⟨c, hn, m⟩, fun ⟨d, hd, m⟩ => by rw [hn] at hd; obtain rfl := Option.some.inj hd; exact m⟩
  have iff : ∀ i m, b.boundCrew i = some m ↔ a.boundCrew i = some m ∧ m ≠ n := by
    intro i m
    rw [bd]
    by_cases e : i ∈ c.terminals
    · rw [if_pos e, (mem i).1 e]; simp only [reduceCtorEq, Option.some.injEq, false_iff, not_and, not_not]; exact Eq.symm
    · rw [if_neg e]
      refine ⟨fun k => ⟨k, ?_⟩, And.left⟩
      rintro rfl; exact e ((mem i).2 k)
  have lk : ∀ m, Table.look b.crews m = if m = n then none else Table.look a.crews m := by
    intro m; rw [hc]
    by_cases e : m = n
    · subst e; simp
    · rw [Table.look_del_other _ _ _ e, if_neg e]
  refine ⟨fun m => ?_, fun m => ?_, fun i m => ?_, fun m d hm => ?_, fun u r hu => ?_, hr.guests h.guests, ?_⟩
  · rw [hr.watches]
    unfold Site.alarmsOf; rw [lk]
    by_cases e : m = n
    · rw [if_pos e]
      refine (Table.tally_zero wa.1.1.1.1.2 fun u r _ => ?_).symm
      have : b.boundCrew u ≠ some m := by rw [Ne, iff]; exact fun k => k.2 e
      simp [this]
    · rw [if_neg e]
      have := h.alarms m
      unfold Site.alarmsOf at this
      rw [this]
      congr 1; funext u r
      congr 1
      rw [Bool.eq_iff_iff, beq_iff_eq, beq_iff_eq, iff]
      exact ⟨fun k => ⟨k, e⟩, And.left⟩
  · rw [hr.permits]
    unfold Site.permitsOf; rw [lk]
    by_cases e : m = n
    · subst e
      rw [if_pos rfl, ← h.permits m]
      unfold Site.permitsOf; rw [hn]; simp [hp]
    · rw [if_neg e]; exact h.permits m
  · rw [iff, h.bound, lk]
    by_cases e : m = n
    · simp [e]
    · simp [e]
  · rw [lk] at hm
    split at hm
    · simp at hm
    · have := h.kinds m d hm
      simpa only [hr.kindAt] using this
  · rw [hr.kindAt]; rw [hr.watches] at hu; exact h.units u r hu
  · rw [hr.permits]; exact h.retained

/-- A crew record not in use, as LOAD_CREW replaces it. -/
def Crew.blank : Crew := { vehicle := none, members := [], key := 0, alarms := 0, permits := 0 }

/-- LOAD_CREW: the terminals named become bound, those leaving unbound, and the count takes in the alarms of the members that
join (R11, R12, R15). -/
theorem Books.loadCrew {n : Nat} {o : Crew} {v : Option Nat} {ms : List Nat} {key : Nat}
    (hn : Table.look a.crews n = some o ∨ Table.look a.crews n = none ∧ o = .blank) (hd : ms.Nodup)
    (hv : ∀ i, v = some i → a.kindAt i .vehicle = true) (hm : ∀ i ∈ ms, a.kindAt i .personal = true)
    (hf : ∀ i ∈ v.toList ++ ms, a.freeFor n i = true)
    (hw : ∀ i ∈ o.members, i ∉ ms → Table.look a.watches i = none)
    (hr : Rebound n (o.terminals.filter fun i => !(v.toList ++ ms).contains i) (v.toList ++ ms) a b)
    (hc : b.crews = a.crews.put n { vehicle := v, members := ms, key
                                    alarms := o.alarms + a.alarmsAmong (ms.filter fun i => !o.members.contains i)
                                    permits := o.permits }) (sa : a.sorted = true) : Books a b := by
  have wa := sa
  simp only [Site.sorted, Bool.and_eq_true] at wa
  refine ⟨hr.apart, fun h => h.of_eq hr.permits hr.sections, fun h => ?_⟩
  have isSome : ∀ i ∈ v.toList ++ ms, (Table.look a.roster i).isSome = true := by
    intro i m
    have := hf i m
    unfold Site.freeFor at this
    cases e : Table.look a.roster i with
    | none => rw [e] at this; simp at this
    | some _ => rfl
  have free : ∀ i ∈ v.toList ++ ms, a.boundCrew i = none ∨ a.boundCrew i = some n := by
    intro i m
    have := hf i m
    unfold Site.freeFor at this
    unfold Site.boundCrew
    cases e : Table.look a.roster i with
    | none => rw [e] at this; simp at this
    | some t =>
      rw [e] at this
      cases g : t.crew with
      | none => exact .inl (by simp [g])
      | some x => simp [g] at this; exact .inr (by simp [g, this])
  have mem : ∀ i, i ∈ o.terminals ↔ a.boundCrew i = some n := by
    intro i
    rw [h.bound]
    rcases hn with hn | ⟨hn, rfl⟩
    · exact ⟨fun m => ⟨o, hn, m⟩, fun ⟨d, hd, m⟩ => by rw [hn] at hd; obtain rfl := Option.some.inj hd; exact m⟩
    · simp [hn, Crew.blank, Crew.terminals]
  have bd : ∀ i, b.boundCrew i = if i ∈ v.toList ++ ms then some n else if i ∈ o.terminals then none else a.boundCrew i := by
    intro i
    rw [hr.boundCrew i (isSome i)]
    by_cases e : i ∈ v.toList ++ ms
    · rw [if_pos e, if_pos e]
    · rw [if_neg e, if_neg e]
      have : (i ∈ o.terminals.filter fun i => !(v.toList ++ ms).contains i) ↔ i ∈ o.terminals := by
        rw [List.mem_filter, and_iff_left_iff_imp]
        intro _; simpa using e
      simp only [this]
  have iff : ∀ i m, b.boundCrew i = some m ↔ (if m = n then i ∈ v.toList ++ ms else a.boundCrew i = some m) := by
    intro i m
    rw [bd]
    by_cases e : i ∈ v.toList ++ ms
    · rw [if_pos e]
      by_cases g : m = n
      · rw [if_pos g]; simp [g, e]
      · rw [if_neg g]
        constructor
        · intro k; exact absurd (Option.some.inj k).symm g
        · intro k; rcases free i e with f | f <;> rw [f] at k
          · simp at k
          · exact absurd (Option.some.inj k).symm g
    · rw [if_neg e]
      by_cases f : i ∈ o.terminals
      · rw [if_pos f]
        by_cases g : m = n
        · rw [if_pos g]; simp [e]
        · rw [if_neg g, (mem i).1 f]; simp [Ne.symm g]
      · rw [if_neg f]
        by_cases g : m = n
        · rw [if_pos g, g]
          exact ⟨fun k => absurd ((mem i).2 k) f, fun k => absurd k e⟩
        · rw [if_neg g]
  have lk : ∀ m, Table.look b.crews m = if m = n then some
      { vehicle := v, members := ms, key, permits := o.permits
        alarms := o.alarms + a.alarmsAmong (ms.filter fun i => !o.members.contains i) } else Table.look a.crews m := by
    intro m; rw [hc]
    by_cases e : m = n
    · subst e; simp
    · rw [Table.look_put_other _ _ _ _ e, if_neg e]
  have oa : o.alarms = a.alarmsOf n := by
    unfold Site.alarmsOf
    rcases hn with hn | ⟨hn, rfl⟩ <;> rw [hn] <;> rfl
  have op : o.permits = a.permitsOf n := by
    unfold Site.permitsOf
    rcases hn with hn | ⟨hn, rfl⟩ <;> rw [hn] <;> rfl
  refine ⟨fun m => ?_, fun m => ?_, fun i m => ?_, fun m d hm' => ?_, fun u r hu => ?_, hr.guests h.guests, ?_⟩
  · rw [hr.watches]
    unfold Site.alarmsOf; rw [lk]
    by_cases e : m = n
    · subst e
      rw [if_pos rfl]
      simp only [Option.map_some, Option.getD_some]
      rw [oa, h.alarms m]
      unfold Site.alarmsAmong
      rw [Table.tally_listed wa.1.1.1.1.2 (hd.filter _) fun r => r.state.inAlarm]
      refine (Table.tally_add wa.1.1.1.1.2 fun u r hu => ?_).symm
      have pers := h.units u r hu
      have notv : ∀ i, v = some i → u ≠ i := by
        rintro i rfl rfl
        have := hv u rfl
        unfold Site.kindAt at this pers
        cases g : Table.look a.roster u with
        | none => rw [g] at this; simp at this
        | some t => rw [g] at this pers; simp at this pers; rw [this] at pers; simp at pers
      have named : (u ∈ v.toList ++ ms) ↔ u ∈ ms := by
        rw [List.mem_append, Option.mem_toList]
        exact ⟨fun k => k.elim (fun k => absurd rfl (notv u k)) id, .inr⟩
      have old : u ∈ o.terminals ↔ u ∈ o.members := by
        rcases hn with hn | ⟨-, rfl⟩
        · unfold Crew.terminals
          rw [List.mem_append, Option.mem_toList]
          refine ⟨fun k => k.elim (fun k => ?_) id, .inr⟩
          have := (h.kinds m o hn).2.1 u k
          unfold Site.kindAt at this pers
          cases g : Table.look a.roster u with
          | none => rw [g] at this; simp at this
          | some t => rw [g] at this pers; simp at this pers; rw [this] at pers; simp at pers
        · simp [Crew.blank, Crew.terminals]
      have e1 : (b.boundCrew u == some m) = decide (u ∈ ms) := by
        rw [beq_eq_decide, decide_eq_decide, iff, if_pos rfl, named]
      have e2 : (a.boundCrew u == some m) = decide (u ∈ o.members) := by
        rw [beq_eq_decide, decide_eq_decide, ← mem, old]
      have e3 : (ms.filter fun i => !o.members.contains i).contains u = (decide (u ∈ ms) && !decide (u ∈ o.members)) := by
        rw [List.contains_eq_mem]; simp [List.mem_filter]
      have e4 : u ∈ o.members → u ∈ ms := by
        intro k; by_contra g
        rw [hw u k g] at hu; simp at hu
      rw [e1, e2, e3]
      by_cases x : u ∈ o.members
      · simp [x, e4 x]
      · simp [x]
    · rw [if_neg e]
      have := h.alarms m
      unfold Site.alarmsOf at this
      rw [this]
      congr 1; funext u r
      congr 1
      rw [Bool.eq_iff_iff, beq_iff_eq, beq_iff_eq, iff, if_neg e]
  · rw [hr.permits]
    unfold Site.permitsOf; rw [lk]
    by_cases e : m = n
    · subst e
      rw [if_pos rfl, ← h.permits m]; exact op
    · rw [if_neg e]; exact h.permits m
  · rw [iff, lk]
    by_cases e : m = n
    · rw [if_pos e, if_pos e]; simp [Crew.terminals]
    · rw [if_neg e, if_neg e]; exact h.bound i m
  · rw [lk] at hm'
    simp only [hr.kindAt]
    split at hm'
    · obtain rfl := Option.some.inj hm'; exact ⟨hd, hv, hm⟩
    · exact h.kinds m d hm'
  · rw [hr.kindAt]; rw [hr.watches] at hu; exact h.units u r hu
  · rw [hr.permits]; exact h.retained

end Sys2Proof.Machine
end

