-- ==== Sys2Proof/Laws/Interlock.lean ====
section
/-! SUPPORT. The interlock law of R139 at the changes that could break it: a permit enters ISSUING, a readback raises the counts, a
permit is restored, and the section map changes. -/

set_option Elab.async false

namespace Sys2Proof.Machine

variable {s : Site}

/-- The sections after the counts of some have been raised or lowered. -/
theorem sections_fold (g : Nat → Nat) (l : List Nat) (w : Work) :
    (l.foldl (fun w n => w.modSite fun s => { s with sections := s.sections.adjust n g }) w).site
      = { w.site with sections := l.foldl (fun t n => Table.adjust t n g) w.site.sections } := by
  induction l generalizing w with
  | nil => rfl
  | cons n l ih => simp [ih]

theorem look_fold_other (g : Nat → Nat) (l : List Nat) (t : Table Nat) (n : Nat) (h : n ∉ l) :
    Table.look (l.foldl (fun t n => Table.adjust t n g) t) n = Table.look t n := by
  induction l generalizing t with
  | nil => rfl
  | cons m l ih =>
    simp only [List.mem_cons, not_or] at h
    rw [List.foldl_cons, ih _ h.2, Table.look_adjust_other _ _ _ _ h.1]

theorem wf_fold (g : Nat → Nat) (l : List Nat) (t : Table Nat) (h : Table.wf t = true) :
    Table.wf (l.foldl (fun t n => Table.adjust t n g) t) = true := by
  induction l generalizing t with
  | nil => exact h
  | cons m l ih => exact ih _ (Table.wf_adjust h _ _)

/-- A count that is 0 stays 0 when counts are lowered. -/
theorem look_lower (l : List Nat) (t : Table Nat) (n : Nat) (h : (Table.look t n).getD 0 = 0) :
    (Table.look (l.foldl (fun t n => Table.adjust t n (· - 1)) t) n).getD 0 = 0 := by
  induction l generalizing t with
  | nil => exact h
  | cons m l ih =>
    refine ih _ ?_
    by_cases e : n = m
    · subst e; cases k : Table.look t n <;> simp_all
    · rw [Table.look_adjust_other _ _ _ _ e]; exact h

/-- A permit whose record is in the table, as the table's form tells it. -/
theorem look_of_livePermit (h : s.sorted = true) {n k : Nat} {p : Permit} (e : s.livePermit n = some (k, p)) :
    Table.look s.permits k = some p ∧ p.number = n ∧ p.live = true := by
  have := Table.look_of_seek ((sorted_iff s).1 h).2.2.2.2.2.2.2.2 e
  simpa using this

theorem joins_iff (q : SwitchPoint) (n : Nat) : q.joins n = true ↔ n ∈ q.sides := by
  cases h : q.sideB <;> simp [SwitchPoint.joins, SwitchPoint.sides, h] <;> omega

/-- SC-1 and SC-2 of a CLOSE: the sections the switch point joins are neither cleared nor being cleared. -/
theorem clear_of_closing {sw : Nat} (h : s.interlock (.switching sw .closing) = true) {q : SwitchPoint}
    (hq : Table.look s.switches sw = some q) {n : Nat} (hn : q.joins n = true) :
    s.clearances n = 0 ∧ ∀ f ∈ s.permits, f.2.state = .issuing → n ∉ f.2.work.sections := by
  simp only [Site.interlock, Bool.and_eq_true, Site.checkSC1, Site.checkSC2, hq, Option.any_some, Bool.not_eq_true',
    List.all_eq_true, Bool.or_eq_true, bne_iff_ne, ne_eq, Site.tagged, List.any_eq_false] at h
  refine ⟨?_, fun f hf hs hm => ?_⟩
  · have := h.1 n ((joins_iff _ _).1 hn)
    simpa using this
  · rcases h.2 f hf with k | k
    · exact k hs
    · simp only [PermitWork.meets, List.any_eq_false] at k
      exact k n hm hn

/-- CL-2 of a clearance: no active CLOSE joins a listed section. -/
theorem clear_of_clearance {l : List Nat} (h : s.checkCL2 l = true) {e : Nat × Permit} (he : e ∈ s.permits) {sw : Nat}
    (hw : e.2.work = .switching sw .closing) (hs : e.2.state = .issuing ∨ e.2.state = .issued) {q : SwitchPoint}
    (hq : Table.look s.switches sw = some q) {n : Nat} (hn : q.joins n = true) : n ∉ l := by
  simp only [Site.checkCL2, List.all_eq_true] at h
  have k := h e he
  rw [hw] at k
  simp only [hq, Option.any_some, Bool.or_eq_true, Bool.not_eq_true', List.any_eq_false] at k
  rcases k with k | k
  · rcases hs with hs | hs <;> simp [hs] at k
  · exact fun hm => k n hm hn

/-- The listed sections of a permit whose checks pass are joined by no active CLOSE. -/
theorem listed_clear {k : PermitWork} (h : s.interlock k = true) {e : Nat × Permit} (he : e ∈ s.permits) {sw : Nat}
    (hw : e.2.work = .switching sw .closing) (hs : e.2.state = .issuing ∨ e.2.state = .issued) {q : SwitchPoint}
    (hq : Table.look s.switches sw = some q) {n : Nat} (hn : q.joins n = true) : n ∉ k.sections := by
  cases k with
  | clearance l =>
    simp only [Site.interlock, Bool.and_eq_true] at h
    exact clear_of_clearance h.2 he hw hs hq hn
  | switching _ _ => simp [PermitWork.sections]

/-- ISSUE_PERMIT keeps the law: the checks of R139 passed as the permit entered ISSUING. -/
theorem Site.lawful_of_issue {k : Nat} {p : Permit} (hk : Table.look s.permits k = some p)
    (hi : s.interlock p.work = true) (f : Permit → Permit) (hw : ∀ p, (f p).work = p.work)
    (hs : ∀ p, (f p).state = .issuing) (h : s.lawful) : ({ s with permits := s.permits.adjust k f } : Site).lawful := by
  have hm : ∀ e ∈ s.permits.adjust k f, e = (k, f p) ∨ e ∈ s.permits := by
    intro e he
    unfold Table.adjust at he
    rw [hk] at he
    exact Table.mem_put he
  refine ⟨fun e he sw hwk hst q hq n hn => ?_, fun e he hst => ?_⟩
  · rcases hm e he with rfl | he'
    · have hwk' : p.work = .switching sw .closing := (hw p).symm.trans hwk
      rw [hwk'] at hi
      obtain ⟨h1, h2⟩ := clear_of_closing hi hq hn
      refine ⟨h1, fun g hg hgi => ?_⟩
      rcases hm g hg with rfl | hg'
      · change n ∉ (f p).work.sections
        rw [hw, hwk']; simp [PermitWork.sections]
      · exact h2 g hg' hgi
    · obtain ⟨h1, h2⟩ := h.1 e he' sw hwk hst q hq n hn
      refine ⟨h1, fun g hg hgi => ?_⟩
      rcases hm g hg with rfl | hg'
      · change n ∉ (f p).work.sections
        rw [hw]; exact listed_clear hi he' hwk hst hq hn
      · exact h2 g hg' hgi
  · rcases hm e he with rfl | he'
    · exact absurd ((hs p).symm.trans hst) (by decide)
    · exact h.2 e he' hst

/-- A matching READBACK keeps the law: the counts rise for sections that a clearance in ISSUING lists. -/
theorem Site.lawful_of_readback {k : Nat} {p : Permit} (hk : Table.look s.permits k = some p) (hp : p.state = .issuing)
    (f : Permit → Permit) (hw : ∀ p, (f p).work = p.work) (hs : ∀ p, (f p).state = .issued) {x : Table Nat}
    (hx : ∀ n, n ∉ p.work.sections → Table.look x n = Table.look s.sections n) (h : s.lawful) :
    ({ s with permits := s.permits.adjust k f, sections := x } : Site).lawful := by
  have hc : ∀ e ∈ s.permits.adjust k f, ∃ g ∈ s.permits, e.2.Calmer g.2 := by
    intro e he
    unfold Table.adjust at he
    rw [hk] at he
    rcases Table.mem_put he with rfl | he
    · refine ⟨(k, p), Table.mem_of_look hk, hw p, fun _ _ _ => .inl hp, fun hi => ?_, fun hi => ?_⟩
      · exact absurd ((hs p).symm.trans hi) (by decide)
      · exact absurd ((hs p).symm.trans hi) (by decide)
    · exact ⟨e, he, .of_state rfl rfl⟩
  have h' : ({ s with permits := s.permits.adjust k f } : Site).lawful :=
    Site.lawful_of_calmer (a := s) hc (fun _ q hq => ⟨q, hq, fun _ => rfl⟩) (fun _ h => h) h
  refine ⟨fun e he sw hwk hst q hq n hn => ?_, h'.2⟩
  obtain ⟨h1, h2⟩ := h'.1 e he sw hwk hst q hq n hn
  refine ⟨?_, h2⟩
  obtain ⟨g, hg, kc⟩ := hc e he
  have hn' := (h.1 g hg sw (kc.work ▸ hwk) (kc.closing sw hwk hst) q hq n hn).2 (k, p) (Table.mem_of_look hk) hp
  have : (Table.look x n).getD 0 = 0 := by rw [hx n hn']; exact h1
  exact this

/-- RESTORE_PERMIT keeps the law: the checks of R139 passed. -/
theorem Site.lawful_of_restore {k : Nat} {p : Permit} (hi : s.interlock p.work = true) (hp : p.state = .issued)
    {x : Table Nat} (hx : ∀ n, n ∉ p.work.sections → Table.look x n = Table.look s.sections n) (h : s.lawful) :
    ({ s with permits := s.permits.put k p, sections := x } : Site).lawful := by
  refine ⟨fun e he sw hwk hst q hq n hn => ?_, fun e he hst => ?_⟩
  · have key : s.clearances n = 0 ∧ n ∉ p.work.sections ∧ ∀ f ∈ s.permits, f.2.state = .issuing →
        n ∉ f.2.work.sections := by
      rcases Table.mem_put he with rfl | he'
      · have hwk' : p.work = .switching sw .closing := hwk
        rw [hwk'] at hi
        obtain ⟨h1, h2⟩ := clear_of_closing hi hq hn
        exact ⟨h1, by rw [hwk']; simp [PermitWork.sections], h2⟩
      · obtain ⟨h1, h2⟩ := h.1 e he' sw hwk hst q hq n hn
        exact ⟨h1, listed_clear hi he' hwk hst hq hn, h2⟩
    have h1 : (Table.look x n).getD 0 = 0 := by rw [hx n key.2.1]; exact key.1
    refine ⟨h1, fun g hg hgi => ?_⟩
    rcases Table.mem_put hg with rfl | hg'
    · exact absurd (hp.symm.trans hgi) (by decide)
    · exact key.2.2 g hg' hgi
  · rcases Table.mem_put he with rfl | he'
    · exact absurd (hp.symm.trans hst) (by decide)
    · exact h.2 e he' hst

/-- A new permit in REQUESTED keeps the law. -/
theorem Site.lawful_of_request {k : Nat} {p : Permit} (hp : p.state = .requested) (h : s.lawful) :
    ({ s with permits := s.permits.put k p } : Site).lawful := by
  refine ⟨fun e he sw hwk hst q hq n hn => ?_, fun e he hst => ?_⟩
  · rcases Table.mem_put he with rfl | he'
    · simp [hp] at hst
    · obtain ⟨h1, h2⟩ := h.1 e he' sw hwk hst q hq n hn
      refine ⟨h1, fun g hg hgi => ?_⟩
      rcases Table.mem_put hg with rfl | hg'
      · exact absurd (hp.symm.trans hgi) (by decide)
      · exact h2 g hg' hgi
  · rcases Table.mem_put he with rfl | he'
    · exact absurd (hp.symm.trans hst) (by decide)
    · exact h.2 e he' hst

/-- Lower or equal counts keep the law. -/
theorem Site.lawful_of_sections {x : Table Nat} (hx : ∀ n, s.clearances n = 0 → (Table.look x n).getD 0 = 0)
    (h : s.lawful) : ({ s with sections := x } : Site).lawful :=
  Site.lawful_of_calmer (a := s) (fun e he => ⟨e, he, .of_state rfl rfl⟩) (fun _ q hq => ⟨q, hq, fun _ => rfl⟩) hx h

/-- Switch points that are fewer, or join the same sections, keep the law. -/
theorem Site.lawful_of_switches {x : Table SwitchPoint} (hx : ∀ k q, Table.look x k = some q →
    ∃ r, Table.look s.switches k = some r ∧ ∀ n, q.joins n = r.joins n) (h : s.lawful) :
    ({ s with switches := x } : Site).lawful :=
  Site.lawful_of_calmer (a := s) (fun e he => ⟨e, he, .of_state rfl rfl⟩) hx (fun _ h => h) h

/-- A switch point changed in its position and marks keeps the law. -/
theorem Site.lawful_of_position (sw : Nat) (f : SwitchPoint → SwitchPoint) (hf : ∀ q n, (f q).joins n = q.joins n)
    (h : s.lawful) : ({ s with switches := s.switches.adjust sw f } : Site).lawful := by
  refine Site.lawful_of_switches (fun k q hq => ?_) h
  by_cases e : k = sw
  · subst e
    rw [Table.look_adjust_same] at hq
    cases hr : Table.look s.switches k with
    | none => simp [hr] at hq
    | some r => exact ⟨r, rfl, fun n => by simp [hr] at hq; rw [← hq, hf]⟩
  · rw [Table.look_adjust_other _ _ _ _ e] at hq
    exact ⟨q, hq, fun _ => rfl⟩

/-- A switch point that no live switching permit names can be defined anew (R134). -/
theorem Site.lawful_of_define {n : Nat} {p : SwitchPoint}
    (hn : ∀ e ∈ s.permits, e.2.live = true → ∀ op, e.2.work ≠ .switching n op) (h : s.lawful) :
    ({ s with switches := s.switches.put n p } : Site).lawful := by
  refine ⟨fun e he sw hwk hst q hq m hm => ?_, h.2⟩
  have hsw : sw ≠ n := by
    rintro rfl
    refine hn e he ?_ _ hwk
    rcases hst with h | h <;> simp [Permit.live, h, PermitState.live]
  have hq' : Table.look s.switches sw = some q := by
    rw [← Table.look_put_other s.switches n sw p hsw]; exact hq
  exact h.1 e he sw hwk hst q hq' m hm

end Sys2Proof.Machine
end

