-- ==== Sys2Proof/Laws/Owed.lean ====
section
/-! SUPPORT. What the operations on owed items leave alone, said once: placing, cancelling and moving items changes the Pending
Urgent List and the channels' queues, and offers no report. -/

set_option Elab.async false

namespace Sys2Proof.Machine

/-- The site without what the operations on owed items change: the list, its next number and the channels. -/
def Site.rest (s : Site) : Site := { s with pul := [], nextItem := 0, channels := Vector.replicate 4 .blank }

theorem Site.rest_eq {a b : Site} (h : b.rest = a.rest) {α : Type} (f : Site → α) (hf : ∀ s : Site, f s.rest = f s) :
    f b = f a := by rw [← hf b, ← hf a, h]

variable (w : Work)

theorem Work.insertItem_rest (o : Owner) (i : Nat) (x : ItemContent) : (w.insertItem o i x).site.rest = w.site.rest := by
  simp only [Work.insertItem]; repeat' split
  all_goals rfl

theorem Work.insertItem_out (o : Owner) (i : Nat) (x : ItemContent) : (w.insertItem o i x).out = w.out := by
  simp only [Work.insertItem]; repeat' split
  all_goals rfl

theorem Work.fillSome_rest (c : Chan) (n : Nat) : (Work.fillSome c n w).site.rest = w.site.rest := by
  induction n generalizing w with
  | zero => rfl
  | succ n ih =>
    simp only [Work.fillSome]; repeat' split
    · exact ih _
    all_goals rfl

theorem Work.fillSome_out (c : Chan) (n : Nat) : (Work.fillSome c n w).out = w.out := by
  induction n generalizing w with
  | zero => rfl
  | succ n ih =>
    simp only [Work.fillSome]; repeat' split
    · exact ih _
    all_goals rfl

theorem Work.placeNoteRecall_rest (i : Nat) : (w.placeNoteRecall i).site.rest = w.site.rest := by
  unfold Work.placeNoteRecall; repeat' split
  · exact insertItem_rest _ _ _ _
  all_goals rfl

theorem Work.placeNoteRecall_out (i : Nat) : (w.placeNoteRecall i).out = w.out := by
  unfold Work.placeNoteRecall; repeat' split
  · exact insertItem_out _ _ _ _
  all_goals rfl

theorem Work.serveNotes_rest : w.serveNotes.site.rest = w.site.rest := by
  unfold Work.serveNotes; split
  · exact placeNoteRecall_rest _ _
  · rfl

theorem Work.serveNotes_out : w.serveNotes.out = w.out := by
  unfold Work.serveNotes; split
  · exact placeNoteRecall_out _ _
  · rfl

theorem Work.leftSystem_rest (it : PulItem) : (w.leftSystem it).site.rest = w.site.rest := by
  unfold Work.leftSystem; split
  · exact serveNotes_rest _
  · rfl

theorem Work.leftSystem_out (it : PulItem) : (w.leftSystem it).out = w.out := by
  unfold Work.leftSystem; split
  · exact serveNotes_out _
  · rfl

theorem Work.cancelEntry_rest (c : Chan) (id : Nat) : (w.cancelEntry c id).site.rest = w.site.rest := by
  unfold Work.cancelEntry; repeat' split
  · exact fillSome_rest _ _ _
  all_goals rfl

theorem Work.cancelEntry_out (c : Chan) (id : Nat) : (w.cancelEntry c id).out = w.out := by
  unfold Work.cancelEntry; repeat' split
  · exact fillSome_out _ _ _
  all_goals rfl

theorem Work.cancelItem_rest (id : Nat) : (w.cancelItem id).site.rest = w.site.rest := by
  unfold Work.cancelItem; repeat' split
  · rfl
  · exact leftSystem_rest _ _
  · exact (leftSystem_rest _ _).trans (cancelEntry_rest _ _ _)

theorem Work.cancelItem_out (id : Nat) : (w.cancelItem id).out = w.out := by
  unfold Work.cancelItem; repeat' split
  · rfl
  · exact leftSystem_out _ _
  · exact (leftSystem_out _ _).trans (cancelEntry_out _ _ _)

theorem Work.cancelOwned_rest (o : Owner) (k : ItemKind) : (w.cancelOwned o k).site.rest = w.site.rest := by
  unfold Work.cancelOwned; split
  · exact cancelItem_rest _ _
  · rfl

theorem Work.cancelOwned_out (o : Owner) (k : ItemKind) : (w.cancelOwned o k).out = w.out := by
  unfold Work.cancelOwned; split
  · exact cancelItem_out _ _
  · rfl

theorem Work.place_rest (o : Owner) (i : Nat) (x : ItemContent) : (w.place o i x).site.rest = w.site.rest := by
  unfold Work.place; split
  · rfl
  · exact (insertItem_rest _ _ _ _).trans (cancelOwned_rest _ _ _)

theorem Work.place_out (o : Owner) (i : Nat) (x : ItemContent) : (w.place o i x).out = w.out := by
  unfold Work.place; split
  · rfl
  · exact (insertItem_out _ _ _ _).trans (cancelOwned_out _ _ _)

theorem Work.placeResult_rest (k : Nat) (r : ResultCode) : (w.placeResult k r).site.rest = w.site.rest := by
  unfold Work.placeResult; repeat' split
  · exact place_rest _ _ _ _
  all_goals rfl

theorem Work.placeResult_out (k : Nat) (r : ResultCode) : (w.placeResult k r).out = w.out := by
  unfold Work.placeResult; repeat' split
  · exact place_out _ _ _ _
  all_goals rfl

/-- Placing an ALERT frame changes the channels alone. -/
theorem Work.pushAlert_rest (c : Chan) (x : AlertContent) : (w.pushAlert c x).site.rest = w.site.rest := rfl

end Sys2Proof.Machine
end

