-- ==== Sys2Proof/Laws/Items.lean ====
section
/-! SUPPORT. What the operations on owed items can do to the Pending Urgent List, said once: placing, moving, cancelling and
serving, in terms of the items that go, that stay and that come (R81 to R84, R77, R108). -/

set_option Elab.async false

namespace Sys2Proof.Machine

/-- What the operations on owed items can do to a site, of which they change the list, its next number and the channels alone
(R81 to R84): an item that is not `gone` stays, but for where it stands, and an item that stands afterwards stood before and is
not gone, or is `new` and has a number that no item had. -/
structure Moved (gone : Nat → Prop) (new : PulItem → Prop) (a b : Site) : Prop where
  rest : b.rest = a.rest
  next : a.nextItem ≤ b.nextItem
  stay : ∀ id it, Table.look a.pul id = some it → ¬gone id →
    ∃ place, Table.look b.pul id = some { it with location := place }
  came : ∀ id it, Table.look b.pul id = some it →
    (¬gone id ∧ ∃ old, Table.look a.pul id = some old ∧ it = { old with location := it.location })
      ∨ (a.nextItem ≤ id ∧ new { it with location := none })

namespace Moved
variable {g g' : Nat → Prop} {n n' : PulItem → Prop} {a b c : Site}

theorem weaken (h : Moved g n a b) (hg : ∀ id, g id ↔ g' id) (hn : ∀ it, n it → n' it) : Moved g' n' a b where
  rest := h.rest
  next := h.next
  stay id it hl hk := h.stay id it hl fun k => hk ((hg id).1 k)
  came id it hl := (h.came id it hl).imp (fun k => ⟨fun j => k.1 ((hg id).2 j), k.2⟩) fun k => ⟨k.1, hn _ k.2⟩

theorem trans (h : Moved g n a b) (k : Moved g' n' b c) : Moved (fun id => g id ∨ g' id) (fun it => n it ∨ n' it) a c where
  rest := k.rest.trans h.rest
  next := h.next.trans k.next
  stay id it hl hg := by
    obtain ⟨p, hp⟩ := h.stay id it hl fun j => hg (.inl j)
    obtain ⟨q, hq⟩ := k.stay id _ hp fun j => hg (.inr j)
    exact ⟨q, hq⟩
  came id it hl := by
    rcases k.came id it hl with ⟨h1, old, h2, h3⟩ | ⟨h1, h2⟩
    · rcases h.came id old h2 with ⟨h4, older, h5, h6⟩ | ⟨h4, h5⟩
      · exact .inl ⟨fun j => j.elim h4 h1, older, h5, by rw [h3, h6]⟩
      · refine .inr ⟨h4, .inl ?_⟩
        rw [h3]; exact h5
    · exact .inr ⟨h.next.trans h1, .inr h2⟩

/-- The list and the next number are as they were. -/
theorem same (hr : b.rest = a.rest) (hp : b.pul = a.pul) (hi : b.nextItem = a.nextItem) :
    Moved (fun _ => False) (fun _ => False) a b where
  rest := hr
  next := hi ▸ Nat.le_refl _
  stay id it hl _ := ⟨it.location, by rw [hp]; exact hl⟩
  came id it hl := .inl ⟨fun k => k, it, by rw [← hp]; exact hl, rfl⟩

theorem dropItem (w : Work) (id : Nat) : Moved (· = id) (fun _ => False) w.site (w.dropItem id).site where
  rest := rfl
  next := Nat.le_refl _
  stay j it hl hj := ⟨it.location, by
    show Table.look (Table.del _ _) j = _
    rw [Table.look_del_other _ _ _ hj]; exact hl⟩
  came j it hl := by
    have hl : Table.look (Table.del w.site.pul id) j = some it := hl
    have hj : j ≠ id := by rintro rfl; rw [Table.look_del_same] at hl; cases hl
    rw [Table.look_del_other _ _ _ hj] at hl
    exact .inl ⟨hj, it, hl, rfl⟩

theorem moveItem (w : Work) (id : Nat) (it : PulItem) (c : Chan) (h : Table.look w.site.pul id = some it) :
    Moved (fun _ => False) (fun _ => False) w.site (w.moveItem id it c).site where
  rest := rfl
  next := Nat.le_refl _
  stay j x hl _ := by
    show ∃ _, Table.look (Table.put _ _ _) j = _
    by_cases hj : j = id
    · subst hj; rw [h] at hl; cases hl; exact ⟨some c, Table.look_put_same _ _ _⟩
    · rw [Table.look_put_other _ _ _ _ hj]; exact ⟨x.location, hl⟩
  came j x hl := by
    have hl : Table.look (Table.put w.site.pul id { it with location := some c }) j = some x := hl
    by_cases hj : j = id
    · subst hj; rw [Table.look_put_same] at hl; cases hl; exact .inl ⟨fun k => k, it, h, rfl⟩
    · rw [Table.look_put_other _ _ _ _ hj] at hl; exact .inl ⟨fun k => k, x, hl, rfl⟩

theorem refl : Moved (fun _ => False) (fun _ => False) a a := same rfl rfl rfl

theorem step (h : Moved g n a b) (k : Moved (fun _ => False) (fun _ => False) b c) : Moved g n a c :=
  (h.trans k).weaken (fun _ => by simp) fun _ j => j.elim (fun x => x) False.elim

theorem pre (h : Moved (fun _ => False) (fun _ => False) a b) (k : Moved g n b c) : Moved g n a c :=
  (h.trans k).weaken (fun _ => by simp) fun _ j => j.elim False.elim fun x => x

end Moved

section
variable {w : Work} (hs : w.site.sorted = true)
include hs

theorem Work.pul_wf : Table.wf w.site.pul = true := Table.wf_of_wfBelow ((sorted_iff _).1 hs).2.2.1

theorem Work.item_below {id : Nat} {it : PulItem} (h : Table.look w.site.pul id = some it) : id < w.site.nextItem :=
  ((Table.wfBelow_iff _ _).1 ((sorted_iff _).1 hs).2.2.1).2 _ (Table.mem_of_look h)

/-- Room offered to the list moves items and takes none away (R83). -/
theorem Work.fillSome_moved (c : Chan) (n : Nat) :
    Moved (fun _ => False) (fun _ => False) w.site (Work.fillSome c n w).site := by
  induction n generalizing w with
  | zero => exact .refl
  | succ n ih =>
    simp only [Work.fillSome]
    repeat' split
    · rename_i id it e
      have hl := (Table.look_of_seek (Work.pul_wf hs) e).1
      have hk : (w.moveItem id it c).site.sorted = true :=
        (Work.moveItem_kept (.refl w.site) id it c fun _ => Work.item_below hs hl).sorted hs
      exact (Moved.moveItem w id it c hl).step (ih hk)
    all_goals exact .refl

/-- A placed item takes the next number; nothing else comes and nothing goes (R82). -/
theorem Work.insertItem_moved (o : Owner) (i : Nat) (x : ItemContent) :
    Moved (fun _ => False) (· = { owner := o, addressee := i, content := x, location := none }) w.site
        (w.insertItem o i x).site
      ∧ ∃ place, Table.look (w.insertItem o i x).site.pul w.site.nextItem
          = some { owner := o, addressee := i, content := x, location := place } := by
  let it : PulItem := { owner := o, addressee := i, content := x, location := none }
  let v := w.modSite fun s => { s with pul := s.pul.put w.site.nextItem it, nextItem := w.site.nextItem + 1 }
  have hn : Table.look w.site.pul w.site.nextItem = none := by
    cases h : Table.look w.site.pul w.site.nextItem with
    | none => rfl
    | some y => exact absurd (Work.item_below hs h) (Nat.lt_irrefl _)
  have hv : Table.look v.site.pul w.site.nextItem = some it := Table.look_put_same _ _ _
  have h1 : Moved (fun _ => False) (· = it) w.site v.site := by
    refine ⟨rfl, Nat.le_succ _, fun j y hl _ => ⟨y.location, ?_⟩, fun j y hl => ?_⟩
    · have hj : j ≠ w.site.nextItem := by rintro rfl; rw [hn] at hl; cases hl
      show Table.look (Table.put _ _ _) j = _
      rw [Table.look_put_other _ _ _ _ hj]; exact hl
    · have hl : Table.look (Table.put w.site.pul w.site.nextItem it) j = some y := hl
      by_cases hj : j = w.site.nextItem
      · subst hj; rw [Table.look_put_same] at hl; cases hl; exact .inr ⟨Nat.le_refl _, rfl⟩
      · rw [Table.look_put_other _ _ _ _ hj] at hl; exact .inl ⟨fun k => k, y, hl, rfl⟩
  have hm : ∀ c, Moved (fun _ => False) (fun _ => False) v.site (v.moveItem w.site.nextItem it c).site :=
    fun c => .moveItem v _ _ _ hv
  simp only [Work.insertItem]
  repeat' split
  · exact ⟨h1.step (hm _), _, Table.look_put_same _ _ _⟩
  all_goals exact ⟨h1, none, hv⟩

/-- A note's RECALL is owned by and addressed to one AFFILIATED terminal (R108). -/
theorem Work.serveNotes_moved :
    Moved (fun _ => False) (fun it => it.owner.isTerminal = true ∧ w.site.affiliated it.addressee = true) w.site
      w.serveNotes.site := by
  unfold Work.serveNotes
  split
  · rename_i i t e
    unfold Work.placeNoteRecall
    repeat' split
    · refine (Work.insertItem_moved hs _ _ _).1.weaken (fun _ => Iff.rfl) ?_
      rintro it rfl
      refine ⟨rfl, ?_⟩
      obtain ⟨hl, he⟩ := Table.look_of_seek ((sorted_iff _).1 hs).1 e
      simp only [Bool.and_eq_true] at he
      show Site.affiliated w.site i = true
      unfold Site.affiliated
      rw [hl]; exact he.1.1
    all_goals exact Moved.refl.weaken (fun _ => Iff.rfl) fun _ k => k.elim
  · exact Moved.refl.weaken (fun _ => Iff.rfl) fun _ k => k.elim


/-- What a cancellation takes away and what may follow it: the item goes, and where a terminal owned it the oldest notes are
served with the place (R77, R84, R108). -/
theorem Work.cancelItem_moved (id : Nat) (it : PulItem) (h : Table.look w.site.pul id = some it) :
    Moved (· = id) (fun x => it.owner.isTerminal = true ∧ x.owner.isTerminal = true ∧ w.site.affiliated x.addressee = true)
      w.site (w.cancelItem id).site := by
  have hd := Moved.dropItem w id
  have hds : (w.dropItem id).site.sorted = true := (Work.dropItem_kept (.refl w.site) id).sorted hs
  have hl : ∀ v : Work, v.site.sorted = true → Moved (· = id) (fun _ => False) w.site v.site →
      Moved (· = id) (fun x => it.owner.isTerminal = true ∧ x.owner.isTerminal = true ∧ w.site.affiliated x.addressee = true)
        w.site (v.leftSystem it).site := by
    intro v hv k
    unfold Work.leftSystem
    split
    · rename_i ho
      refine (k.trans (Work.serveNotes_moved hv)).weaken (fun _ => by simp) ?_
      rintro x (j | ⟨j1, j2⟩)
      · exact j.elim
      · exact ⟨ho, j1, by rw [← j2]; exact (Site.rest_eq k.rest (fun s => s.affiliated x.addressee) fun _ => rfl).symm⟩
    · exact k.weaken (fun _ => Iff.rfl) fun _ j => j.elim
  unfold Work.cancelItem
  simp only [h]
  split
  · exact hl _ hds hd
  · rename_i c _
    refine hl _ ((Work.cancelEntry_kept (.refl _) c id).sorted hds) (hd.step ?_)
    unfold Work.cancelEntry
    repeat' split
    · have hr : ((w.dropItem id).removeEntry c id).site.sorted = true := (Work.removeEntry_kept (.refl _) c id).sorted hds
      have h0 : Moved (fun _ => False) (fun _ => False) (w.dropItem id).site ((w.dropItem id).removeEntry c id).site :=
        .same rfl rfl rfl
      exact h0.step (Work.fillSome_moved hr c 16)
    · exact .same rfl rfl rfl
    · exact .refl

/-- An owner's cancellation takes away its item of the kind and no other (R82, R84). -/
theorem Work.cancelOwned_moved (o : Owner) (k : ItemKind) (ho : o.isTerminal = false) :
    Moved (fun id => ∃ it, w.site.owned o k = some (id, it)) (fun _ => False) w.site (w.cancelOwned o k).site := by
  unfold Work.cancelOwned
  split
  · rename_i id it e
    obtain ⟨hl, he⟩ := Table.look_of_seek (Work.pul_wf hs) e
    simp only [Bool.and_eq_true, beq_iff_eq] at he
    refine (Work.cancelItem_moved hs id it hl).weaken (fun j => ⟨?_, ?_⟩) fun x j => ?_
    · rintro rfl; exact ⟨it, e⟩
    · rintro ⟨y, hy⟩; rw [e] at hy; cases hy; rfl
    · rw [he.1, ho] at j; exact absurd j.1 (by simp)
  · rename_i e
    exact Moved.refl.weaken (fun j => ⟨False.elim, fun ⟨y, hy⟩ => by rw [e] at hy; cases hy⟩) fun _ j => j

/-- A placement by an owner that is no terminal (R82). -/
theorem Work.place_moved (o : Owner) (i : Nat) (x : ItemContent) (ho : o.isTerminal = false) :
    Moved (fun id => ∃ it, w.site.owned o x.kind = some (id, it))
        (· = { owner := o, addressee := i, content := x, location := none }) w.site (w.place o i x).site
      ∧ ∃ id place, Table.look (w.place o i x).site.pul id
          = some { owner := o, addressee := i, content := x, location := place } := by
  have e : w.place o i x = (w.cancelOwned o x.kind).insertItem o i x := by
    unfold Work.place Site.placementRefused; rw [ho]; rfl
  rw [e]
  have hk := (Work.cancelOwned_kept (.refl w.site) o x.kind).sorted hs
  have h := Work.insertItem_moved hk o i x
  exact ⟨((Work.cancelOwned_moved hs o x.kind ho).trans h.1).weaken (fun _ => by simp) fun _ j => j.elim False.elim fun k => k,
    _, h.2⟩

end
end Sys2Proof.Machine
end

