-- ==== Sys2Proof/Laws/Steady.lean ====
section
/-! SUPPORT. What the reactions to an affiliation and to an absence leave alone, said once: the state, the timers and the
transmitter of every channel, and who every terminal is and where it stands. -/

set_option Elab.async false

namespace Sys2Proof.Machine

/-- A channel without its queues, its access set, its counters and its window. -/
def Channel.still (ch : Channel) : Channel :=
  { ch with
    alerts := [], urgents := [], accessSet := [], inFlightBlocks := 0, stats := .zero, window := none, onAir := none }

/-- Who a terminal is, what it declared, and where it stands. -/
def Terminal.face (t : Terminal) : Terminal :=
  { t with credit := 0, sequenceBit := false, outstanding := none, notes := [] }

/-- What the reactions of the owners leave alone, from site `a` to site `b`. -/
structure Steady (a b : Site) : Prop where
  still : ∀ c, (b.chan c).still = (a.chan c).still
  shut : ∀ c, (a.chan c).window = none → (b.chan c).window = none
  silent : ∀ c, (a.chan c).onAir = none → (b.chan c).onAir = none
  faces : ∀ i, (Table.look b.roster i).map Terminal.face = (Table.look a.roster i).map Terminal.face

theorem Steady.refl (a : Site) : Steady a a := ⟨fun _ => rfl, fun _ => id, fun _ => id, fun _ => rfl⟩

theorem Steady.trans {a b c : Site} (h : Steady a b) (k : Steady b c) : Steady a c :=
  ⟨fun d => (k.still d).trans (h.still d), fun d => k.shut d ∘ h.shut d, fun d => k.silent d ∘ h.silent d,
    fun i => (k.faces i).trans (h.faces i)⟩

/-- Nothing but a change of the channels or of the roster can disturb. -/
theorem Steady.of_eq {a b : Site} (h : b.channels = a.channels) (k : b.roster = a.roster) : Steady a b := by
  have e : ∀ c, b.chan c = a.chan c := fun c => by simp [Site.chan, h]
  exact ⟨fun c => by rw [e], fun c => by rw [e]; exact id, fun c => by rw [e]; exact id, fun i => by rw [k]⟩

variable {a : Site} {w : Work}

theorem Steady.same {b : Site} (h : Steady a w.site) (k : b.channels = w.site.channels) (l : b.roster = w.site.roster) :
    Steady a b := h.trans (.of_eq k l)

theorem Work.modChan_steady (h : Steady a w.site) (c : Chan) (f : Channel → Channel) (hs : ∀ ch, (f ch).still = ch.still)
    (hw : ∀ ch, ch.window = none → (f ch).window = none) (ha : ∀ ch, ch.onAir = none → (f ch).onAir = none) :
    Steady a (w.modChan c f).site := by
  refine h.trans ⟨fun d => ?_, fun d => ?_, fun d => ?_, fun _ => rfl⟩ <;> rw [Work.modChan_chan] <;> split
  · rename_i e; rw [e]; exact hs _
  · rfl
  · rename_i e; rw [e]; exact hw _
  · exact id
  · rename_i e; rw [e]; exact ha _
  · exact id

theorem Work.modTerminal_steady (h : Steady a w.site) (i : Nat) (f : Terminal → Terminal)
    (hf : ∀ t, (f t).face = t.face) : Steady a (w.modTerminal i f).site := by
  refine h.trans ⟨fun _ => rfl, fun _ => id, fun _ => id, fun j => ?_⟩
  rw [Work.modTerminal_site]
  by_cases e : j = i
  · subst e; simp only [Table.look_adjust_same, Option.map_map]
    cases Table.look w.site.roster j
    · rfl
    · exact congrArg some (hf _)
  · simp only [Table.look_adjust_other _ _ _ _ e]

theorem foldl_steady {β : Type} (f : Work → β → Work) (hf : ∀ v e, Steady a v.site → Steady a (f v e).site) (l : List β)
    (v : Work) (h : Steady a v.site) : Steady a (l.foldl f v).site := by
  induction l generalizing v with
  | nil => exact h
  | cons e l ih => exact ih _ (hf v e h)

theorem Work.modOrder_steady (h : Steady a w.site) (n : Nat) (f : Order → Order) : Steady a (w.modOrder n f).site :=
  h.same rfl rfl

theorem Work.modWatch_steady (h : Steady a w.site) (u : Nat) (f : Watch → Watch) : Steady a (w.modWatch u f).site :=
  h.same rfl rfl

theorem Work.modPermit_steady (h : Steady a w.site) (k : Nat) (f : Permit → Permit) : Steady a (w.modPermit k f).site :=
  h.same rfl rfl

theorem Work.delOrder_steady (h : Steady a w.site) (n : Nat) :
    Steady a (w.modSite fun s => { s with orders := s.orders.del n }).site := h.same rfl rfl

theorem Work.emit_steady (h : Steady a w.site) (b : ReportBody) : Steady a (w.emit b).site := h

theorem Work.offer_steady (h : Steady a w.site) (c : Chan) : Steady a (w.offer c).site := h

theorem Work.pushAlert_steady (h : Steady a w.site) (c : Chan) (x : AlertContent) : Steady a (w.pushAlert c x).site := by
  refine offer_steady (modChan_steady h _ _ ?_ ?_ ?_) _
  exacts [fun _ => rfl, fun _ k => k, fun _ k => k]

theorem Work.pushUrgent_steady (h : Steady a w.site) (c : Chan) (f : UrgentFrame) :
    Steady a (w.pushUrgent c f).site := by
  refine offer_steady (modChan_steady h _ _ ?_ ?_ ?_) _
  exacts [fun _ => rfl, fun _ k => k, fun _ k => k]

theorem Work.removeEntry_steady (h : Steady a w.site) (c : Chan) (id : Nat) : Steady a (w.removeEntry c id).site := by
  refine modChan_steady h _ _ ?_ ?_ ?_
  exacts [fun _ => rfl, fun _ k => k, fun _ k => k]

theorem Work.modEntry_steady (h : Steady a w.site) (c : Chan) (id : Nat) (f : UrgentEntry → UrgentEntry) :
    Steady a (w.modEntry c id f).site := by
  refine modChan_steady h _ _ ?_ ?_ ?_
  exacts [fun _ => rfl, fun _ k => k, fun _ k => k]

theorem Work.moveItem_steady (h : Steady a w.site) (id : Nat) (it : PulItem) (c : Chan) :
    Steady a (w.moveItem id it c).site := by
  refine pushUrgent_steady (w := w.modSite _) (Steady.same h ?_ ?_) _ _
  exacts [rfl, rfl]

theorem Work.dropItem_steady (h : Steady a w.site) (id : Nat) : Steady a (w.dropItem id).site := h.same rfl rfl

theorem Work.adjustItem_steady (h : Steady a w.site) (id : Nat) (f : PulItem → PulItem) :
    Steady a (w.modSite fun s => { s with pul := s.pul.adjust id f }).site := h.same rfl rfl

theorem Work.modCrew_steady (h : Steady a w.site) (n : Nat) (f : Crew → Crew) : Steady a (w.modCrew n f).site :=
  h.same rfl rfl

theorem Work.fillSome_steady (c : Chan) (n : Nat) (h : Steady a w.site) : Steady a (Work.fillSome c n w).site := by
  induction n generalizing w with
  | zero => exact h
  | succ n ih =>
    unfold Work.fillSome
    split
    · split
      · exact ih (moveItem_steady h _ _ _)
      · exact h
    · exact h

theorem Work.fill_steady (h : Steady a w.site) (c : Chan) : Steady a (w.fill c).site := fillSome_steady c 16 h

theorem Work.insertItem_steady (h : Steady a w.site) (o : Owner) (i : Nat) (x : ItemContent) :
    Steady a (w.insertItem o i x).site := by
  simp only [Work.insertItem]
  repeat' split
  · exact moveItem_steady (w := w.modSite _) (Steady.same h rfl rfl) _ _ _
  all_goals exact Steady.same h rfl rfl

theorem Work.placeNoteRecall_steady (h : Steady a w.site) (i : Nat) : Steady a (w.placeNoteRecall i).site := by
  unfold Work.placeNoteRecall
  repeat' split
  all_goals first | exact h | exact insertItem_steady h _ _ _

theorem Work.serveNotes_steady (h : Steady a w.site) : Steady a w.serveNotes.site := by
  unfold Work.serveNotes; split
  · exact placeNoteRecall_steady h _
  · exact h

theorem Work.leftSystem_steady (h : Steady a w.site) (it : PulItem) : Steady a (w.leftSystem it).site := by
  unfold Work.leftSystem; split
  · exact serveNotes_steady h
  · exact h

theorem Work.cancelEntry_steady (h : Steady a w.site) (c : Chan) (id : Nat) : Steady a (w.cancelEntry c id).site := by
  unfold Work.cancelEntry
  repeat' split
  · exact fill_steady (removeEntry_steady h _ _) _
  · exact modEntry_steady h _ _ _
  · exact h

theorem Work.cancelItem_steady (h : Steady a w.site) (id : Nat) : Steady a (w.cancelItem id).site := by
  unfold Work.cancelItem
  repeat' split
  · exact h
  · exact leftSystem_steady (dropItem_steady h _) _
  · exact leftSystem_steady (cancelEntry_steady (dropItem_steady h _) _ _) _

theorem Work.cancelOwned_steady (h : Steady a w.site) (o : Owner) (k : ItemKind) : Steady a (w.cancelOwned o k).site := by
  unfold Work.cancelOwned; split
  · exact cancelItem_steady h _
  · exact h

theorem Work.place_steady (h : Steady a w.site) (o : Owner) (i : Nat) (x : ItemContent) : Steady a (w.place o i x).site := by
  unfold Work.place; split
  · exact h
  · exact insertItem_steady (cancelOwned_steady h _ _) _ _ _

theorem Work.returnItem_steady (h : Steady a w.site) (c : Chan) (id : Nat) : Steady a (w.returnItem c id).site :=
  removeEntry_steady (adjustItem_steady h _ _) _ _

theorem Work.returnWaiting_steady (h : Steady a w.site) (c : Chan) (i : Nat) : Steady a (w.returnWaiting c i).site :=
  foldl_steady _ (fun _ _ hv => returnItem_steady hv _ _) _ _ h

theorem Work.setCredit_steady (h : Steady a w.site) (i v : Nat) : Steady a (w.setCredit i v).site := by
  have h' : Steady a (w.modTerminal i fun t => { t with credit := min v t.capacity }).site :=
    modTerminal_steady h _ _ fun _ => rfl
  simp only [Work.setCredit]
  repeat' split
  all_goals first | exact h | exact h'

theorem Work.raiseCredit_steady (h : Steady a w.site) (i v : Nat) : Steady a (w.raiseCredit i v).site := by
  unfold Work.raiseCredit; split
  · exact setCredit_steady h _ _
  · exact h

theorem Work.endOutstanding_steady (h : Steady a w.site) (i : Nat) (b : Bool) :
    Steady a (w.endOutstanding i b).site := by
  unfold Work.endOutstanding; split
  · refine offer_steady (modChan_steady (modTerminal_steady h _ _ ?_) _ _ ?_ ?_ ?_) _
    exacts [fun _ => rfl, fun _ => rfl, fun _ k => by simp [k], fun _ k => by simp [k]]
  · exact h

theorem Work.lowerInFlight_steady (h : Steady a w.site) (c : Option Chan) (n : Nat) :
    Steady a (w.lowerInFlight c n).site := by
  unfold Work.lowerInFlight; split
  · refine offer_steady (modChan_steady h _ _ ?_ ?_ ?_) _
    exacts [fun _ => rfl, fun _ k => k, fun _ k => k]
  · exact h

theorem Work.moveOrder_steady (h : Steady a w.site) (n : Nat) (new : OrderState) (c : OrderCause) (f : Order → Order) :
    Steady a (w.moveOrder n new c f).site := by
  unfold Work.moveOrder; split
  · exact modOrder_steady h _ _
  · exact h

theorem Work.holdOrder_steady (h : Steady a w.site) (n : Nat) (c : OrderCause) : Steady a (w.holdOrder n c).site :=
  moveOrder_steady h _ _ _ _

theorem Work.queueOrder_steady (h : Steady a w.site) (n : Nat) (c : OrderCause) : Steady a (w.queueOrder n c).site := by
  simp only [Work.queueOrder]; split
  · exact moveOrder_steady h _ _ _ _
  · exact moveOrder_steady h _ _ _ _

theorem Work.finishOrder_steady (h : Steady a w.site) (n : Nat) (new : OrderState) (c : OrderCause)
    (r : Option ReturnReason) (x : Option NoteResult) : Steady a (w.finishOrder n new c r x).site := by
  unfold Work.finishOrder; split
  · exact delOrder_steady (cancelOwned_steady (emit_steady h _) _ _) _
  · exact h

theorem Work.addNote_steady (h : Steady a w.site) (r : Option Nat) (n : Nat) : Steady a (w.addNote r n).1.site := by
  unfold Work.addNote
  repeat' split
  · exact h
  · exact modTerminal_steady h _ _ fun _ => rfl
  · exact h.same rfl rfl
  · exact h

theorem Work.returnUnconfirmed_steady (h : Steady a w.site) (n : Nat) (c : OrderCause) :
    Steady a (w.returnUnconfirmed n c).site := by
  unfold Work.returnUnconfirmed; split
  · exact finishOrder_steady (addNote_steady h _ _) _ _ _ _ _
  · exact h

theorem Work.ignoreReply_steady (h : Steady a w.site) : Steady a w.ignoreReply.site :=
  h.same rfl rfl

theorem Work.applyReply_steady (h : Steady a w.site) (n : Nat) (r : CrewReply) : Steady a (w.applyReply n r).site := by
  unfold Work.applyReply; split
  · exact moveOrder_steady h _ _ _ _
  · exact finishOrder_steady h _ _ _ _ _
  · exact finishOrder_steady h _ _ _ _ _
  · exact finishOrder_steady h _ _ _ _ _
  · exact ignoreReply_steady h

theorem Work.deliverOrder_steady (h : Steady a w.site) (n : Nat) (c : OrderCause) (r : Option CrewReply) :
    Steady a (w.deliverOrder n c r).site := by
  simp only [Work.deliverOrder]; split
  · exact applyReply_steady (moveOrder_steady h _ _ _ _) _ _
  · exact moveOrder_steady h _ _ _ _

theorem Work.endOrderFrame_steady (h : Steady a w.site) (n : Nat) (o : Order) : Steady a (w.endOrderFrame n o).site := by
  simp only [Work.endOrderFrame]; split
  · exact modOrder_steady (lowerInFlight_steady h _ _) _ _
  · exact lowerInFlight_steady h _ _

theorem Work.orderFailed_steady (h : Steady a w.site) (i n : Nat) (c : OrderCause) : Steady a (w.orderFailed i n c).site := by
  simp only [Work.orderFailed]
  repeat' split
  · exact deliverOrder_steady (endOrderFrame_steady (raiseCredit_steady h _ _) _ _) _ _ _
  · exact holdOrder_steady (endOrderFrame_steady (raiseCredit_steady h _ _) _ _) _ _
  · exact endOrderFrame_steady (raiseCredit_steady h _ _) _ _
  · exact h

theorem Work.orderWithdrawn_steady (h : Steady a w.site) (i n c : Nat) : Steady a (w.orderWithdrawn i n c).site := by
  simp only [Work.orderWithdrawn]
  repeat' split
  · exact deliverOrder_steady (endOrderFrame_steady (raiseCredit_steady h _ _) _ _) _ _ _
  · exact holdOrder_steady (endOrderFrame_steady (raiseCredit_steady h _ _) _ _) _ _
  · exact queueOrder_steady (endOrderFrame_steady (raiseCredit_steady h _ _) _ _) _ _
  · exact endOrderFrame_steady (raiseCredit_steady h _ _) _ _
  · exact h

theorem Work.ordersAtAbsence_steady (h : Steady a w.site) (i t : Nat) : Steady a (w.ordersAtAbsence i t).site := by
  simp only [Work.ordersAtAbsence]
  refine foldl_steady _ (fun _ _ hv => returnUnconfirmed_steady hv _ _) _ _ ?_
  split
  · exact foldl_steady _ (fun _ _ hv => holdOrder_steady hv _ _) _ _ h
  · exact h

theorem Work.ordersAtVehicle_steady (h : Steady a w.site) (n c : Nat) (x : OrderCause) :
    Steady a (w.ordersAtVehicle n c x).site := by
  refine foldl_steady _ (fun _ _ hv => ?_) _ _ h
  split
  · exact queueOrder_steady hv _ _
  · split
    · exact holdOrder_steady hv _ _
    · exact hv

theorem Work.placeAlarmSeen_steady (h : Steady a w.site) (u : Nat) : Steady a (w.placeAlarmSeen u).site := by
  unfold Work.placeAlarmSeen
  repeat' split
  · exact modWatch_steady (pushAlert_steady h _ _) _ _
  · exact modWatch_steady h _ _
  · exact modWatch_steady h _ _
  · exact h

theorem Work.placeWatchStart_steady (h : Steady a w.site) (u : Nat) : Steady a (w.placeWatchStart u).site := by
  unfold Work.placeWatchStart; split
  · exact place_steady h _ _ _
  · exact h

theorem Work.dropNotice_steady (h : Steady a w.site) (u : Nat) : Steady a (w.dropNotice u).site :=
  h.same rfl rfl

theorem Work.watchSetFailed_steady (h : Steady a w.site) (u : Nat) : Steady a (w.watchSetFailed u).site := by
  unfold Work.watchSetFailed; split
  · exact emit_steady (placeWatchStart_steady h _) _
  · exact h

theorem Work.watchAtAcceptance_steady (h : Steady a w.site) (u : Nat) (c : Chan) :
    Steady a (w.watchAtAcceptance u c).site := by
  simp only [Work.watchAtAcceptance]
  repeat' split
  · exact placeAlarmSeen_steady (modWatch_steady h _ _) _
  · exact modWatch_steady h _ _
  · exact h
  · exact h

theorem Work.reportRecord_steady (h : Steady a w.site) (k : Nat) (p : Option PermitState) (c : PermitCause) :
    Steady a (w.reportRecord k p c).site := by
  unfold Work.reportRecord; split
  · exact h
  · exact h

theorem Work.freePermit_steady (h : Steady a w.site) (k : Nat) : Steady a (w.freePermit k).site :=
  h.same rfl rfl

theorem Work.placeResult_steady (h : Steady a w.site) (k : Nat) (r : ResultCode) : Steady a (w.placeResult k r).site := by
  unfold Work.placeResult
  repeat' split
  · exact place_steady h _ _ _
  · exact h
  · exact h

theorem Work.revertPermit_steady (h : Steady a w.site) (k : Nat) (c : PermitCause) (b : Bool) :
    Steady a (w.revertPermit k c b).site := by
  simp only [Work.revertPermit]
  repeat' split
  · exact reportRecord_steady (placeResult_steady (cancelOwned_steady (modPermit_steady h k _) _ _) _ _) _ _ _
  · exact reportRecord_steady (cancelOwned_steady (modPermit_steady h k _) _ _) _ _ _
  · exact h
  · exact h

theorem Work.dropDanger_steady (h : Steady a w.site) : Steady a w.dropDanger.site :=
  h.same rfl rfl

theorem Work.placeOwedDangers_steady (h : Steady a w.site) (n : Nat) : Steady a (w.placeOwedDangers n).site := by
  unfold Work.placeOwedDangers
  repeat' split
  · refine foldl_steady _ (fun _ _ hv => ?_) _ _ h
    split
    · exact modPermit_steady (pushAlert_steady hv _ _) _ _
    · exact dropDanger_steady hv
  · exact h
  · exact h

theorem Work.permitsAtAbsence_steady (h : Steady a w.site) (t : Nat) : Steady a (w.permitsAtAbsence t).site := by
  simp only [Work.permitsAtAbsence]
  refine foldl_steady _ (fun _ _ hv => freePermit_steady (cancelOwned_steady hv _ _) _) _ _ ?_
  exact foldl_steady _ (fun _ _ hv => revertPermit_steady hv _ _ _) _ _ h

theorem Work.acceptedFailed_steady (h : Steady a w.site) (k : Nat) : Steady a (w.acceptedFailed k).site := by
  unfold Work.acceptedFailed
  repeat' split
  · exact placeResult_steady h _ _
  · exact h
  · exact h

theorem Work.itemFailed_steady (h : Steady a w.site) (it : PulItem) (b : Bool) : Steady a (w.itemFailed it b).site := by
  unfold Work.itemFailed; split
  · exact returnUnconfirmed_steady h _ _
  · exact dropNotice_steady h _
  · exact watchSetFailed_steady h _
  · exact revertPermit_steady h _ _ _
  · exact acceptedFailed_steady h _
  · exact h

theorem Work.freeRetained_steady (h : Steady a w.site) (k : Nat) : Steady a (w.freeRetained k).site := by
  unfold Work.freeRetained; split
  · exact freePermit_steady h _
  · exact h

theorem Work.cancelAddressed_steady (h : Steady a w.site) (i : Nat) : Steady a (w.cancelAddressed i).site := by
  refine foldl_steady _ (fun _ _ hv => ?_) _ _ h
  split
  · exact freeRetained_steady (cancelItem_steady hv _) _
  all_goals exact cancelItem_steady hv _

theorem Work.leaveQueue_steady (h : Steady a w.site) (c : Chan) (id : Nat) : Steady a (w.leaveQueue c id).site :=
  fill_steady (dropItem_steady (removeEntry_steady h _ _) _) _

theorem Work.failFrame_steady (h : Steady a w.site) (i : Nat) (o : Outstanding) (b : Bool) :
    Steady a (w.failFrame i o b).site := by
  simp only [Work.failFrame]
  repeat' split
  all_goals first
    | exact orderFailed_steady (endOutstanding_steady h _ _) _ _ _
    | exact itemFailed_steady (leaveQueue_steady (endOutstanding_steady h _ _) _ _) _ _
    | exact leaveQueue_steady (endOutstanding_steady h _ _) _ _

theorem Work.failOutstanding_steady (h : Steady a w.site) (i : Nat) : Steady a (w.failOutstanding i).site := by
  unfold Work.failOutstanding; split
  · exact failFrame_steady h _ _ _
  · exact h

theorem Work.withdrawOutstanding_steady (h : Steady a w.site) (i c : Nat) : Steady a (w.withdrawOutstanding i c).site := by
  simp only [Work.withdrawOutstanding]
  repeat' split
  · exact orderWithdrawn_steady (endOutstanding_steady h _ _) _ _ _
  · exact returnItem_steady (endOutstanding_steady h _ _) _ _
  · exact h

theorem Work.leaveAccess_steady (h : Steady a w.site) (c : Chan) (i : Nat) : Steady a (w.leaveAccess c i).site := by
  refine modChan_steady h _ _ ?_ ?_ ?_
  exacts [fun _ => rfl, fun _ k => k, fun _ k => k]

/-! ### Absences -/

/-- What absences leave alone, from site `a` to site `b`: besides what is steady, a terminal may have become ABSENT. -/
structure Thinned (a b : Site) : Prop where
  still : ∀ c, (b.chan c).still = (a.chan c).still
  shut : ∀ c, (a.chan c).window = none → (b.chan c).window = none
  silent : ∀ c, (a.chan c).onAir = none → (b.chan c).onAir = none
  faces : ∀ i, (Table.look b.roster i).map Terminal.face = (Table.look a.roster i).map Terminal.face
    ∨ (Table.look b.roster i).map Terminal.face = (Table.look a.roster i).map fun t => t.gone.face

theorem Steady.thinned {a b : Site} (h : Steady a b) : Thinned a b := ⟨h.still, h.shut, h.silent, fun i => .inl (h.faces i)⟩

theorem Thinned.refl (a : Site) : Thinned a a := (Steady.refl a).thinned

/-- The face of a terminal that has gone. -/
theorem Terminal.gone_face (t : Terminal) : t.gone.face = t.face.gone := rfl

theorem Thinned.trans {a b c : Site} (h : Thinned a b) (k : Thinned b c) : Thinned a c := by
  have g : ∀ x : Option Terminal, (x.map fun t => t.gone.face) = (x.map Terminal.face).map Terminal.gone := by
    intro x; cases x <;> rfl
  refine ⟨fun d => (k.still d).trans (h.still d), fun d => k.shut d ∘ h.shut d, fun d => k.silent d ∘ h.silent d,
    fun i => ?_⟩
  have hi := h.faces i
  have ki := k.faces i
  simp only [g] at hi ki ⊢
  rcases ki with ki | ki <;> rcases hi with hi | hi <;> rw [ki, hi]
  · exact .inl rfl
  · exact .inr rfl
  · exact .inr rfl
  · refine .inr ?_
    cases Table.look a.roster i <;> rfl

/-- The crew a terminal is bound to shows in its face. -/
theorem Site.boundCrew_face (s : Site) (i : Nat) :
    s.boundCrew i = ((Table.look s.roster i).map Terminal.face).bind Terminal.crew := by
  unfold Site.boundCrew; cases Table.look s.roster i <;> rfl

/-- An absence binds and unbinds no terminal. -/
theorem Thinned.boundCrew {a b : Site} (h : Thinned a b) (i : Nat) : b.boundCrew i = a.boundCrew i := by
  rw [Site.boundCrew_face, Site.boundCrew_face]
  rcases h.faces i with e | e <;> rw [e]
  cases Table.look a.roster i <;> rfl

/-- What `affiliatedOn` asks of a terminal shows in its face. -/
theorem Site.affiliatedOn_face (s : Site) (i : Nat) (c : Chan) :
    s.affiliatedOn i c = ((Table.look s.roster i).map Terminal.face).any (·.on c) := by
  unfold Site.affiliatedOn; cases Table.look s.roster i <;> rfl

/-- A terminal that is not AFFILIATED on a channel does not come to be by an absence. -/
theorem Thinned.affiliatedOn {a b : Site} (h : Thinned a b) (i : Nat) (c : Chan) (k : a.affiliatedOn i c = false) :
    b.affiliatedOn i c = false := by
  rw [Site.affiliatedOn_face] at k ⊢
  rcases h.faces i with e | e <;> rw [e]
  · exact k
  · cases Table.look a.roster i <;> rfl

theorem Work.reactAbsence_steady (h : Steady a w.site) (i : Nat) (t : Terminal) (c : Chan) (x : TerminalCause) :
    Steady a (w.reactAbsence i t c x).site :=
  emit_steady (permitsAtAbsence_steady (ordersAtAbsence_steady (fill_steady (returnWaiting_steady (leaveAccess_steady
    (failOutstanding_steady h _) _ _) _ _) _) _ _) _) _

theorem Work.gone_thinned (w : Work) (i : Nat) : Thinned w.site (w.modTerminal i Terminal.gone).site := by
  refine ⟨fun _ => rfl, fun _ => id, fun _ => id, fun j => ?_⟩
  rw [Work.modTerminal_site]
  by_cases e : j = i
  · subst e; rw [Table.look_adjust_same]; right; cases Table.look w.site.roster j <;> rfl
  · left; rw [Table.look_adjust_other _ _ _ _ e]

/-- The absence of a terminal (R22): no channel changes but in its queues, and no other terminal goes. -/
theorem Work.absent_thinned (w : Work) (i : Nat) (x : TerminalCause) : Thinned w.site (w.absent i x).site := by
  unfold Work.absent
  split
  · split
    · have h : ∀ t c, Thinned w.site ((w.modTerminal i Terminal.gone).reactAbsence i t c x).site :=
        fun t c => (w.gone_thinned i).trans (reactAbsence_steady (.refl _) i t c x).thinned
      simp only []
      split
      · exact (h _ _).trans (serveNotes_steady (.refl _)).thinned
      · exact h _ _
    · exact .refl _
  · exact .refl _

/-- After its absence a terminal is AFFILIATED nowhere. -/
theorem Work.absent_gone (w : Work) (i : Nat) (x : TerminalCause) (c : Chan) :
    (w.absent i x).site.affiliatedOn i c = false := by
  unfold Work.absent
  split
  · rename_i t ht
    split
    · rename_i d hs hc
      have h : ∀ v : Work, Steady ((w.modTerminal i Terminal.gone).reactAbsence i t d x).site v.site →
          v.site.affiliatedOn i c = false := by
        intro v k
        have e := ((reactAbsence_steady (.refl _) i t d x).trans k).faces i
        rw [Site.affiliatedOn_face, e]
        simp [ht, Terminal.gone, Terminal.face, Terminal.on]
      simp only []
      split
      · exact h _ (serveNotes_steady (.refl _))
      · exact h _ (.refl _)
    · rename_i hn
      unfold Site.affiliatedOn; rw [ht]
      simp only [Option.any_some, Terminal.on, Bool.and_eq_false_iff, beq_eq_false_iff_ne, ne_eq]
      by_cases e : t.state = .affiliated
      · right; intro k; exact hn c e k
      · exact .inl e
  · rename_i hn; unfold Site.affiliatedOn; rw [hn]; rfl

/-- Absences one after another: every listed terminal is AFFILIATED nowhere afterwards. -/
theorem Work.absences (l : List Nat) (x : TerminalCause) (w : Work) :
    Thinned w.site (l.foldl (fun w i => w.absent i x) w).site
      ∧ ∀ i ∈ l, ∀ c, (l.foldl (fun w i => w.absent i x) w).site.affiliatedOn i c = false := by
  induction l generalizing w with
  | nil => exact ⟨.refl _, by simp⟩
  | cons i l ih =>
    obtain ⟨h1, h2⟩ := ih (w.absent i x)
    refine ⟨(w.absent_thinned i x).trans h1, fun j hj c => ?_⟩
    rcases List.mem_cons.1 hj with rfl | hj
    · exact h1.affiliatedOn _ _ (w.absent_gone _ _ _)
    · exact h2 j hj c

theorem Work.retryFrame_steady (h : Steady a w.site) (i : Nat) (o : Outstanding) : Steady a (w.retryFrame i o).site := by
  unfold Work.retryFrame; split
  · refine offer_steady (modOrder_steady (modTerminal_steady h _ _ ?_) _ _) _
    exact fun _ => rfl
  · refine offer_steady (modChan_steady (modTerminal_steady h _ _ ?_) _ _ ?_ ?_ ?_) _
    exacts [fun _ => rfl, fun _ => rfl, fun _ k => k, fun _ k => k]

theorem Work.exhaustFrame_thinned (w : Work) (i : Nat) (o : Outstanding) : Thinned w.site (w.exhaustFrame i o).site := by
  have h : ∀ v : Work, Steady w.site v.site → Thinned w.site ((v.failFrame i o false).absent i .retryFailure).site :=
    fun v k => (failFrame_steady k _ _ _).thinned.trans (absent_thinned _ _ _)
  have k : Steady w.site (match o.frame with
      | .order n _ => w.modOrder n fun x => { x with retry := some (o.retry + 1) }
      | .item _ => w : Work).site := by
    split
    · exact modOrder_steady (.refl _) _ _
    · exact .refl _
  simp only [Work.exhaustFrame]
  split
  · exact (h _ k).trans (serveNotes_steady (.refl _)).thinned
  · exact h _ k

/-- A miss (R75): the frame waits for its retry, or its addressee becomes ABSENT. -/
theorem Work.miss_thinned (w : Work) (i : Nat) : Thinned w.site (w.miss i).site := by
  unfold Work.miss
  split
  · rename_i o ho
    have h1 : Steady w.site (w.bumpStat o.channel fun x => { x with acksMissed := x.acksMissed.bump }).site := by
      refine modChan_steady (.refl _) _ _ ?_ ?_ ?_
      exacts [fun _ => rfl, fun _ k => k, fun _ k => k]
    simp only []
    split
    · exact (retryFrame_steady h1 i o).thinned
    · exact h1.thinned.trans (exhaustFrame_thinned _ i o)
  · exact .refl _

/-- Withdrawing the queues of a channel empties them and touches no channel else (R35). -/
theorem Work.withdrawQueues_chan (w : Work) (c d : Chan) :
    (w.withdrawQueues c).site.chan d =
      (if d = c then { w.site.chan c with alerts := [], urgents := [] } else w.site.chan d)
    ∧ (w.withdrawQueues c).site.roster = w.site.roster := by
  have h : ∀ (l : List Nat) (v : Work), (l.foldl (fun (w : Work) id => w.modSite fun s =>
      { s with pul := s.pul.adjust id fun it => { it with location := none } }) v).site.channels = v.site.channels
      ∧ (l.foldl (fun (w : Work) id => w.modSite fun s =>
      { s with pul := s.pul.adjust id fun it => { it with location := none } }) v).site.roster = v.site.roster := by
    intro l
    induction l with
    | nil => exact fun _ => ⟨rfl, rfl⟩
    | cons i l ih => exact fun v => ih _
  unfold Work.withdrawQueues
  refine ⟨?_, (h _ _).2⟩
  rw [Work.modChan_chan]
  unfold Site.chan
  simp only [(h _ _).1]

/-- The departure of a channel from UP (R35): each member goes to its state with its beacon stopped and its runs 0, the queues,
the access set and the scheduler record of the channel are cleared, and no terminal stays AFFILIATED on it. -/
theorem Work.departUp_spec (w : Work) (c : Chan) (goes : Chan → ChannelState) :
    let t := w.departUp c goes
    (∀ d, (t.site.chan d).still = (
      let x := if d ∈ w.site.members c then
          { ((w.site.chan d).enter (goes d)).clearRuns with beaconTimer := none, beaconDue := false }
        else w.site.chan d
      if d = c then x.clearScheduler else x).still)
    ∧ (∀ d, (w.site.chan d).window = none → (t.site.chan d).window = none)
    ∧ (∀ d, (w.site.chan d).onAir = none → (t.site.chan d).onAir = none)
    ∧ (t.site.chan c).alerts = [] ∧ (t.site.chan c).urgents = [] ∧ (t.site.chan c).accessSet = []
    ∧ ∀ i, t.site.affiliatedOn i c = false := by
  intro t
  let ms := w.site.members c
  have nd : ms.Nodup := Site.members_nodup _ _
  have first : ∀ (cs : List Chan) (v : Work), cs.Nodup →
      (cs.foldl (fun w m => w.modChan m fun ch => { ch.enter (goes m) with beaconTimer := none, beaconDue := false }) v).site.roster
        = v.site.roster
      ∧ ∀ d, (cs.foldl (fun w m => w.modChan m fun ch => { ch.enter (goes m) with beaconTimer := none, beaconDue := false })
        v).site.chan d = if d ∈ cs then { (v.site.chan d).enter (goes d) with beaconTimer := none, beaconDue := false }
          else v.site.chan d := by
    intro cs
    induction cs with
    | nil => exact fun v _ => ⟨rfl, fun d => by simp⟩
    | cons m cs ih =>
      intro v hc
      obtain ⟨h1, h2⟩ := ih (v.modChan m fun ch => { ch.enter (goes m) with beaconTimer := none, beaconDue := false })
        (List.nodup_cons.1 hc).2
      refine ⟨h1, fun d => (h2 d).trans ?_⟩
      rw [Work.modChan_chan]
      by_cases e : d = m
      · subst e; simp [(List.nodup_cons.1 hc).1]
      · simp [e]
  obtain ⟨w1, c1, e1⟩ : ∃ v : Work, (∀ d, v.site.chan d = if d ∈ ms then
      { (w.site.chan d).enter (goes d) with beaconTimer := none, beaconDue := false } else w.site.chan d)
      ∧ v = ms.foldl (fun w m => w.modChan m fun ch =>
        { ch.enter (goes m) with beaconTimer := none, beaconDue := false }) w := ⟨_, (first ms w nd).2, rfl⟩
  obtain ⟨w2, t2, g2, e2⟩ : ∃ v : Work, Thinned w1.site v.site
      ∧ (∀ i ∈ w1.site.terminalsOn c, ∀ d, v.site.affiliatedOn i d = false)
      ∧ v = (w1.site.terminalsOn c).foldl (fun w i => w.absent i .channelDown) w1 :=
    ⟨_, (Work.absences _ _ w1).1, (Work.absences _ _ w1).2, rfl⟩
  obtain ⟨w3, c3, r3, e3⟩ : ∃ v : Work, (∀ d, v.site.chan d = if d = c then
      ({ w2.site.chan c with alerts := [], urgents := [] } : Channel).clearScheduler else w2.site.chan d)
      ∧ v.site.roster = w2.site.roster ∧ v = (w2.withdrawQueues c).modChan c Channel.clearScheduler := by
    refine ⟨(w2.withdrawQueues c).modChan c Channel.clearScheduler, fun d => ?_, (w2.withdrawQueues_chan c c).2, rfl⟩
    rw [Work.modChan_chan, (w2.withdrawQueues_chan c c).1, (w2.withdrawQueues_chan c d).1]
    by_cases e : d = c
    · simp [e]
    · simp [e]
  have ht : t = w3.modChans ms Channel.clearRuns := by rw [e3, e2, e1]; rfl
  have e4 : ∀ d, t.site.chan d = if d ∈ ms then (w3.site.chan d).clearRuns else w3.site.chan d := by
    rw [ht]; exact (Work.modChans_spec w3 ms Channel.clearRuns nd).2.2.2
  have r4 : t.site.roster = w2.site.roster := by
    rw [ht, (Work.modChans_spec w3 ms Channel.clearRuns nd).1]; exact r3
  clear ht e1 e2 e3
  clear_value t
  refine ⟨fun d => ?_, fun d k => ?_, fun d k => ?_, ?_, ?_, ?_, fun i => ?_⟩
  · rw [e4 d, c3 d]
    have h2 := t2.still d
    rw [c1 d] at h2
    by_cases e : d = c
    · subst e
      by_cases m : d ∈ ms
      · rw [if_pos m] at h2
        have m' : d ∈ w.site.members d := m
        simp only [if_pos m, if_pos m', if_true]
        exact congrArg (fun x : Channel => x.clearScheduler.clearRuns) h2
      · rw [if_neg m] at h2
        have m' : d ∉ w.site.members d := m
        simp only [if_neg m, if_neg m', if_true]
        exact congrArg Channel.clearScheduler h2
    · by_cases m : d ∈ ms
      · rw [if_pos m] at h2
        have m' : d ∈ w.site.members c := m
        simp only [if_pos m, if_pos m', if_neg e]
        exact congrArg Channel.clearRuns h2
      · rw [if_neg m] at h2
        have m' : d ∉ w.site.members c := m
        simp only [if_neg m, if_neg m', if_neg e]
        exact h2
  · have h1 : (w1.site.chan d).window = none := by
      rw [c1 d]; split <;> exact k
    have h2 := t2.shut d h1
    rw [e4 d, c3 d]
    by_cases e : d = c
    · rw [if_pos e, ← e]; split <;> exact h2
    · rw [if_neg e]; split <;> exact h2
  · have h1 : (w1.site.chan d).onAir = none := by
      rw [c1 d]; split <;> exact k
    have h2 := t2.silent d h1
    rw [e4 d, c3 d]
    by_cases e : d = c
    · rw [if_pos e, ← e]; split <;> exact h2
    · rw [if_neg e]; split <;> exact h2
  · rw [e4 c, c3 c]; split <;> simp [Channel.clearScheduler, Channel.clearRuns]
  · rw [e4 c, c3 c]; split <;> simp [Channel.clearScheduler, Channel.clearRuns]
  · rw [e4 c, c3 c]; split <;> simp [Channel.clearScheduler, Channel.clearRuns]
  · have e : t.site.affiliatedOn i c = w2.site.affiliatedOn i c := by unfold Site.affiliatedOn; rw [r4]
    rw [e]
    by_cases m : i ∈ w1.site.terminalsOn c
    · exact g2 i m c
    · refine t2.affiliatedOn i c ?_
      unfold Site.affiliatedOn
      cases k : Table.look w1.site.roster i with
      | none => rfl
      | some x =>
        by_cases o : x.on c = true
        · refine absurd ?_ m
          exact List.mem_map.2 ⟨(i, x), List.mem_filter.2 ⟨Table.mem_of_look k, o⟩, rfl⟩
        · simpa using o

/-! ### The choices at the end of a step -/

/-- What a choice of channel `c` changes, from site `a` to site `b`: no channel but the members of `c`, and no terminal's face.
-/
structure Within (c : Chan) (a b : Site) : Prop where
  others : ∀ d, d ∉ a.members c → b.chan d = a.chan d
  configs : ∀ d, (b.chan d).config = (a.chan d).config
  faces : ∀ i, (Table.look b.roster i).map Terminal.face = (Table.look a.roster i).map Terminal.face

theorem Within.refl (c : Chan) (a : Site) : Within c a a := ⟨fun _ _ => rfl, fun _ => rfl, fun _ => rfl⟩

theorem Site.self_mem_members (s : Site) (c : Chan) : c ∈ s.members c := by
  unfold Site.members; split
  · clear * -; revert c; decide
  · simp

/-- A member of a logical channel has it as its logical channel. -/
theorem Site.logical_of_mem {s : Site} {c d : Chan} (h : s.secondary c = false) (m : d ∈ s.members c) :
    s.logical d = c ∧ s.logical c = c := by
  unfold Site.members at m
  unfold Site.secondary at h
  by_cases p : s.paired c = true
  · have hc : primaryOf c = c := by simpa [p] using h
    have e : primaryOf d = primaryOf c := by
      rw [if_pos p] at m; clear * - m; revert c d; decide
    have q : s.paired d = true := by unfold Site.paired at p ⊢; rw [e]; exact p
    exact ⟨by simp [Site.logical, q, e, hc], by simp [Site.logical, hc]⟩
  · have e : d = c := by rw [if_neg p] at m; simpa using m
    exact ⟨by simp [Site.logical, e, p], by simp [Site.logical, p]⟩

theorem Work.modChan_within {c : Chan} (h : Within c a w.site) (m : Chan) (hm : m ∈ a.members c) (f : Channel → Channel)
    (hf : ∀ ch, (f ch).config = ch.config) : Within c a (w.modChan m f).site := by
  refine ⟨fun d hd => ?_, fun d => ?_, h.faces⟩ <;> rw [Work.modChan_chan]
  · rw [if_neg (by rintro rfl; exact hd hm)]; exact h.others d hd
  · by_cases e : d = m
    · rw [if_pos e, hf, e]; exact h.configs m
    · rw [if_neg e]; exact h.configs d

theorem Work.modChans_within {c : Chan} (cs : List Chan) (hm : ∀ m ∈ cs, m ∈ a.members c) (f : Channel → Channel)
    (hf : ∀ ch, (f ch).config = ch.config) (w : Work) (h : Within c a w.site) : Within c a (w.modChans cs f).site := by
  induction cs generalizing w with
  | nil => exact h
  | cons m cs ih =>
    exact ih (fun x hx => hm x (List.mem_cons_of_mem _ hx)) _ (modChan_within h m (hm m (List.mem_cons_self ..)) f hf)

theorem Work.modTerminal_within {c : Chan} (h : Within c a w.site) (i : Nat) (f : Terminal → Terminal)
    (hf : ∀ t, (f t).face = t.face) : Within c a (w.modTerminal i f).site :=
  ⟨h.others, h.configs, fun j => ((modTerminal_steady (.refl w.site) i f hf).faces j).trans (h.faces j)⟩

theorem Within.same {c : Chan} {b : Site} (h : Within c a w.site) (k : b.channels = w.site.channels)
    (l : b.roster = w.site.roster) : Within c a b := by
  have e : ∀ d, b.chan d = w.site.chan d := fun d => by simp [Site.chan, k]
  exact ⟨fun d hd => (e d).trans (h.others d hd), fun d => by rw [e]; exact h.configs d, fun i => by rw [l]; exact h.faces i⟩

theorem Work.settleGrant_within {c : Chan} (h : Within c a w.site) (d : Draft) (b : Bool) :
    Within c a (w.settleGrant c d b).1.site := by
  have hc := a.self_mem_members c
  unfold Work.settleGrant
  repeat' split
  · exact h
  · refine modChan_within (modChan_within h c hc _ ?_) c hc _ ?_
    exacts [fun _ => rfl, fun _ => rfl]
  · exact h

theorem Work.transmit_within {c : Chan} (h : Within c a w.site) (f : AirFrame) : Within c a (w.transmit c f).site := by
  refine modChan_within (modChans_within _ (fun m hm => ?_) _ ?_ _ h) c (a.self_mem_members c) _ ?_
  · rwa [Site.members_of_config h.configs] at hm
  · exact fun _ => rfl
  · exact fun _ => rfl

theorem Work.orderSent_within {c : Chan} (h : Within c a w.site) (n i : Nat) : Within c a (w.orderSent n c i).site := by
  unfold Work.orderSent
  split
  · refine modChan_within (modTerminal_within ?_ _ _ ?_) c (a.self_mem_members c) _ ?_
    · unfold Work.moveOrder; split
      · exact h.same rfl rfl
      · exact h
    · exact fun _ => rfl
    · exact fun _ => rfl
  · exact h

theorem Work.beginUrgent_within {c : Chan} (h : Within c a w.site) (e : UrgentEntry) :
    Within c a (w.beginUrgent c e).site := by
  have g : Within c a (w.modChan c fun ch => { ch with urgents := markSending e.frame ch.urgents }).site := by
    refine modChan_within h c (a.self_mem_members c) _ ?_
    exact fun _ => rfl
  simp only [Work.beginUrgent]
  repeat' split
  · refine modTerminal_within g _ _ ?_
    exact fun _ => rfl
  all_goals exact g

theorem Work.startSending_within {c : Chan} (h : Within c a w.site) (p : Pick) : Within c a (w.startSending c p).site := by
  have hc := a.self_mem_members c
  unfold Work.startSending
  split
  · refine transmit_within (modChan_within (settleGrant_within h _ _) c hc _ ?_) _
    exact fun _ => rfl
  · exact transmit_within (beginUrgent_within (settleGrant_within h _ _) _) _
  · refine transmit_within ?_ _
    unfold Work.setOutstandingOrder
    split
    · refine orderSent_within (modTerminal_within h _ _ ?_) _ _
      exact fun _ => rfl
    · refine modTerminal_within h _ _ ?_
      exact fun _ => rfl
  · exact transmit_within (settleGrant_within h _ _) _
  · exact h

/-- The choices at the end of a step change no channel whose logical channel is not UP, and no terminal's face. -/
theorem Work.serve_elsewhere (w : Work) :
    (∀ d, (w.site.chan (w.site.logical d)).state ≠ .up → w.serve.site.chan d = w.site.chan d)
      ∧ ∀ i, (Table.look w.serve.site.roster i).map Terminal.face = (Table.look w.site.roster i).map Terminal.face := by
  have h : ∀ (cs : List Chan) (v : Work),
      (∀ d, (v.site.chan d).config = (w.site.chan d).config)
      → (∀ d, (w.site.chan (w.site.logical d)).state ≠ .up → v.site.chan d = w.site.chan d)
      → (∀ i, (Table.look v.site.roster i).map Terminal.face = (Table.look w.site.roster i).map Terminal.face)
      → let t := cs.foldl (fun x c => if w.offers.any fun o => w.site.logical o == c then x.serveChannel c else x) v
        (∀ d, (w.site.chan (w.site.logical d)).state ≠ .up → t.site.chan d = w.site.chan d)
        ∧ ∀ i, (Table.look t.site.roster i).map Terminal.face = (Table.look w.site.roster i).map Terminal.face := by
    intro cs
    induction cs with
    | nil => exact fun v _ h2 h3 => ⟨h2, h3⟩
    | cons c cs ih =>
      intro v h1 h2 h3
      rw [List.foldl_cons]
      by_cases o : (w.offers.any fun o => w.site.logical o == c) = true
      · rw [if_pos o]
        have k : Within c v.site (v.serveChannel c).site ∧
            ((v.serveChannel c).site = v.site ∨ (v.site.chan c).state = .up ∧ v.site.secondary c = false) := by
          unfold Work.serveChannel
          split
          · rename_i e
            refine ⟨startSending_within (modChan_within (.refl _ _) c (Site.self_mem_members _ _) _ ?_) _, .inr ⟨e.1, ?_⟩⟩
            · exact fun _ => rfl
            · simpa using e.2.2
          · exact ⟨.refl _ _, .inl rfl⟩
        refine ih _ (fun d => (k.1.configs d).trans (h1 d)) (fun d hd => ?_) fun i => (k.1.faces i).trans (h3 i)
        rcases k.2 with e | ⟨e, f⟩
        · rw [e]; exact h2 d hd
        · by_cases m : d ∈ v.site.members c
          · have l := Site.logical_of_mem f m
            rw [Site.logical_of_config h1, Site.logical_of_config h1] at l
            rw [l.1] at hd
            refine absurd e ?_
            rw [h2 c (by rw [l.2]; exact hd)]
            exact hd
          · rw [k.1.others d m]; exact h2 d hd
      · rw [if_neg o]; exact ih _ h1 h2 h3
  exact h _ w (fun _ => rfl) (fun _ _ => rfl) fun _ => rfl

end Sys2Proof.Machine
end

