-- ==== Sys2Proof/Laws/KeptOwners.lean ====
section
/-! SUPPORT. What the owners' operations keep: orders, supervision, permits, and the outcomes of frames and absences. -/

set_option Elab.async false

namespace Sys2Proof.Machine

variable {a : Site} {w : Work}

/-- Of two works with answers, the one chosen. -/
theorem pair_ite_kept {β : Type} {c : Prop} [Decidable c] {x y : Work × β} (hx : Kept a x.1.site)
    (hy : Kept a y.1.site) : Kept a (if c then x else y).1.site := by
  split
  · exact hx
  · exact hy

/-! ### Orders -/

theorem Work.moveOrder_kept (h : Kept a w.site) (n : Nat) (new : OrderState) (c : OrderCause) (f : Order → Order) :
    Kept a (w.moveOrder n new c f).site := by
  unfold Work.moveOrder; split
  · exact modOrder_kept h _ _
  · exact h

theorem Work.holdOrder_kept (h : Kept a w.site) (n : Nat) (c : OrderCause) : Kept a (w.holdOrder n c).site :=
  moveOrder_kept h _ _ _ _

theorem Work.queueOrder_kept (h : Kept a w.site) (n : Nat) (c : OrderCause) : Kept a (w.queueOrder n c).site := by
  simp only [Work.queueOrder]; split
  · exact moveOrder_kept h _ _ _ _
  · exact moveOrder_kept h _ _ _ _

theorem Work.finishOrder_kept (h : Kept a w.site) (n : Nat) (new : OrderState) (c : OrderCause)
    (r : Option ReturnReason) (x : Option NoteResult) : Kept a (w.finishOrder n new c r x).site := by
  unfold Work.finishOrder; split
  · exact delOrder_kept (cancelOwned_kept (emit_kept h _) _ _) _
  · exact h

theorem Work.addNote_kept (h : Kept a w.site) (r : Option Nat) (n : Nat) : Kept a (w.addNote r n).1.site := by
  unfold Work.addNote
  repeat' split
  · exact h
  · exact modTerminal_kept h _ _ fun _ k => k
  · exact h.trans .counters
  · exact h

theorem Work.returnUnconfirmed_kept (h : Kept a w.site) (n : Nat) (c : OrderCause) :
    Kept a (w.returnUnconfirmed n c).site := by
  unfold Work.returnUnconfirmed; split
  · exact finishOrder_kept (addNote_kept h _ _) _ _ _ _ _
  · exact h

theorem Work.ignoreReply_kept (h : Kept a w.site) : Kept a w.ignoreReply.site :=
  h.trans .counters

theorem Work.applyReply_kept (h : Kept a w.site) (n : Nat) (r : CrewReply) : Kept a (w.applyReply n r).site := by
  unfold Work.applyReply; split
  · exact moveOrder_kept h _ _ _ _
  · exact finishOrder_kept h _ _ _ _ _
  · exact finishOrder_kept h _ _ _ _ _
  · exact finishOrder_kept h _ _ _ _ _
  · exact ignoreReply_kept h

theorem Work.deliverOrder_kept (h : Kept a w.site) (n : Nat) (c : OrderCause) (r : Option CrewReply) :
    Kept a (w.deliverOrder n c r).site := by
  simp only [Work.deliverOrder]; split
  · exact applyReply_kept (moveOrder_kept h _ _ _ _) _ _
  · exact moveOrder_kept h _ _ _ _

theorem Work.endOrderFrame_kept (h : Kept a w.site) (n : Nat) (o : Order) : Kept a (w.endOrderFrame n o).site := by
  simp only [Work.endOrderFrame]; split
  · exact modOrder_kept (lowerInFlight_kept h _ _) _ _
  · exact lowerInFlight_kept h _ _

theorem Work.orderAcked_kept (h : Kept a w.site) (n : Nat) : Kept a (w.orderAcked n).site := by
  simp only [Work.orderAcked]
  repeat' split
  · exact deliverOrder_kept (endOrderFrame_kept h _ _) _ _ _
  · exact endOrderFrame_kept h _ _
  · exact h

theorem Work.orderFailed_kept (h : Kept a w.site) (i n : Nat) (c : OrderCause) : Kept a (w.orderFailed i n c).site := by
  simp only [Work.orderFailed]
  repeat' split
  · exact deliverOrder_kept (endOrderFrame_kept (raiseCredit_kept h _ _) _ _) _ _ _
  · exact holdOrder_kept (endOrderFrame_kept (raiseCredit_kept h _ _) _ _) _ _
  · exact endOrderFrame_kept (raiseCredit_kept h _ _) _ _
  · exact h

theorem Work.orderWithdrawn_kept (h : Kept a w.site) (i n c : Nat) : Kept a (w.orderWithdrawn i n c).site := by
  simp only [Work.orderWithdrawn]
  repeat' split
  · exact deliverOrder_kept (endOrderFrame_kept (raiseCredit_kept h _ _) _ _) _ _ _
  · exact holdOrder_kept (endOrderFrame_kept (raiseCredit_kept h _ _) _ _) _ _
  · exact queueOrder_kept (endOrderFrame_kept (raiseCredit_kept h _ _) _ _) _ _
  · exact endOrderFrame_kept (raiseCredit_kept h _ _) _ _
  · exact h

theorem Work.orderSent_kept (h : Kept a w.site) (n : Nat) (c : Chan) (i : Nat) : Kept a (w.orderSent n c i).site := by
  unfold Work.orderSent; split
  · refine modChan_kept (modTerminal_kept (moveOrder_kept h _ _ _ _) _ _ ?_) _ _ ?_ ?_
    · intro t k
      refine Terminal.sound_credit k ?_
      simp only [Terminal.sound, Bool.and_eq_true, decide_eq_true_eq] at k
      omega
    · rfl
    · exact fun k => k
  · exact h

theorem Work.recallOrder_kept (h : Kept a w.site) (n : Nat) : Kept a (w.recallOrder n).site := by
  simp only [Work.recallOrder]
  repeat' split
  · exact place_kept (moveOrder_kept h _ _ _ _) _ _ _
  · exact moveOrder_kept h _ _ _ _
  · exact h

theorem Work.ordersAtAbsence_kept (h : Kept a w.site) (i t : Nat) : Kept a (w.ordersAtAbsence i t).site := by
  simp only [Work.ordersAtAbsence]
  refine foldl_kept _ (fun _ _ hv => returnUnconfirmed_kept hv _ _) _ _ ?_
  split
  · exact foldl_kept _ (fun _ _ hv => holdOrder_kept hv _ _) _ _ h
  · exact h

theorem Work.ordersAtVehicle_kept (h : Kept a w.site) (n c : Nat) (x : OrderCause) :
    Kept a (w.ordersAtVehicle n c x).site := by
  refine foldl_kept _ (fun _ _ hv => ?_) _ _ h
  split
  · exact queueOrder_kept hv _ _
  · split
    · exact holdOrder_kept hv _ _
    · exact hv

theorem Work.ordersWithoutVehicle_kept (h : Kept a w.site) (n : Nat) : Kept a (w.ordersWithoutVehicle n).site :=
  foldl_kept _ (fun _ _ hv => holdOrder_kept hv _ _) _ _ h

/-! ### Supervision -/

theorem Work.raiseAlarms_site (w : Work) (u : Nat) :
    (w.raiseAlarms u).site = { w.site with crews := w.site.recounted u (· + 1) } := by
  unfold Work.raiseAlarms Site.recounted
  cases w.site.boundCrew u <;> rfl

theorem Work.lowerAlarms_site (w : Work) (u : Nat) :
    (w.lowerAlarms u).site = { w.site with crews := w.site.recounted u (· - 1) } := by
  unfold Work.lowerAlarms Site.recounted
  cases w.site.boundCrew u with
  | none => rfl
  | some n => simp only []; split <;> rfl

theorem Site.recounted_but (s : Site) (u : Nat) (g : Nat → Nat) : KeptBut s { s with crews := s.recounted u g } := by
  refine KeptBut.setCrews _ _ fun k => ?_
  unfold Site.recounted; split
  · exact Table.wf_adjust k _ _
  · exact k

/-- The record of unit `u` has come to count as an alarm: the count of its crew rises with it (R125). -/
theorem Work.raised_kept (h : Kept a w.site) (u : Nat) {x : Table Watch} (hx : w.site.watches.wf = true → x.wf = true)
    (ho : ∀ v, v ≠ u → Table.look x v = Table.look w.site.watches v) {r : Watch} (hr : Table.look x u = some r)
    (hi : r.state.inAlarm = true) (hn : ∀ q, Table.look w.site.watches u = some q → q.state.inAlarm = false)
    (hk : w.site.Booked → w.site.kindAt u .personal = true) (v : Work) (hv : v.site = { w.site with watches := x }) :
    Kept a (v.raiseAlarms u).site := by
  have hb : KeptBut w.site (v.raiseAlarms u).site := by
    have e := v.site.recounted_but u (· + 1)
    rw [Work.raiseAlarms_site]
    refine KeptBut.trans ?_ e
    rw [hv]; exact KeptBut.setWatches _ _ hx
  refine h.trans (hb.kept fun sa sb => ?_)
  have e : (Table.look w.site.watches u).any (fun r => r.state.inAlarm) = false := by
    cases g : Table.look w.site.watches u with
    | none => rfl
    | some q => exact hn q g
  have f : (v.raiseAlarms u).site = { w.site with watches := x, crews := w.site.recounted u (· + 1) } := by
    rw [Work.raiseAlarms_site, hv]; rfl
  rw [f] at sb ⊢
  exact Books.alarm (u := u) (g := (· + 1)) rfl rfl rfl rfl ho (fun _ _ => hk) (fun m _ => by rw [e]; simp [hr, hi]) sa sb

theorem Work.placeAlarmSeen_kept (h : Kept a w.site) (u : Nat) : Kept a (w.placeAlarmSeen u).site := by
  unfold Work.placeAlarmSeen
  repeat' split
  · exact modWatch_kept (pushAlert_kept h _ _) _ _
  · exact modWatch_kept h _ _
  · exact modWatch_kept h _ _
  · exact h

/-- The record of unit `u` at its entry to ALARM (R125). -/
def Watch.alarmed (x : AlarmCause) (c : Option Chan) (t : Nat) (r : Watch) : Watch :=
  { r with state := .alarm, cause := some x, alarmTime := some t, escalations := 0, alarmChannel := c }

/-- What follows once the record is in ALARM and its crew's count answers for it. -/
theorem Work.alarmEntered_kept (u : Nat) (x : AlarmCause) (c : Option Chan) (b : Bool)
    (h : Kept a (if b then w.modWatch u (Watch.alarmed x c w.site.count)
      else (w.modWatch u (Watch.alarmed x c w.site.count)).raiseAlarms u).site) : Kept a (w.enterAlarm u x c b).site := by
  have h1 : ∀ v : Work, Kept a v.site → ∀ n, Kept a ((v.cancelOwned (.watch u) .prompt).modWatch u fun r =>
      { r with escalationExpiry := n }).site := by
    intro v k n
    exact modWatch_kept (cancelOwned_kept k _ _) u (fun r => { r with escalationExpiry := n })
  have h2 := h1 _ h
  simp only [Work.enterAlarm]
  split
  · exact emit_kept (h2 _) _
  · exact h2 _

/-- The record of unit `u` enters ALARM: one that counted goes on counting, and one that did not comes to. -/
theorem Work.enterAlarm_kept (h : Kept a w.site) (u : Nat) (x : AlarmCause) (c : Option Chan) (b : Bool) {r : Watch}
    (hr : Table.look w.site.watches u = some r) (hb : r.state.inAlarm = b) : Kept a (w.enterAlarm u x c b).site := by
  refine alarmEntered_kept u x c b ?_
  cases b
  · refine raised_kept h u (x := w.site.watches.adjust u (Watch.alarmed x c w.site.count)) (fun k => Table.wf_adjust k _ _)
      (fun v e => Table.look_adjust_other _ _ _ _ e) (r := r.alarmed x c w.site.count) ?_ rfl (fun q hq => ?_)
      (fun k => k.units u r hr) _ rfl
    · rw [Table.look_adjust_same, hr]; rfl
    · obtain rfl : r = q := by rw [hr] at hq; exact Option.some.inj hq
      exact hb
  · refine modWatch_kept h u _ fun q hq => ?_
    obtain rfl : r = q := by rw [hr] at hq; exact Option.some.inj hq
    rw [hb]; rfl

theorem Work.placeAssists_kept (h : Kept a w.site) (u : Nat) (r : Watch) : Kept a (w.placeAssists u r).site := by
  refine foldl_kept _ (fun _ _ hv => ?_) _ _ h
  split
  · exact pushAlert_kept hv _ _
  · exact hv.trans .counters

theorem Work.placeWatchStart_kept (h : Kept a w.site) (u : Nat) : Kept a (w.placeWatchStart u).site := by
  unfold Work.placeWatchStart; split
  · exact place_kept h _ _ _
  · exact h

theorem Work.placePrompt_kept (h : Kept a w.site) (u : Nat) : Kept a (w.placePrompt u).site := place_kept h _ _ _

theorem Work.putNotice_kept (h : Kept a w.site) (u : Nat) (g : Site → Nat) :
    Kept a (w.modSite fun s => { s with stopNotices := s.stopNotices.put u (g s) }).site :=
  h.trans (Kept.setNotices _ _ fun k => Table.wf_put k _ _)

theorem Work.dropNotice_kept (h : Kept a w.site) (u : Nat) : Kept a (w.dropNotice u).site :=
  h.trans (Kept.setNotices _ _ fun k => Table.wf_del k _)

/-- What follows once the record of unit `u` is freed (R114). -/
theorem Work.watchFreed_kept (h : Kept a w.site) (u : Nat) (c : WatchCause)
    (hd : Kept a (((w.cancelOwned (.watch u) .watchSet).cancelOwned (.watch u) .prompt).modSite fun s =>
      { s with watches := s.watches.del u }).site) : Kept a (w.removeWatch u c).site := by
  simp only [Work.removeWatch]
  repeat' split
  · exact hd
  · exact putNotice_kept (place_kept (emit_kept hd _) _ _ _) u _
  · exact h

/-- Cancelling and placing items leaves the supervision records, the roster, the crews, the permits and the sections alone. -/
theorem Work.cancelOwned_tables (w : Work) (o : Owner) (k : ItemKind) :
    (w.cancelOwned o k).site.watches = w.site.watches ∧ (w.cancelOwned o k).site.roster = w.site.roster
      ∧ (w.cancelOwned o k).site.crews = w.site.crews ∧ (w.cancelOwned o k).site.permits = w.site.permits
      ∧ (w.cancelOwned o k).site.sections = w.site.sections :=
  have e := w.cancelOwned_rest o k
  ⟨Site.rest_eq e Site.watches fun _ => rfl, Site.rest_eq e Site.roster fun _ => rfl,
    Site.rest_eq e Site.crews fun _ => rfl, Site.rest_eq e Site.permits fun _ => rfl,
    Site.rest_eq e Site.sections fun _ => rfl⟩

theorem Work.placeResult_tables (w : Work) (k : Nat) (r : ResultCode) :
    (w.placeResult k r).site.watches = w.site.watches ∧ (w.placeResult k r).site.roster = w.site.roster
      ∧ (w.placeResult k r).site.crews = w.site.crews ∧ (w.placeResult k r).site.permits = w.site.permits
      ∧ (w.placeResult k r).site.sections = w.site.sections :=
  have e := w.placeResult_rest k r
  ⟨Site.rest_eq e Site.watches fun _ => rfl, Site.rest_eq e Site.roster fun _ => rfl,
    Site.rest_eq e Site.crews fun _ => rfl, Site.rest_eq e Site.permits fun _ => rfl,
    Site.rest_eq e Site.sections fun _ => rfl⟩

/-- A record that is not in alarm is removed (R114). -/
theorem Work.removeWatch_kept (h : Kept a w.site) (u : Nat) (c : WatchCause)
    (hu : ∀ r, Table.look w.site.watches u = some r → r.state.inAlarm = false) : Kept a (w.removeWatch u c).site := by
  refine watchFreed_kept h u c (delWatch_kept (cancelOwned_kept (cancelOwned_kept h _ _) _ _) u fun r hr k => ?_)
  rw [(Work.cancelOwned_tables _ _ _).1, (Work.cancelOwned_tables _ _ _).1] at hr
  rw [hu r hr] at k; simp at k

theorem Work.watchSetFailed_kept (h : Kept a w.site) (u : Nat) : Kept a (w.watchSetFailed u).site := by
  unfold Work.watchSetFailed; split
  · exact emit_kept (placeWatchStart_kept h _) _
  · exact h

theorem Work.watchAtAcceptance_kept (h : Kept a w.site) (u : Nat) (c : Chan) :
    Kept a (w.watchAtAcceptance u c).site := by
  simp only [Work.watchAtAcceptance]
  repeat' split
  · exact placeAlarmSeen_kept (modWatch_kept h _ _) _
  · exact modWatch_kept h _ _
  · exact h
  · exact h

theorem Work.watchAtRemoval_kept (h : Kept a w.site) (u : Nat) (hu : w.site.boundCrew u = none) :
    Kept a (w.watchAtRemoval u).site := by
  simp only [Work.watchAtRemoval]
  repeat' split
  · exact emit_kept (delWatch_kept (emit_kept h _) _ fun _ _ _ => hu) _
  · exact emit_kept (delWatch_kept h _ fun _ _ _ => hu) _
  · exact h

/-! ### Permits -/

theorem Work.reportRecord_kept (h : Kept a w.site) (k : Nat) (p : Option PermitState) (c : PermitCause) :
    Kept a (w.reportRecord k p c).site := by
  unfold Work.reportRecord; split
  · exact h
  · exact h

theorem Work.freePermit_but (w : Work) (k : Nat) : KeptBut w.site (w.freePermit k).site :=
  KeptBut.setPermits _ _ (fun k => Table.wf_del k _) fun _ => Site.lawful_of_subset fun _ => Table.mem_del

/-- A retained record is freed. -/
theorem Work.freePermit_kept (h : Kept a w.site) (k : Nat)
    (hk : w.site.sorted = true → ∀ p, Table.look w.site.permits k = some p → p.retained = true) :
    Kept a (w.freePermit k).site :=
  h.trans ((w.freePermit_but k).kept fun sa sb => Books.freePermit (hk sa) sa sb)

theorem Work.placeResult_kept (h : Kept a w.site) (k : Nat) (r : ResultCode) : Kept a (w.placeResult k r).site := by
  unfold Work.placeResult
  repeat' split
  · exact place_kept h _ _ _
  · exact h
  · exact h

theorem Work.revertState_kept (h : Kept a w.site) (k : Nat) {p : Permit} (hk : Table.look w.site.permits k = some p)
    (hp : p.state = .issuing) : Kept a (w.modPermit k fun p => { p with state := .requested, deadline := none }).site := by
  refine modPermit_kept h k (fun p => { p with state := .requested, deadline := none }) (fun _ _ => .of_idle rfl (.inl rfl))
    fun q hq => ?_
  obtain rfl : p = q := by rw [hk] at hq; exact Option.some.inj hq
  simp only [Permit.entry, Permit.live, Permit.inForce, hp]; rfl

theorem Work.revertPermit_kept (h : Kept a w.site) (k : Nat) (c : PermitCause) (b : Bool) :
    Kept a (w.revertPermit k c b).site := by
  simp only [Work.revertPermit]
  split
  · rename_i p hk
    split
    · rename_i hp
      split
      · exact reportRecord_kept (placeResult_kept (cancelOwned_kept (revertState_kept h k hk hp) _ _) _ _) _ _ _
      · exact reportRecord_kept (cancelOwned_kept (revertState_kept h k hk hp) _ _) _ _ _
    · exact h
  · exact h

theorem Work.completePermit_but (w : Work) (k : Nat) (p : PermitState) (c : PermitCause) :
    KeptBut w.site (w.completePermit k p c).site := by
  have h0 := (reportRecord_kept (.refl w.site) k (some p) c).toKeptBut
  have hm : ∀ v : Work, KeptBut w.site v.site → ∀ f : Permit → Permit, (∀ p, (f p).work = p.work) →
      (∀ p, (f p).state = p.state) → KeptBut w.site (v.modPermit k f).site :=
    fun v hv f h1 h2 => hv.trans (modPermit_but v k f fun p _ => .of_state (h1 p) (h2 p))
  have hc : ∀ v : Work, KeptBut w.site v.site → KeptBut w.site (v.cancelOwned (.permit k) .permit).site :=
    fun v hv => hv.trans (cancelOwned_kept (.refl v.site) _ _).toKeptBut
  have hn : ∀ v : Work, KeptBut w.site v.site → ∀ n f, KeptBut w.site (v.modCrew n f).site :=
    fun v hv n f => hv.trans (modCrew_but v n f)
  have hf : ∀ v : Work, KeptBut w.site v.site → KeptBut w.site (v.freePermit k).site :=
    fun v hv => hv.trans (freePermit_but v k)
  simp only [Work.completePermit]
  split
  · have h1 := hm _ h0 (fun p => { p with deadline := none, dangerOwed := false }) (fun _ => rfl) fun _ => rfl
    split
    · split
      · refine hm _ (hn _ h1 _ _) _ ?_ ?_
        exacts [fun _ => rfl, fun _ => rfl]
      · exact hf _ (hc _ (hn _ h1 _ _))
    · exact hf _ (hn _ (hc _ h1) _ _)
  · exact h0

theorem Work.finishPermit_but (w : Work) (k : Nat) (n : PermitState) (c : PermitCause) (hn : n.live = false) :
    KeptBut w.site (w.finishPermit k n c).site := by
  unfold Work.finishPermit; split
  · exact (modPermit_but w k (fun p => { p with state := n }) fun _ _ => .of_idle rfl (.inr hn)).trans
      (completePermit_but _ _ _ _)
  · exact .refl _

theorem Work.reportRecord_site (w : Work) (k : Nat) (p : Option PermitState) (c : PermitCause) :
    (w.reportRecord k p c).site = w.site := by
  unfold Work.reportRecord; split <;> rfl

/-- What the completion of a permit in a final state leaves of the tables (R150). -/
theorem Work.completePermit_tables (w : Work) {k : Nat} {p : Permit} (hk : Table.look w.site.permits k = some p)
    (hl : p.live = false) (s : PermitState) (c : PermitCause) :
    let t := (w.completePermit k s c).site
    t.watches = w.site.watches ∧ t.roster = w.site.roster ∧ t.sections = w.site.sections
      ∧ t.crews = w.site.crews.adjust p.crew (fun x => { x with permits := x.permits - 1 })
      ∧ (∀ j, j ≠ k → Table.look t.permits j = Table.look w.site.permits j)
      ∧ ∀ q, Table.look t.permits k = some q → q.live = false := by
  intro t
  obtain ⟨v, hv, ht⟩ : ∃ v : Work, v.site = { w.site with
      permits := w.site.permits.adjust k fun p => { p with deadline := none, dangerOwed := false } } ∧
      t = (let owes := v.site.owesFinalResult k
        let w : Work := if owes then v else v.cancelOwned (.permit k) .permit
        let w := w.modCrew p.crew fun c => { c with permits := c.permits - 1 }
        if owes then
          if (p.recorded.bind w.site.byId).any fun e => e.2.state == .affiliated then
            w.modPermit k fun p => { p with retained := true }
          else (w.cancelOwned (.permit k) .permit).freePermit k
        else w.freePermit k : Work).site := by
    refine ⟨(w.reportRecord k (some s) c).modPermit k fun p => { p with deadline := none, dangerOwed := false }, ?_, ?_⟩
    · rw [Work.modPermit_site, reportRecord_site]
    · show (w.completePermit k s c).site = _
      simp only [Work.completePermit, reportRecord_site, hk]
  have lk : Table.look v.site.permits k = some { p with deadline := none, dangerOwed := false } := by
    rw [hv]; simp [hk]
  have lo : ∀ j, j ≠ k → Table.look v.site.permits j = Table.look w.site.permits j := by
    intro j e; rw [hv]; exact Table.look_adjust_other _ _ _ _ e
  have h1 : v.site.watches = w.site.watches := by rw [hv]
  have h2 : v.site.roster = w.site.roster := by rw [hv]
  have h3 : v.site.sections = w.site.sections := by rw [hv]
  have h4 : v.site.crews = w.site.crews := by rw [hv]
  clear hv hk
  clear_value t
  subst ht
  have ct := fun x : Work => Work.cancelOwned_tables x (.permit k) .permit
  simp only []
  split
  · split
    · refine ⟨h1, h2, h3, by simp [h4], fun j e => ?_, fun q hq => ?_⟩
      · simp only [Work.modPermit_site, Work.modCrew_site]
        rw [Table.look_adjust_other _ _ _ _ e]; exact lo j e
      · simp only [Work.modPermit_site, Work.modCrew_site, Table.look_adjust_same, lk, Option.map_some,
          Option.some.injEq] at hq
        rw [← hq]; exact hl
    · obtain ⟨c1, c2, c3, c4, c5⟩ := ct (v.modCrew p.crew fun c => { c with permits := c.permits - 1 })
      refine ⟨c1.trans h1, c2.trans h2, c5.trans h3, c3.trans (by simp [h4]), fun j e => ?_, fun q hq => ?_⟩
      · simp only [Work.freePermit, Work.modSite_site]
        rw [Table.look_del_other _ _ _ e, c4]; exact lo j e
      · simp [Work.freePermit] at hq
  · obtain ⟨c1, c2, c3, c4, c5⟩ := ct v
    refine ⟨c1.trans h1, c2.trans h2, c5.trans h3, ?_, fun j e => ?_, fun q hq => ?_⟩
    · simp [Work.freePermit, c3, h4]
    · simp only [Work.freePermit, Work.modSite_site, Work.modCrew_site]
      rw [Table.look_del_other _ _ _ e, c4]; exact lo j e
    · simp [Work.freePermit] at hq

/-- A live permit enters a final state and completes (R150), its sections' counts having fallen where it was in force. -/
theorem Work.finished_kept (h : Kept a w.site) {x : Table Nat} (hx : KeptBut w.site { w.site with sections := x }) {v : Work}
    (hv : v.site = { w.site with sections := x }) (k : Nat) (n : PermitState) (c : PermitCause) (hn : n.live = false)
    (hk : w.site.sorted = true → ∃ p, Table.look w.site.permits k = some p ∧ p.live = true
      ∧ (w.site.Cleared → ∀ m, Table.look x m = (Table.look w.site.sections m).map (p.recount (· - 1) m))) :
    Kept a (v.finishPermit k n c).site := by
  have hb : KeptBut w.site (v.finishPermit k n c).site := by
    refine KeptBut.trans ?_ (finishPermit_but v k n c hn)
    rw [hv]; exact hx
  refine h.trans (hb.kept fun sa sb => ?_)
  obtain ⟨p, hp, hl, hs⟩ := hk sa
  have hq : Table.look v.site.permits k = some p := by rw [hv]; exact hp
  obtain ⟨t, ht, e⟩ : ∃ t, t = (v.finishPermit k n c).site ∧
      t = ((v.modPermit k fun p => { p with state := n }).completePermit k p.state c).site := by
    refine ⟨_, rfl, ?_⟩
    unfold Work.finishPermit; rw [hq]
  rw [← ht] at sb ⊢
  have lk : Table.look (v.modPermit k fun p => { p with state := n }).site.permits k = some { p with state := n } := by
    rw [Work.modPermit_site, Table.look_adjust_same, hq]; rfl
  obtain ⟨h1, h2, h3, h4, h5, h6⟩ := Work.completePermit_tables _ lk hn p.state c
  rw [← e] at h1 h2 h3 h4 h5 h6
  simp only [Work.modPermit_site, hv] at h1 h2 h3 h4 h5
  refine Books.finish hp hl h2 h1 h4 (fun j g => ?_) h6 (fun k m => ?_) sa sb
  · rw [h5 j g, Table.look_adjust_other _ _ _ _ g]
  · rw [h3]; exact hs k m

theorem Work.finishPermit_kept (h : Kept a w.site) (k : Nat) (n : PermitState) (c : PermitCause) (hn : n.live = false)
    (hk : w.site.sorted = true → ∃ p, Table.look w.site.permits k = some p ∧ p.live = true
      ∧ (p.inForce = true → p.work.sections = [])) : Kept a (w.finishPermit k n c).site := by
  refine finished_kept h (.refl _) rfl k n c hn fun sa => ?_
  obtain ⟨p, hp, hl, hf⟩ := hk sa
  refine ⟨p, hp, hl, fun _ m => ?_⟩
  have e : p.recount (· - 1) m = id := by
    funext y
    unfold Permit.recount
    rw [if_neg]
    · rfl
    · rintro ⟨f, g⟩; rw [hf f] at g; simp at g
  rw [e]; simp

/-- A listed count of sections, raised or lowered once each. -/
theorem look_fold (g : Nat → Nat) {l : List Nat} (hl : l.Nodup) (t : Table Nat) (n : Nat) :
    Table.look (l.foldl (fun t n => Table.adjust t n g) t) n = (Table.look t n).map fun m => if n ∈ l then g m else m := by
  induction l generalizing t with
  | nil => simp
  | cons m l ih =>
    rw [List.foldl_cons, ih (List.nodup_cons.1 hl).2]
    by_cases e : n = m
    · subst e
      rw [Table.look_adjust_same, Option.map_map]
      congr 1; funext x; simp [(List.nodup_cons.1 hl).1]
    · rw [Table.look_adjust_other _ _ _ _ e]
      simp [e]

theorem Work.lowerSections_but (w : Work) (l : List Nat) : KeptBut w.site (w.lowerSections l).site := by
  unfold Work.lowerSections
  rw [sections_fold (· - 1) l w]
  exact KeptBut.setSections _ _ (wf_fold _ _ _) fun _ => Site.lawful_of_sections fun n => look_lower _ _ n

theorem Work.ignoreArrival_kept (h : Kept a w.site) : Kept a w.ignoreArrival.site :=
  h.trans .counters

theorem Work.dropDanger_kept (h : Kept a w.site) : Kept a w.dropDanger.site :=
  h.trans .counters

theorem Work.offerDanger_kept (h : Kept a w.site) (k sw : Nat) : Kept a (w.offerDanger k sw).1.site := by
  unfold Work.offerDanger
  repeat' split
  all_goals first
    | exact h
    | exact pushAlert_kept h _ _
    | exact modPermit_kept_still (dropDanger_kept h) k (fun p => { p with dangerOwed := true }) (fun _ => rfl) fun _ => rfl
    | exact modPermit_kept_still h k (fun p => { p with dangerOwed := true }) (fun _ => rfl) fun _ => rfl

theorem Work.adjustSwitch_kept (h : Kept a w.site) (sw : Nat) (f : SwitchPoint → SwitchPoint)
    (hf : ∀ q n, (f q).joins n = q.joins n) :
    Kept a (w.modSite fun s => { s with switches := s.switches.adjust sw f }).site :=
  h.trans (Kept.setSwitches _ _ (fun k => Table.wf_adjust k _ _) fun _ => Site.lawful_of_position sw f hf)

theorem Work.tagViolation_kept (h : Kept a w.site) (sw : Nat) (p : SwitchPoint) (q : SwitchPosition)
    (s : PositionSource) : Kept a (w.tagViolation sw p q s).1.site := by
  have h1 := adjustSwitch_kept h sw (fun p => { p with violated := true }) fun _ _ => rfl
  have h2 : ∀ (l : List (Nat × Permit)) (v : Work × List MarkedClearance), Kept a v.1.site →
      Kept a (l.foldl (fun (x : Work × List MarkedClearance) e =>
        ((x.1.offerDanger e.1 sw).1, x.2 ++ [{ number := e.2.number, crew := e.2.crew, state := e.2.state
                                               outcome := (x.1.offerDanger e.1 sw).2 }])) v).1.site := by
    intro l
    induction l with
    | nil => exact fun _ k => k
    | cons e l ih => exact fun v k => ih _ (offerDanger_kept k _ _)
  simp only [Work.tagViolation]
  refine emit_kept (h2 _ _ ?_) _
  refine foldl_kept _ (fun _ _ hv => modPermit_kept_still hv _ _ ?_ ?_) _ _ h1
  exacts [fun _ => rfl, fun _ => rfl]

theorem Work.recordPosition_kept (h : Kept a w.site) (sw : Nat) (q : SwitchPosition) (s : PositionSource) :
    Kept a (w.recordPosition sw q s).1.site := by
  unfold Work.recordPosition
  split
  · exact h
  · have h1 := adjustSwitch_kept h sw
      (fun p => { p with position := q, violated := if q = .opened then false else p.violated }) fun _ _ => rfl
    simp only []
    refine foldl_kept _ (fun _ _ hv => revertPermit_kept hv _ _ _) _ _ ?_
    exact pair_ite_kept (tagViolation_kept h1 _ _ _ _) h1

theorem Work.placeOwedDangers_kept (h : Kept a w.site) (n : Nat) : Kept a (w.placeOwedDangers n).site := by
  unfold Work.placeOwedDangers
  repeat' split
  · refine foldl_kept _ (fun _ _ hv => ?_) _ _ h
    split
    · refine modPermit_kept_still (pushAlert_kept hv _ _) _ _ ?_ ?_
      exacts [fun _ => rfl, fun _ => rfl]
    · exact dropDanger_kept hv
  · exact h
  · exact h

/-- What a list by ascending permit number holds: records of the table that pass the test. -/
theorem permitsBy_spec {s : Site} {f : Permit → Bool} {e : Nat × Permit} (h : e ∈ s.permitsBy f) :
    e ∈ s.permits ∧ f e.2 = true := by
  have g : ∀ (l : List (Nat × Permit)) (x : Nat × Permit), e ∈ numberInsert x l → e = x ∨ e ∈ l := by
    intro l x
    induction l with
    | nil => simp [numberInsert]
    | cons y l ih =>
      unfold numberInsert; split
      · simp
      · simp only [List.mem_cons]; rintro (k | k)
        · exact .inr (.inl k)
        · rcases ih k with k | k
          · exact .inl k
          · exact .inr (.inr k)
  have k : ∀ l : List (Nat × Permit), e ∈ l.foldr numberInsert [] → e ∈ l := by
    intro l
    induction l with
    | nil => simp
    | cons x l ih =>
      intro m
      rcases g _ _ m with m | m
      · simp [m]
      · exact List.mem_cons_of_mem _ (ih m)
  simpa [List.mem_filter] using k _ h

/-- Retained records lose their items and are freed, one after another (R145). -/
theorem Work.freeAll_kept (h : Kept a w.site) (l : List (Nat × Permit))
    (hl : w.site.sorted = true → ∀ e ∈ l, ∀ p, Table.look w.site.permits e.1 = some p → p.retained = true) :
    Kept a (l.foldl (fun w e => (w.cancelOwned (.permit e.1) .permit).freePermit e.1) w).site := by
  have hb : ∀ (v : Work) (e : Nat × Permit), KeptBut v.site ((v.cancelOwned (.permit e.1) .permit).freePermit e.1).site :=
    fun v e => (cancelOwned_kept (.refl v.site) _ _).toKeptBut.trans (freePermit_but _ _)
  refine h.trans ((foldl_but _ hb l w).kept fun sa _ => ?_)
  replace hl := hl sa
  rename_i x
  clear h x
  induction l generalizing w with
  | nil => exact .refl _
  | cons e l ih =>
    have ct := Work.cancelOwned_tables w (.permit e.1) .permit
    have h1 := cancelOwned_kept (.refl w.site) (.permit e.1) .permit
    rw [List.foldl_cons]
    have hf : Books w.site ((w.cancelOwned (.permit e.1) .permit).freePermit e.1).site := by
      refine (h1.books sa).trans (Books.freePermit (fun p hp => ?_) (h1.sorted sa) ((hb w e).sorted sa))
      rw [ct.2.2.2.1] at hp; exact hl e (List.mem_cons_self ..) p hp
    refine hf.trans (ih ((hb w e).sorted sa) fun x hx p hp => ?_)
    · simp only [Work.freePermit, Work.modSite_site, ct.2.2.2.1] at hp
      by_cases g : x.1 = e.1
      · rw [g] at hp; simp at hp
      · rw [Table.look_del_other _ _ _ g] at hp; exact hl x (List.mem_cons_of_mem _ hx) p hp

theorem Work.permitsAtAbsence_kept (h : Kept a w.site) (t : Nat) : Kept a (w.permitsAtAbsence t).site := by
  simp only [Work.permitsAtAbsence]
  have h1 := foldl_kept (fun w e => w.revertPermit e.1 .vehicleAbsent false) (fun _ _ hv => revertPermit_kept hv _ _ _)
    (w.site.permitsBy fun q => q.state == .issuing && q.recorded == some t) w h
  generalize (w.site.permitsBy fun q => q.state == .issuing && q.recorded == some t).foldl
    (fun w e => w.revertPermit e.1 .vehicleAbsent false) w = v at h1
  have h2 : v.site.sorted = true → ∀ e ∈ v.site.permitsBy fun q => q.retained && q.recorded == some t,
      ∀ p, Table.look v.site.permits e.1 = some p → p.retained = true := by
    intro hs e he p hp
    have hm := permitsBy_spec he
    rw [Table.look_of_mem ((sorted_iff _).1 hs).2.2.2.2.2.2.2.2 hm.1] at hp
    obtain rfl := Option.some.inj hp
    have := hm.2
    simp only [Bool.and_eq_true] at this
    exact this.1
  exact freeAll_kept h1 _ h2

/-! ### Outcomes of frames, and absences -/

theorem Work.itemAcked_kept (h : Kept a w.site) (it : PulItem) : Kept a (w.itemAcked it).site := by
  unfold Work.itemAcked; split
  · exact finishOrder_kept h _ _ _ _ _
  · refine serveNotes_kept (placeNoteRecall_kept (modTerminal_kept h _ _ ?_) _)
    exact fun _ k => k
  · exact serveNotes_kept (dropNotice_kept h _)
  · exact modWatch_kept h _ _
  · refine modPermit_kept_still h _ _ ?_ ?_
    exacts [fun _ => rfl, fun _ => rfl]
  · refine modPermit_kept_still h _ _ ?_ ?_
    exacts [fun _ => rfl, fun _ => rfl]
  · exact h

theorem Work.acceptedFailed_kept (h : Kept a w.site) (k : Nat) : Kept a (w.acceptedFailed k).site := by
  unfold Work.acceptedFailed
  repeat' split
  · exact placeResult_kept h _ _
  · exact h
  · exact h

theorem Work.itemFailed_kept (h : Kept a w.site) (it : PulItem) (b : Bool) : Kept a (w.itemFailed it b).site := by
  unfold Work.itemFailed; split
  · exact returnUnconfirmed_kept h _ _
  · exact dropNotice_kept h _
  · exact watchSetFailed_kept h _
  · exact revertPermit_kept h _ _ _
  · exact acceptedFailed_kept h _
  · exact h

theorem Work.freeRetained_kept (h : Kept a w.site) (k : Nat) : Kept a (w.freeRetained k).site := by
  unfold Work.freeRetained; split
  · rename_i hr
    refine freePermit_kept h _ fun _ p hp => ?_
    rw [hp] at hr; simpa using hr
  · exact h

theorem Work.itemSent_kept (h : Kept a w.site) (it : PulItem) : Kept a (w.itemSent it).site := by
  unfold Work.itemSent; split
  · exact freeRetained_kept h _
  all_goals exact h

theorem Work.leaveQueue_kept (h : Kept a w.site) (c : Chan) (id : Nat) : Kept a (w.leaveQueue c id).site :=
  fill_kept (dropItem_kept (removeEntry_kept h _ _) _) _

theorem Work.failFrame_kept (h : Kept a w.site) (i : Nat) (o : Outstanding) (b : Bool) :
    Kept a (w.failFrame i o b).site := by
  simp only [Work.failFrame]
  repeat' split
  all_goals first
    | exact orderFailed_kept (endOutstanding_kept h _ _) _ _ _
    | exact itemFailed_kept (leaveQueue_kept (endOutstanding_kept h _ _) _ _) _ _
    | exact leaveQueue_kept (endOutstanding_kept h _ _) _ _

theorem Work.failOutstanding_kept (h : Kept a w.site) (i : Nat) : Kept a (w.failOutstanding i).site := by
  unfold Work.failOutstanding; split
  · exact failFrame_kept h _ _ _
  · exact h

theorem Work.withdrawOutstanding_kept (h : Kept a w.site) (i c : Nat) : Kept a (w.withdrawOutstanding i c).site := by
  simp only [Work.withdrawOutstanding]
  repeat' split
  · exact orderWithdrawn_kept (endOutstanding_kept h _ _) _ _ _
  · exact returnItem_kept (endOutstanding_kept h _ _) _ _
  · exact h

theorem Work.leaveAccess_kept (h : Kept a w.site) (c : Chan) (i : Nat) : Kept a (w.leaveAccess c i).site := by
  refine modChan_kept h _ _ rfl fun k => ?_
  simp only [Channel.sound, Bool.and_eq_true, decide_eq_true_eq] at k ⊢
  exact ⟨k.1, k.2.filter _⟩

theorem Work.reactAbsence_kept (h : Kept a w.site) (i : Nat) (t : Terminal) (c : Chan) (x : TerminalCause) :
    Kept a (w.reactAbsence i t c x).site :=
  emit_kept (permitsAtAbsence_kept (ordersAtAbsence_kept (fill_kept (returnWaiting_kept (leaveAccess_kept
    (failOutstanding_kept h _) _ _) _ _) _) _ _) _) _

theorem Terminal.sound_gone {t : Terminal} (h : t.sound = true) : t.gone.sound = true := by
  simp only [Terminal.sound, Bool.and_eq_true, decide_eq_true_eq] at h
  simp [Terminal.sound, Terminal.gone, h.1.1.1, h.1.1.2]

theorem Work.absent_kept (h : Kept a w.site) (i : Nat) (x : TerminalCause) : Kept a (w.absent i x).site := by
  unfold Work.absent
  split
  · split
    · simp only []
      have h1 : ∀ t c, Kept a ((w.modTerminal i Terminal.gone).reactAbsence i t c x).site :=
        fun t c => reactAbsence_kept
          (h.trans ((modTerminal_but w i _ fun _ k => Terminal.sound_gone k).level (.of_gone i))) _ _ _ _
      split
      · exact serveNotes_kept (h1 _ _)
      · exact h1 _ _
    · exact h
  · exact h

theorem Work.retryFrame_kept (h : Kept a w.site) (i : Nat) (o : Outstanding) : Kept a (w.retryFrame i o).site := by
  unfold Work.retryFrame; split
  · refine offer_kept (modOrder_kept (modTerminal_kept h _ _ ?_) _ _) _
    exact fun _ k => k
  · refine offer_kept (modChan_kept (modTerminal_kept h _ _ ?_) _ _ ?_ ?_) _
    exacts [fun _ k => k, rfl, fun k => k]

theorem Work.exhaustFrame_kept (h : Kept a w.site) (i : Nat) (o : Outstanding) : Kept a (w.exhaustFrame i o).site := by
  simp only [Work.exhaustFrame]
  have h1 : Kept a (match o.frame with
      | .order n _ => w.modOrder n fun x => { x with retry := some (o.retry + 1) }
      | .item _ => w : Work).site := by
    split
    · exact modOrder_kept h _ _
    · exact h
  split
  · exact serveNotes_kept (absent_kept (failFrame_kept h1 _ _ _) _ _)
  · exact absent_kept (failFrame_kept h1 _ _ _) _ _

theorem Work.miss_kept (h : Kept a w.site) (i : Nat) : Kept a (w.miss i).site := by
  simp only [Work.miss]
  repeat' split
  · exact retryFrame_kept (bumpStat_kept h _ _) _ _
  · exact exhaustFrame_kept (bumpStat_kept h _ _) _ _
  · exact h

theorem Work.acknowledge_kept (h : Kept a w.site) (i n : Nat) : Kept a (w.acknowledge i n).site := by
  simp only [Work.acknowledge]
  repeat' split
  all_goals first
    | exact h
    | exact orderAcked_kept (endOutstanding_kept (setCredit_kept h _ _) _ _) _
    | exact itemAcked_kept (leaveQueue_kept (endOutstanding_kept (setCredit_kept h _ _) _ _) _ _) _
    | exact leaveQueue_kept (endOutstanding_kept (setCredit_kept h _ _) _ _) _ _

theorem Work.cancelAddressed_kept (h : Kept a w.site) (i : Nat) : Kept a (w.cancelAddressed i).site := by
  refine foldl_kept _ (fun _ _ hv => ?_) _ _ h
  split
  · exact freeRetained_kept (cancelItem_kept hv _) _
  all_goals exact cancelItem_kept hv _

theorem Work.watchAtRemoval_but (w : Work) (u : Nat) : KeptBut w.site (w.watchAtRemoval u).site := by
  simp only [Work.watchAtRemoval]
  repeat' split
  · exact delWatch_but (w.reportAlarm u _ .removed) u
  · exact delWatch_but w u
  · exact .refl _

/-- What precedes the removal of the supervision record and of the roster record at index `i` (R8). -/
theorem Work.removalBegun_kept (h : Kept a w.site) (i t : Nat) :
    Kept a (((((w.absent i .removed).site.rankedOrders.filter fun e =>
      e.2.state == .recalling && e.2.recipient == some t).foldl (fun w e =>
        w.finishOrder e.1 .returned .vehicleAbsent (some .cancelledUnconfirmed) (some .none))
      (w.absent i .removed)).cancelAddressed i).dropNotice i).site :=
  dropNotice_kept (cancelAddressed_kept (foldl_kept _ (fun _ _ hv => finishOrder_kept hv _ _ _ _ _) _ _
    (absent_kept h _ _)) _) _

theorem Work.removeTerminal_but (w : Work) (i : Nat) : KeptBut w.site (w.removeTerminal i).site := by
  simp only [Work.removeTerminal]
  split
  · rename_i t _
    exact ((removalBegun_kept (.refl w.site) i t.id).toKeptBut.trans (watchAtRemoval_but _ i)).trans (delTerminal_but _ i)
  · exact .refl _

/-- The record of a terminal bound to no crew is removed (R8). -/
theorem Work.unboundRemoved_kept (h : Kept a w.site) (i : Nat) (hi : w.site.boundCrew i = none) :
    Kept a (w.removeTerminal i).site := by
  simp only [Work.removeTerminal]
  split
  · rename_i t _
    obtain ⟨v, hv, kv, bv⟩ : ∃ v, v = ((((w.absent i .removed).site.rankedOrders.filter fun e =>
        e.2.state == .recalling && e.2.recipient == some t.id).foldl (fun w e =>
          w.finishOrder e.1 .returned .vehicleAbsent (some .cancelledUnconfirmed) (some .none))
        (w.absent i .removed)).cancelAddressed i).dropNotice i ∧ Kept a v.site ∧ v.site.boundCrew i = none := by
      refine ⟨_, rfl, removalBegun_kept h i t.id, ?_⟩
      refine Eq.trans (Thinned.boundCrew ((w.absent_thinned i .removed).trans (Steady.thinned ?_)) i) hi
      exact dropNotice_steady (cancelAddressed_steady (foldl_steady _ (fun _ _ hv => finishOrder_steady hv _ _ _ _ _) _ _
        (.refl _)) _) _
    rw [← hv]
    clear hv
    have e : (v.watchAtRemoval i).site.roster = v.site.roster := by
      unfold Work.watchAtRemoval; repeat' split
      all_goals rfl
    refine delTerminal_kept (emit_kept (watchAtRemoval_kept kv i bv) _) i ?_ ?_
    · exact Eq.trans (by unfold Site.boundCrew; exact congrArg (fun r => (Table.look r i).bind Terminal.crew) e) bv
    · show Table.look (v.watchAtRemoval i).site.watches i = none
      unfold Work.watchAtRemoval
      repeat' split
      all_goals first
        | assumption
        | exact Table.look_del_same _ _
  · exact h

theorem Work.removeTerminal_kept (h : Kept a w.site) (i : Nat)
    (hi : w.site.sorted = true → w.site.boundCrew i = none) : Kept a (w.removeTerminal i).site :=
  h.trans ((removeTerminal_but w i).kept fun sa _ => (unboundRemoved_kept (.refl w.site) i (hi sa)).books sa)

/-- A removal binds no terminal. -/
theorem Work.removeTerminal_unbound (w : Work) (i j : Nat) (hj : w.site.boundCrew j = none) :
    (w.removeTerminal i).site.boundCrew j = none := by
  simp only [Work.removeTerminal]
  split
  · rename_i t _
    have e : ∀ v : Work, v.site.boundCrew j = none → (v.watchAtRemoval i).site.boundCrew j = none := by
      intro v hv
      have e : (v.watchAtRemoval i).site.roster = v.site.roster := by
        unfold Work.watchAtRemoval; repeat' split
        all_goals rfl
      unfold Site.boundCrew at hv ⊢; rw [e]; exact hv
    have d : ∀ v : Work, v.site.boundCrew j = none →
        (v.modSite fun s => { s with roster := s.roster.del i }).site.boundCrew j = none := by
      intro v hv
      unfold Site.boundCrew at hv ⊢
      by_cases k : j = i
      · subst k; simp
      · rw [Work.modSite_site, Table.look_del_other _ _ _ k]; exact hv
    refine d _ (e _ ?_)
    refine Eq.trans (Thinned.boundCrew ((w.absent_thinned i .removed).trans (Steady.thinned ?_)) j) hj
    exact dropNotice_steady (cancelAddressed_steady (foldl_steady _ (fun _ _ hv => finishOrder_steady hv _ _ _ _ _) _ _
      (.refl _)) _) _
  · exact hj

end Sys2Proof.Machine
end

