-- ==== Sys2Proof/Laws/KeptAir.lean ====
section
/-! SUPPORT. What a choice of the scheduler, the start of a sending, and the operations of a channel keep, and that the deficits
stay within 255 air units. -/

set_option Elab.async false

namespace Sys2Proof.Machine

variable {a : Site} {w : Work}

/-! ### The scheduler's account -/

/-- Both deficits of an account are within 0 to 255. -/
def Account.within (x : Account) : Prop := x.urgent ≤ 255 ∧ x.routine ≤ 255

theorem Account.within_setDeficit {x : Account} (h : x.within) (t : Turn) {v : Nat} (hv : v ≤ 255) :
    (x.setDeficit t v).within := by
  cases t
  · exact ⟨hv, h.2⟩
  · exact ⟨h.1, hv⟩

theorem Account.deficit_le {x : Account} (h : x.within) (t : Turn) : x.deficit t ≤ 255 := by
  cases t
  · exact h.1
  · exact h.2

theorem Account.within_grow {x : Account} (h : x.within) (q : Nat) : (x.grow q).within := by
  unfold Account.grow
  split
  · exact h
  · exact within_setDeficit h x.turn (Nat.min_le_left _ _)

/-- One pass keeps the deficits within 255. -/
theorem Account.within_pass {x : Account} (h : x.within) (q t : Nat) : (x.pass q t).2.within := by
  have h1 := within_grow h q
  simp only [Account.pass]
  split
  · exact within_setDeficit h1 _ (Nat.le_trans (Nat.sub_le _ _) (deficit_le h1 _))
  · exact h1

/-- The passes of case 3 keep the deficits within 255. -/
theorem Account.within_balance (uq rq ua ra n : Nat) {x : Account} (h : x.within) :
    (Account.balance uq rq ua ra n x).within := by
  induction n generalizing x with
  | zero => exact h
  | succ n ih =>
    have h1 := within_pass h (x.turn.of uq rq) (x.turn.of ua ra)
    unfold Account.balance
    split
    · rename_i e; rw [e] at h1; exact h1
    · rename_i e; rw [e] at h1; exact ih h1

/-- A choice keeps the deficits within 255. -/
theorem Site.within_choose (s : Site) (c : Chan) (h : (s.chan c).account.within) : (s.choose c).2.within := by
  unfold Site.choose
  simp only []
  repeat' split
  all_goals first
    | exact h
    | exact ⟨Nat.zero_le _, Nat.zero_le _⟩
    | exact Account.within_balance _ _ _ _ _ h

theorem Work.setAccount_kept (h : Kept a w.site) (c : Chan) :
    Kept a (w.modChan c fun ch => ch.setAccount (w.site.choose c).2).site := by
  refine modChan_kept h _ _ rfl fun k => ?_
  simp only [Channel.sound, Bool.and_eq_true, decide_eq_true_eq] at k ⊢
  have := Site.within_choose w.site c ⟨k.1.1, k.1.2⟩
  exact ⟨this, k.2⟩

/-! ### The start of a sending -/

theorem Work.settleGrant_kept (h : Kept a w.site) (c : Chan) (d : Draft) (b : Bool) :
    Kept a (w.settleGrant c d b).1.site := by
  unfold Work.settleGrant
  repeat' split
  · exact h
  · exact modChan_kept (leaveAccess_kept h _ _) _ _ rfl fun k => k
  · exact h

theorem Work.transmit_kept (h : Kept a w.site) (c : Chan) (f : AirFrame) : Kept a (w.transmit c f).site := by
  refine modChan_kept (modChans_kept h _ _ ?_ ?_) _ _ ?_ ?_
  exacts [fun _ => rfl, fun _ k => k, rfl, fun k => k]

theorem Work.setOutstandingItem_kept (h : Kept a w.site) (c : Chan) (i id : Nat) :
    Kept a (w.setOutstandingItem c i id).site := modTerminal_kept h _ _ fun _ k => k

theorem Work.setOutstandingOrder_kept (h : Kept a w.site) (c : Chan) (o : Order) (n i : Nat) :
    Kept a (w.setOutstandingOrder c o n i).site := by
  unfold Work.setOutstandingOrder; split
  · refine orderSent_kept (modTerminal_kept h _ _ ?_) _ _ _
    exact fun _ k => k
  · exact modTerminal_kept h _ _ fun _ k => k

theorem Work.beginUrgent_kept (h : Kept a w.site) (c : Chan) (e : UrgentEntry) : Kept a (w.beginUrgent c e).site := by
  have h1 : ∀ f : Channel → List UrgentEntry, Kept a (w.modChan c fun ch => { ch with urgents := f ch }).site :=
    fun f => modChan_kept h _ _ rfl fun k => k
  simp only [Work.beginUrgent]
  repeat' split
  · exact setOutstandingItem_kept (h1 _) _ _ _
  · exact h1 _
  · exact h1 _

theorem Work.startSending_kept (h : Kept a w.site) (c : Chan) (p : Pick) : Kept a (w.startSending c p).site := by
  unfold Work.startSending
  split
  · refine transmit_kept (modChan_kept (settleGrant_kept h _ _ _) _ _ ?_ ?_) _ _
    exacts [rfl, fun k => k]
  · exact transmit_kept (beginUrgent_kept (settleGrant_kept h _ _ _) _ _) _ _
  · exact transmit_kept (setOutstandingOrder_kept h _ _ _ _) _ _
  · exact transmit_kept (settleGrant_kept h _ _ _) _ _
  · exact h

theorem Work.serveChannel_kept (h : Kept a w.site) (c : Chan) : Kept a (w.serveChannel c).site := by
  unfold Work.serveChannel
  split
  · exact startSending_kept (setAccount_kept h c) _ _
  · exact h

/-- The choices offered while a command was taken keep what traffic keeps. -/
theorem Work.serve_kept (h : Kept a w.site) : Kept a w.serve.site := by
  refine foldl_kept _ (fun _ _ hv => ?_) _ _ h
  split
  · exact serveChannel_kept hv _
  · exact hv

/-! ### The operations of a channel -/

theorem Work.reportChannel_kept (h : Kept a w.site) (c : Chan) (x : ChannelCause) :
    Kept a (w.reportChannel c x).site := h

theorem Work.reportPair_kept (h : Kept a w.site) (c : Chan) (x : ChannelCause) : Kept a (w.reportPair c x).site :=
  foldl_kept _ (fun _ _ hv => reportChannel_kept hv _ _) _ _ h

theorem Work.reportMembers_kept (h : Kept a w.site) (c : Chan) (x : ChannelCause) :
    Kept a (w.reportMembers c x).site :=
  foldl_kept _ (fun _ _ hv => reportChannel_kept hv _ _) _ _ h

theorem Work.withdrawQueues_kept (h : Kept a w.site) (c : Chan) : Kept a (w.withdrawQueues c).site :=
  modChan_kept (foldl_kept _ (fun _ _ hv => adjustItem_kept hv _ _) _ _ h) _ _ rfl fun k => k

/-- A channel with its scheduler record and access set cleared is sound. -/
theorem Channel.sound_clear (ch : Channel) : ch.clearScheduler.sound = true := by
  simp [Channel.sound, Channel.clearScheduler]

theorem Work.departUp_kept (h : Kept a w.site) (c : Chan) (f : Chan → ChannelState) :
    Kept a (w.departUp c f).site := by
  have h1 : ∀ ms, Kept a (List.foldl (fun (w : Work) m => w.modChan m fun ch =>
      { ch.enter (f m) with beaconTimer := none, beaconDue := false }) w ms).site := by
    intro ms
    refine foldl_kept _ (fun v e hv => ?_) _ _ h
    refine modChan_kept hv _ _ ?_ ?_
    exacts [rfl, fun k => k]
  have h2 : ∀ (l : List Nat) (v : Work), Kept a v.site →
      Kept a (l.foldl (fun w i => w.absent i .channelDown) v).site :=
    fun l v hv => foldl_kept _ (fun _ _ hv => absent_kept hv _ _) l v hv
  have h3 : ∀ v : Work, Kept a v.site → Kept a ((v.withdrawQueues c).modChan c Channel.clearScheduler).site := by
    intro v hv
    exact modChan_kept (withdrawQueues_kept hv _) _ _ rfl fun _ => Channel.sound_clear _
  have h4 : ∀ (v : Work) ms, Kept a v.site → Kept a (v.modChans ms Channel.clearRuns).site :=
    fun v ms hv => modChans_kept hv _ _ (fun _ => rfl) fun _ k => k
  exact h4 _ _ (h3 _ (h2 _ _ (h1 _)))

theorem Work.silence_kept (h : Kept a w.site) (c : Chan) : Kept a (w.silence c).site :=
  modChans_kept h _ _ (fun _ => rfl) fun _ k => k

theorem Work.abandon_kept (h : Kept a w.site) (c : Chan) : Kept a (w.abandon c).site := by
  unfold Work.abandon; split
  · exact miss_kept (silence_kept h _) _
  · exact silence_kept h _

theorem Work.beginTraining_kept (h : Kept a w.site) (c : Chan) : Kept a (w.beginTraining c).site := by
  refine reportMembers_kept (modChans_kept h _ _ ?_ ?_) _ _
  exacts [fun _ => rfl, fun _ k => k]

theorem Work.enterUp_kept (h : Kept a w.site) (c : Chan) : Kept a (w.enterUp c).site := by
  refine offer_kept (reportMembers_kept (modChan_kept (modChans_kept h _ _ ?_ ?_) _ _ ?_ ?_) _ _) _
  exacts [fun _ => rfl, fun _ k => k, rfl, fun k => k]

theorem Work.goQuiet_kept (h : Kept a w.site) (c : Chan) (x : ChannelCause) : Kept a (w.goQuiet c x).site := by
  simp only [Work.goQuiet]
  refine reportPair_kept (modChans_kept ?_ _ _ ?_ ?_) _ _
  · split
    · exact departUp_kept (abandon_kept h _) _ _
    · exact modChans_kept h _ _ (fun _ => rfl) fun _ k => k
  · exact fun _ => rfl
  · exact fun _ k => k

theorem Work.trip_kept (h : Kept a w.site) (c : Chan) (x : ChannelCause) : Kept a (w.trip c x).site :=
  reportPair_kept (departUp_kept (silence_kept h _) _ _) _ _

theorem Work.drained_kept (h : Kept a w.site) (c : Chan) : Kept a (w.drained c).site := by
  refine reportMembers_kept (modChans_kept (silence_kept h _) _ _ ?_ ?_) _ _
  exacts [fun _ => rfl, fun _ k => k]

theorem Work.clearPending_kept (h : Kept a w.site) (c : Chan) : Kept a (w.clearPending c).site :=
  modChans_kept h _ _ (fun _ => rfl) fun _ k => k

/-- A step that works from a site keeps what its work keeps. -/
theorem State.conclude_kept (s : State) (l : Link) (h : Kept a w.site) : Kept a (s.conclude l w).site :=
  Work.serve_kept h

end Sys2Proof.Machine
end

