-- ==== Sys2Proof/Laws/KeptCommands.lean ====
section
/-! SUPPORT. What each owner's taking of a request and each event's work keeps. The commands that change the fixed part of the site
or a configuration are stated where they stand, with what they keep besides. -/

set_option Elab.async false

namespace Sys2Proof.Machine

variable {a : Site} {w : Work}

/-! ### Requests of the roster and the crew table -/

theorem Terminal.sound_loadedNow (n : Nat) (k : TerminalKind) : (Terminal.loadedNow n k).sound = true := by
  simp [Terminal.sound, Terminal.loadedNow]

theorem Terminal.sound_guest (n : Nat) (k : TerminalKind) : (Terminal.guest n k).sound = true := by
  simp [Terminal.sound, Terminal.guest]

theorem takeLoadTerminal_kept (h : Kept a w.site) (id : Word) (k : Byte) :
    Kept a (takeLoadTerminal id k w).work.site := by
  unfold takeLoadTerminal
  split
  · split
    · repeat' split
      · exact h
      · refine h.trans ((Work.modTerminal_but w _ _ ?_).kept fun _ _ => Books.loaded _)
        exact fun _ k => k
      · exact h
    · split
      · rename_i i e
        exact Work.putTerminal_kept h _ _ (Terminal.sound_loadedNow _ _) (Table.firstFree_spec e).1 rfl rfl
      · exact h
  · exact h

/-- The record a terminal ID names, as the roster's form tells it. -/
theorem look_of_byId {s : Site} (h : s.sorted = true) {n i : Nat} {t : Terminal} (e : s.byId n = some (i, t)) :
    Table.look s.roster i = some t ∧ t.id = n := by
  have := Table.look_of_seek ((sorted_iff s).1 h).1 e
  simpa using this

theorem takeDropTerminal_kept (h : Kept a w.site) (id : Word) : Kept a (takeDropTerminal id w).work.site := by
  unfold takeDropTerminal
  split
  · exact h
  · split
    · exact h
    · rename_i i t e
      split
      · exact h
      · rename_i hc
        refine Work.removeTerminal_kept h _ fun sa => ?_
        unfold Site.boundCrew
        rw [(look_of_byId sa e).1]
        simp only [not_or, Option.not_isSome_iff_eq_none] at hc
        exact hc.1

theorem Work.describeTerminal_work (w : Work) (i : Nat) : (w.describeTerminal i).work = w := by
  unfold Work.describeTerminal; split <;> rfl

theorem takeGetTerminal_work (x : Byte) (v : Word) (w : Work) : (takeGetTerminal x v w).work = w := by
  unfold takeGetTerminal
  repeat' split
  all_goals first | rfl | exact Work.describeTerminal_work _ _

theorem Work.vehicleChanged_kept (h : Kept a w.site) (n : Nat) : Kept a (w.vehicleChanged n).site := by
  unfold Work.vehicleChanged
  repeat' split
  · exact placeOwedDangers_kept (ordersAtVehicle_kept h _ _ _) _
  · exact ordersWithoutVehicle_kept h _
  · exact ordersWithoutVehicle_kept h _

/-- The checks of LOAD_CREW that passed, as far as the counts ask for them (R11). -/
structure CrewChecked (s : Site) (n : Nat) (o : Crew) (v : Option Nat) (ms : List Nat) : Prop where
  old : Table.look s.crews n = some o ∨ Table.look s.crews n = none ∧ o = .blank
  nodup : s.sorted = true → ms.Nodup
  vehicle : ∀ i, v = some i → s.kindAt i .vehicle = true
  members : ∀ i ∈ ms, s.kindAt i .personal = true
  free : ∀ i ∈ v.toList ++ ms, s.freeFor n i = true
  leaving : ∀ i ∈ o.members, i ∉ ms → Table.look s.watches i = none

theorem Work.crewLoaded_kept (h : Kept a w.site) {n : Nat} {o : Crew} {v : Option Nat} {ms : List Nat} (key : Nat)
    (k : CrewChecked w.site n o v ms) :
    Kept a ((w.putCrew n
      { vehicle := v, members := ms, key, permits := o.permits
        alarms := o.alarms + w.site.alarmsAmong (ms.filter fun i => !o.members.contains i) }).rebind n
      (o.terminals.filter fun i => !(v.toList ++ ms).contains i) (v.toList ++ ms)).site := by
  refine h.trans (((putCrew_but w n _).trans (rebind_but _ _ _ _)).kept fun sa _ => ?_)
  have e := Work.rebind_spec (w.putCrew n
    { vehicle := v, members := ms, key, permits := o.permits
      alarms := o.alarms + w.site.alarmsAmong (ms.filter fun i => !o.members.contains i) }) n
      (o.terminals.filter fun i => !(v.toList ++ ms).contains i) (v.toList ++ ms)
  refine Books.loadCrew (key := key) k.old (k.nodup sa) k.vehicle k.members k.free k.leaving ⟨e.2, ?_, ?_, ?_⟩ ?_ sa
  all_goals rw [e.1]; rfl

theorem Work.replaceCrew_kept (h : Kept a w.site) {n : Nat} {o : Crew} {v : Option Nat} {ms : List Nat} (key : Nat)
    (k : CrewChecked w.site n o v ms) : Kept a (w.replaceCrew n o v ms key).site := by
  simp only [Work.replaceCrew]
  split
  · exact crewLoaded_kept h key k
  · exact vehicleChanged_kept (crewLoaded_kept h key k) _

theorem Work.createCrew_kept (h : Kept a w.site) {n : Nat} {v : Option Nat} {ms : List Nat} (key : Nat)
    (k : CrewChecked w.site n .blank v ms) : Kept a (w.createCrew n v ms key).site := by
  have e := crewLoaded_kept h key k
  have f : ms.filter (fun i => !Crew.blank.members.contains i) = ms := by simp [Crew.blank]
  rw [f] at e
  simpa only [Work.createCrew, Crew.blank, Crew.terminals, Option.toList_none, List.nil_append, List.filter_nil,
    Nat.zero_add] using e

/-- Distinct IDs name distinct records. -/
theorem Site.namedMembers_nodup {s : Site} (h : s.sorted = true) {l : List Word} (hl : l.Nodup) : (s.namedMembers l).Nodup := by
  unfold Site.namedMembers
  refine List.Nodup.filterMap (fun x y i hx hy => ?_) hl
  simp only [Option.mem_def, Option.map_eq_some_iff] at hx hy
  obtain ⟨⟨i1, t1⟩, e1, rfl⟩ := hx
  obtain ⟨⟨i2, t2⟩, e2, g⟩ := hy
  simp only at g
  subst g
  obtain ⟨l1, d1⟩ := look_of_byId h e1
  obtain ⟨l2, d2⟩ := look_of_byId h e2
  rw [l1] at l2
  obtain rfl := Option.some.inj l2
  exact BitVec.eq_of_toNat_eq (d1.symm.trans d2)

theorem takeLoadCrew_kept (h : Kept a w.site) (n : Half) (v : Word) (key : Half) (ms : List Word) :
    Kept a (takeLoadCrew n v key ms w).work.site := by
  unfold takeLoadCrew
  simp only []
  split
  · exact h
  · rename_i hr
    split
    · exact h
    · split
      · exact h
      · rename_i hk
        split
        · exact h
        · rename_i hf
          simp only [Bool.not_eq_true, Bool.not_eq_false', Bool.and_eq_true, List.all_eq_true] at hk hf
          have hd : w.site.sorted = true → (w.site.namedMembers ms).Nodup := by
            intro sa
            refine Site.namedMembers_nodup sa ?_
            simp only [crewRanges, Bool.not_eq_true, Bool.not_eq_false', Bool.and_eq_true, decide_eq_true_eq] at hr
            exact (List.nodup_append.1 hr.1.1.2).1
          have hv : ∀ i, w.site.namedVehicle v = some i → w.site.kindAt i .vehicle = true :=
            fun i e => hk.1 i (by simp [e])
          split
          · rename_i old ho
            repeat' split
            all_goals first
              | exact h
              | skip
            rename_i hw
            refine Work.replaceCrew_kept h _ ⟨.inl ho, hd, hv, hk.2, hf, fun i hi hn => ?_⟩
            simp only [Bool.not_eq_true, List.any_eq_false, Bool.and_eq_true, not_and] at hw
            simpa using hw i hi (by simpa using hn)
          · rename_i ho
            split
            · exact Work.createCrew_kept h _ ⟨.inr ⟨ho, rfl⟩, hd, hv, hk.2, hf, fun i hi => by simp [Crew.blank] at hi⟩
            · exact h

theorem takeDropCrew_kept (h : Kept a w.site) (n : Half) : Kept a (takeDropCrew n w).work.site := by
  unfold takeDropCrew
  split
  · exact h
  · split
    · exact h
    · rename_i m _ _ c hc
      split
      · exact h
      · rename_i hx
        simp only [not_or, not_not] at hx
        have e := Work.rebind_spec w m c.terminals []
        have hb : KeptBut w.site ((w.rebind m c.terminals []).modSite fun s => { s with crews := s.crews.del m }).site :=
          (Work.rebind_but w m c.terminals []).trans (KeptBut.setCrews _ _ fun k => Table.wf_del k _)
        refine h.trans (hb.kept fun sa _ => ?_)
        refine Books.dropCrew hc hx.2.1 ⟨e.2, ?_, ?_, ?_⟩ ?_ sa
        all_goals rw [Work.modSite_site, e.1]

theorem takeGetCrew_work (n : Half) (w : Work) : (takeGetCrew n w).work = w := by
  unfold takeGetCrew
  repeat' split
  all_goals rfl

/-! ### Requests and events of the channels -/

theorem foldReport_kept (h : Kept a w.site) (l : List Chan) (f : Chan → ChannelCause) :
    Kept a (l.foldl (fun w m => w.reportChannel m (f m)) w).site :=
  foldl_kept _ (fun _ _ hv => Work.reportChannel_kept hv _ _) _ _ h

theorem takeBringUp_kept (h : Kept a w.site) (c : Byte) : Kept a (takeBringUp c w).work.site := by
  unfold takeBringUp
  repeat' split
  all_goals try exact h
  unfold Work.bringUp
  split
  · exact Work.beginTraining_kept h _
  · refine foldReport_kept (Work.modChan_kept (Work.modChans_kept h _ _ ?_ ?_) _ _ ?_ ?_) _ fun _ => .bringUp
    exacts [fun _ => rfl, fun _ k => k, rfl, fun k => k]

theorem takeQuiet_kept (h : Kept a w.site) (c : Byte) : Kept a (takeQuiet c w).work.site := by
  unfold takeQuiet
  repeat' split
  all_goals first
    | exact h
    | exact Work.goQuiet_kept h _ _
    | exact Work.clearPending_kept h _

theorem Channel.afterReset_config (ch : Channel) : ch.afterReset.config = ch.config := by
  simp only [Channel.afterReset, Channel.clearScheduler, Channel.clearRuns, Channel.lampAtDown]
  split <;> rfl

theorem Channel.afterReset_sound (ch : Channel) : ch.afterReset.sound = true := by
  simp [Channel.afterReset, Channel.clearScheduler, Channel.sound]

theorem Work.resetChannel_kept (h : Kept a w.site) (c : Chan) : Kept a (w.resetChannel c).site := by
  have h1 : Kept a (match (w.site.chan c).state with
      | .up => (w.abandon c).departUp c fun _ => .down
      | .draining => w.abandon c
      | .absent | .down | .training | .quiet | .fault => w : Work).site := by
    split
    · exact departUp_kept (abandon_kept h _) _ _
    · exact abandon_kept h _
    all_goals exact h
  simp only [Work.resetChannel]
  exact foldReport_kept (modChans_kept (withdrawQueues_kept h1 _) _ _ Channel.afterReset_config
    fun ch _ => ch.afterReset_sound) _ fun _ => .reset

theorem takeChannelReset_kept (h : Kept a w.site) (c : Byte) : Kept a (takeChannelReset c w).work.site := by
  unfold takeChannelReset
  repeat' split
  all_goals first
    | exact h
    | exact Work.resetChannel_kept h _

theorem takeTakeStats_kept (h : Kept a w.site) (c m : Byte) : Kept a (takeTakeStats c m w).work.site := by
  unfold takeTakeStats
  simp only []
  repeat' split
  all_goals first
    | exact h
    | exact Work.modChans_kept h _ _ (fun _ => rfl) fun _ k => k

theorem takeGetChannel_work (c : Byte) (w : Work) : (takeGetChannel c w).work = w := by
  unfold takeGetChannel; split <;> rfl

theorem Work.insertModule_kept (h : Kept a w.site) (c : Chan) : Kept a (w.insertModule c).site := by
  unfold Work.insertModule; split
  · refine reportChannel_kept (modChan_kept h _ _ ?_ ?_) _ _
    exacts [rfl, fun k => k]
  · exact h

theorem Work.lampAtDown_kept (h : Kept a w.site) (cs : List Chan) : Kept a (w.modChans cs Channel.lampAtDown).site :=
  modChans_kept h _ _ (fun _ => rfl) fun _ k => k

theorem Work.partnerDown_kept (h : Kept a w.site) (cs : List Chan) : Kept a (w.modChans cs Channel.partnerDown).site :=
  modChans_kept h _ _ (fun _ => rfl) fun _ k => k

theorem Work.removeModule_kept (h : Kept a w.site) (c : Chan) : Kept a (w.removeModule c).site := by
  have hr : ∀ v : Work, Kept a v.site → Kept a (v.modChan c Channel.removed).site :=
    fun v hv => modChan_kept hv _ _ rfl fun k => k
  have he : ∀ v : Work, Kept a v.site → Kept a (v.modChan c fun ch => ch.enter .absent).site :=
    fun v hv => modChan_kept hv _ _ rfl fun k => k
  have h1 := hr _ (clearPending_kept h c)
  simp only [Work.removeModule]
  split
  · split
    · exact reportPair_kept (lampAtDown_kept (departUp_kept (abandon_kept h1 _) _ _) _) _ _
    · exact reportPair_kept (partnerDown_kept (he _ (abandon_kept h1 _)) _) _ _
    · exact reportPair_kept (partnerDown_kept (he _ (abandon_kept h1 _)) _) _ _
    all_goals exact reportChannel_kept (he _ h1) _ _
  · exact h

theorem Work.startDraining_kept (h : Kept a w.site) (c : Chan) : Kept a (w.startDraining c).site := by
  simp only [Work.startDraining]
  split
  · exact drained_kept (reportPair_kept (departUp_kept h _ _) _ _) _
  · exact reportPair_kept (departUp_kept h _ _) _ _

theorem Work.openLever_kept (h : Kept a w.site) (c : Chan) : Kept a (w.openLever c).site := by
  have hl : ∀ v : Work, Kept a v.site → Kept a (v.modChan c fun ch => { ch with leverOpen := true }).site :=
    fun v hv => modChan_kept hv _ _ rfl fun k => k
  have hx : ∀ v : Work, Kept a v.site → Kept a (v.modChan c fun ch => { ch with lampLit := true }).site :=
    fun v hv => modChan_kept hv _ _ rfl fun k => k
  have hd : ∀ v : Work, Kept a v.site → Kept a (v.modChan c fun ch =>
      { ch.enter .down with quietTimer := none, lampLit := true }).site := fun v hv => modChan_kept hv _ _ rfl fun k => k
  have h1 := hl _ (clearPending_kept h c)
  simp only [Work.openLever]
  split
  · exact h
  · split
    · exact startDraining_kept h1 _
    · exact reportPair_kept (hx _ (partnerDown_kept h1 _)) _ _
    · exact reportChannel_kept (hd _ h1) _ _
    · exact reportChannel_kept (hd _ h1) _ _
    · split
      · exact h1
      · exact reportChannel_kept (hx _ h1) _ _
    · exact h1
    · exact h1

theorem Work.closeLever_kept (h : Kept a w.site) (c : Chan) :
    Kept a (w.modChan c fun ch => { ch with leverOpen := false }).site := modChan_kept h _ _ rfl fun k => k

theorem Work.ready_kept (h : Kept a w.site) (c : Chan) : Kept a (w.ready c).site := by
  have h1 : Kept a (w.modChan c fun ch => { ch with ready := true }).site := modChan_kept h _ _ rfl fun k => k
  simp only [Work.ready]
  repeat' split
  · exact enterUp_kept h1 _
  · exact h1
  · exact h

theorem Work.trainingFails_kept (h : Kept a w.site) (c : Chan) : Kept a (w.trainingFails c).site := by
  unfold Work.trainingFails; split
  · refine reportPair_kept (modChans_kept h _ _ ?_ ?_) _ _
    exacts [fun _ => rfl, fun _ k => k]
  · exact h

theorem Work.quietExpires_kept (h : Kept a w.site) (c : Chan) : Kept a (w.quietExpires c).site := by
  have h1 : Kept a (w.modChan c fun ch => { ch with quietTimer := none }).site := modChan_kept h _ _ rfl fun k => k
  simp only [Work.quietExpires]
  repeat' split
  · exact beginTraining_kept h1 _
  · exact h1
  · exact h

theorem Work.beaconExpires_kept (h : Kept a w.site) (c : Chan) : Kept a (w.beaconExpires c).site := by
  unfold Work.beaconExpires; split
  · refine offer_kept (modChan_kept h _ _ ?_ ?_) _
    exacts [rfl, fun k => k]
  · exact h

theorem Work.sentUnacknowledged_kept (h : Kept a w.site) (c : Chan) (e : UrgentEntry) :
    Kept a (w.sentUnacknowledged c e).site := by
  unfold Work.sentUnacknowledged
  repeat' split
  · exact itemSent_kept (leaveQueue_kept h _ _) _
  · exact leaveQueue_kept h _ _
  · refine fill_kept (modChan_kept h _ _ ?_ ?_) _
    exacts [rfl, fun k => k]

theorem Work.endUnacknowledged_kept (h : Kept a w.site) (c : Chan) : Kept a (w.endUnacknowledged c).site := by
  have h1 : Kept a (w.modChan c fun ch => { ch with alerts := alertsAfterSend ch.alerts }).site :=
    modChan_kept h _ _ rfl fun k => k
  simp only [Work.endUnacknowledged]
  repeat' split
  · exact h1
  · exact sentUnacknowledged_kept h1 _ _
  · exact h1

theorem Work.awaitAck_kept (h : Kept a w.site) (c : Chan) (f : AirFrame) : Kept a (w.awaitAck c f).site := by
  unfold Work.awaitAck; split
  · refine modChan_kept (modTerminal_kept h _ _ ?_) _ _ ?_ ?_
    exacts [fun _ k => k, rfl, fun k => k]
  · exact h

theorem Work.openWindow_kept (h : Kept a w.site) (c : Chan) (f : AirFrame) : Kept a (w.openWindow c f).site := by
  refine modChan_kept (modChans_kept (awaitAck_kept (endUnacknowledged_kept (bumpStat_kept h _ _) _) _ _) _ _ ?_ ?_) _ _
    ?_ ?_
  exacts [fun _ => rfl, fun _ k => k, rfl, fun k => k]

theorem Work.sendCompletes_kept (h : Kept a w.site) (c : Chan) : Kept a (w.sendCompletes c).site := by
  have h1 : Kept a (w.modChan c fun ch => { ch with memberDone := true, sendFailureRun := 0 }).site :=
    modChan_kept h _ _ rfl fun k => k
  simp only [Work.sendCompletes]
  repeat' split
  · exact openWindow_kept h1 _ _
  · exact h1
  · exact h
  · exact h

theorem Work.frameFails_kept (h : Kept a w.site) (c : Chan) (f : AirFrame) : Kept a (w.frameFails c f).site := by
  have h1 : ∀ v : Work, Kept a v.site → Kept a (match f.acked with
      | some i => v.miss i
      | none => v : Work).site := by
    intro v hv
    split
    · exact miss_kept hv _
    · exact hv
  simp only [Work.frameFails]
  refine h1 _ (endUnacknowledged_kept ?_ _)
  split
  · exact bumpStat_kept (silence_kept h _) _ _
  · exact silence_kept h _

theorem Work.sendFails_kept (h : Kept a w.site) (c : Chan) : Kept a (w.sendFails c).site := by
  have h1 := bumpStat_kept h c fun x => { x with sendFailures := x.sendFailures.bump }
  have h2 : Kept a ((w.bumpStat c fun x => { x with sendFailures := x.sendFailures.bump }).modChan c fun ch =>
    { ch with sendFailureRun := ch.sendFailureRun + 1 }).site := modChan_kept h1 _ _ rfl fun k => k
  simp only [Work.sendFails]
  repeat' split
  · exact drained_kept (frameFails_kept h1 _ _) _
  · exact trip_kept (frameFails_kept h2 _ _) _ _
  · exact offer_kept (frameFails_kept h2 _ _) _
  · exact h
  · exact h

theorem Work.countUnanswered_kept (h : Kept a w.site) (c : Chan) (x : Window) :
    Kept a (w.countUnanswered c x).site := by
  unfold Work.countUnanswered; split
  · exact bumpStat_kept h _ _
  · exact h

theorem Work.missOf_kept (h : Kept a w.site) (i : Option Nat) : Kept a (w.missOf i).site := by
  unfold Work.missOf; split
  · exact miss_kept h _
  · exact h

theorem Work.closeWindow_kept (h : Kept a w.site) (c : Chan) : Kept a (w.closeWindow c).site := by
  have h1 : ∀ n : Nat, Kept a ((w.silence c).modChan c fun y => { y with badWindowRun := n }).site :=
    fun n => modChan_kept (silence_kept h _) _ _ rfl fun k => k
  simp only [Work.closeWindow]
  repeat' split
  · exact drained_kept (missOf_kept (countUnanswered_kept (silence_kept h _) _ _) _) _
  · exact countUnanswered_kept (trip_kept (h1 _) _ _) _ _
  · exact offer_kept (missOf_kept (countUnanswered_kept (h1 _) _ _) _) _
  · exact h

/-! ### Inbound frames -/

theorem averaged_le {q s : Nat} (hq : q ≤ 15) (hs : s ≤ 15) : averaged q s ≤ 15 := by
  unfold averaged; omega

theorem Terminal.sound_heard {t : Terminal} (h : t.sound = true) (c : Chan) (n : Nat) {s : Nat} (hs : s ≤ 15) :
    (t.heard c n s).sound = true := by
  simp only [Terminal.sound, Bool.and_eq_true, decide_eq_true_eq] at h ⊢
  refine ⟨⟨⟨h.1.1.1, ?_⟩, h.1.2⟩, h.2⟩
  simp only [Terminal.heard]
  split
  · exact averaged_le h.1.1.2 hs
  · exact h.1.1.2

theorem Work.goodFrame_kept (h : Kept a w.site) (c : Chan) : Kept a (w.goodFrame c).site :=
  modChan_kept h _ _ rfl fun k => k

theorem Work.badFrame_kept (h : Kept a w.site) (c : Chan) : Kept a (w.badFrame c).site :=
  modChan_kept h _ _ rfl fun k => k

theorem Work.receive_kept (h : Kept a w.site) (c : Chan) (f : Sender) {n : Nat} (hn : n ≤ 15) :
    Kept a (w.receive c f n).site := by
  simp only [Work.receive]
  split
  · exact modTerminal_kept (goodFrame_kept h _) _ _ fun _ k => Terminal.sound_heard k _ _ hn
  · exact goodFrame_kept h _

theorem Work.joinAccess_kept (h : Kept a w.site) (c : Chan) (i : Nat) : Kept a (w.joinAccess c i).site := by
  unfold Work.joinAccess; split
  · exact h
  · rename_i hn
    refine offer_kept (modChan_kept h _ _ rfl fun k => ?_) _
    simp only [Channel.sound, Bool.and_eq_true, decide_eq_true_eq] at k ⊢
    refine ⟨k.1, List.nodup_append.2 ⟨k.2, by simp, ?_⟩⟩
    intro x hx y hy e
    simp only [List.mem_singleton] at hy
    subst hy e
    simp [hx] at hn

theorem Work.refuseAffiliate_kept (h : Kept a w.site) (c : Chan) (id : Nat) (r : Option AffilResult) :
    Kept a (w.refuseAffiliate c id r).site := by
  simp only [Work.refuseAffiliate]
  repeat' split
  · exact pushUrgent_kept (bumpStat_kept h _ _) _ _
  · exact bumpStat_kept h _ _
  · exact bumpStat_kept h _ _

theorem Terminal.sound_accepted (t : Terminal) (c : Chan) (x : Option Nat) (f : AffiliateContent) {s : Nat}
    (hs : s ≤ 15) (n : Nat) : (t.accepted c x f s n).sound = true := by
  simp [Terminal.sound, Terminal.accepted, hs]

theorem Work.leavePrevious_kept (h : Kept a w.site) (i : Nat) (t : Terminal) (c : Chan) (f : AffiliateContent) :
    Kept a (w.leavePrevious i t c f).site := by
  simp only [Work.leavePrevious]
  repeat' split
  all_goals first
    | exact h
    | exact leaveAccess_kept (withdrawOutstanding_kept h _ _) _ _
    | exact returnWaiting_kept (leaveAccess_kept (withdrawOutstanding_kept h _ _) _ _) _ _

theorem Work.fillLeft_kept (h : Kept a w.site) (t : Terminal) (c : Chan) : Kept a (w.fillLeft t c).site := by
  unfold Work.fillLeft
  repeat' split
  all_goals first
    | exact h
    | exact fill_kept h _

theorem Work.announce_kept (h : Kept a w.site) (i : Nat) (c : Chan) (id cap : Nat) (x : Option Nat)
    (y : TerminalCause) : Kept a (w.announce i c id cap x y).site := by
  have h1 : Kept a (w.announceVehicle i cap).site := by
    unfold Work.announceVehicle; split
    · exact ordersAtVehicle_kept h _ _ _
    · exact h
  have h2 : ∀ v : Work, Kept a v.site → Kept a (v.announceDangers i).site := by
    intro v hv
    unfold Work.announceDangers; split
    · exact placeOwedDangers_kept hv _
    · exact hv
  exact offer_kept (emit_kept (h2 _ (watchAtAcceptance_kept (placeNoteRecall_kept (fill_kept h1 _) _) _ _)) _) _

theorem Work.leavePrevious_steady {b : Site} (h : Steady b w.site) (i : Nat) (t : Terminal) (c : Chan) (f : AffiliateContent) :
    Steady b (w.leavePrevious i t c f).site := by
  simp only [Work.leavePrevious]
  repeat' split
  all_goals first
    | exact h
    | exact leaveAccess_steady (withdrawOutstanding_steady h _ _) _ _
    | exact returnWaiting_steady (leaveAccess_steady (withdrawOutstanding_steady h _ _) _ _) _ _

/-- The short address of a terminal shows in its face. -/
theorem Steady.shortOn {a b : Site} (h : Steady a b) (c : Chan) (i : Nat) : b.shortOn c i = a.shortOn c i := by
  have g : ∀ s : Site, s.shortOn c i = ((Table.look s.roster i).map Terminal.face).bind fun t => if t.on c then t.short else none := by
    intro s; unfold Site.shortOn; cases Table.look s.roster i <;> rfl
  rw [g, g, h.faces]

/-- The short address given is held by no other terminal on the channel (R19). -/
theorem Site.short_fresh {s : Site} (h : s.apart) {i : Nat} {t : Terminal} {c : Chan} (ht : Table.look s.roster i = some t)
    {x j : Nat} (hx : (if t.on c = true then t.short else s.freeShort c i) = some x) (hj : s.shortOn c j = some x) : j = i := by
  split at hx
  · rename_i e
    refine h c j i x hj ?_
    unfold Site.shortOn; rw [ht]; simpa [e] using hx
  · unfold Site.freeShort at hx
    have := List.find?_some hx
    simp only [Bool.not_eq_true', List.any_eq_false, Bool.and_eq_true, bne_iff_ne, ne_eq, beq_iff_eq, not_and] at this
    unfold Site.shortOn at hj
    cases e : Table.look s.roster j with
    | none => rw [e] at hj; simp at hj
    | some u =>
      rw [e] at hj
      simp only [Option.bind_some] at hj
      split at hj
      · rename_i g
        by_contra k
        exact this (j, u) (Table.mem_of_look e) ⟨k, g⟩ hj
      · simp at hj

/-- The affiliation of the terminal at index `i` (step 2 of R18). -/
theorem Work.accepted_kept (h : Kept a w.site) {i : Nat} {t : Terminal} (ht : Table.look w.site.roster i = some t) (c : Chan)
    (f : AffiliateContent) {n : Nat} (hn : n ≤ 15) (m : Nat) :
    Kept a ((w.leavePrevious i t c f).modTerminal i fun x =>
      x.accepted c (if t.on c = true then t.short else w.site.freeShort c i) f n m).site := by
  have hv := leavePrevious_kept (.refl w.site) i t c f
  have sv := leavePrevious_steady (.refl w.site) i t c f
  have hb := modTerminal_but (w.leavePrevious i t c f) i (fun x =>
    x.accepted c (if t.on c = true then t.short else w.site.freeShort c i) f n m)
    fun x _ => Terminal.sound_accepted x _ _ _ hn _
  refine h.trans ⟨hv.toKeptBut.trans hb, fun sa => ?_⟩
  have s1 := hv.sorted sa
  have s2 := hb.sorted s1
  have ties := Table.view_adjust (w.leavePrevious i t c f).site.roster i (fun x =>
    x.accepted c (if t.on c = true then t.short else w.site.freeShort c i) f n m) Terminal.tie fun _ _ => rfl
  have w1 := ((sorted_iff _).1 s1).2.2.2.2.2.2.2.2
  have b1 := hv.books sa
  refine ⟨fun k => ?_, fun k => (b1.cleared k).level (fun _ => rfl) rfl w1 w1,
    fun k => (b1.booked k).level ties rfl (fun _ => rfl) (fun _ => rfl) s1 s2⟩
  have g : ∀ d j x, ((w.leavePrevious i t c f).modTerminal i fun x =>
      x.accepted c (if t.on c = true then t.short else w.site.freeShort c i) f n m).site.shortOn d j = some x →
      if j = i then d = c ∧ (if t.on c = true then t.short else w.site.freeShort c i) = some x
      else w.site.shortOn d j = some x := by
    intro d j x hx
    by_cases e : j = i
    · subst e
      rw [if_pos rfl]
      unfold Site.shortOn at hx
      rw [Work.modTerminal_site, Table.look_adjust_same] at hx
      cases q : Table.look (w.leavePrevious j t c f).site.roster j with
      | none => rw [q] at hx; simp at hx
      | some u =>
        rw [q] at hx
        simp only [Option.map_some, Option.bind_some, Terminal.accepted, Terminal.on, beq_self_eq_true, Bool.true_and,
          beq_iff_eq, Option.some.injEq] at hx
        by_cases cd : c = d
        · rw [if_pos cd] at hx; exact ⟨cd.symm, hx⟩
        · rw [if_neg cd] at hx; simp at hx
    · rw [if_neg e, ← sv.shortOn]
      unfold Site.shortOn at hx ⊢
      rwa [Work.modTerminal_site, Table.look_adjust_other _ _ _ _ e] at hx
  intro d p q x hp hq
  have hp := g d p x hp
  have hq := g d q x hq
  by_cases ep : p = i <;> by_cases eq : q = i
  · rw [ep, eq]
  · rw [if_pos ep] at hp; rw [if_neg eq] at hq
    exact absurd (Site.short_fresh k ht hp.2 (hp.1 ▸ hq)) eq
  · rw [if_neg ep] at hp; rw [if_pos eq] at hq
    exact absurd (Site.short_fresh k ht hq.2 (hq.1 ▸ hp)) ep
  · rw [if_neg ep] at hp; rw [if_neg eq] at hq
    exact k d p q x hp hq

theorem Work.acceptAffiliate_kept (h : Kept a w.site) {i : Nat} {t : Terminal} (ht : Table.look w.site.roster i = some t)
    (c : Chan) (f : AffiliateContent) {n : Nat} (hn : n ≤ 15) : Kept a (w.acceptAffiliate i t c f n).site := by
  simp only [Work.acceptAffiliate]
  exact announce_kept (pushUrgent_kept (fillLeft_kept (accepted_kept h ht c f hn _) _ _) _ _) _ _ _ _ _ _

theorem Work.acceptAt_kept (h : Kept a w.site) (i : Nat) (c : Chan) (f : AffiliateContent) {n : Nat} (hn : n ≤ 15) :
    Kept a (w.acceptAt i c f n).site := by
  unfold Work.acceptAt; split
  · rename_i e; exact acceptAffiliate_kept h e _ _ hn
  · exact h

/-- A guest enters at a free index (R20). -/
theorem Site.enter_free {s : Site} {c : Chan} {id i : Nat} {f : AffiliateContent} (h : s.judgeAffiliate c id f = .enter i) :
    Table.look s.roster i = none := by
  have g : s.affiliant id f = .enter i := by
    unfold Site.judgeAffiliate at h
    split at h
    · simp at h
    · cases e : s.affiliant id f with
      | refuse r => rw [e] at h; simp at h
      | accept j => rw [e] at h; simp only at h; repeat' split at h
                    all_goals simp at h
      | enter j =>
        rw [e] at h; simp only at h
        repeat' split at h
        all_goals simp at h
        rw [h]
  unfold Site.affiliant at g
  split at g
  · split at g
    · split at g <;> simp at g
    · split at g
      · rename_i j e
        obtain rfl : j = i := by simpa using g
        split at e
        · exact (Table.firstFree_spec e).1
        · simp at e
      · simp at g
  · simp at g

theorem Work.affiliate_kept (h : Kept a w.site) (c : Chan) (id : Nat) (f : AffiliateContent) {n : Nat} (hn : n ≤ 15) :
    Kept a (w.affiliate c id f n).site := by
  unfold Work.affiliate
  split
  · exact refuseAffiliate_kept h _ _ _
  · split
    · exact acceptAt_kept h _ _ _ hn
    · exact bumpStat_kept h _ _
  · rename_i i e
    split
    · exact acceptAt_kept (putTerminal_kept h _ _ (Terminal.sound_guest _ _) (Site.enter_free e) rfl rfl) _ _ _ hn
    · exact bumpStat_kept h _ _

/-! ### Orders -/

theorem takeSendOrder_kept (h : Kept a w.site) (n : Word) (c : Half) (p d b : Byte) (l : List Byte) :
    Kept a (takeSendOrder n c p d b l w).work.site := by
  unfold takeSendOrder
  repeat' split
  all_goals try exact h
  have h1 : ∀ o, Kept a (w.modSite fun s => { s with orders := s.orders.put n.toNat o, nextSeq := s.nextSeq + 1 }).site :=
    fun o => h.trans (Kept.setOrders _ _ _ fun k => Table.wf_put k _ _)
  simp only [Work.taken_work, Work.createOrder]
  repeat' split
  all_goals exact h1 _

theorem takeCancelOrder_kept (h : Kept a w.site) (n : Word) : Kept a (takeCancelOrder n w).work.site := by
  unfold takeCancelOrder
  repeat' split
  · exact h
  · exact h
  · unfold Work.cancelOrder
    repeat' split
    all_goals first
      | exact h
      | exact Work.finishOrder_kept h _ _ _ _ _
      | exact Work.recallOrder_kept h _
      | exact Work.returnUnconfirmed_kept h _ _

theorem takeCloseOrder_kept (h : Kept a w.site) (n : Word) : Kept a (takeCloseOrder n w).work.site := by
  unfold takeCloseOrder
  repeat' split
  all_goals first
    | exact h
    | exact Work.finishOrder_kept h _ _ _ _ _

theorem takeGetOrder_work (n : Word) (w : Work) : (takeGetOrder n w).work = w := by
  unfold takeGetOrder
  repeat' split
  all_goals rfl

theorem Work.takeReply_kept (h : Kept a w.site) (i n : Nat) (r : CrewReply) (f : Nat) :
    Kept a (w.takeReply i n r f).site := by
  have h1 : Kept a (w.creditFromReply i f).site := by
    unfold Work.creditFromReply; split
    · exact setCredit_kept h _ _
    · exact setCredit_kept h _ _
  have h2 : ∀ v : Work, Kept a v.site → ∀ m id o, Kept a (v.orderReplied m id o r).site := by
    intro v hv m id o
    unfold Work.orderReplied; split
    · exact deliverOrder_kept (modOrder_kept hv _ _) _ _ _
    · exact deliverOrder_kept (modOrder_kept hv _ _) _ _ _
    · exact modOrder_kept hv _ _
    · exact modOrder_kept hv _ _
    · exact applyReply_kept hv _ _
    · exact applyReply_kept hv _ _
    all_goals exact ignoreReply_kept hv
  have h3 : ∀ v : Work, Kept a v.site → ∀ id, Kept a (match Table.look v.site.orders n with
      | some o => if v.site.replyMatches o i id then v.orderReplied n id o r else v.ignoreReply
      | none => v.ignoreReply : Work).site := by
    intro v hv id
    repeat' split
    · exact h2 _ hv _ _ _
    · exact ignoreReply_kept hv
    · exact ignoreReply_kept hv
  unfold Work.takeReply
  split
  · refine h3 _ ?_ _
    split
    · exact h1
    · exact h
  · exact h

theorem Work.holdExpires_kept (h : Kept a w.site) (n : Nat) : Kept a (w.holdExpires n).site := by
  unfold Work.holdExpires
  repeat' split
  · exact finishOrder_kept h _ _ _ _ _
  · exact h
  · exact h

/-! ### Supervision -/

theorem Work.startWatch_kept (h : Kept a w.site) (u : Nat) (r : Watch) (hr : r.state.inAlarm = false)
    (hu : Table.look w.site.watches u = none) (hk : w.site.sorted = true → w.site.kindAt u .personal = true) :
    Kept a (w.startWatch u r).site := by
  have h1 := putWatch_kept h u r hr hu hk
  simp only [Work.startWatch]
  refine placeWatchStart_kept ?_ _
  split
  · exact dropNotice_kept (cancelOwned_kept h1 _ _) _
  · exact h1

theorem takeStartWatch_kept (h : Kept a w.site) (id : Word) (i m x : Byte) :
    Kept a (takeStartWatch id i m x w).work.site := by
  unfold takeStartWatch
  split
  · split
    · split
      · exact h
      · rename_i u t e
        split
        · exact h
        · rename_i hk
          split
          · exact h
          · rename_i hu
            split
            · exact h
            · refine Work.startWatch_kept h _ _ rfl (by simpa using hu) fun sa => ?_
              simp only [not_or, not_not] at hk
              unfold Site.kindAt
              rw [(look_of_byId sa e).1]
              simp [hk.1]
    · exact h
  · exact h

theorem Work.withWatch_kept (h : Kept a w.site) (id : Word) (act : Nat → Watch → Taking)
    (hact : ∀ u r, Table.look w.site.watches u = some r → Kept a (act u r).work.site) :
    Kept a (w.withWatch id act).work.site := by
  unfold Work.withWatch
  repeat' split
  all_goals first
    | exact h
    | exact hact _ _ ‹_›

theorem takeStopWatch_kept (h : Kept a w.site) (id : Word) : Kept a (takeStopWatch id w).work.site := by
  refine Work.withWatch_kept h _ _ fun u r hr => ?_
  split
  · exact h
  · rename_i hi
    refine Work.removeWatch_kept h _ _ fun q hq => ?_
    obtain rfl : r = q := by rw [hr] at hq; exact Option.some.inj hq
    simpa using hi

theorem takeAckAlarm_kept (h : Kept a w.site) (id : Word) : Kept a (takeAckAlarm id w).work.site := by
  refine Work.withWatch_kept h _ _ fun u r hr => ?_
  split
  · rename_i hi
    refine Work.emit_kept (Work.placeAlarmSeen_kept (Work.modWatch_kept h _ _ fun q hq => ?_) _) _
    obtain rfl : r = q := by rw [hr] at hq; exact Option.some.inj hq
    rw [hi]; rfl
  · exact h

/-- The record of unit `u` ceases to count as an alarm, with the count of its crew (R116). -/
theorem Work.lowered_kept (h : Kept a w.site) {u : Nat} {r : Watch} (hr : Table.look w.site.watches u = some r)
    (hi : r.state.inAlarm = true) {v : Work} (hb : KeptBut w.site v.site) (h1 : v.site.roster = w.site.roster)
    (h2 : v.site.permits = w.site.permits) (h3 : v.site.sections = w.site.sections)
    (h4 : v.site.crews = w.site.recounted u (· - 1))
    (h5 : ∀ x, x ≠ u → Table.look v.site.watches x = Table.look w.site.watches x)
    (h6 : ∀ q, Table.look v.site.watches u = some q → q.state.inAlarm = false) : Kept a v.site := by
  refine h.trans (hb.kept fun sa sb => Books.alarm (u := u) (g := (· - 1)) h1 h2 h3 h4 h5
    (fun _ _ k => k.units u r hr) (fun m hm => ?_) sa sb)
  have e : (Table.look v.site.watches u).any (fun r => r.state.inAlarm) = false := by
    cases g : Table.look v.site.watches u with
    | none => rfl
    | some q => exact h6 q g
  have hm := hm (by rw [hr]; exact hi)
  rw [e, hr]
  simp only [Option.any_some, hi, Bool.toNat_true, Bool.toNat_false]
  omega

theorem Work.resolveAlarm_kept (h : Kept a w.site) (u : Nat) {r : Watch} (hr : Table.look w.site.watches u = some r)
    (hi : r.state.inAlarm = true) (b : Bool) : Kept a (w.resolveAlarm u r b).site := by
  have h1 : Kept a (w.modWatch u Watch.settled).site := modWatch_kept h u Watch.settled
  have e1 : Table.look (w.modWatch u Watch.settled).site.watches u = some r.settled := by
    rw [Work.modWatch_site, Table.look_adjust_same, hr]; rfl
  generalize hv : w.modWatch u Watch.settled = v at h1 e1
  have lb : KeptBut v.site (v.lowerAlarms u).site := by
    rw [Work.lowerAlarms_site]; exact Site.recounted_but _ _ _
  have ls := Work.lowerAlarms_site v u
  simp only [Work.resolveAlarm, hv]
  split
  · have h2 : ∀ f : Watch → Watch, (∀ q, (f q).state = .watching) → Kept a ((v.lowerAlarms u).modWatch u f).site := by
      intro f hf
      refine lowered_kept h1 e1 hi (lb.trans (modWatch_but _ _ _)) ?_ ?_ ?_ ?_ (fun x e => ?_) fun q hq => ?_
      all_goals simp only [Work.modWatch_site, ls] at *
      · exact Table.look_adjust_other _ _ _ _ e
      · rw [Table.look_adjust_same, e1] at hq
        obtain rfl := Option.some.inj hq
        rw [hf]; rfl
    unfold Work.resumeWatch
    simp only []
    repeat' split
    · exact emit_kept (h2 _ fun _ => rfl) _
    · exact emit_kept (placeWatchStart_kept (h2 _ fun _ => rfl) _) _
    · exact h2 _ fun _ => rfl
  · have c1 := Work.cancelOwned_tables (v.lowerAlarms u) (.watch u) .watchSet
    have c2 := Work.cancelOwned_tables ((v.lowerAlarms u).cancelOwned (.watch u) .watchSet) (.watch u) .prompt
    have k1 := (cancelOwned_kept (.refl (v.lowerAlarms u).site) (.watch u) .watchSet).toKeptBut
    have k2 := (cancelOwned_kept (.refl ((v.lowerAlarms u).cancelOwned (.watch u) .watchSet).site) (.watch u) .prompt).toKeptBut
    have h2 : Kept a ((((v.lowerAlarms u).cancelOwned (.watch u) .watchSet).cancelOwned (.watch u) .prompt).modSite fun s =>
        { s with watches := s.watches.del u }).site := by
      refine lowered_kept h1 e1 hi (((lb.trans k1).trans k2).trans (delWatch_but _ u)) ?_ ?_ ?_ ?_ (fun x e => ?_)
        fun q hq => ?_
      · exact (c2.2.1.trans c1.2.1).trans (by rw [ls])
      · exact (c2.2.2.2.1.trans c1.2.2.2.1).trans (by rw [ls])
      · exact (c2.2.2.2.2.trans c1.2.2.2.2).trans (by rw [ls])
      · exact (c2.2.2.1.trans c1.2.2.1).trans (by rw [ls])
      · rw [Work.modSite_site, Table.look_del_other _ _ _ e, c2.1, c1.1, ls]
      · rw [Work.modSite_site, Table.look_del_same] at hq; simp at hq
    have e2 : (Table.look (v.lowerAlarms u).site.watches u).isSome = true := by rw [ls, e1]; rfl
    simp only [Work.removeWatch]
    split
    · split
      · exact h2
      · exact putNotice_kept (place_kept (emit_kept h2 _) _ _ _) u _
    · rename_i g; rw [g] at e2; simp at e2

theorem takeResolveAlarm_kept (h : Kept a w.site) (id : Word) (x : Byte) :
    Kept a (takeResolveAlarm id x w).work.site := by
  unfold takeResolveAlarm
  split
  · exact h
  · refine Work.withWatch_kept h _ _ fun u r hr => ?_
    split
    · exact Work.resolveAlarm_kept h _ hr ‹_› _
    · exact h

theorem takeGetWatch_work (id : Word) (w : Work) : (takeGetWatch id w).work = w := by
  unfold takeGetWatch Work.withWatch
  repeat' split
  all_goals rfl

theorem Work.takeCheckIn_kept (h : Kept a w.site) (i : Nat) (p : Option Position) :
    Kept a (w.takeCheckIn i p).site := by
  unfold Work.takeCheckIn
  split
  · rename_i r hr
    unfold Work.checkedIn
    simp only []
    have h1 : Kept a (w.modWatch i fun r => { r.placed p with lastCheckIn := some w.site.count }).site := modWatch_kept h _ _
    split
    · exact h1
    · rename_i hi
      have h2 := modWatch_kept h1 i (fun r =>
        { r with state := .watching, missed := 0, deadline := w.site.count + secondsOf r.interval }) fun q hq => by
          rw [Work.modWatch_site, Table.look_adjust_same, hr] at hq
          obtain rfl := Option.some.inj hq
          show WatchState.inAlarm .watching = r.state.inAlarm
          rw [show r.state.inAlarm = false by simpa using hi]; rfl
      repeat' split
      all_goals exact cancelOwned_kept h2 _ _
  · exact h.trans .counters

theorem Work.alarmRaised_kept (h : Kept a w.site) (u : Nat) {r : Watch} (hr : Table.look w.site.watches u = some r) (c : Chan)
    (x : AlarmCause) (p : Option Position) : Kept a (w.alarmRaised u r c x p).site := by
  simp only [Work.alarmRaised]
  have h1 : Kept a (w.modWatch u fun r => r.placed p).site := modWatch_kept h _ _
  have e1 : Table.look (w.modWatch u fun r => r.placed p).site.watches u = some (r.placed p) := by
    rw [Work.modWatch_site, Table.look_adjust_same, hr]; rfl
  refine placeAlarmSeen_kept ?_ _
  split
  all_goals rename_i hs
  · exact enterAlarm_kept h1 _ _ _ _ e1 (by show r.state.inAlarm = _; rw [hs]; rfl)
  · exact enterAlarm_kept h1 _ _ _ _ e1 (by show r.state.inAlarm = _; rw [hs]; rfl)
  · exact enterAlarm_kept h1 _ _ _ _ e1 (by show r.state.inAlarm = _; rw [hs]; rfl)
  · exact modWatch_kept h1 _ _
  · exact enterAlarm_kept h1 _ _ _ _ e1 (by show r.state.inAlarm = _; rw [hs]; rfl)

theorem Work.unsupervised_kept (h : Kept a w.site) (c : Chan) (x : AlarmSender) (t : Option Terminal) (y : AlarmCause)
    (p : Option Position) (r : UnsupervisedReason) : Kept a (w.unsupervised c x t y p r).site :=
  h.trans .counters

theorem Work.alarmFrom_kept (h : Kept a w.site) {i : Nat} {t : Terminal} (ht : Table.look w.site.roster i = some t) (c : Chan)
    (x : AlarmCause) (p : Option Position) : Kept a (w.alarmFrom i t c x p).site := by
  unfold Work.alarmFrom
  split
  · exact unsupervised_kept h _ _ _ _ _ _
  · rename_i hk
    split
    · rename_i r hr
      exact alarmRaised_kept h _ hr _ _ _
    · rename_i hn
      split
      · refine placeAlarmSeen_kept (alarmEntered_kept i x (some c) false ?_) _
        refine raised_kept h i (x := (w.site.watches.put i (w.site.alarmWatch p)).adjust i
          (Watch.alarmed x (some c) w.site.count)) (fun k => Table.wf_adjust (Table.wf_put k _ _) _ _)
          (fun v e => ?_) (r := (w.site.alarmWatch p).alarmed x (some c) w.site.count) ?_ rfl (fun q hq => ?_)
          (fun _ => ?_) _ rfl
        · rw [Table.look_adjust_other _ _ _ _ e, Table.look_put_other _ _ _ _ e]
        · rw [Table.look_adjust_same, Table.look_put_same]; rfl
        · rw [hn] at hq; simp at hq
        · unfold Site.kindAt; rw [ht]; simp [hk]
      · simp only []
        split
        · exact pushAlert_kept (unsupervised_kept h _ _ _ _ _ _) _ _
        · exact unsupervised_kept h _ _ _ _ _ _

theorem Work.takeAlarm_kept (h : Kept a w.site) (i : Option Nat) (c : Chan) (f : Sender) (x : AlarmCause)
    (p : Option Position) : Kept a (w.takeAlarm i c f x p).site := by
  unfold Work.takeAlarm
  repeat' split
  · exact alarmFrom_kept h ‹_› _ _ _
  · exact h
  · unfold Work.alarmUnknown; split
    · exact unsupervised_kept h _ _ _ _ _ _
    · exact unsupervised_kept h _ _ _ _ _ _

/-- A change of state between states that do not count as an alarm. -/
theorem Work.stepWatch_kept (h : Kept a w.site) (u : Nat) (f : Watch → Watch) {r : Watch}
    (hr : Table.look w.site.watches u = some r) (hi : r.state.inAlarm = (f r).state.inAlarm) :
    Kept a (w.modWatch u f).site := modWatch_kept h u f fun q hq => by
  obtain rfl : r = q := by rw [hr] at hq; exact Option.some.inj hq
  exact hi.symm

theorem Work.promptExpires_kept (h : Kept a w.site) (u : Nat) : Kept a (w.promptExpires u).site := by
  unfold Work.promptExpires
  split
  · rename_i r hr
    split
    · rename_i hs
      exact emit_kept (placePrompt_kept (stepWatch_kept h u (fun r => { r with state := .prompted }) hr
        (by rw [hs.1]; rfl)) _) _
    · exact h
  · exact h

theorem Work.deadlineExpires_kept (h : Kept a w.site) (u : Nat) : Kept a (w.deadlineExpires u).site := by
  unfold Work.deadlineExpires
  split
  · rename_i r hr
    split
    · rename_i hs
      exact emit_kept (stepWatch_kept h u (fun r => { r with state := .overdue }) hr (by rw [hs.1]; rfl)) _
    · exact h
  · exact h

theorem Work.graceExpires_kept (h : Kept a w.site) (u : Nat) : Kept a (w.graceExpires u).site := by
  unfold Work.graceExpires
  split
  · rename_i r hr
    split
    · rename_i hs
      split
      · exact emit_kept (placePrompt_kept (stepWatch_kept h u (fun _ =>
          { r with state := .prompted, missed := r.missed + 1, deadline := w.site.count + r.lead }) hr
          (by rw [hs.1]; rfl)) _) _
      · have h1 : Kept a (w.modWatch u fun r => { r with missed := r.missed + 1 }).site := modWatch_kept h _ _
        refine enterAlarm_kept h1 _ _ _ _ (r := { r with missed := r.missed + 1 }) ?_ ?_
        · rw [Work.modWatch_site, Table.look_adjust_same, hr]; rfl
        · show r.state.inAlarm = false; rw [hs.1]; rfl
    · exact h
  · exact h

theorem Work.escalationExpires_kept (h : Kept a w.site) (u : Nat) : Kept a (w.escalationExpires u).site := by
  unfold Work.escalationExpires
  split
  · rename_i r hr
    split
    · have h1 := fun f hf => emit_kept (stepWatch_kept h u f hr hf)
      unfold Work.escalate
      simp only []
      repeat' split
      all_goals first
        | exact placeAlarmSeen_kept (placeAssists_kept (h1 _ rfl _) _ _) _
        | exact placeAssists_kept (h1 _ rfl _) _ _
        | exact placeAlarmSeen_kept (h1 _ rfl _) _
        | exact h1 _ rfl _
    · exact h
  · exact h

theorem Work.noticeExpires_kept (h : Kept a w.site) (u : Nat) : Kept a (w.noticeExpires u).site := by
  simp only [Work.noticeExpires]
  repeat' split
  · exact cancelItem_kept (dropNotice_kept h _) _
  · exact dropNotice_kept h _
  · exact dropNotice_kept h _
  · exact h

/-! ### The section map and the permits -/

theorem Work.putSection_kept (h : Kept a w.site) (n : Nat) :
    Kept a (w.modSite fun s => { s with sections := s.sections.put n ((Table.look s.sections n).getD 0) }).site := by
  refine h.trans (KeptBut.kept (KeptBut.setSections _ _ (fun k => Table.wf_put k _ _) fun _ =>
    Site.lawful_of_sections fun m hm => ?_) fun _ _ => Books.putSection n)
  by_cases e : m = n
  · subst e; simpa [Site.clearances] using hm
  · rw [Table.look_put_other _ _ _ _ e]; exact hm

theorem Work.delSection_kept (h : Kept a w.site) (n : Nat) (hn : w.site.sectionHeld n = false) :
    Kept a (w.modSite fun s => { s with sections := s.sections.del n }).site := by
  refine h.trans (KeptBut.kept (KeptBut.setSections _ _ (fun k => Table.wf_del k _) fun _ =>
    Site.lawful_of_sections fun m hm => ?_) fun sa _ => Books.delSection (fun k p hp hl hm => ?_) sa)
  · by_cases e : m = n
    · subst e; simp
    · rw [Table.look_del_other _ _ _ e]; exact hm
  · unfold Site.sectionHeld at hn
    have := List.any_eq_false.1 hn (k, p) (Table.mem_of_look hp)
    simp [hl, hm] at this

theorem takeDefineSection_kept (h : Kept a w.site) (n x : Byte) : Kept a (takeDefineSection n x w).work.site := by
  unfold takeDefineSection
  split
  · exact h
  · exact Work.putSection_kept h _
  · split
    · exact h
    · split
      · exact h
      · rename_i hn
        refine Work.delSection_kept h _ ?_
        simp only [not_or, Bool.not_eq_true] at hn
        exact hn.1

theorem Work.delSwitch_kept (h : Kept a w.site) (n : Nat) :
    Kept a (w.modSite fun s => { s with switches := s.switches.del n }).site := by
  refine h.trans (Kept.setSwitches _ _ (fun k => Table.wf_del k _) fun _ => Site.lawful_of_switches fun m q hq => ?_)
  by_cases e : m = n
  · subst e; simp at hq
  · rw [Table.look_del_other _ _ _ e] at hq; exact ⟨q, hq, fun _ => rfl⟩

theorem Site.not_named {s : Site} {n : Nat} (h : ¬s.switchNamed n = true) :
    ∀ e ∈ s.permits, e.2.live = true → ∀ op, e.2.work ≠ .switching n op := by
  intro e he hl op hw
  refine h ?_
  simp only [Site.switchNamed, List.any_eq_true, Bool.and_eq_true]
  exact ⟨e, he, hl, by simp [hw]⟩

theorem takeDefineSwitch_kept (h : Kept a w.site) (n x p q : Byte) : Kept a (takeDefineSwitch n x p q w).work.site := by
  unfold takeDefineSwitch
  split
  · exact h
  · split
    · unfold Work.defineSwitch
      repeat' split
      · exact h
      · exact h
      · exact h
      · rename_i hn _
        exact h.trans (Kept.setSwitches _ _ (fun k => Table.wf_put k _ _) fun _ => Site.lawful_of_define (Site.not_named hn))
    · exact h
  · unfold Work.removeSwitch
    repeat' split
    all_goals first
      | exact h
      | exact Work.delSwitch_kept h _

theorem takeSetSwitchPosition_kept (h : Kept a w.site) (n p : Byte) :
    Kept a (takeSetSwitchPosition n p w).work.site := by
  unfold takeSetSwitchPosition
  repeat' split
  · exact h
  · exact h
  · rename_i pos _ _ _ _ _ _ _ e
    have := Work.recordPosition_kept h n.toNat pos .host
    rw [e] at this
    exact this

/-- What REQUEST_PERMIT and RESTORE_PERMIT check before they create a permit, as far as the counts ask for it (R138, R149). -/
structure PermitFits (s : Site) (i : Nat) (p : Permit) : Prop where
  free : Table.look s.permits i = none
  crew : (Table.look s.crews p.crew).isSome = true
  named : s.namesDefined p.work = true
  live : p.live = true
  current : p.retained = false

theorem PermitFits.listed {s : Site} {i : Nat} {p : Permit} (h : PermitFits s i p) :
    p.work.sections.Nodup ∧ ∀ n ∈ p.work.sections, (Table.look s.sections n).isSome = true := by
  have k := h.named
  unfold Site.namesDefined at k
  cases e : p.work with
  | clearance l => rw [e] at k; simp only [Bool.and_eq_true, List.all_eq_true, decide_eq_true_eq] at k; exact ⟨k.2, k.1⟩
  | switching sw op => simp [PermitWork.sections]

theorem Permit.recount_idle {p : Permit} (h : p.inForce = false) (g : Nat → Nat) (n : Nat) : p.recount g n = id := by
  funext m; simp [Permit.recount, h]

theorem Work.requested_kept (h : Kept a w.site) (i : Nat) {p : Permit} (hp : p.state = .requested) (c : PermitCause)
    (k : PermitFits w.site i p) : Kept a (w.createPermit i p c).site := by
  have hb : KeptBut w.site (w.createPermit i p c).site :=
    (KeptBut.setPermits w.site (w.site.permits.put i p) (fun k => Table.wf_put k _ _) fun _ =>
      Site.lawful_of_request hp).trans (modCrew_but (w.modSite fun s => { s with permits := s.permits.put i p }) _ _)
  refine h.trans (hb.kept fun sa sb => Books.create k.free k.live k.current k.crew k.listed rfl rfl rfl
    (fun j e => Table.look_put_other _ _ _ _ e) (Table.look_put_same _ _ _) (fun n => ?_) sa sb)
  rw [p.recount_idle (by simp [Permit.inForce, hp])]
  simp [Work.createPermit, Work.reportPermit]

theorem takeRequestPermit_kept (h : Kept a w.site) (n : Half) (x : Byte) (c : Half) (l : List Byte) :
    Kept a (takeRequestPermit n x c l w).work.site := by
  unfold takeRequestPermit
  split
  · unfold Work.requestPermit
    repeat' split
    all_goals first
      | exact h
      | skip
    rename_i hm hc ha hd hl _ i hi _
    refine Work.requested_kept h i rfl _ ⟨(Table.firstFree_spec hi).1, ?_, ?_, rfl, rfl⟩
    · simpa [Permit.created, Option.isNone_iff_eq_none, Option.isSome_iff_ne_none] using hc
    · simpa [Permit.created] using hd
  · exact h

theorem Work.withPermit_kept (h : Kept a w.site) (n : Half) (act : Nat → Permit → Taking)
    (hact : ∀ k p, (w.site.sorted = true → Table.look w.site.permits k = some p) → Kept a (act k p).work.site) :
    Kept a (w.withPermit n act).work.site := by
  unfold Work.withPermit
  split
  · exact h
  · split
    · exact h
    · rename_i e
      exact hact _ _ fun hs => (look_of_livePermit hs e).1

theorem Work.checkIssue_kept (h : Kept a w.site) (k : Nat) (p : Permit)
    (hk : w.site.sorted = true → Table.look w.site.permits k = some p) : Kept a (w.checkIssue k p).work.site := by
  unfold Work.checkIssue
  repeat' split
  all_goals first
    | exact h
    | skip
  rename_i hi
  have hi : w.site.interlock p.work = true := by simpa using hi
  rename_i hp _ _ _ _ _ _ _ _ _
  refine reportRecord_kept (place_kept ?_ _ _ _) _ _ _
  refine modPermit_law h k _ (fun hs => Site.lawful_of_issue (hk hs) hi _ (fun _ => rfl) fun _ => rfl) fun hs q hq => ?_
  obtain rfl : p = q := by rw [hk hs] at hq; exact Option.some.inj hq
  have hp : p.state = .requested := by simpa using hp
  simp only [Permit.entry, Permit.live, Permit.inForce, hp]; rfl

theorem Work.withdrawPermit_kept (h : Kept a w.site) (k : Nat) (p : Permit)
    (hk : w.site.sorted = true → Table.look w.site.permits k = some p) : Kept a (w.withdrawPermit k p).work.site := by
  unfold Work.withdrawPermit
  split
  · rename_i hp
    exact finishPermit_kept h _ _ _ rfl fun hs =>
      ⟨p, hk hs, by simp [Permit.live, hp, PermitState.live], by simp [Permit.inForce, hp]⟩
  · rename_i hp
    have h1 := placeResult_kept (.refl w.site) k .withdrawn
    refine h.when (h1.toKeptBut.trans (finishPermit_but _ _ _ _ rfl)) fun hs => finishPermit_kept h1 _ _ _ rfl fun _ =>
      ⟨p, ?_, by simp [Permit.live, hp, PermitState.live], by simp [Permit.inForce, hp]⟩
    rw [(placeResult_tables w k .withdrawn).2.2.2.1]
    exact hk hs
  all_goals exact h

/-- A permit in force is released, the counts of its sections falling (R148). -/
theorem Work.releasePermit_kept (h : Kept a w.site) (k : Nat) (p : Permit) (c : PermitCause) (hp : p.inForce = true)
    (hk : w.site.sorted = true → Table.look w.site.permits k = some p) : Kept a (w.releasePermit k p c).site := by
  have hb := lowerSections_but w p.work.sections
  have e : (w.lowerSections p.work.sections).site = _ := sections_fold (· - 1) p.work.sections w
  rw [e] at hb
  have hl := Permit.live_of_inForce hp
  refine finished_kept h hb e k .released c rfl fun hs => ⟨p, hk hs, hl, fun hc m => ?_⟩
  rw [look_fold _ (hc.listed k p (hk hs) hl).1]
  congr 1; funext y; simp [Permit.recount, hp]

theorem Work.confirmRelease_kept (h : Kept a w.site) (k : Nat) (p : Permit)
    (hk : w.site.sorted = true → Table.look w.site.permits k = some p) : Kept a (w.confirmRelease k p).work.site := by
  unfold Work.confirmRelease
  repeat' split
  all_goals first
    | exact h
    | skip
  rename_i hp _
  refine releasePermit_kept h _ _ _ ?_ hk
  simp only [ne_eq, Decidable.not_not] at hp
  simp [Permit.inForce, hp]

theorem Work.rejectRelease_kept (h : Kept a w.site) (k : Nat) (p : Permit)
    (hk : w.site.sorted = true → Table.look w.site.permits k = some p) : Kept a (w.rejectRelease k p).work.site := by
  unfold Work.rejectRelease
  split
  · rename_i hp
    refine reportRecord_kept (w := w.modPermit k fun p => { p with state := .issued }) ?_ _ _ _
    refine modPermit_law h k _ (fun hs hl => Site.lawful_of_adjust k _ (fun q hq => ?_) hl) fun hs q hq => by
      obtain rfl : p = q := by rw [hk hs] at hq; exact Option.some.inj hq
      simp only [Permit.entry, Permit.live, Permit.inForce, hp]; rfl
    obtain rfl : q = p := by rw [hk hs] at hq; exact (Option.some.inj hq).symm
    have hc := hl.2 (k, q) (Table.mem_of_look hq) hp
    refine ⟨rfl, fun sw hw => ?_, fun hi => ?_, fun hi => ?_⟩
    · simp only at hw; simp [hw, PermitWork.isClearance] at hc
    · simp at hi
    · simp at hi
  · exact h

theorem Work.verbalRelease_kept (h : Kept a w.site) (k : Nat) (p : Permit) (c : Nat)
    (hk : w.site.sorted = true → Table.look w.site.permits k = some p) : Kept a (w.verbalRelease k p c).work.site := by
  unfold Work.verbalRelease
  repeat' split
  all_goals first
    | exact h
    | skip
  rename_i hp _ _
  refine releasePermit_kept h _ _ _ ?_ hk
  simp only [Bool.not_eq_true', Bool.not_eq_false, Bool.and_eq_true] at hp
  exact hp.2

theorem Work.restored_kept (h : Kept a w.site) (i : Nat) {p : Permit} (hp : p.state = .issued)
    (hi : w.site.interlock p.work = true) (c : PermitCause) (k : PermitFits w.site i p) :
    Kept a ((w.raiseSections p.work.sections).createPermit i p c).site := by
  have e : (w.raiseSections p.work.sections).site = _ := sections_fold (· + 1) p.work.sections w
  have f : ((w.raiseSections p.work.sections).createPermit i p c).site
      = { w.site with
          sections := p.work.sections.foldl (fun t n => Table.adjust t n (· + 1)) w.site.sections
          permits := w.site.permits.put i p
          crews := w.site.crews.adjust p.crew fun c => { c with permits := c.permits + 1 } } := by
    simp only [Work.createPermit, Work.reportPermit, Work.emit_site, Work.modCrew_site, Work.modSite_site, e]
  rw [f]
  have hb : KeptBut w.site { w.site with
      sections := p.work.sections.foldl (fun t n => Table.adjust t n (· + 1)) w.site.sections
      permits := w.site.permits.put i p
      crews := w.site.crews.adjust p.crew fun c => { c with permits := c.permits + 1 } } := by
    refine ⟨rfl, fun _ => rfl, fun k => ?_, id, fun _ k => k, fun _ hl => ?_⟩
    · rw [sorted_iff] at k ⊢
      exact ⟨k.1, Table.wf_adjust k.2.1 _ _, k.2.2.1, k.2.2.2.1, k.2.2.2.2.1, k.2.2.2.2.2.1, wf_fold _ _ _ k.2.2.2.2.2.2.1,
        k.2.2.2.2.2.2.2.1, Table.wf_put k.2.2.2.2.2.2.2.2 _ _⟩
    · exact Site.lawful_of_eq rfl rfl rfl (Site.lawful_of_restore (k := i) hi hp (fun n hn => look_fold_other _ _ _ n hn) hl)
  refine h.trans (hb.kept fun sa sb => Books.create k.free k.live k.current k.crew k.listed rfl rfl rfl
    (fun j e => Table.look_put_other _ _ _ _ e) (Table.look_put_same _ _ _) (fun n => ?_) sa sb)
  simp only
  rw [look_fold _ k.listed.1]
  congr 1; funext y; simp [Permit.recount, Permit.inForce, hp]

theorem takeRestorePermit_kept (h : Kept a w.site) (n : Half) (x : Byte) (c : Half) (l : List Byte) :
    Kept a (takeRestorePermit n x c l w).work.site := by
  unfold takeRestorePermit
  split
  · unfold Work.restorePermit
    repeat' split
    all_goals first
      | exact h
      | skip
    rename_i n' c' k' _ _ _ _ hc hd _ _ i hf hi
    refine Work.restored_kept h i (p := Permit.created n' k' c' .issued ((w.site.vehicleRecord c').map fun v => v.2.id)
      (w.site.mode == .keyed) true) rfl (by simpa [Permit.created] using hi) _ ⟨(Table.firstFree_spec hf).1, ?_, ?_, rfl, rfl⟩
    · simpa [Permit.created, Option.isNone_iff_eq_none, Option.isSome_iff_ne_none] using hc
    · simpa [Permit.created] using hd
  · exact h

theorem takeGetSection_work (n : Byte) (w : Work) : (takeGetSection n w).work = w := by
  unfold takeGetSection; split <;> rfl

theorem takeGetSwitch_work (n : Byte) (w : Work) : (takeGetSwitch n w).work = w := by
  unfold takeGetSwitch; split <;> rfl

theorem takeGetPermit_work (n : Half) (w : Work) : (takeGetPermit n w).work = w := by
  unfold takeGetPermit
  repeat' split
  all_goals rfl

theorem look_of_permitFrom {s : Site} (h : s.sorted = true) {n i k : Nat} {p : Permit}
    (e : s.permitFrom n i = some (k, p)) : Table.look s.permits k = some p := by
  unfold Site.permitFrom at e
  split at e
  · rename_i e'
    split at e
    · obtain ⟨rfl, rfl⟩ := Prod.mk.inj (Option.some.inj e)
      exact (look_of_livePermit h e').1
    · exact absurd e (by simp)
  · exact absurd e (by simp)

theorem Work.issued_kept (h : Kept a w.site) {k : Nat} {p : Permit}
    (hk : w.site.sorted = true → Table.look w.site.permits k = some p) (hp : p.state = .issuing) :
    Kept a ((w.modPermit k fun p => { p with state := .issued, deadline := none }).raiseSections p.work.sections).site := by
  rw [Work.raiseSections, sections_fold]
  refine h.trans (KeptBut.kept ⟨rfl, fun _ => rfl, fun k => ?_, id, fun _ k => k, fun hs => ?_⟩ fun sa sb => ?_)
  · rw [sorted_iff] at k ⊢
    exact ⟨k.1, k.2.1, k.2.2.1, k.2.2.2.1, k.2.2.2.2.1, k.2.2.2.2.2.1, wf_fold _ _ _ k.2.2.2.2.2.2.1,
      k.2.2.2.2.2.2.2.1, Table.wf_adjust k.2.2.2.2.2.2.2.2 _ _⟩
  · exact Site.lawful_of_readback (hk hs) hp (fun p => { p with state := .issued, deadline := none }) (fun _ => rfl)
      (fun _ => rfl) fun n hn => look_fold_other _ _ _ n hn
  · have hl : p.live = true := by simp [Permit.live, hp, PermitState.live]
    refine Books.enforce (k := k) (q := { p with state := .issued, deadline := none }) (hk sa) (by simp [Permit.inForce, hp])
      ?_ (by simp [Permit.inForce]) (by simp [Permit.live, hp, PermitState.live]) rfl rfl rfl (fun j e => ?_) (fun hc n => ?_)
      sa sb
    · simp [hk sa]
    · exact Table.look_adjust_other _ _ _ _ e
    · simp only [Work.modPermit_site]
      rw [look_fold _ (hc.listed k p (hk sa) hl).1]
      congr 1; funext y; simp [Permit.recount, Permit.inForce]

/-- What the counts read of the permits has not changed. -/
def Entries (a b : Site) : Prop := ∀ j, Table.view b.permits Permit.entry j = Table.view a.permits Permit.entry j

theorem Entries.of_eq {a b : Site} (h : b.permits = a.permits) : Entries a b := fun j => by rw [h]

theorem Entries.trans {a b c : Site} (h : Entries a b) (k : Entries b c) : Entries a c := fun j => (k j).trans (h j)

theorem Work.modPermit_entries (w : Work) (k : Nat) (f : Permit → Permit)
    (h : ∀ p, Table.look w.site.permits k = some p → (f p).entry = p.entry) : Entries w.site (w.modPermit k f).site :=
  fun j => Table.view_adjust _ k f Permit.entry h j

theorem foldl_entries {β : Type} (f : Work → β → Work) (hf : ∀ v e, Entries v.site (f v e).site) (l : List β) (v : Work) :
    Entries v.site (l.foldl f v).site := by
  induction l generalizing v with
  | nil => exact .of_eq rfl
  | cons e l ih => exact (hf v e).trans (ih _)

theorem Work.revertPermit_entries (w : Work) (k : Nat) (c : PermitCause) (b : Bool) :
    Entries w.site (w.revertPermit k c b).site := by
  simp only [Work.revertPermit]
  split
  · rename_i p hk
    split
    · rename_i hp
      have h1 := modPermit_entries w k (fun p => { p with state := .requested, deadline := none }) fun q hq => by
        obtain rfl : p = q := by rw [hk] at hq; exact Option.some.inj hq
        simp only [Permit.entry, Permit.live, Permit.inForce, hp]; rfl
      have h2 := h1.trans (.of_eq (cancelOwned_tables (w.modPermit k fun p =>
        { p with state := .requested, deadline := none }) (.permit k) .permit).2.2.2.1)
      rw [reportRecord_site]
      split
      · exact h2.trans (.of_eq (placeResult_tables _ _ _).2.2.2.1)
      · exact h2
    · exact .of_eq rfl
  · exact .of_eq rfl

theorem Work.offerDanger_entries (w : Work) (k sw : Nat) : Entries w.site (w.offerDanger k sw).1.site := by
  unfold Work.offerDanger
  repeat' split
  all_goals first
    | exact .of_eq rfl
    | exact modPermit_entries w k (fun p => { p with dangerOwed := true }) fun _ _ => rfl

theorem Work.tagViolation_entries (w : Work) (sw : Nat) (p : SwitchPoint) (q : SwitchPosition) (s : PositionSource) :
    Entries w.site (w.tagViolation sw p q s).1.site := by
  have h2 : ∀ (l : List (Nat × Permit)) (v : Work × List MarkedClearance), Entries w.site v.1.site →
      Entries w.site (l.foldl (fun (x : Work × List MarkedClearance) e =>
        ((x.1.offerDanger e.1 sw).1, x.2 ++ [{ number := e.2.number, crew := e.2.crew, state := e.2.state
                                               outcome := (x.1.offerDanger e.1 sw).2 }])) v).1.site := by
    intro l
    induction l with
    | nil => exact fun _ k => k
    | cons e l ih => exact fun v k => ih _ (k.trans (offerDanger_entries _ _ _))
  simp only [Work.tagViolation]
  refine h2 _ _ (Entries.trans ?_ (foldl_entries (fun (w : Work) (e : Nat × Permit) => w.modPermit e.1 fun q =>
    { q with compromised := true, violationSwitch := some sw }) (fun _ _ => modPermit_entries _ _ _ fun _ _ => rfl) _ _))
  exact .of_eq rfl

theorem pair_ite_entries {β : Type} {c : Prop} [Decidable c] {s : Site} {x y : Work × β} (hx : Entries s x.1.site)
    (hy : Entries s y.1.site) : Entries s (if c then x else y).1.site := by
  split
  · exact hx
  · exact hy

/-- Recording a position may compromise or revert permits; it changes nothing that the counts read of them (R135). -/
theorem Work.recordPosition_entries (w : Work) (sw : Nat) (q : SwitchPosition) (s : PositionSource) :
    Entries w.site (w.recordPosition sw q s).1.site := by
  unfold Work.recordPosition
  split
  · exact .of_eq rfl
  · simp only []
    refine Entries.trans ?_ (foldl_entries _ (fun _ _ => revertPermit_entries _ _ _ _) _ _)
    refine Entries.trans (b := (w.modSite fun s => { s with switches := s.switches.adjust sw fun p =>
      { p with position := q, violated := if q = .opened then false else p.violated } }).site) (.of_eq rfl) ?_
    exact pair_ite_entries (tagViolation_entries _ _ _ _ _) (.of_eq rfl)

theorem Work.readbackMismatch_kept (h : Kept a w.site) (k : Nat) (p : Permit)
    (hk : w.site.sorted = true → Table.look w.site.permits k = some p) (hp : p.state = .issuing) :
    Kept a (w.readbackMismatch k p).site := by
  have h1 : Kept w.site (w.modPermit k fun p => { p with attempts := p.attempts + 1 }).site :=
    modPermit_kept_still (.refl _) k (fun p => { p with attempts := p.attempts + 1 }) (fun _ => rfl) fun _ => rfl
  unfold Work.readbackMismatch
  simp only []
  split
  · refine h.trans (reportRecord_kept (modPermit_kept_still (placeResult_kept h1 _ _) _ _ ?_ ?_) _ _ _)
    exacts [fun _ => rfl, fun _ => rfl]
  · have h2 := placeResult_kept h1 k .void
    refine h.when (h2.toKeptBut.trans (finishPermit_but _ _ _ _ rfl)) fun hs => finishPermit_kept h2 _ _ _ rfl fun _ =>
      ⟨{ p with attempts := p.attempts + 1 }, ?_, by simp [Permit.live, hp, PermitState.live], by simp [Permit.inForce, hp]⟩
    rw [(placeResult_tables _ k .void).2.2.2.1]
    simp [hk hs]

theorem Work.takeReadback_kept (h : Kept a w.site) (i n c : Nat) : Kept a (w.takeReadback i n c).site := by
  unfold Work.takeReadback
  split
  · rename_i k p e
    split
    · rename_i hp
      split
      · exact reportRecord_kept (placeResult_kept (issued_kept h (fun hs => look_of_permitFrom hs e) hp) _ _) _ _ _
      · exact readbackMismatch_kept h _ _ (fun hs => look_of_permitFrom hs e) hp
    · exact ignoreArrival_kept h
  · exact ignoreArrival_kept h

theorem Work.takeSwitchDone_kept (h : Kept a w.site) (i n : Nat) : Kept a (w.takeSwitchDone i n).site := by
  unfold Work.takeSwitchDone
  split
  · rename_i k p e
    split
    · rename_i sw op hp hw
      have h1 := recordPosition_kept (.refl w.site) sw op.result (.switchDone n)
      refine h.when (h1.toKeptBut.trans (finishPermit_but _ _ _ _ rfl)) fun hs => finishPermit_kept h1 _ _ _ rfl fun _ => ?_
      have hl : Table.look w.site.permits k = some p := look_of_permitFrom hs e
      obtain ⟨q, hq, t⟩ := Table.look_of_view (recordPosition_entries w sw op.result (.switchDone n) k).symm hl
      simp only [Permit.entry, Prod.mk.injEq] at t
      refine ⟨q, hq, ?_, fun _ => ?_⟩
      · rw [← t.2.2.1]; simp [Permit.live, hp, PermitState.live]
      · rw [← t.2.1, hw]; rfl
    · exact ignoreArrival_kept h
  · exact ignoreArrival_kept h

theorem Work.takeReleaseAsk_kept (h : Kept a w.site) (i n : Nat) : Kept a (w.takeReleaseAsk i n).site := by
  unfold Work.takeReleaseAsk
  split
  · rename_i k p e
    split
    · rename_i hp
      refine reportRecord_kept (w := w.modPermit k fun p => { p with state := .releasePending }) ?_ _ _ _
      refine modPermit_law h k _ (fun hs => Site.lawful_of_adjust k _ fun q hq => ?_) fun hs q hq => by
        obtain rfl : p = q := by rw [look_of_permitFrom hs e] at hq; exact Option.some.inj hq
        simp only [Permit.entry, Permit.live, Permit.inForce, hp.1]; rfl
      obtain rfl : q = p := by rw [look_of_permitFrom hs e] at hq; exact (Option.some.inj hq).symm
      exact ⟨rfl, fun _ _ hi => by simp at hi, fun hi => by simp at hi, fun _ => .inr hp.2⟩
    · exact ignoreArrival_kept h
  · exact ignoreArrival_kept h

theorem Work.readbackExpires_kept (h : Kept a w.site) (n : Nat) : Kept a (w.readbackExpires n).site := by
  unfold Work.readbackExpires
  repeat' split
  · exact revertPermit_kept h _ _ _
  · exact h
  · exact h

/-! ### Reversions and guests at a change of mode, and the supply level -/

theorem Work.revertIssuing_kept (h : Kept a w.site) : Kept a w.revertIssuing.site :=
  foldl_kept _ (fun _ _ hv => revertPermit_kept hv _ _ _) _ _ h

theorem Work.removeGuests_kept (h : Kept a w.site) : Kept a w.removeGuests.site := by
  have key : ∀ (l : List (Nat × Terminal)) (v : Work), (∀ e ∈ l, v.site.boundCrew e.1 = none) →
      Kept v.site (l.foldl (fun w e => w.removeTerminal e.1) v).site := by
    intro l
    induction l with
    | nil => exact fun v _ => .refl _
    | cons e l ih =>
      refine fun v hv => (removeTerminal_kept (.refl _) e.1 fun _ => hv e (List.mem_cons_self ..)).trans (ih _ fun x hx => ?_)
      exact removeTerminal_unbound v e.1 x.1 (hv x (List.mem_cons_of_mem _ hx))
  refine h.when (foldl_but _ (fun _ _ => removeTerminal_but _ _) _ _) fun hs => key _ w fun e he => ?_
  simp only [Table.pick, List.mem_filter, Bool.and_eq_true, Option.isNone_iff_eq_none] at he
  simp [Site.boundCrew, Table.look_of_mem ((sorted_iff _).1 hs).1 he.1, he.2.2]

theorem Work.criticalAt_kept (h : Kept a w.site) (c : Chan) : Kept a (w.criticalAt c).site := by
  unfold Work.criticalAt
  repeat' split
  all_goals first
    | exact h
    | exact goQuiet_kept h _ _
    | exact clearPending_kept h _

end Sys2Proof.Machine
end

