-- ==== Sys2Proof/Laws/KeptExec.lean ====
section
/-! SUPPORT. What every command but a boot and a SET_CHANNEL keeps: the configurations, the canonical form of the tables, the ranges
of the roster records and of the channels, the interlock law, and the counts kept beside the tables. -/

set_option Elab.async false

namespace Sys2Proof.Machine

/-- The part of Kept that survives the arrival of a request and changes of the fixed part. -/
structure Held (a b : Site) : Prop where
  configs : ∀ c, (b.chan c).config = (a.chan c).config
  sorted : a.sorted = true → b.sorted = true
  roster : a.rosterSound = true → b.rosterSound = true
  channels : ∀ c, (a.chan c).sound = true → (b.chan c).sound = true
  lawful : a.sorted = true → a.lawful → b.lawful
  books : a.sorted = true → Books a b

theorem Held.of_kept {a b : Site} (h : Kept a b) : Held a b :=
  ⟨h.configs, h.sorted, h.roster, h.channels, h.lawful, h.books⟩
theorem Held.refl (a : Site) : Held a a := .of_kept (.refl a)
theorem Held.trans {a b c : Site} (h : Held a b) (k : Held b c) : Held a c :=
  ⟨fun d => (k.configs d).trans (h.configs d), k.sorted ∘ h.sorted, k.roster ∘ h.roster,
    fun d => k.channels d ∘ h.channels d, fun w l => k.lawful (h.sorted w) (h.lawful w l),
    fun w => (h.books w).trans (k.books (h.sorted w))⟩

/-- The channels, every table, and the next number of the Pending Urgent List, as one value. -/
def Site.tables (s : Site) : Vector Channel 4 × Table Terminal × Table Crew × Table PulItem × Table Order × Table Watch
    × Table Nat × Table Nat × Table SwitchPoint × Table Permit × Nat :=
  (s.channels, s.roster, s.crews, s.pul, s.orders, s.watches, s.stopNotices, s.sections, s.switches, s.permits,
    s.nextItem)

/-- A change outside the channels and the tables. -/
theorem Held.of_tables {a b : Site} (h : b.tables = a.tables) : Held a b := by
  simp only [Site.tables, Prod.mk.injEq] at h
  obtain ⟨h0, h1, h2, h3, h4, h5, h6, h7, h8, h9, h10⟩ := h
  have hc : ∀ c, b.chan c = a.chan c := fun c => by unfold Site.chan; rw [h0]
  have hs : b.sorted = a.sorted := by unfold Site.sorted; rw [h1, h2, h3, h4, h5, h6, h7, h8, h9, h10]
  refine ⟨fun c => by rw [hc], fun k => hs.trans k, fun k => ?_, fun c k => by rw [hc]; exact k,
    fun _ => Site.lawful_of_eq h9 h8 h7, fun k => (Level.of_eq h1 h2 h5 h9 h7).books k (hs.trans k)⟩
  unfold Site.rosterSound at k ⊢; rw [h1]; exact k

theorem Held.arrived (a : Site) : Held a a.arrived := .of_tables rfl

theorem conclude_held (s : State) (l : Link) {w : Work} {a : Site} (h : Held a w.site) : Held a (s.conclude l w).site :=
  h.trans (.of_kept (State.conclude_kept s l (.refl _)))

theorem answered_held (s : State) (h : Hdr) (kind : Byte) {t : Taking} {a : Site} (k : Held a t.work.site) :
    Held a (s.answered h kind t).site := conclude_held s (s.link.arrived s.site) k

theorem request_held {s : State} {h : Hdr} {k : Byte} {f : Bool} {act : Link → Work → Taking} {t : State}
    (e : request h k f act s = .next t)
    (hact : ∀ l, Held s.begun.site (act l s.begun).work.site) : Held s.site t.site := by
  have ha : Held s.site s.begun.site := .arrived _
  rcases request_cases e with ⟨_, rfl⟩ | ⟨_, ⟨_, rfl⟩ | ⟨_, ⟨_, rfl⟩ | ⟨_, ⟨_, rfl⟩ | ⟨_, ⟨_, rfl⟩ | ⟨_, rfl⟩⟩⟩⟩⟩
  · exact .refl _
  · exact conclude_held _ _ ha
  · exact conclude_held _ _ (.arrived _)
  · exact conclude_held _ _ (.arrived _)
  · exact answered_held _ _ _ ha
  · exact answered_held _ _ _ (ha.trans (hact _))

theorem event_held {s t : State} {f : Work → Work} (e : event f s = .next t) (h : Held s.site (f s.work).site) :
    Held s.site t.site := by
  cases hp : s.powered
  · rw [event_unpowered hp] at e; obtain rfl := (Host.Outcome.next.inj e); exact .refl _
  · rw [event_powered hp] at e; obtain rfl := (Host.Outcome.next.inj e); exact conclude_held _ _ h

theorem discard_held {s t : State} {f : LinkCounters → LinkCounters} (e : Sys2Proof.Machine.discard f s = .next t) : Held s.site t.site := by
  unfold Sys2Proof.Machine.discard at e; split at e <;> cases e
  · exact conclude_held _ _ (.refl _)
  · exact .refl _

theorem kept_work (s : State) : Kept s.site s.work.site := .refl _

/-- The command is no boot and no SET_CHANNEL. -/
def Calm (c : Instr) (s : State) : Prop :=
  (∀ h b f, c ≠ .setChannel h b f) ∧ (∀ l, c ≠ .powerOn l) ∧ ∀ a b tag body, c = .outgoingFrameSent a b →
      s.link.outgoing ≠ some (.reply tag 0x05 .ok body)

theorem arrival_held {s t : State} {a : Arrival} {act : Chan → Option Nat → Work → Work}
    (e : arrival a act s = .next t)
    (h : ∀ c i (w : Work), Kept s.site w.site → Kept s.site (act c i w).site) : Held s.site t.site :=
  event_held e (.of_kept (h _ _ _ (Work.receive_kept (kept_work s) _ _ (Nat.le_of_lt_succ a.sample.isLt))))

theorem granted_held {s t : State} {a : Arrival} {act : Chan → Nat → Work → Work}
    (e : granted a act s = .next t)
    (h : ∀ c i (w : Work), Kept s.site w.site → Kept s.site (act c i w).site) : Held s.site t.site := by
  refine arrival_held e fun c i w hw => ?_
  have h1 : ∀ j, Kept s.site (w.modChan c fun ch => ch.hear j).site := fun j =>
    Work.modChan_kept hw c (fun ch => ch.hear j) rfl fun k => k
  dsimp only
  split
  · split
    · exact h _ _ _ (h1 _)
    · exact h1 _
  · exact hw

theorem exec_held {c : Instr} {s t : State} (e : exec c s = .next t) (hc : Calm c s) : Held s.site t.site := by
  cases c <;> simp only [exec] at e
  case powerOn l => exact absurd rfl (hc.2.1 l)
  case getStatus => exact request_held e fun l => .refl _
  case setSite =>
    refine request_held e fun l => ?_
    split
    · exact .of_tables rfl
    · exact .refl _
  case setClock => exact request_held e fun l => .of_tables rfl
  case storeSettings =>
    refine request_held e fun l => ?_
    split
    · exact .refl _
    · exact .of_tables rfl
  case restart => exact request_held e fun l => .refl _
  case loadTerminal => exact request_held e fun l => .of_kept (takeLoadTerminal_kept (.refl _) _ _)
  case dropTerminal => exact request_held e fun l => .of_kept (takeDropTerminal_kept (.refl _) _)
  case getTerminal => exact request_held e fun l => by rw [takeGetTerminal_work]; exact .refl _
  case loadCrew => exact request_held e fun l => .of_kept (takeLoadCrew_kept (.refl _) _ _ _ _)
  case dropCrew => exact request_held e fun l => .of_kept (takeDropCrew_kept (.refl _) _)
  case getCrew => exact request_held e fun l => by rw [takeGetCrew_work]; exact .refl _
  case bringUp => exact request_held e fun l => .of_kept (takeBringUp_kept (.refl _) _)
  case quiet => exact request_held e fun l => .of_kept (takeQuiet_kept (.refl _) _)
  case channelReset => exact request_held e fun l => .of_kept (takeChannelReset_kept (.refl _) _)
  case setChannel h b f => exact absurd rfl (hc.1 h b f)
  case takeStats => exact request_held e fun l => .of_kept (takeTakeStats_kept (.refl _) _ _)
  case getChannel => exact request_held e fun l => by rw [takeGetChannel_work]; exact .refl _
  case sendOrder => exact request_held e fun l => .of_kept (takeSendOrder_kept (.refl _) _ _ _ _ _ _)
  case cancelOrder => exact request_held e fun l => .of_kept (takeCancelOrder_kept (.refl _) _)
  case closeOrder => exact request_held e fun l => .of_kept (takeCloseOrder_kept (.refl _) _)
  case getOrder => exact request_held e fun l => by rw [takeGetOrder_work]; exact .refl _
  case startWatch => exact request_held e fun l => .of_kept (takeStartWatch_kept (.refl _) _ _ _ _)
  case stopWatch => exact request_held e fun l => .of_kept (takeStopWatch_kept (.refl _) _)
  case ackAlarm => exact request_held e fun l => .of_kept (takeAckAlarm_kept (.refl _) _)
  case resolveAlarm => exact request_held e fun l => .of_kept (takeResolveAlarm_kept (.refl _) _ _)
  case getWatch => exact request_held e fun l => by rw [takeGetWatch_work]; exact .refl _
  case defineSection => exact request_held e fun l => .of_kept (takeDefineSection_kept (.refl _) _ _)
  case defineSwitch => exact request_held e fun l => .of_kept (takeDefineSwitch_kept (.refl _) _ _ _ _)
  case setSwitchPosition => exact request_held e fun l => .of_kept (takeSetSwitchPosition_kept (.refl _) _ _)
  case requestPermit => exact request_held e fun l => .of_kept (takeRequestPermit_kept (.refl _) _ _ _ _)
  case issuePermit =>
    exact request_held e fun l => .of_kept (Work.withPermit_kept (.refl _) _ _ fun k p hk => Work.checkIssue_kept (.refl _) _ _ hk)
  case withdrawPermit =>
    exact request_held e fun l => .of_kept (Work.withPermit_kept (.refl _) _ _ fun k p hk => Work.withdrawPermit_kept (.refl _) _ _ hk)
  case confirmRelease =>
    exact request_held e fun l => .of_kept (Work.withPermit_kept (.refl _) _ _ fun k p hk => Work.confirmRelease_kept (.refl _) _ _ hk)
  case rejectRelease =>
    exact request_held e fun l => .of_kept (Work.withPermit_kept (.refl _) _ _ fun k p hk => Work.rejectRelease_kept (.refl _) _ _ hk)
  case verbalRelease =>
    refine request_held e fun l => .of_kept ?_
    split
    · exact (Work.withPermit_kept (.refl _) _ _ fun k p hk => Work.verbalRelease_kept (.refl _) _ _ _ hk)
    · exact .refl _
  case restorePermit => exact request_held e fun l => .of_kept (takeRestorePermit_kept (.refl _) _ _ _ _)
  case getSection => exact request_held e fun l => by rw [takeGetSection_work]; exact .refl _
  case getSwitch => exact request_held e fun l => by rw [takeGetSwitch_work]; exact .refl _
  case getPermit => exact request_held e fun l => by rw [takeGetPermit_work]; exact .refl _
  case setAuthList =>
    refine request_held e fun l => ?_
    unfold takeSetAuthList
    split
    · exact .of_tables rfl
    · exact .refl _
  case setMode h m =>
    refine request_held e fun l => ?_
    unfold takeSetMode
    split
    · exact .refl _
    · split
      · rename_i m _ _
        have h1 : Held s.begun.site (s.begun.revertIssuing.modSite fun s => { s with authList := [], mode := m }).site :=
          (Held.of_kept (Work.revertIssuing_kept (.refl _))).trans
            (.of_tables rfl)
        have h2 : Held s.begun.site (s.begun.changeMode m).site := by
          unfold Work.changeMode
          simp only []
          repeat' split
          all_goals first
            | exact h1
            | exact h1.trans (.of_kept (Work.removeGuests_kept (.refl _)))
        have h3 : ∀ b : Site, Held b b.beginModeWrite := fun b =>
          .of_tables rfl
        unfold Work.writeMode
        split
        · exact h2.trans (.of_tables rfl)
        · exact h2.trans (h3 _)
      · exact .refl _
  case getAuth => exact request_held e fun l => .refl _
  case badCheckDiscard => exact discard_held e
  case tooLongDiscard => exact discard_held e
  case gapExpiry => exact discard_held e
  case badTagDiscard => exact request_held e fun l => .refl _
  case overflowDiscard =>
    unfold execOverflowDiscard at e; split at e
    · exact request_held e fun l => .refl _
    · cases e; exact .refl _
  case unknownKindRefusal =>
    unfold execUnknownKindRefusal at e; split at e
    · cases e; exact .refl _
    · exact request_held e fun l => .refl _
  case requestDiscardedAfterRestart =>
    unfold execRequestDiscardedAfterRestart at e; split at e
    · exact request_held e fun l => .refl _
    · cases e; exact .refl _
  case outgoingFrameSent a b =>
    unfold execOutgoingFrameSent at e
    split at e
    · split at e
      · cases e; exact .refl _
      · cases e; exact conclude_held _ _ (.refl _)
      · rename_i tag kind st body ho
        split at e
        · rename_i hk; obtain ⟨rfl, rfl⟩ := hk
          exact absurd ho (hc.2.2 a b _ _ rfl)
        · cases e; exact conclude_held _ _ (.refl _)
    · cases e; exact .refl _
  case storeWriteCompletion =>
    have h3 : ∀ w, Held s.site (s.site.writeDone w) := fun w => by
      unfold Site.writeDone; simp only []
      split
      · exact .of_tables rfl
      · exact .of_tables rfl
    unfold execStoreWriteCompletion at e
    split at e
    · split at e
      · cases e; exact conclude_held _ _ (h3 _)
      · cases e; exact .refl _
    · cases e; exact .refl _
  case modeWriteCompletion =>
    have h3 : ∀ w, Held s.site (s.site.writeDone w) := fun w => by
      unfold Site.writeDone; simp only []
      split
      · exact .of_tables rfl
      · exact .of_tables rfl
    unfold execModeWriteCompletion at e
    split at e
    · split at e
      · cases e; exact conclude_held _ _ (h3 _)
      · cases e; exact .refl _
    · cases e; exact .refl _
  case moduleInserted => exact event_held e (.of_kept (Work.insertModule_kept (kept_work s) _))
  case moduleRemoved => exact event_held e (.of_kept (Work.removeModule_kept (kept_work s) _))
  case leverOpened => exact event_held e (.of_kept (Work.openLever_kept (kept_work s) _))
  case leverClosed => exact event_held e (.of_kept (Work.closeLever_kept (kept_work s) _))
  case supplyLevelChange a b =>
    refine event_held e ?_
    have h0 : Held s.site (s.work.modSite fun s => { s with firstSupply := a, secondSupply := b }).site :=
      .of_tables rfl
    simp only []
    repeat' split
    · exact h0
    · exact h0.trans (.of_kept (foldl_kept _ (fun _ _ hv => Work.criticalAt_kept hv _) _ _ (.refl _)))
    · exact h0
    · exact h0
  case keySwitchMoved =>
    exact event_held e (.of_tables rfl)
  case transceiverReady => exact event_held e (.of_kept (Work.ready_kept (kept_work s) _))
  case trainingTimeout => exact event_held e (.of_kept (Work.trainingFails_kept (kept_work s) _))
  case quietTimerExpiry => exact event_held e (.of_kept (Work.quietExpires_kept (kept_work s) _))
  case beaconTimerExpiry => exact event_held e (.of_kept (Work.beaconExpires_kept (kept_work s) _))
  case sendCompletion => exact event_held e (.of_kept (Work.sendCompletes_kept (kept_work s) _))
  case sendFailure => exact event_held e (.of_kept (Work.sendFails_kept (kept_work s) _))
  case windowClose => exact event_held e (.of_kept (Work.closeWindow_kept (kept_work s) _))
  case inboundBadCheck => exact event_held e (.of_kept (Work.badFrame_kept (kept_work s) _))
  case inboundUndecodable => exact arrival_held e fun _ _ _ h => h
  case access =>
    refine arrival_held e fun c i w h => ?_
    repeat' split
    · exact Work.joinAccess_kept h _ _
    · exact h
    · exact h
  case affiliate ch n id co =>
    unfold execAffiliate at e
    exact arrival_held e fun _ _ _ h => Work.affiliate_kept h _ _ _ (Nat.le_of_lt_succ n.isLt)
  case alarm => exact arrival_held e fun _ _ _ h => Work.takeAlarm_kept h _ _ _ _ _
  case ack =>
    refine arrival_held e fun c i w h => ?_
    repeat' split
    · exact Work.acknowledge_kept h _ _
    · exact h
    · exact h
  case checkIn => exact granted_held e fun _ _ _ h => Work.takeCheckIn_kept h _ _
  case orderReply => exact granted_held e fun _ _ _ h => Work.takeReply_kept h _ _ _ _
  case readback => exact granted_held e fun _ _ _ h => Work.takeReadback_kept h _ _ _
  case switchDone => exact granted_held e fun _ _ _ h => Work.takeSwitchDone_kept h _ _
  case releaseAsk => exact granted_held e fun _ _ _ h => Work.takeReleaseAsk_kept h _ _
  case depart =>
    refine granted_held e fun c i w h => ?_
    split
    · exact Work.absent_kept h _ _
    · exact h
  case secondTick =>
    refine event_held e ?_
    unfold Site.tick Work.modSite State.work Work.start
    simp only []
    split
    · exact .of_tables rfl
    · exact .of_tables rfl
  case hostSilenceExpiry =>
    refine event_held e ?_
    split
    · exact .of_tables rfl
    · exact .refl _
  case holdExpiry => exact event_held e (.of_kept (Work.holdExpires_kept (kept_work s) _))
  case promptDue => exact event_held e (.of_kept (Work.promptExpires_kept (kept_work s) _))
  case deadlineExpiry => exact event_held e (.of_kept (Work.deadlineExpires_kept (kept_work s) _))
  case graceExpiry => exact event_held e (.of_kept (Work.graceExpires_kept (kept_work s) _))
  case escalationExpiry => exact event_held e (.of_kept (Work.escalationExpires_kept (kept_work s) _))
  case stopNoticeDrop => exact event_held e (.of_kept (Work.noticeExpires_kept (kept_work s) _))
  case readbackTimeout => exact event_held e (.of_kept (Work.readbackExpires_kept (kept_work s) _))
  case powerLoss =>
    unfold execPowerLoss at e
    split at e
    · cases e
      unfold Site.cut
      exact .of_tables rfl
    · cases e; exact .refl _

end Sys2Proof.Machine
end

