-- ==== Sys2Proof/Laws/Layouts.lean ====
section
/-! SUPPORT. Fields written and read back: bytes, counted lists, and the bits of a byte. -/

set_option Elab.async false

namespace Sys2Proof.Machine

@[simp] theorem at1_zero (x : Byte) (l : List Byte) : at1 (x :: l) 0 = x := rfl
@[simp] theorem at1_succ (x : Byte) (l : List Byte) (i : Nat) : at1 (x :: l) (i + 1) = at1 l i := rfl
theorem at2_succ (x : Byte) (l : List Byte) (i : Nat) : at2 (x :: l) (i + 1) = at2 l i := rfl
theorem at4_succ (x : Byte) (l : List Byte) (i : Nat) : at4 (x :: l) (i + 1) = at4 l i := rfl

theorem half_join (w : Half) : w.extractLsb' 8 8 ++ w.extractLsb' 0 8 = w := by
  ext i hi
  simp only [BitVec.getElem_append, BitVec.getElem_extractLsb']
  split
  · simp [BitVec.getLsbD_eq_getElem hi]
  · have : 8 + (i - 8) = i := by omega
    simp [this, BitVec.getLsbD_eq_getElem hi]

theorem word_join (w : Word) :
    (w.extractLsb' 24 8 ++ w.extractLsb' 16 8) ++ (w.extractLsb' 8 8 ++ w.extractLsb' 0 8) = w := by
  ext i hi
  simp only [BitVec.getElem_append, BitVec.getElem_extractLsb']
  split
  · split
    · simp [BitVec.getLsbD_eq_getElem hi]
    · have : 8 + (i - 8) = i := by omega
      simp [this, BitVec.getLsbD_eq_getElem hi]
  · split
    · have : 16 + (i - 16) = i := by omega
      simp [this, BitVec.getLsbD_eq_getElem hi]
    · have : 24 + (i - 16 - 8) = i := by omega
      simp [this, BitVec.getLsbD_eq_getElem hi]

/-- A field of two bytes reads back. -/
@[simp] theorem at2_bytes2 (w : Half) (l : List Byte) : at2 (bytes2 w ++ l) 0 = w := half_join w
@[simp] theorem at2_bytes2_end (w : Half) : at2 (bytes2 w) 0 = w := half_join w

/-- A field of four bytes reads back. -/
@[simp] theorem at4_bytes4 (w : Word) (l : List Byte) : at4 (bytes4 w ++ l) 0 = w := word_join w
@[simp] theorem at4_bytes4_end (w : Word) : at4 (bytes4 w) 0 = w := word_join w

/-- Reading past a field of two bytes. -/
@[simp] theorem at1_skip2 (w : Half) (l : List Byte) (i : Nat) : at1 (bytes2 w ++ l) (i + 2) = at1 l i := rfl
@[simp] theorem at2_skip2 (w : Half) (l : List Byte) (i : Nat) : at2 (bytes2 w ++ l) (i + 2) = at2 l i := rfl
@[simp] theorem at4_skip2 (w : Half) (l : List Byte) (i : Nat) : at4 (bytes2 w ++ l) (i + 2) = at4 l i := rfl

/-- Reading past a field of four bytes. -/
@[simp] theorem at1_skip4 (w : Word) (l : List Byte) (i : Nat) : at1 (bytes4 w ++ l) (i + 4) = at1 l i := rfl
@[simp] theorem at2_skip4 (w : Word) (l : List Byte) (i : Nat) : at2 (bytes4 w ++ l) (i + 4) = at2 l i := rfl

/-- Counted lists read back. -/
theorem wordsAt_flatMap (l : List Word) : wordsAt l.length (l.flatMap bytes4) = l := by
  induction l with
  | nil => rfl
  | cons w l ih =>
    rw [List.length_cons, List.flatMap_cons, wordsAt, at4_bytes4]
    exact congrArg (w :: ·) ih

theorem halvesAt_flatMap (l : List Half) : halvesAt l.length (l.flatMap bytes2) = l := by
  induction l with
  | nil => rfl
  | cons w l ih =>
    rw [List.length_cons, List.flatMap_cons, halvesAt, at2_bytes2]
    exact congrArg (w :: ·) ih

theorem bytesAt_self (l : List Byte) : bytesAt l.length l = l := by
  induction l with
  | nil => rfl
  | cons w l ih => exact congrArg (w :: ·) ih

end Sys2Proof.Machine
end

