-- ==== Sys2Proof/Laws/Link.lean ====
section
/-! SUPPORT. The limits of the control link, kept by everything that queues, drops, sends or holds (R166, R169). -/

set_option Elab.async false

namespace Sys2Proof.Machine

/-- The reports and the places of a link are within their limits. -/
theorem Link.bounded_iff (l : Link) :
    l.bounded = true ↔ l.reports.length ≤ 64 ∧ routineCount l.reports ≤ 48 ∧ l.places.length ≤ 4 := by
  simp [Link.bounded, and_assoc]

theorem routineCount_append (p q : List Report) : routineCount (p ++ q) = routineCount p + routineCount q := by
  simp [routineCount]

theorem routineCount_cons (r : Report) (q : List Report) :
    routineCount (r :: q) = (if r.body.alarmClass then 0 else 1) + routineCount q := by
  unfold routineCount; cases h : r.body.alarmClass
  · simp [h, Nat.add_comm]
  · simp [h]

/-- Two reports of one source are of one class. -/
theorem ReportBody.sameSource_class {a b : ReportBody} (h : a.sameSource b = true) : a.alarmClass = b.alarmClass := by
  cases a <;> cases b <;> first | rfl | (simp [ReportBody.sameSource] at h)

theorem replaceSource_counts (r : Report) (q : List Report) :
    (replaceSource r q).length = q.length ∧ routineCount (replaceSource r q) = routineCount q := by
  induction q with
  | nil => exact ⟨rfl, rfl⟩
  | cons x q ih =>
    unfold replaceSource
    split
    · rename_i h
      refine ⟨rfl, ?_⟩
      rw [routineCount_cons, routineCount_cons, ReportBody.sameSource_class h]
    · rw [routineCount_cons, routineCount_cons, ih.2]
      exact ⟨by simp [ih.1], rfl⟩

/-- With a routine report in the queue, the removal of the newest one takes one report away. -/
theorem dropNewestRoutine_counts (q : List Report) (h : routineCount q ≠ 0) :
    (dropNewestRoutine q).length + 1 = q.length ∧ routineCount (dropNewestRoutine q) + 1 = routineCount q := by
  have e : ∀ l : List Report, routineCount l ≠ 0 →
      (l.eraseP fun r => !r.body.alarmClass).length + 1 = l.length
        ∧ routineCount (l.eraseP fun r => !r.body.alarmClass) + 1 = routineCount l := by
    intro l
    induction l with
    | nil => intro k; exact absurd rfl k
    | cons x l ih =>
      intro k
      rw [routineCount_cons] at k
      cases c : x.body.alarmClass
      · rw [List.eraseP_cons_of_pos (by simp [c]), routineCount_cons, c]
        exact ⟨rfl, by simp [Nat.add_comm]⟩
      · rw [List.eraseP_cons_of_neg (by simp [c]), routineCount_cons, routineCount_cons, c]
        rw [c] at k
        obtain ⟨h1, h2⟩ := ih (by simpa using k)
        exact ⟨by simp [h1], by simp [← h2]⟩
  have r : ∀ l : List Report, routineCount l.reverse = routineCount l := by
    intro l; simp [routineCount, List.filter_reverse]
  obtain ⟨h1, h2⟩ := e q.reverse (by rwa [r])
  unfold dropNewestRoutine
  rw [r, List.length_reverse, h1, h2, r]
  exact ⟨List.length_reverse, rfl⟩

theorem Link.queueReport_bounded {l : Link} (h : l.bounded = true) (r : Report) : (l.queueReport r).bounded = true := by
  rw [bounded_iff] at h ⊢
  obtain ⟨h1, h2, h3⟩ := h
  unfold queueReport
  split
  · exact ⟨by rw [(replaceSource_counts _ _).1]; exact h1, by rw [(replaceSource_counts _ _).2]; exact h2, h3⟩
  · split
    · rename_i c
      split
      · refine ⟨by simp; omega, ?_, h3⟩
        rw [routineCount_append, routineCount_cons, c]; exact h2
      · split
        · rename_i k
          obtain ⟨d1, d2⟩ := dropNewestRoutine_counts _ k
          refine ⟨by simp; omega, ?_, h3⟩
          rw [routineCount_append, routineCount_cons, c]
          simp [routineCount] at d2 h2 ⊢; omega
        · exact ⟨h1, h2, h3⟩
    · split
      · rename_i c k
        refine ⟨by simp; omega, ?_, h3⟩
        rw [routineCount_append, routineCount_cons]
        have : routineCount [] = 0 := rfl
        simp only [c, Bool.false_eq_true, if_false, this]; omega
      · exact ⟨h1, h2, h3⟩

theorem Link.chooseFrame_bounded {l : Link} (h : l.bounded = true) : l.chooseFrame.bounded = true := by
  rw [bounded_iff] at h ⊢
  obtain ⟨h1, h2, h3⟩ := h
  unfold chooseFrame
  repeat' split
  · exact ⟨h1, h2, h3⟩
  · exact ⟨h1, h2, h3⟩
  · rename_i r q e
    rw [e, routineCount_cons] at h2
    rw [e] at h1
    exact ⟨Nat.le_of_succ_le h1, by simp only; omega, h3⟩
  · exact ⟨h1, h2, h3⟩

theorem Link.offerOne_bounded {l : Link} (h : l.bounded = true) (s : Site) (b : ReportBody) :
    (Link.offerOne s l b).bounded = true := by
  unfold Link.offerOne; split
  · exact h
  · exact chooseFrame_bounded (queueReport_bounded h _)

theorem Link.offerAll_bounded {l : Link} (h : l.bounded = true) (s : Site) (bs : List ReportBody) :
    (l.offerAll s bs).bounded = true := by
  induction bs generalizing l with
  | nil => exact h
  | cons b bs ih => exact ih (offerOne_bounded h s b)

theorem State.conclude_bounded (s : State) {l : Link} (h : l.bounded = true) (w : Work) :
    (s.conclude l w).link.bounded = true := Link.chooseFrame_bounded (Link.offerAll_bounded h _ _)

theorem Link.discarded_bounded {l : Link} (h : l.bounded = true) (s : Site) (c : LinkCounters) :
    (l.discarded s c).bounded = true := offerOne_bounded (l := { l with receiver := .hunting, counters := c }) h s _

theorem Link.arrived_bounded {l : Link} (h : l.bounded = true) (s : Site) : (l.arrived s).bounded = true := by
  unfold Link.arrived; simp only []; split
  · exact h
  · exact offerOne_bounded (l := { l with receiver := .hunting }) h s _

theorem Link.hold_bounded {l : Link} (h : l.bounded = true) (k : l.places.length < 4) (x : Hdr) (kind : Byte) (t : Taking) :
    (l.hold x kind t).bounded = true := by
  rw [bounded_iff] at h ⊢
  exact ⟨h.1, h.2.1, by simp; omega⟩

/-- An answered request keeps the limits: it found a free place. -/
theorem State.answered_bounded {s : State} (k : s.link.bounded = true) (hl : s.link.places.length < 4) (h : Hdr)
    (kind : Byte) (t : Taking) : (s.answered h kind t).link.bounded = true :=
  Link.chooseFrame_bounded (Link.hold_bounded (conclude_bounded s (Link.arrived_bounded k _) _) (by simpa using hl) _ _ _)

/-- A link with its places changed one for one. -/
theorem Link.places_bounded {l : Link} (h : l.bounded = true) (p : List Place) (k : p.length ≤ l.places.length) :
    ({ l with places := p } : Link).bounded = true := by
  rw [bounded_iff] at h ⊢
  exact ⟨h.1, h.2.1, Nat.le_trans k h.2.2⟩

theorem request_bounded {s t : State} (k : s.link.bounded = true) {h : Hdr} {kind : Byte} {fits : Bool}
    {act : Link → Work → Taking} (e : request h kind fits act s = .next t) : t.link.bounded = true := by
  have ha := Link.arrived_bounded k s.site
  rcases request_cases e with ⟨-, rfl⟩ | ⟨-, ⟨-, rfl⟩ | ⟨-, ⟨-, rfl⟩ | ⟨-, ⟨-, rfl⟩ | ⟨hl, ⟨-, rfl⟩ | ⟨-, rfl⟩⟩⟩⟩⟩
  · exact k
  · exact State.conclude_bounded _ ha _
  · exact State.conclude_bounded _ (Link.discarded_bounded ha _ _) _
  · exact State.conclude_bounded _ (Link.discarded_bounded ha _ _) _
  · exact State.answered_bounded k hl _ _ _
  · exact State.answered_bounded k hl _ _ _

theorem event_bounded {s t : State} (k : s.link.bounded = true) {f : Work → Work} (e : event f s = .next t) :
    t.link.bounded = true := by
  unfold event at e
  split at e
  · cases e; exact State.conclude_bounded _ k _
  · cases e; exact k

theorem arrival_bounded {s t : State} (k : s.link.bounded = true) {a : Arrival} {act : Chan → Option Nat → Work → Work}
    (e : arrival a act s = .next t) : t.link.bounded = true := event_bounded k e

theorem granted_bounded {s t : State} (k : s.link.bounded = true) {a : Arrival} {act : Chan → Nat → Work → Work}
    (e : granted a act s = .next t) : t.link.bounded = true := arrival_bounded k e

theorem discard_bounded {s t : State} (k : s.link.bounded = true) {f : LinkCounters → LinkCounters}
    (e : discard f s = .next t) : t.link.bounded = true := by
  unfold discard at e
  split at e
  · cases e; exact State.conclude_bounded _ (Link.discarded_bounded k _ _) _
  · cases e; exact k

/-- A part freshly booted has an empty queue but for the START report on its line (R177). -/
theorem State.boot_bounded (s : State) (site : Site) (p a b : Bool) : (s.boot site p a b).link.bounded = true :=
  Link.offerOne_bounded ((Link.bounded_iff _).2 ⟨Nat.zero_le _, Nat.zero_le _, Nat.zero_le _⟩) _ _

end Sys2Proof.Machine
end

