-- ==== Sys2Proof/Laws/Requests.lean ====
section
/-! SUPPORT. What every request has in common, said once: its judgement, its required length, that a refusal changes nothing, and
that host silence follows the arrival whatever the request does (R130, R166). -/

set_option Elab.async false

namespace Sys2Proof.Machine

/-- A refusal leaves the work as it began, with an empty reply body. -/
def RefusesWhole (act : Link → Work → Taking) : Prop :=
  ∀ l w st body, (act l w).wait = .ready st body → st ≠ .ok → (act l w).work = w ∧ body = .empty

/-- Host silence, attendance and the last arrival as an arrival at count `n` leaves them (R130). -/
def Site.timed (s : Site) (n : Nat) : Prop :=
  s.count = n ∧ s.attended = true ∧ s.lastArrival = some n
    ∧ s.silence = (if s.silenceLimit = 0 then none else some (n + s.silenceLimit))

theorem Site.arrived_timed (s : Site) : s.arrived.timed s.count := ⟨rfl, rfl, rfl, rfl⟩

theorem Site.timed_of_kept {a b : Site} (h : Kept a b) {n : Nat} (k : a.timed n) : b.timed n := by
  have f := h.fixed
  obtain ⟨k1, k2, k3, k4⟩ := k
  refine ⟨(congrArg (fun q : Site => q.count) f :).trans k1, (congrArg (fun q : Site => q.attended) f :).trans k2,
    (congrArg (fun q : Site => q.lastArrival) f :).trans k3, ?_⟩
  have e1 : b.silence = a.silence := (congrArg (fun q : Site => q.silence) f :)
  have e2 : b.silenceLimit = a.silenceLimit := (congrArg (fun q : Site => q.silenceLimit) f :)
  rw [e1, e2]; exact k4

/-- A taking keeps host silence as the arrival left it, or sets it anew at the limit it takes (R130, R173). -/
def KeepsTime (act : Link → Work → Taking) : Prop := ∀ l w n, w.site.timed n → (act l w).work.site.timed n

theorem KeepsTime.of_kept {act : Link → Work → Taking} (h : ∀ l w, Kept w.site (act l w).work.site) : KeepsTime act :=
  fun l w _ k => Site.timed_of_kept (h l w) k

/-- What holds of a request: `b` is its body as a frame carries it. -/
structure IsRequest (c : Instr) (k : Byte) (h : Hdr) (b : List Byte) (fits : Bool) (act : Link → Work → Taking) : Prop where
  runs : ∀ s, exec c s = request h k fits act s
  length : c.wellFormed = true → fits = (h.len.toNat == b.length)
  refuses : RefusesWhole act
  time : KeepsTime act

/-- One answer of an owner, on the work it was given: a refusal, or anything at all. -/
def Taking.whole (t : Taking) (w : Work) : Prop := ∀ st body, t.wait = .ready st body → st ≠ .ok → t.work = w ∧ body = .empty

theorem whole_refused {w : Work} {st : Status} : (w.refused st).whole w := fun _ _ e _ => by
  simp only [Work.refused, Wait.ready.injEq] at e; exact ⟨rfl, e.2.symm⟩
theorem whole_ok {w v : Work} {b : ReplyBody} {x : Bool} : Taking.whole { work := v, wait := .ready .ok b, clearLost := x } w :=
  fun _ _ e k => by simp only [Wait.ready.injEq] at e; exact absurd e.1.symm k
theorem whole_taken {w v : Work} {b : ReplyBody} : (v.taken b).whole w := whole_ok
theorem whole_write {w v : Work} {x : Bool} : Taking.whole { work := v, wait := .storeWrite, clearLost := x } w :=
  fun _ _ e => by simp at e
theorem whole_mode {w v : Work} {x : Bool} : Taking.whole { work := v, wait := .modeWrite, clearLost := x } w :=
  fun _ _ e => by simp at e
theorem whole_pending {w v : Work} {x : Bool} : Taking.whole { work := v, wait := .modePending, clearLost := x } w :=
  fun _ _ e => by simp at e

theorem refuses_loadTerminal (id : Word) (kind : Byte) :
    RefusesWhole (fun _ w => takeLoadTerminal id kind w) := by
  intro l w; show Taking.whole _ w
  unfold takeLoadTerminal
  repeat' first
    | exact whole_refused | exact whole_taken | exact whole_ok | exact whole_write | exact whole_mode | exact whole_pending
    | split | (beta_reduce; split) | (dsimp only; split) | (beta_reduce; unfold Work.withWatch; split)
theorem refuses_dropTerminal (id : Word) :
    RefusesWhole (fun _ w => takeDropTerminal id w) := by
  intro l w; show Taking.whole _ w
  unfold takeDropTerminal
  repeat' first
    | exact whole_refused | exact whole_taken | exact whole_ok | exact whole_write | exact whole_mode | exact whole_pending
    | split | (beta_reduce; split) | (dsimp only; split) | (beta_reduce; unfold Work.withWatch; split)
theorem refuses_getTerminal (selector : Byte) (value : Word) :
    RefusesWhole (fun _ w => takeGetTerminal selector value w) := by
  intro l w; show Taking.whole _ w
  unfold takeGetTerminal
  try unfold Work.describeTerminal
  repeat' first
    | exact whole_refused | exact whole_taken | exact whole_ok | exact whole_write | exact whole_mode | exact whole_pending
    | split | (beta_reduce; split) | (dsimp only; split) | (beta_reduce; unfold Work.withWatch; split)
theorem refuses_loadCrew (crew : Half) (vehicle : Word) (key : Half) (members : List Word) :
    RefusesWhole (fun _ w => takeLoadCrew crew vehicle key members w) := by
  intro l w; show Taking.whole _ w
  unfold takeLoadCrew
  repeat' first
    | exact whole_refused | exact whole_taken | exact whole_ok | exact whole_write | exact whole_mode | exact whole_pending
    | split | (beta_reduce; split) | (dsimp only; split) | (beta_reduce; unfold Work.withWatch; split)
theorem refuses_dropCrew (crew : Half) :
    RefusesWhole (fun _ w => takeDropCrew crew w) := by
  intro l w; show Taking.whole _ w
  unfold takeDropCrew
  repeat' first
    | exact whole_refused | exact whole_taken | exact whole_ok | exact whole_write | exact whole_mode | exact whole_pending
    | split | (beta_reduce; split) | (dsimp only; split) | (beta_reduce; unfold Work.withWatch; split)
theorem refuses_getCrew (crew : Half) :
    RefusesWhole (fun _ w => takeGetCrew crew w) := by
  intro l w; show Taking.whole _ w
  unfold takeGetCrew
  repeat' first
    | exact whole_refused | exact whole_taken | exact whole_ok | exact whole_write | exact whole_mode | exact whole_pending
    | split | (beta_reduce; split) | (dsimp only; split) | (beta_reduce; unfold Work.withWatch; split)
theorem refuses_bringUp (channel : Byte) :
    RefusesWhole (fun _ w => takeBringUp channel w) := by
  intro l w; show Taking.whole _ w
  unfold takeBringUp
  try unfold Work.bringUp
  repeat' first
    | exact whole_refused | exact whole_taken | exact whole_ok | exact whole_write | exact whole_mode | exact whole_pending
    | split | (beta_reduce; split) | (dsimp only; split) | (beta_reduce; unfold Work.withWatch; split)
theorem refuses_quiet (channel : Byte) :
    RefusesWhole (fun _ w => takeQuiet channel w) := by
  intro l w; show Taking.whole _ w
  unfold takeQuiet
  repeat' first
    | exact whole_refused | exact whole_taken | exact whole_ok | exact whole_write | exact whole_mode | exact whole_pending
    | split | (beta_reduce; split) | (dsimp only; split) | (beta_reduce; unfold Work.withWatch; split)
theorem refuses_channelReset (channel : Byte) :
    RefusesWhole (fun _ w => takeChannelReset channel w) := by
  intro l w; show Taking.whole _ w
  unfold takeChannelReset
  repeat' first
    | exact whole_refused | exact whole_taken | exact whole_ok | exact whole_write | exact whole_mode | exact whole_pending
    | split | (beta_reduce; split) | (dsimp only; split) | (beta_reduce; unfold Work.withWatch; split)
theorem refuses_setChannel (channel : Byte) (f : ChannelFields) :
    RefusesWhole (fun _ w => takeSetChannel channel f w) := by
  intro l w; show Taking.whole _ w
  unfold takeSetChannel
  repeat' first
    | exact whole_refused | exact whole_taken | exact whole_ok | exact whole_write | exact whole_mode | exact whole_pending
    | split | (beta_reduce; split) | (dsimp only; split) | (beta_reduce; unfold Work.withWatch; split)
theorem refuses_takeStats (channel : Byte) (clear : Byte) :
    RefusesWhole (fun _ w => takeTakeStats channel clear w) := by
  intro l w; show Taking.whole _ w
  unfold takeTakeStats
  repeat' first
    | exact whole_refused | exact whole_taken | exact whole_ok | exact whole_write | exact whole_mode | exact whole_pending
    | split | (beta_reduce; split) | (dsimp only; split) | (beta_reduce; unfold Work.withWatch; split)
theorem refuses_getChannel (channel : Byte) :
    RefusesWhole (fun _ w => takeGetChannel channel w) := by
  intro l w; show Taking.whole _ w
  unfold takeGetChannel
  repeat' first
    | exact whole_refused | exact whole_taken | exact whole_ok | exact whole_write | exact whole_mode | exact whole_pending
    | split | (beta_reduce; split) | (dsimp only; split) | (beta_reduce; unfold Work.withWatch; split)
theorem refuses_sendOrder (number : Word) (crew : Half) (priority : Byte) (hold : Byte) (count : Byte) (content : List Byte) :
    RefusesWhole (fun _ w => takeSendOrder number crew priority hold count content w) := by
  intro l w; show Taking.whole _ w
  unfold takeSendOrder
  repeat' first
    | exact whole_refused | exact whole_taken | exact whole_ok | exact whole_write | exact whole_mode | exact whole_pending
    | split | (beta_reduce; split) | (dsimp only; split) | (beta_reduce; unfold Work.withWatch; split)
theorem refuses_cancelOrder (number : Word) :
    RefusesWhole (fun _ w => takeCancelOrder number w) := by
  intro l w; show Taking.whole _ w
  unfold takeCancelOrder
  try unfold Work.cancelOrder
  repeat' first
    | exact whole_refused | exact whole_taken | exact whole_ok | exact whole_write | exact whole_mode | exact whole_pending
    | split | (beta_reduce; split) | (dsimp only; split) | (beta_reduce; unfold Work.withWatch; split)
theorem refuses_closeOrder (number : Word) :
    RefusesWhole (fun _ w => takeCloseOrder number w) := by
  intro l w; show Taking.whole _ w
  unfold takeCloseOrder
  repeat' first
    | exact whole_refused | exact whole_taken | exact whole_ok | exact whole_write | exact whole_mode | exact whole_pending
    | split | (beta_reduce; split) | (dsimp only; split) | (beta_reduce; unfold Work.withWatch; split)
theorem refuses_getOrder (number : Word) :
    RefusesWhole (fun _ w => takeGetOrder number w) := by
  intro l w; show Taking.whole _ w
  unfold takeGetOrder
  repeat' first
    | exact whole_refused | exact whole_taken | exact whole_ok | exact whole_write | exact whole_mode | exact whole_pending
    | split | (beta_reduce; split) | (dsimp only; split) | (beta_reduce; unfold Work.withWatch; split)
theorem refuses_startWatch (id : Word) (interval : Byte) (missLimit : Byte) (assist : Byte) :
    RefusesWhole (fun _ w => takeStartWatch id interval missLimit assist w) := by
  intro l w; show Taking.whole _ w
  unfold takeStartWatch
  repeat' first
    | exact whole_refused | exact whole_taken | exact whole_ok | exact whole_write | exact whole_mode | exact whole_pending
    | split | (beta_reduce; split) | (dsimp only; split) | (beta_reduce; unfold Work.withWatch; split)
theorem refuses_stopWatch (id : Word) :
    RefusesWhole (fun _ w => takeStopWatch id w) := by
  intro l w; show Taking.whole _ w
  unfold takeStopWatch
  try unfold Work.withWatch
  repeat' first
    | exact whole_refused | exact whole_taken | exact whole_ok | exact whole_write | exact whole_mode | exact whole_pending
    | split | (beta_reduce; split) | (dsimp only; split) | (beta_reduce; unfold Work.withWatch; split)
theorem refuses_ackAlarm (id : Word) :
    RefusesWhole (fun _ w => takeAckAlarm id w) := by
  intro l w; show Taking.whole _ w
  unfold takeAckAlarm
  try unfold Work.withWatch
  repeat' first
    | exact whole_refused | exact whole_taken | exact whole_ok | exact whole_write | exact whole_mode | exact whole_pending
    | split | (beta_reduce; split) | (dsimp only; split) | (beta_reduce; unfold Work.withWatch; split)
theorem refuses_resolveAlarm (id : Word) (action : Byte) :
    RefusesWhole (fun _ w => takeResolveAlarm id action w) := by
  intro l w; show Taking.whole _ w
  unfold takeResolveAlarm
  try unfold Work.withWatch
  repeat' first
    | exact whole_refused | exact whole_taken | exact whole_ok | exact whole_write | exact whole_mode | exact whole_pending
    | split | (beta_reduce; split) | (dsimp only; split) | (beta_reduce; unfold Work.withWatch; split)
theorem refuses_getWatch (id : Word) :
    RefusesWhole (fun _ w => takeGetWatch id w) := by
  intro l w; show Taking.whole _ w
  unfold takeGetWatch
  repeat' first
    | exact whole_refused | exact whole_taken | exact whole_ok | exact whole_write | exact whole_mode | exact whole_pending
    | split | (beta_reduce; split) | (dsimp only; split) | (beta_reduce; unfold Work.withWatch; split)
theorem refuses_defineSection (number : Byte) (action : Byte) :
    RefusesWhole (fun _ w => takeDefineSection number action w) := by
  intro l w; show Taking.whole _ w
  unfold takeDefineSection
  repeat' first
    | exact whole_refused | exact whole_taken | exact whole_ok | exact whole_write | exact whole_mode | exact whole_pending
    | split | (beta_reduce; split) | (dsimp only; split) | (beta_reduce; unfold Work.withWatch; split)
theorem refuses_defineSwitch (number : Byte) (action : Byte) (sideA : Byte) (sideB : Byte) :
    RefusesWhole (fun _ w => takeDefineSwitch number action sideA sideB w) := by
  intro l w; show Taking.whole _ w
  unfold takeDefineSwitch
  try unfold Work.defineSwitch
  try unfold Work.removeSwitch
  repeat' first
    | exact whole_refused | exact whole_taken | exact whole_ok | exact whole_write | exact whole_mode | exact whole_pending
    | split | (beta_reduce; split) | (dsimp only; split) | (beta_reduce; unfold Work.withWatch; split)
theorem refuses_setSwitchPosition (number : Byte) (position : Byte) :
    RefusesWhole (fun _ w => takeSetSwitchPosition number position w) := by
  intro l w; show Taking.whole _ w
  unfold takeSetSwitchPosition
  repeat' first
    | exact whole_refused | exact whole_taken | exact whole_ok | exact whole_write | exact whole_mode | exact whole_pending
    | split | (beta_reduce; split) | (dsimp only; split) | (beta_reduce; unfold Work.withWatch; split)
theorem refuses_requestPermit (number : Half) (kind : Byte) (crew : Half) (items : List Byte) :
    RefusesWhole (fun _ w => takeRequestPermit number kind crew items w) := by
  intro l w; show Taking.whole _ w
  unfold takeRequestPermit
  try unfold Work.requestPermit
  repeat' first
    | exact whole_refused | exact whole_taken | exact whole_ok | exact whole_write | exact whole_mode | exact whole_pending
    | split | (beta_reduce; split) | (dsimp only; split) | (beta_reduce; unfold Work.withWatch; split)
theorem refuses_issuePermit (number : Half) :
    RefusesWhole (fun _ w => w.withPermit number fun k p => w.checkIssue k p) := by
  intro l w; show Taking.whole _ w
  unfold Work.withPermit
  try unfold Work.checkIssue
  repeat' first
    | exact whole_refused | exact whole_taken | exact whole_ok | exact whole_write | exact whole_mode | exact whole_pending
    | split | (beta_reduce; split) | (dsimp only; split) | (beta_reduce; unfold Work.withWatch; split)
theorem refuses_withdrawPermit (number : Half) :
    RefusesWhole (fun _ w => w.withPermit number fun k p => w.withdrawPermit k p) := by
  intro l w; show Taking.whole _ w
  unfold Work.withPermit
  try unfold Work.withdrawPermit
  repeat' first
    | exact whole_refused | exact whole_taken | exact whole_ok | exact whole_write | exact whole_mode | exact whole_pending
    | split | (beta_reduce; split) | (dsimp only; split) | (beta_reduce; unfold Work.withWatch; split)
theorem refuses_confirmRelease (number : Half) :
    RefusesWhole (fun _ w => w.withPermit number fun k p => w.confirmRelease k p) := by
  intro l w; show Taking.whole _ w
  unfold Work.withPermit
  try unfold Work.confirmRelease
  repeat' first
    | exact whole_refused | exact whole_taken | exact whole_ok | exact whole_write | exact whole_mode | exact whole_pending
    | split | (beta_reduce; split) | (dsimp only; split) | (beta_reduce; unfold Work.withWatch; split)
theorem refuses_rejectRelease (number : Half) :
    RefusesWhole (fun _ w => w.withPermit number fun k p => w.rejectRelease k p) := by
  intro l w; show Taking.whole _ w
  unfold Work.withPermit
  try unfold Work.rejectRelease
  repeat' first
    | exact whole_refused | exact whole_taken | exact whole_ok | exact whole_write | exact whole_mode | exact whole_pending
    | split | (beta_reduce; split) | (dsimp only; split) | (beta_reduce; unfold Work.withWatch; split)
theorem refuses_verbalRelease (number : Half) (code : Half) :
    RefusesWhole (fun _ w =>
    if code.toNat ≤ 9999 then w.withPermit number fun k p => w.verbalRelease k p code.toNat
    else w.refused .badValue) := by
  intro l w; show Taking.whole _ w
  unfold Work.withPermit
  try unfold Work.verbalRelease
  repeat' first
    | exact whole_refused | exact whole_taken | exact whole_ok | exact whole_write | exact whole_mode | exact whole_pending
    | split | (beta_reduce; split) | (dsimp only; split) | (beta_reduce; unfold Work.withWatch; split)
theorem refuses_restorePermit (number : Half) (kind : Byte) (crew : Half) (items : List Byte) :
    RefusesWhole (fun _ w => takeRestorePermit number kind crew items w) := by
  intro l w; show Taking.whole _ w
  unfold takeRestorePermit
  try unfold Work.restorePermit
  repeat' first
    | exact whole_refused | exact whole_taken | exact whole_ok | exact whole_write | exact whole_mode | exact whole_pending
    | split | (beta_reduce; split) | (dsimp only; split) | (beta_reduce; unfold Work.withWatch; split)
theorem refuses_getSection (number : Byte) :
    RefusesWhole (fun _ w => takeGetSection number w) := by
  intro l w; show Taking.whole _ w
  unfold takeGetSection
  repeat' first
    | exact whole_refused | exact whole_taken | exact whole_ok | exact whole_write | exact whole_mode | exact whole_pending
    | split | (beta_reduce; split) | (dsimp only; split) | (beta_reduce; unfold Work.withWatch; split)
theorem refuses_getSwitch (number : Byte) :
    RefusesWhole (fun _ w => takeGetSwitch number w) := by
  intro l w; show Taking.whole _ w
  unfold takeGetSwitch
  repeat' first
    | exact whole_refused | exact whole_taken | exact whole_ok | exact whole_write | exact whole_mode | exact whole_pending
    | split | (beta_reduce; split) | (dsimp only; split) | (beta_reduce; unfold Work.withWatch; split)
theorem refuses_getPermit (number : Half) :
    RefusesWhole (fun _ w => takeGetPermit number w) := by
  intro l w; show Taking.whole _ w
  unfold takeGetPermit
  repeat' first
    | exact whole_refused | exact whole_taken | exact whole_ok | exact whole_write | exact whole_mode | exact whole_pending
    | split | (beta_reduce; split) | (dsimp only; split) | (beta_reduce; unfold Work.withWatch; split)
theorem refuses_setAuthList (crews : List Half) :
    RefusesWhole (fun _ w => takeSetAuthList crews w) := by
  intro l w; show Taking.whole _ w
  unfold takeSetAuthList
  repeat' first
    | exact whole_refused | exact whole_taken | exact whole_ok | exact whole_write | exact whole_mode | exact whole_pending
    | split | (beta_reduce; split) | (dsimp only; split) | (beta_reduce; unfold Work.withWatch; split)
theorem refuses_setMode (mode : Byte) :
    RefusesWhole (fun _ w => takeSetMode mode w) := by
  intro l w; show Taking.whole _ w
  unfold takeSetMode
  try unfold Work.writeMode
  repeat' first
    | exact whole_refused | exact whole_taken | exact whole_ok | exact whole_write | exact whole_mode | exact whole_pending
    | split | (beta_reduce; split) | (dsimp only; split) | (beta_reduce; unfold Work.withWatch; split)
theorem refuses_getStatus :
    RefusesWhole (fun l w => { w.taken (.status (w.site.status l)) with clearLost := true }) := by
  intro l w; show Taking.whole _ w
  repeat' first
    | exact whole_refused | exact whole_taken | exact whole_ok | exact whole_write | exact whole_mode | exact whole_pending
    | split | (beta_reduce; split) | (dsimp only; split) | (beta_reduce; unfold Work.withWatch; split)
theorem refuses_setSite (siteId : Half) (escalation : Half) (silence : Half) (mask : Byte) :
    RefusesWhole (fun _ w =>
    if 30 ≤ escalation.toNat ∧ escalation.toNat ≤ 300
        ∧ (silence.toNat = 0 ∨ 30 ≤ silence.toNat ∧ silence.toNat ≤ 900) then
      (w.modSite fun s => s.setSettings siteId.toNat escalation.toNat silence.toNat (maskOf mask)).taken .empty
    else w.refused .badValue) := by
  intro l w; show Taking.whole _ w
  repeat' first
    | exact whole_refused | exact whole_taken | exact whole_ok | exact whole_write | exact whole_mode | exact whole_pending
    | split | (beta_reduce; split) | (dsimp only; split) | (beta_reduce; unfold Work.withWatch; split)
theorem refuses_setClock (label : Word) :
    RefusesWhole (fun _ w => (w.modSite fun s => { s with label }).taken .empty) := by
  intro l w; show Taking.whole _ w
  repeat' first
    | exact whole_refused | exact whole_taken | exact whole_ok | exact whole_write | exact whole_mode | exact whole_pending
    | split | (beta_reduce; split) | (dsimp only; split) | (beta_reduce; unfold Work.withWatch; split)
theorem refuses_storeSettings :
    RefusesWhole (fun _ w =>
    if w.site.write.isSome then w.refused .busy
    else
      { work := w.modSite fun s => { s with write := some { modeOnly := false, image := s.current }, copy := s.current }
        wait := .storeWrite, clearLost := false }) := by
  intro l w; show Taking.whole _ w
  repeat' first
    | exact whole_refused | exact whole_taken | exact whole_ok | exact whole_write | exact whole_mode | exact whole_pending
    | split | (beta_reduce; split) | (dsimp only; split) | (beta_reduce; unfold Work.withWatch; split)
theorem refuses_restart :
    RefusesWhole (fun _ w => w.taken .empty) := by
  intro l w; show Taking.whole _ w
  repeat' first
    | exact whole_refused | exact whole_taken | exact whole_ok | exact whole_write | exact whole_mode | exact whole_pending
    | split | (beta_reduce; split) | (dsimp only; split) | (beta_reduce; unfold Work.withWatch; split)
theorem refuses_getAuth :
    RefusesWhole (fun _ w =>
    w.taken (.auth w.site.mode w.site.authList w.site.keyEnable w.site.modeWriting
      (if w.site.modePending then some w.site.mode else none)
      (Table.tally w.site.roster fun _ t => t.origin == .guest))) := by
  intro l w; show Taking.whole _ w
  repeat' first
    | exact whole_refused | exact whole_taken | exact whole_ok | exact whole_write | exact whole_mode | exact whole_pending
    | split | (beta_reduce; split) | (dsimp only; split) | (beta_reduce; unfold Work.withWatch; split)

/-- The length a counted list gives a body: the list numbers what its count byte says, so the check of the count is no more
than the length's. -/
theorem counted_length {n k a : Nat} {h : Hdr} (e : k = a) : (lengthIs h n && k == a) = (h.len.toNat == n) := by
  simp [lengthIs, e]

theorem length_flatMap_bytes4 (l : List Word) : (l.flatMap bytes4).length = 4 * l.length := by
  induction l with
  | nil => rfl
  | cons x l ih => rw [List.flatMap_cons, List.length_append, ih, List.length_cons]; simp [bytes4]; omega

theorem length_flatMap_bytes2 (l : List Half) : (l.flatMap bytes2).length = 2 * l.length := by
  induction l with
  | nil => rfl
  | cons x l ih => rw [List.flatMap_cons, List.length_append, ih, List.length_cons]; simp [bytes2]; omega

theorem time_setChannel (b : Byte) (f : ChannelFields) : KeepsTime (fun _ w => takeSetChannel b f w) := by
  intro l w n k
  show (takeSetChannel b f w).work.site.timed n
  unfold takeSetChannel
  repeat' split
  all_goals exact k

theorem time_setMode (m : Byte) : KeepsTime (fun _ w => takeSetMode m w) := by
  intro l w n k
  show (takeSetMode m w).work.site.timed n
  unfold takeSetMode
  split
  · exact k
  · split
    · rename_i m _ _
      have h1 : (w.revertIssuing.modSite fun s => { s with authList := [], mode := m }).site.timed n :=
        Site.timed_of_kept (Work.revertIssuing_kept (.refl _)) k
      have h2 : (w.changeMode m).site.timed n := by
        unfold Work.changeMode
        simp only []
        repeat' split
        all_goals first
          | exact h1
          | exact Site.timed_of_kept (Work.removeGuests_kept (.refl _)) h1
      unfold Work.writeMode
      split <;> exact h2
    · exact k

/-- The request `c`, once its body is known. -/
def Known (c : Instr) : Prop := ∀ k h b, requestBody c = some (k, h, b) → ∃ fits act, IsRequest c k h b fits act

theorem known_loadTerminal (h : Hdr) (id : Word) (kind : Byte) :
    Known (.loadTerminal h id kind) := by
  intro k' h' b' e
  simp only [requestBody, Option.some.injEq, Prod.mk.injEq] at e; obtain ⟨rfl, rfl, rfl⟩ := e
  exact ⟨(lengthIs h 5),
    (fun _ w => takeLoadTerminal id kind w),
    fun _ => rfl, fun _ => rfl,
      refuses_loadTerminal _ _, (.of_kept fun l w => takeLoadTerminal_kept (.refl _) _ _)⟩
theorem known_dropTerminal (h : Hdr) (id : Word) :
    Known (.dropTerminal h id) := by
  intro k' h' b' e
  simp only [requestBody, Option.some.injEq, Prod.mk.injEq] at e; obtain ⟨rfl, rfl, rfl⟩ := e
  exact ⟨(lengthIs h 4),
    (fun _ w => takeDropTerminal id w),
    fun _ => rfl, fun _ => rfl,
      refuses_dropTerminal _, (.of_kept fun l w => takeDropTerminal_kept (.refl _) _)⟩
theorem known_getTerminal (h : Hdr) (selector : Byte) (value : Word) :
    Known (.getTerminal h selector value) := by
  intro k' h' b' e
  simp only [requestBody, Option.some.injEq, Prod.mk.injEq] at e; obtain ⟨rfl, rfl, rfl⟩ := e
  exact ⟨(lengthIs h 5),
    (fun _ w => takeGetTerminal selector value w),
    fun _ => rfl, fun _ => rfl,
      refuses_getTerminal _ _, (.of_kept fun l w => by rw [takeGetTerminal_work]; exact .refl _)⟩
theorem known_loadCrew (h : Hdr) (crew : Half) (vehicle : Word) (key : Half) (count : Byte) (members : List Word) :
    Known (.loadCrew h crew vehicle key count members) := by
  intro k' h' b' e
  simp only [requestBody, Option.some.injEq, Prod.mk.injEq] at e; obtain ⟨rfl, rfl, rfl⟩ := e
  exact ⟨(lengthIs h (9 + 4 * count.toNat) && members.length == count.toNat),
    (fun _ w => takeLoadCrew crew vehicle key members w),
    fun _ => rfl, fun g => by
        simp only [Instr.wellFormed, Bool.and_eq_true, beq_iff_eq] at g
        rw [counted_length g.2]; congr 1; simp [bytes2, bytes4, length_flatMap_bytes4,
          length_flatMap_bytes2, g.2]; try omega,
      refuses_loadCrew _ _ _ _, (.of_kept fun l w => takeLoadCrew_kept (.refl _) _ _ _ _)⟩
theorem known_dropCrew (h : Hdr) (crew : Half) :
    Known (.dropCrew h crew) := by
  intro k' h' b' e
  simp only [requestBody, Option.some.injEq, Prod.mk.injEq] at e; obtain ⟨rfl, rfl, rfl⟩ := e
  exact ⟨(lengthIs h 2),
    (fun _ w => takeDropCrew crew w),
    fun _ => rfl, fun _ => rfl,
      refuses_dropCrew _, (.of_kept fun l w => takeDropCrew_kept (.refl _) _)⟩
theorem known_getCrew (h : Hdr) (crew : Half) :
    Known (.getCrew h crew) := by
  intro k' h' b' e
  simp only [requestBody, Option.some.injEq, Prod.mk.injEq] at e; obtain ⟨rfl, rfl, rfl⟩ := e
  exact ⟨(lengthIs h 2),
    (fun _ w => takeGetCrew crew w),
    fun _ => rfl, fun _ => rfl,
      refuses_getCrew _, (.of_kept fun l w => by rw [takeGetCrew_work]; exact .refl _)⟩
theorem known_bringUp (h : Hdr) (channel : Byte) :
    Known (.bringUp h channel) := by
  intro k' h' b' e
  simp only [requestBody, Option.some.injEq, Prod.mk.injEq] at e; obtain ⟨rfl, rfl, rfl⟩ := e
  exact ⟨(lengthIs h 1),
    (fun _ w => takeBringUp channel w),
    fun _ => rfl, fun _ => rfl,
      refuses_bringUp _, (.of_kept fun l w => takeBringUp_kept (.refl _) _)⟩
theorem known_quiet (h : Hdr) (channel : Byte) :
    Known (.quiet h channel) := by
  intro k' h' b' e
  simp only [requestBody, Option.some.injEq, Prod.mk.injEq] at e; obtain ⟨rfl, rfl, rfl⟩ := e
  exact ⟨(lengthIs h 1),
    (fun _ w => takeQuiet channel w),
    fun _ => rfl, fun _ => rfl,
      refuses_quiet _, (.of_kept fun l w => takeQuiet_kept (.refl _) _)⟩
theorem known_channelReset (h : Hdr) (channel : Byte) :
    Known (.channelReset h channel) := by
  intro k' h' b' e
  simp only [requestBody, Option.some.injEq, Prod.mk.injEq] at e; obtain ⟨rfl, rfl, rfl⟩ := e
  exact ⟨(lengthIs h 1),
    (fun _ w => takeChannelReset channel w),
    fun _ => rfl, fun _ => rfl,
      refuses_channelReset _, (.of_kept fun l w => takeChannelReset_kept (.refl _) _)⟩
theorem known_setChannel (h : Hdr) (channel : Byte) (f : ChannelFields) :
    Known (.setChannel h channel f) := by
  intro k' h' b' e
  simp only [requestBody, Option.some.injEq, Prod.mk.injEq] at e; obtain ⟨rfl, rfl, rfl⟩ := e
  exact ⟨(lengthIs h 10),
    (fun _ w => takeSetChannel channel f w),
    fun _ => rfl, fun _ => rfl,
      refuses_setChannel _ _, (time_setChannel _ _)⟩
theorem known_takeStats (h : Hdr) (channel clear : Byte) :
    Known (.takeStats h channel clear) := by
  intro k' h' b' e
  simp only [requestBody, Option.some.injEq, Prod.mk.injEq] at e; obtain ⟨rfl, rfl, rfl⟩ := e
  exact ⟨(lengthIs h 2),
    (fun _ w => takeTakeStats channel clear w),
    fun _ => rfl, fun _ => rfl,
      refuses_takeStats _ _, (.of_kept fun l w => takeTakeStats_kept (.refl _) _ _)⟩
theorem known_getChannel (h : Hdr) (channel : Byte) :
    Known (.getChannel h channel) := by
  intro k' h' b' e
  simp only [requestBody, Option.some.injEq, Prod.mk.injEq] at e; obtain ⟨rfl, rfl, rfl⟩ := e
  exact ⟨(lengthIs h 1),
    (fun _ w => takeGetChannel channel w),
    fun _ => rfl, fun _ => rfl,
      refuses_getChannel _, (.of_kept fun l w => by rw [takeGetChannel_work]; exact .refl _)⟩
theorem known_sendOrder (h : Hdr) (number : Word) (crew : Half) (priority hold count : Byte) (content : List Byte) :
    Known (.sendOrder h number crew priority hold count content) := by
  intro k' h' b' e
  simp only [requestBody, Option.some.injEq, Prod.mk.injEq] at e; obtain ⟨rfl, rfl, rfl⟩ := e
  exact ⟨(lengthIs h (9 + 12 * count.toNat) && content.length == 12 * count.toNat),
    (fun _ w => takeSendOrder number crew priority hold count content w),
    fun _ => rfl, fun g => by
        simp only [Instr.wellFormed, Bool.and_eq_true, beq_iff_eq] at g
        rw [counted_length g.2]; congr 1; simp [bytes2, bytes4, length_flatMap_bytes4,
          length_flatMap_bytes2, g.2]; try omega,
      refuses_sendOrder _ _ _ _ _ _, (.of_kept fun l w => takeSendOrder_kept (.refl _) _ _ _ _ _ _)⟩
theorem known_cancelOrder (h : Hdr) (number : Word) :
    Known (.cancelOrder h number) := by
  intro k' h' b' e
  simp only [requestBody, Option.some.injEq, Prod.mk.injEq] at e; obtain ⟨rfl, rfl, rfl⟩ := e
  exact ⟨(lengthIs h 4),
    (fun _ w => takeCancelOrder number w),
    fun _ => rfl, fun _ => rfl,
      refuses_cancelOrder _, (.of_kept fun l w => takeCancelOrder_kept (.refl _) _)⟩
theorem known_closeOrder (h : Hdr) (number : Word) :
    Known (.closeOrder h number) := by
  intro k' h' b' e
  simp only [requestBody, Option.some.injEq, Prod.mk.injEq] at e; obtain ⟨rfl, rfl, rfl⟩ := e
  exact ⟨(lengthIs h 4),
    (fun _ w => takeCloseOrder number w),
    fun _ => rfl, fun _ => rfl,
      refuses_closeOrder _, (.of_kept fun l w => takeCloseOrder_kept (.refl _) _)⟩
theorem known_getOrder (h : Hdr) (number : Word) :
    Known (.getOrder h number) := by
  intro k' h' b' e
  simp only [requestBody, Option.some.injEq, Prod.mk.injEq] at e; obtain ⟨rfl, rfl, rfl⟩ := e
  exact ⟨(lengthIs h 4),
    (fun _ w => takeGetOrder number w),
    fun _ => rfl, fun _ => rfl,
      refuses_getOrder _, (.of_kept fun l w => by rw [takeGetOrder_work]; exact .refl _)⟩
theorem known_startWatch (h : Hdr) (id : Word) (interval missLimit assist : Byte) :
    Known (.startWatch h id interval missLimit assist) := by
  intro k' h' b' e
  simp only [requestBody, Option.some.injEq, Prod.mk.injEq] at e; obtain ⟨rfl, rfl, rfl⟩ := e
  exact ⟨(lengthIs h 7),
    (fun _ w => takeStartWatch id interval missLimit assist w),
    fun _ => rfl, fun _ => rfl,
      refuses_startWatch _ _ _ _, (.of_kept fun l w => takeStartWatch_kept (.refl _) _ _ _ _)⟩
theorem known_stopWatch (h : Hdr) (id : Word) :
    Known (.stopWatch h id) := by
  intro k' h' b' e
  simp only [requestBody, Option.some.injEq, Prod.mk.injEq] at e; obtain ⟨rfl, rfl, rfl⟩ := e
  exact ⟨(lengthIs h 4),
    (fun _ w => takeStopWatch id w),
    fun _ => rfl, fun _ => rfl,
      refuses_stopWatch _, (.of_kept fun l w => takeStopWatch_kept (.refl _) _)⟩
theorem known_ackAlarm (h : Hdr) (id : Word) :
    Known (.ackAlarm h id) := by
  intro k' h' b' e
  simp only [requestBody, Option.some.injEq, Prod.mk.injEq] at e; obtain ⟨rfl, rfl, rfl⟩ := e
  exact ⟨(lengthIs h 4),
    (fun _ w => takeAckAlarm id w),
    fun _ => rfl, fun _ => rfl,
      refuses_ackAlarm _, (.of_kept fun l w => takeAckAlarm_kept (.refl _) _)⟩
theorem known_resolveAlarm (h : Hdr) (id : Word) (action : Byte) :
    Known (.resolveAlarm h id action) := by
  intro k' h' b' e
  simp only [requestBody, Option.some.injEq, Prod.mk.injEq] at e; obtain ⟨rfl, rfl, rfl⟩ := e
  exact ⟨(lengthIs h 5),
    (fun _ w => takeResolveAlarm id action w),
    fun _ => rfl, fun _ => rfl,
      refuses_resolveAlarm _ _, (.of_kept fun l w => takeResolveAlarm_kept (.refl _) _ _)⟩
theorem known_getWatch (h : Hdr) (id : Word) :
    Known (.getWatch h id) := by
  intro k' h' b' e
  simp only [requestBody, Option.some.injEq, Prod.mk.injEq] at e; obtain ⟨rfl, rfl, rfl⟩ := e
  exact ⟨(lengthIs h 4),
    (fun _ w => takeGetWatch id w),
    fun _ => rfl, fun _ => rfl,
      refuses_getWatch _, (.of_kept fun l w => by rw [takeGetWatch_work]; exact .refl _)⟩
theorem known_defineSection (h : Hdr) (number action : Byte) :
    Known (.defineSection h number action) := by
  intro k' h' b' e
  simp only [requestBody, Option.some.injEq, Prod.mk.injEq] at e; obtain ⟨rfl, rfl, rfl⟩ := e
  exact ⟨(lengthIs h 2),
    (fun _ w => takeDefineSection number action w),
    fun _ => rfl, fun _ => rfl,
      refuses_defineSection _ _, (.of_kept fun l w => takeDefineSection_kept (.refl _) _ _)⟩
theorem known_defineSwitch (h : Hdr) (number action sideA sideB : Byte) :
    Known (.defineSwitch h number action sideA sideB) := by
  intro k' h' b' e
  simp only [requestBody, Option.some.injEq, Prod.mk.injEq] at e; obtain ⟨rfl, rfl, rfl⟩ := e
  exact ⟨(lengthIs h 4),
    (fun _ w => takeDefineSwitch number action sideA sideB w),
    fun _ => rfl, fun _ => rfl,
      refuses_defineSwitch _ _ _ _, (.of_kept fun l w => takeDefineSwitch_kept (.refl _) _ _ _ _)⟩
theorem known_setSwitchPosition (h : Hdr) (number position : Byte) :
    Known (.setSwitchPosition h number position) := by
  intro k' h' b' e
  simp only [requestBody, Option.some.injEq, Prod.mk.injEq] at e; obtain ⟨rfl, rfl, rfl⟩ := e
  exact ⟨(lengthIs h 2),
    (fun _ w => takeSetSwitchPosition number position w),
    fun _ => rfl, fun _ => rfl,
      refuses_setSwitchPosition _ _, (.of_kept fun l w => takeSetSwitchPosition_kept (.refl _) _ _)⟩
theorem known_requestPermit (h : Hdr) (number : Half) (kind : Byte) (crew : Half) (count : Byte) (items : List Byte) :
    Known (.requestPermit h number kind crew count items) := by
  intro k' h' b' e
  simp only [requestBody, Option.some.injEq, Prod.mk.injEq] at e; obtain ⟨rfl, rfl, rfl⟩ := e
  exact ⟨(lengthIs h (6 + count.toNat) && items.length == count.toNat),
    (fun _ w => takeRequestPermit number kind crew items w),
    fun _ => rfl, fun g => by
        simp only [Instr.wellFormed, Bool.and_eq_true, beq_iff_eq] at g
        rw [counted_length g.2]; congr 1; simp [bytes2, bytes4, length_flatMap_bytes4,
          length_flatMap_bytes2, g.2]; try omega,
      refuses_requestPermit _ _ _ _, (.of_kept fun l w => takeRequestPermit_kept (.refl _) _ _ _ _)⟩
theorem known_issuePermit (h : Hdr) (number : Half) :
    Known (.issuePermit h number) := by
  intro k' h' b' e
  simp only [requestBody, Option.some.injEq, Prod.mk.injEq] at e; obtain ⟨rfl, rfl, rfl⟩ := e
  exact ⟨(lengthIs h 2),
    (fun _ w => w.withPermit number fun k p => w.checkIssue k p),
    fun _ => rfl, fun _ => rfl,
      refuses_issuePermit _, (.of_kept fun l w => Work.withPermit_kept (.refl _) _ _ fun k p hk => Work.checkIssue_kept (.refl _) _ _ hk)⟩
theorem known_withdrawPermit (h : Hdr) (number : Half) :
    Known (.withdrawPermit h number) := by
  intro k' h' b' e
  simp only [requestBody, Option.some.injEq, Prod.mk.injEq] at e; obtain ⟨rfl, rfl, rfl⟩ := e
  exact ⟨(lengthIs h 2),
    (fun _ w => w.withPermit number fun k p => w.withdrawPermit k p),
    fun _ => rfl, fun _ => rfl,
      refuses_withdrawPermit _, (.of_kept fun l w => Work.withPermit_kept (.refl _) _ _ fun k p hk => Work.withdrawPermit_kept (.refl _) _ _ hk)⟩
theorem known_confirmRelease (h : Hdr) (number : Half) :
    Known (.confirmRelease h number) := by
  intro k' h' b' e
  simp only [requestBody, Option.some.injEq, Prod.mk.injEq] at e; obtain ⟨rfl, rfl, rfl⟩ := e
  exact ⟨(lengthIs h 2),
    (fun _ w => w.withPermit number fun k p => w.confirmRelease k p),
    fun _ => rfl, fun _ => rfl,
      refuses_confirmRelease _, (.of_kept fun l w => Work.withPermit_kept (.refl _) _ _ fun k p hk => Work.confirmRelease_kept (.refl _) _ _ hk)⟩
theorem known_rejectRelease (h : Hdr) (number : Half) :
    Known (.rejectRelease h number) := by
  intro k' h' b' e
  simp only [requestBody, Option.some.injEq, Prod.mk.injEq] at e; obtain ⟨rfl, rfl, rfl⟩ := e
  exact ⟨(lengthIs h 2),
    (fun _ w => w.withPermit number fun k p => w.rejectRelease k p),
    fun _ => rfl, fun _ => rfl,
      refuses_rejectRelease _, (.of_kept fun l w => Work.withPermit_kept (.refl _) _ _ fun k p hk => Work.rejectRelease_kept (.refl _) _ _ hk)⟩
theorem known_verbalRelease (h : Hdr) (number code : Half) :
    Known (.verbalRelease h number code) := by
  intro k' h' b' e
  simp only [requestBody, Option.some.injEq, Prod.mk.injEq] at e; obtain ⟨rfl, rfl, rfl⟩ := e
  exact ⟨(lengthIs h 4),
    (fun _ w =>
    if code.toNat ≤ 9999 then w.withPermit number fun k p => w.verbalRelease k p code.toNat
    else w.refused .badValue),
    fun _ => rfl, fun _ => rfl,
      refuses_verbalRelease _ _, .of_kept fun l w => by
        split
        · exact Work.withPermit_kept (.refl _) _ _ fun k p hk => Work.verbalRelease_kept (.refl _) _ _ _ hk
        · exact .refl _⟩
theorem known_restorePermit (h : Hdr) (number : Half) (kind : Byte) (crew : Half) (count : Byte) (items : List Byte) :
    Known (.restorePermit h number kind crew count items) := by
  intro k' h' b' e
  simp only [requestBody, Option.some.injEq, Prod.mk.injEq] at e; obtain ⟨rfl, rfl, rfl⟩ := e
  exact ⟨(lengthIs h (6 + count.toNat) && items.length == count.toNat),
    (fun _ w => takeRestorePermit number kind crew items w),
    fun _ => rfl, fun g => by
        simp only [Instr.wellFormed, Bool.and_eq_true, beq_iff_eq] at g
        rw [counted_length g.2]; congr 1; simp [bytes2, bytes4, length_flatMap_bytes4,
          length_flatMap_bytes2, g.2]; try omega,
      refuses_restorePermit _ _ _ _, (.of_kept fun l w => takeRestorePermit_kept (.refl _) _ _ _ _)⟩
theorem known_getSection (h : Hdr) (number : Byte) :
    Known (.getSection h number) := by
  intro k' h' b' e
  simp only [requestBody, Option.some.injEq, Prod.mk.injEq] at e; obtain ⟨rfl, rfl, rfl⟩ := e
  exact ⟨(lengthIs h 1),
    (fun _ w => takeGetSection number w),
    fun _ => rfl, fun _ => rfl,
      refuses_getSection _, (.of_kept fun l w => by rw [takeGetSection_work]; exact .refl _)⟩
theorem known_getSwitch (h : Hdr) (number : Byte) :
    Known (.getSwitch h number) := by
  intro k' h' b' e
  simp only [requestBody, Option.some.injEq, Prod.mk.injEq] at e; obtain ⟨rfl, rfl, rfl⟩ := e
  exact ⟨(lengthIs h 1),
    (fun _ w => takeGetSwitch number w),
    fun _ => rfl, fun _ => rfl,
      refuses_getSwitch _, (.of_kept fun l w => by rw [takeGetSwitch_work]; exact .refl _)⟩
theorem known_getPermit (h : Hdr) (number : Half) :
    Known (.getPermit h number) := by
  intro k' h' b' e
  simp only [requestBody, Option.some.injEq, Prod.mk.injEq] at e; obtain ⟨rfl, rfl, rfl⟩ := e
  exact ⟨(lengthIs h 2),
    (fun _ w => takeGetPermit number w),
    fun _ => rfl, fun _ => rfl,
      refuses_getPermit _, (.of_kept fun l w => by rw [takeGetPermit_work]; exact .refl _)⟩
theorem known_setAuthList (h : Hdr) (count : Byte) (crews : List Half) :
    Known (.setAuthList h count crews) := by
  intro k' h' b' e
  simp only [requestBody, Option.some.injEq, Prod.mk.injEq] at e; obtain ⟨rfl, rfl, rfl⟩ := e
  exact ⟨(lengthIs h (1 + 2 * count.toNat) && crews.length == count.toNat),
    (fun _ w => takeSetAuthList crews w),
    fun _ => rfl, fun g => by
        simp only [Instr.wellFormed, Bool.and_eq_true, beq_iff_eq] at g
        rw [counted_length g.2]; congr 1; simp [bytes2, bytes4, length_flatMap_bytes4,
          length_flatMap_bytes2, g.2]; try omega,
      refuses_setAuthList _, fun l w n k => by
        show (takeSetAuthList crews w).work.site.timed n; unfold takeSetAuthList; split <;> exact k⟩
theorem known_setMode (h : Hdr) (mode : Byte) :
    Known (.setMode h mode) := by
  intro k' h' b' e
  simp only [requestBody, Option.some.injEq, Prod.mk.injEq] at e; obtain ⟨rfl, rfl, rfl⟩ := e
  exact ⟨(lengthIs h 1),
    (fun _ w => takeSetMode mode w),
    fun _ => rfl, fun _ => rfl,
      refuses_setMode _, (time_setMode _)⟩
theorem known_getStatus (h : Hdr) :
    Known (.getStatus h) := by
  intro k' h' b' e
  simp only [requestBody, Option.some.injEq, Prod.mk.injEq] at e; obtain ⟨rfl, rfl, rfl⟩ := e
  exact ⟨(lengthIs h 0),
    (fun l w => { w.taken (.status (w.site.status l)) with clearLost := true }),
    fun _ => rfl, fun _ => rfl,
      refuses_getStatus, fun l w n k => by
        exact k⟩
theorem known_setSite (h : Hdr) (siteId escalation silence : Half) (mask : Byte) :
    Known (.setSite h siteId escalation silence mask) := by
  intro k' h' b' e
  simp only [requestBody, Option.some.injEq, Prod.mk.injEq] at e; obtain ⟨rfl, rfl, rfl⟩ := e
  exact ⟨(lengthIs h 7),
    (fun _ w =>
    if 30 ≤ escalation.toNat ∧ escalation.toNat ≤ 300
        ∧ (silence.toNat = 0 ∨ 30 ≤ silence.toNat ∧ silence.toNat ≤ 900) then
      (w.modSite fun s => s.setSettings siteId.toNat escalation.toNat silence.toNat (maskOf mask)).taken .empty
    else w.refused .badValue),
    fun _ => rfl, fun _ => rfl,
      refuses_setSite _ _ _ _, fun l w n k => by
        obtain ⟨k1, k2, k3, _⟩ := k; split
        · exact ⟨k1, k2, k3, by simp [Site.setSettings, k1]⟩
        · exact ⟨k1, k2, k3, ‹_›⟩⟩
theorem known_setClock (h : Hdr) (label : Word) :
    Known (.setClock h label) := by
  intro k' h' b' e
  simp only [requestBody, Option.some.injEq, Prod.mk.injEq] at e; obtain ⟨rfl, rfl, rfl⟩ := e
  exact ⟨(lengthIs h 4),
    (fun _ w => (w.modSite fun s => { s with label }).taken .empty),
    fun _ => rfl, fun _ => rfl,
      refuses_setClock _, fun l w n k => by
        exact k⟩
theorem known_storeSettings (h : Hdr) :
    Known (.storeSettings h) := by
  intro k' h' b' e
  simp only [requestBody, Option.some.injEq, Prod.mk.injEq] at e; obtain ⟨rfl, rfl, rfl⟩ := e
  exact ⟨(lengthIs h 0),
    (fun _ w =>
    if w.site.write.isSome then w.refused .busy
    else
      { work := w.modSite fun s => { s with write := some { modeOnly := false, image := s.current }, copy := s.current }
        wait := .storeWrite, clearLost := false }),
    fun _ => rfl, fun _ => rfl,
      refuses_storeSettings, fun l w n k => by
        split <;> exact k⟩
theorem known_restart (h : Hdr) :
    Known (.restart h) := by
  intro k' h' b' e
  simp only [requestBody, Option.some.injEq, Prod.mk.injEq] at e; obtain ⟨rfl, rfl, rfl⟩ := e
  exact ⟨(lengthIs h 0),
    (fun _ w => w.taken .empty),
    fun _ => rfl, fun _ => rfl,
      refuses_restart, fun l w n k => by
        exact k⟩
theorem known_getAuth (h : Hdr) :
    Known (.getAuth h) := by
  intro k' h' b' e
  simp only [requestBody, Option.some.injEq, Prod.mk.injEq] at e; obtain ⟨rfl, rfl, rfl⟩ := e
  exact ⟨(lengthIs h 0),
    (fun _ w =>
    w.taken (.auth w.site.mode w.site.authList w.site.keyEnable w.site.modeWriting
      (if w.site.modePending then some w.site.mode else none)
      (Table.tally w.site.roster fun _ t => t.origin == .guest))),
    fun _ => rfl, fun _ => rfl,
      refuses_getAuth, fun l w n k => by
        exact k⟩

/-- Every request, with its code and its body, is judged alike: its length is its body's, its refusals change nothing, and host
silence follows its arrival. -/
theorem isRequest {c : Instr} {k : Byte} {h : Hdr} {b : List Byte} (e : requestBody c = some (k, h, b)) :
    ∃ fits act, IsRequest c k h b fits act := by
  cases c
  case loadTerminal => apply known_loadTerminal; exact e
  case dropTerminal => apply known_dropTerminal; exact e
  case getTerminal => apply known_getTerminal; exact e
  case loadCrew => apply known_loadCrew; exact e
  case dropCrew => apply known_dropCrew; exact e
  case getCrew => apply known_getCrew; exact e
  case bringUp => apply known_bringUp; exact e
  case quiet => apply known_quiet; exact e
  case channelReset => apply known_channelReset; exact e
  case setChannel => apply known_setChannel; exact e
  case takeStats => apply known_takeStats; exact e
  case getChannel => apply known_getChannel; exact e
  case sendOrder => apply known_sendOrder; exact e
  case cancelOrder => apply known_cancelOrder; exact e
  case closeOrder => apply known_closeOrder; exact e
  case getOrder => apply known_getOrder; exact e
  case startWatch => apply known_startWatch; exact e
  case stopWatch => apply known_stopWatch; exact e
  case ackAlarm => apply known_ackAlarm; exact e
  case resolveAlarm => apply known_resolveAlarm; exact e
  case getWatch => apply known_getWatch; exact e
  case defineSection => apply known_defineSection; exact e
  case defineSwitch => apply known_defineSwitch; exact e
  case setSwitchPosition => apply known_setSwitchPosition; exact e
  case requestPermit => apply known_requestPermit; exact e
  case issuePermit => apply known_issuePermit; exact e
  case withdrawPermit => apply known_withdrawPermit; exact e
  case confirmRelease => apply known_confirmRelease; exact e
  case rejectRelease => apply known_rejectRelease; exact e
  case verbalRelease => apply known_verbalRelease; exact e
  case restorePermit => apply known_restorePermit; exact e
  case getSection => apply known_getSection; exact e
  case getSwitch => apply known_getSwitch; exact e
  case getPermit => apply known_getPermit; exact e
  case setAuthList => apply known_setAuthList; exact e
  case setMode => apply known_setMode; exact e
  case getStatus => apply known_getStatus; exact e
  case setSite => apply known_setSite; exact e
  case setClock => apply known_setClock; exact e
  case storeSettings => apply known_storeSettings; exact e
  case restart => apply known_restart; exact e
  case getAuth => apply known_getAuth; exact e
  all_goals cases e

end Sys2Proof.Machine
end

