-- ==== Sys2Proof/Tests/Slice0.lean ====
section
/-! SUPPORT. Tests: an ill-formed command for each check of WellFormed, figures the manual prints, and a witness for the
hypotheses of each statement. -/

set_option Elab.async false

namespace Sys2Proof.Tests
open Sys2Proof Sys2Proof.Machine

/-! ### A small site -/

/-- A header with tag 1 and a length field. -/
def sent (n : Half) : Hdr := { tag := 1, len := n }

/-- A vehicle AFFILIATED on channel 0 under short address 0, bound to crew 1. -/
def vehicle : Terminal :=
  { Terminal.loadedNow 100 .vehicle with
    crew := some 1, state := .affiliated, channel := some 0, short := some 0, capacity := 40, credit := 40, quality := 15 }

/-- A portable AFFILIATED on channel 0 under short address 1, bound to crew 1. -/
def portable : Terminal :=
  { Terminal.loadedNow 200 .personal with
    crew := some 1, state := .affiliated, channel := some 0, short := some 1, quality := 15 }

/-- Channel 0 in UP with a closed lever. -/
def upChannel : Channel := { Channel.blank with present := true, state := .up, previous := .training }

/-- A site with channel 0 as given and the others empty. -/
def onChannel (ch : Channel) : Site := { Site.blank with channels := #v[ch, .blank, .blank, .blank] }

/-- Channel 0 UP; the vehicle, its portable and an unbound portable in the roster; crew 1; sections 5 and 6, which switch
point 7 joins. -/
def town : Site :=
  { onChannel upChannel with
    roster := [(0, vehicle), (1, portable), (2, Terminal.loadedNow 300 .personal)]
    crews := [(1, { vehicle := some 0, members := [1], key := 1234, alarms := 0, permits := 0 })]
    sections := [(5, 0), (6, 0)], authList := [1]
    switches := [(7, { sideA := 5, sideB := some 6, position := .opened, violated := false })] }

/-- Channels 0 and 1 paired, in one state. -/
def pairIn (st : ChannelState) : Site :=
  let ch := { upChannel with state := st, config := { ChannelConfig.default with pairing := true } }
  { Site.blank with channels := #v[ch, ch, .blank, .blank] }

/-- The reset state with another site. -/
def served (s : Site) : State := { State.reset with site := s }

/-- The vehicle's frame on channel 0, by its short address. -/
def fromVehicle : Arrival := { channel := 0, sample := 15, sender := .short 0 }

/-- The portable's frame on channel 0, by its short address. -/
def fromPortable : Arrival := { channel := 0, sample := 15, sender := .short 1 }

/-- A window that carries an explicit grant to the terminal at an index. -/
def granted (i : Nat) : Window :=
  { length := 40, target := some i, grant := .explicit, acked := none, goodSeen := false, badSeen := false
    targetHeard := false }

/-- The site with a window on channel 0. -/
def listening (s : Site) (w : Window) : Site :=
  { s with channels := #v[{ upChannel with activity := .listening, window := some w }, .blank, .blank, .blank] }

/-- The town waiting for the vehicle's frame. -/
def hearing (s : Site) (i : Nat) : Site := listening s (granted i)

/-- An order of crew 1 in a state. -/
def order (st : OrderState) : Order :=
  { crew := 1, priority := 1, hold := 0, blocks := 1, content := List.replicate 12 0, state := st, seq := 0
    recipient := some 100, retry := none, frameChannel := none, deadline := some 0, reply := none }

/-- The town with order 9 in a state. -/
def ordered (st : OrderState) : Site := { town with orders := [(9, order st)] }

/-- A supervision record in a state, its deadline at 3600. -/
def watchIn (st : WatchState) (n : Nat) : Watch :=
  { state := st, interval := 9, lead := 600, missLimit := 2, missed := n, deadline := 3600, lastCheckIn := none
    lastPosition := none, assist := true, confirmed := true, cause := none, alarmTime := none, alarmChannel := none
    escalations := 0, escalationExpiry := some 60, seenOwed := false }

/-- The town with the portable supervised, at a monotonic count. -/
def watched (st : WatchState) (n : Nat) (count : Nat) : Site := { town with watches := [(1, watchIn st n)], count }

/-- A permit of crew 1. -/
def permitOf (k : PermitWork) (st : PermitState) (n : Nat) : Permit :=
  { number := 4, work := k, crew := 1, state := st, recorded := some 100, keyed := false, attempts := n
    deadline := some 180, compromised := false, violationSwitch := none, dangerOwed := false, resultConfirmed := false
    restored := false, retained := false }

/-- The town with permit 4. -/
def permitted (k : PermitWork) (st : PermitState) (n : Nat) : Site :=
  { town with
    permits := [(0, permitOf k st n)]
    crews := [(1, { vehicle := some 0, members := [1], key := 1234, alarms := 0, permits := 1 })] }

/-- A clearance of section 5. -/
def clearance : PermitWork := .clearance [5]

/-- A request meets its admission: power, no RESTART waiting, a tag, a place, and its length. -/
theorem test_admitted (s : Site) (n : Half) : (served s).admits (sent n) n.toNat :=
  ⟨rfl, rfl, (by decide : (1 : Byte) ≠ 0), (by decide : 0 < 4), rfl⟩

/-! ### WellFormed refuses what each of its checks names -/

theorem test_tag_zero_is_ill_formed : (Instr.getStatus { tag := 0, len := 0 }).wellFormed = false := by decide
theorem test_length_over_1024_is_ill_formed : (Instr.getStatus { tag := 1, len := 1025 }).wellFormed = false := by decide
theorem test_length_1024_is_well_formed : (Instr.getStatus { tag := 255, len := 1024 }).wellFormed = true := by decide
theorem test_members_unlike_count_are_ill_formed : (Instr.loadCrew (sent 13) 1 0 0 1 []).wellFormed = false := by decide
theorem test_content_unlike_blocks_is_ill_formed :
    (Instr.sendOrder (sent 21) 1 1 1 0 1 [0]).wellFormed = false := by decide
theorem test_items_unlike_count_are_ill_formed : (Instr.requestPermit (sent 7) 1 0 1 1 []).wellFormed = false := by decide
theorem test_restored_items_unlike_count_are_ill_formed :
    (Instr.restorePermit (sent 7) 1 0 1 1 []).wellFormed = false := by decide
theorem test_crews_unlike_count_are_ill_formed : (Instr.setAuthList (sent 3) 1 []).wellFormed = false := by decide
theorem test_known_kind_is_no_unknown_kind : (Instr.unknownKindRefusal (sent 0) 0x62).wellFormed = false := by decide
theorem test_unknown_kind_is_well_formed : (Instr.unknownKindRefusal (sent 0) 0x63).wellFormed = true := by decide
theorem test_short_address_seven_is_ill_formed :
    (Instr.access { channel := 0, sample := 0, sender := .short 7 }).wellFormed = false := by decide

/-! ### Figures the manual prints -/

/-- The permit of the worked clearance (Chapter 8, Worked codes). -/
def worked (keyed : Bool) (l : List Nat) : Permit :=
  { permitOf (.clearance l) .issuing 0 with number := 4127, crew := 58, keyed }

/-- A site whose crews have the keys of the worked codes. -/
def keys : Site :=
  { Site.blank with
    crews := [(14, { vehicle := none, members := [], key := 5000, alarms := 0, permits := 1 }),
      (58, { vehicle := none, members := [], key := 40000, alarms := 0, permits := 1 })] }

/-- Chapter 8, Worked codes: the clearance's four variants, and its sections in the other order. -/
theorem test_codes_of_a_clearance :
    keys.issueCode (worked false [12, 13]) = 4425 ∧ keys.issueCode (worked false [13, 12]) = 4424
      ∧ keys.issueCode (worked true [12, 13]) = 5073 ∧ keys.releaseCode (worked false [12, 13]) = 4479
      ∧ keys.releaseCode (worked true [12, 13]) = 5136 := by decide

/-- Chapter 8, Worked codes: the switching permit 812. -/
theorem test_codes_of_a_switching_permit :
    let p := { permitOf (.switching 70 .closing) .issuing 0 with number := 812, crew := 14 }
    keys.issueCode p = 1152 ∧ keys.issueCode { p with keyed := true } = 1233 := by decide

/-- Section 3.7: rows of the table of airtimes, the beacon on a pair, and the two worked lines. -/
theorem test_airtimes :
    airtimeOf false 0 true .low false = 4 ∧ airtimeOf true 0 true .high false = 2 ∧ airtimeOf true 1 true .low false = 12
      ∧ airtimeOf false 40 true .low false = 244 ∧ airtimeOf false 40 false .mid false = 82
      ∧ airtimeOf false 0 true .low true = 2 ∧ airtimeOf true 1 false .mid false = 5
      ∧ airtimeOf false 3 true .mid false = 11 ∧ airtimeOf false 3 false .mid false = 8 := by decide

/-- Section 3.7: the qualities of one vehicle, and the ends of R61's Note. -/
theorem test_averages :
    averaged 7 13 = 9 ∧ averaged 9 15 = 11 ∧ averaged 11 3 = 9 ∧ averaged 9 0 = 7 ∧ averaged 14 15 = 14
      ∧ averaged 2 0 = 2 := by decide

/-- 10.1: the CRC-16 of the nine bytes "123456789". -/
theorem test_crc16 : crc16 [0x31, 0x32, 0x33, 0x34, 0x35, 0x36, 0x37, 0x38, 0x39] = 0x29B1 := by decide +kernel

/-- Section 4.3, urgent and routine sharing a channel: the deficits and the turn after opportunities 1 and 4. -/
theorem test_balance :
    Account.balance 24 8 8 22 80 { urgent := 0, routine := 0, turn := .routine, added := false }
        = { urgent := 16, routine := 8, turn := .urgent, added := true }
      ∧ Account.balance 24 8 8 22 80 { urgent := 0, routine := 8, turn := .urgent, added := true }
        = { urgent := 16, routine := 16, turn := .urgent, added := true } := by decide +kernel

/-- Section 4.5: a HIGH member, then one position of the LOW tier, then the HIGH tier anew. -/
theorem test_rotation :
    let s := watched .watching 0 0
    s.arbitrate none none [0, 1] = some (1, some 1, none) ∧ s.arbitrate (some 1) none [0, 1] = some (0, none, some 0)
      ∧ s.arbitrate (some 1) (some 0) [1] = some (1, some 1, some 0) := by decide +kernel

/-- R164: the table of straps. -/
theorem test_baud :
    baudOf false false = 115200 ∧ baudOf true false = 230400 ∧ baudOf false true = 460800 ∧ baudOf true true = 921600 := by
  decide

/-- Section 11.1: the readback of the issue code, in place, puts the clearance in ISSUED and its section's count at 1. -/
theorem test_readback_issues_the_permit :
    ∃ t, step { served (hearing (permitted clearance .issuing 0) 0) with pending := [.readback fromVehicle 4 33] } = .next t
      ∧ (t.site.livePermit 4).map (fun e => e.2.state) = some .issued ∧ t.site.clearances 5 = 1 :=
  ⟨_, rfl, by decide +kernel⟩

/-- R143: another code counts an attempt, and the permit stays in ISSUING. -/
theorem test_wrong_readback_counts_an_attempt :
    ∃ t, step { served (hearing (permitted clearance .issuing 0) 0) with pending := [.readback fromVehicle 4 34] } = .next t
      ∧ (t.site.livePermit 4).map (fun e => (e.2.state, e.2.attempts)) = some (.issuing, 1) ∧ t.site.clearances 5 = 0 :=
  ⟨_, rfl, by decide +kernel⟩

/-- R139: a CLOSE is not issued against a section with a clearance. -/
theorem test_interlock_refuses_a_close :
    let s := { permitted (.switching 7 .closing) .requested 0 with sections := [(5, 1), (6, 0)] }
    ∃ t, step { served s with pending := [.issuePermit (sent 2) 4] } = .next t
      ∧ t.link.places = [{ tag := 1, kind := 0x54, wait := .ready .interlock .empty }] := ⟨_, rfl, by decide +kernel⟩

/-- R120: the grace at the miss limit enters ALARM, and the crew's count of unresolved alarms rises. -/
theorem test_grace_at_the_limit_enters_alarm :
    ∃ t, step { served (watched .overdue 1 4200) with pending := [.graceExpiry 1] } = .next t
      ∧ (Table.look t.site.watches 1).map (fun r => (r.state, r.missed)) = some (.alarm, 2) ∧ t.site.alarmsOf 1 = 1 :=
  ⟨_, rfl, by decide +kernel⟩

/-- R26, R34, R46: BRING_UP of a channel that is DOWN begins its training. -/
theorem test_bring_up_begins_training :
    ∃ t, step { served (onChannel { upChannel with state := .down }) with pending := [.bringUp (sent 1) 0] } = .next t
      ∧ (t.site.chan 0).state = .training ∧ (t.site.chan 0).trainingTimer = some 5 := ⟨_, rfl, by decide +kernel⟩

/-- R44: while the supply is CRITICAL, BRING_UP of channel 3 is refused with SUPPLY. -/
theorem test_critical_supply_refuses_channel_three :
    let s := { Site.blank with
      secondSupply := true, channels := #v[.blank, .blank, .blank, { upChannel with state := .down }] }
    ∃ t, step { served s with pending := [.bringUp (sent 1) 3] } = .next t
      ∧ t.link.places = [{ tag := 1, kind := 0x20, wait := .ready .supply .empty }] := ⟨_, rfl, by decide +kernel⟩

/-- The table of commands gives no bits, so no word spells one. -/
theorem test_no_word_spells_a_command : decodeTableWord 8 0x01 = none := by decide

/-! ### What meets the hypotheses of the statements: the machine, power and the control link -/

theorem witness_StepRunsTheFrontCommand : State.reset.pending = [] := rfl

theorem witness_PowerOnAndRestartBootThePart :
    let s := { State.reset with link := { Link.blank with outgoing := some (.reply 1 0x05 .ok .empty) } }
    s.powered = true ∧ s.link.outgoing = some (.reply 1 0x05 .ok .empty) := ⟨rfl, rfl⟩

theorem witness_PowerLossEndsAWrite :
    State.reset.powered = true
      ∧ { State.reset with powered := false }.powered = false ∧ ∀ l, Instr.secondTick ≠ .powerOn l :=
  ⟨rfl, rfl, fun _ h => nomatch h⟩

theorem witness_LinkLimitsKept :
    State.reset.link.bounded = true ∧ ∃ t, step { State.reset with pending := [.powerLoss] } = .next t :=
  ⟨by decide, _, rfl⟩

/-- A report of the routine class, and one of the alarm class. -/
def routine : Report := { count := 0, label := 0, body := .attendance true 0 none }
def urgent : Report :=
  { count := 0, label := 0
    body := .unsupervisedAlarm
      { channel := 0, sender := .idOnly 1, kind := none, crew := none, cause := .panic, position := none
        reason := .notInRoster } }

/-- A link with `n` routine reports waiting, then `m` of the alarm class. -/
def queued (n m : Nat) : Link := { Link.blank with reports := List.replicate n routine ++ List.replicate m urgent }

/-- The last routine report that is queued, and the first that is dropped, at either limit. -/
theorem witness_ReportsAreOfferedAndPlaced_routine :
    (∀ n m, (queued n m).reports.any (fun x => x.body.sameSource routine.body) = false)
      ∧ (routineCount (queued 47 16).reports < 48 ∧ (queued 47 16).reports.length < 64)
      ∧ 48 ≤ routineCount (queued 48 0).reports ∧ 64 ≤ (queued 0 64).reports.length := by
  refine ⟨fun n m => ?_, by decide +kernel⟩
  simp [queued, ReportBody.sameSource, routine, urgent]

/-- The last alarm that finds room, the one that removes the newest routine report, and the one that finds alarms alone. -/
theorem witness_ReportsAreOfferedAndPlaced_alarm :
    (queued 47 16).reports.length < 64 ∧ (queued 48 16).reports = List.replicate 47 routine ++ routine :: List.replicate 16 urgent
      ∧ (∀ y ∈ List.replicate 16 urgent, y.body.alarmClass = true) ∧ routine.body.alarmClass = false
      ∧ 64 ≤ (queued 0 64).reports.length ∧ ∀ y ∈ (queued 0 64).reports, y.body.alarmClass = true := by decide +kernel

theorem witness_ReportsCoalesceInPlace :
    let r := { routine with body := .supplyState .normal .reserve }
    let x := { routine with body := .supplyState .reserve .normal }
    [routine, x] = [routine] ++ x :: [] ∧ (∀ y ∈ [routine], y.body.sameSource r.body = false)
      ∧ x.body.sameSource r.body = true ∧ r.body.alarmClass = false := by decide

theorem witness_LineChoosesTheNextFrame :
    let place : Place := { tag := 1, kind := 0x62, wait := .ready .busy .empty }
    Link.blank.outgoing = some (.report { count := 0, label := 0, body := .start .blank })
      ∧ { Link.blank with outgoing := none, places := [place] }.places = { tag := 1, kind := 0x62, wait := .ready .busy .empty } :: []
      ∧ (∀ tag kind st body rest, ([] : List Place) ≠ { tag, kind, wait := .ready st body } :: rest)
      ∧ ¬((0x62 : Byte) = 0x05 ∧ Status.ok = .ok) ∧ { Link.blank with outgoing := none }.reports = []
      ∧ town.mask.covers routine.body = false :=
  ⟨rfl, rfl, fun _ _ _ _ _ => List.cons_ne_nil _ _ |>.symm, by decide, rfl, rfl⟩

/-- A request that reaches its owner: the hypotheses common to the statements about every request, and its outcome. -/
theorem witness_requests :
    requestBody (.getAuth (sent 0)) = some (0x62, sent 0, []) ∧ State.reset.powered = true
      ∧ State.reset.link.restartPending = false ∧ (sent 0).tag ≠ 0 ∧ State.reset.link.places.length < 4
      ∧ ∃ t, exec (.getAuth (sent 0)) State.reset = .next t := ⟨rfl, rfl, rfl, by decide, by decide, _, rfl⟩

theorem witness_RequestsRestartHostSilence :
    town.attended = true ∧ { town with attended := false }.attended = false
      ∧ { Link.blank with places := [{ tag := 1, kind := 0x05, wait := .ready .ok .empty }] }.restartPending = true := by decide

/-- The three discards of R166 and R177: a RESTART pending, tag 0, and a fourth place held; and codes of no request. -/
theorem witness_DiscardedFramesHaveNoEffect :
    let place : Place := { tag := 1, kind := 0x05, wait := .ready .ok .empty }
    { Link.blank with places := [place] }.restartPending = true ∧ ({ tag := 0, len := 0 } : Hdr).tag = 0
      ∧ 4 ≤ { Link.blank with places := List.replicate 4 place }.places.length ∧ requestCodes.contains 0x63 = false
      ∧ requestCodes.contains 0x00 = false := by decide

theorem witness_WrongLengthIsRefused :
    (Instr.getAuth (sent 1)).wellFormed = true ∧ (sent 1).len.toNat ≠ ([] : List Byte).length
      ∧ ∃ t, exec (.getAuth (sent 1)) State.reset = .next t := ⟨by decide, by decide, _, rfl⟩

/-- SET_MODE with the key at NORMAL: a refusal whose place stands as the statement says. -/
theorem witness_RefusedRequestsChangeNothing :
    requestBody (.setMode (sent 1) 0) = some (0x61, sent 1, [0]) ∧ Status.key ≠ .ok
      ∧ ∃ t, exec (.setMode (sent 1) 0) State.reset = .next t
        ∧ t.link.places = State.reset.link.places ++ [{ tag := 1, kind := 0x61, wait := .ready .key .empty }] :=
  ⟨rfl, by decide, _, rfl, rfl⟩

theorem witness_ReceiverDiscardsAreCounted :
    State.reset.powered = true ∧ { Counter.zero with value := 65534 }.value < 65535
      ∧ { Counter.zero with value := 65535 }.value = 65535 := by decide

/-! ### Site requests, the store, time and the site lines -/

/-- SET_SITE at both ends of its ranges, and one step outside each (R173). -/
theorem witness_SiteRequestsTaken :
    (served town).admits (sent 7) 7 ∧ (served town).admits (sent 4) 4 ∧ (served town).admits (sent 0) 0
      ∧ town.write = none ∧ (30 ≤ (30 : Half).toNat ∧ (300 : Half).toNat ≤ 300)
      ∧ (30 ≤ (30 : Half).toNat ∧ (900 : Half).toNat ≤ 900) ∧ ¬30 ≤ (29 : Half).toNat ∧ ¬(301 : Half).toNat ≤ 300
      ∧ ¬(901 : Half).toNat ≤ 900 :=
  ⟨test_admitted _ 7, test_admitted _ 4, test_admitted _ 0, rfl, by decide⟩

/-- A write of the store under way. -/
def writing (m : Bool) : Site := { town with write := some { modeOnly := m, image := .default } }

theorem witness_StoreWritesComplete :
    (writing false).write = some { modeOnly := false, image := .default }
      ∧ (writing true).write = some { modeOnly := true, image := .default } ∧ (served (writing true)).powered = true
      ∧ (writing false).write.isSome = true ∧ { writing true with modePending := true }.modePending = true :=
  ⟨rfl, rfl, rfl, rfl, rfl⟩

/-- The last count that a second only raises, the first that it does not, and a silence of 30 seconds at its end. -/
theorem witness_SecondsAndHostSilence :
    { town with count := 0xFFFFFFFE }.count < 0xFFFFFFFF ∧ 0xFFFFFFFF ≤ { town with count := 0xFFFFFFFF }.count
      ∧ { town with silence := some 30, count := 30 }.silence = some 30 ∧ 30 ≤ { town with count := 30 }.count := by decide

/-- The same level, the entry to CRITICAL from UP, TRAINING and QUIET, the leaving of it, and NORMAL to RESERVE. -/
theorem witness_SiteLinesFollowed :
    supplyLevelOf false false = town.supply ∧ supplyLevelOf false true = .critical ∧ town.supply ≠ .critical
      ∧ { town with secondSupply := true }.supply = .critical ∧ supplyLevelOf true false ≠ .critical
      ∧ supplyLevelOf true false ≠ town.supply ∧ town.heldQuiet 0 = false ∧ town.heldQuiet 1 = true
      ∧ (pairIn .up).heldQuiet 1 = false ∧ (pairIn .up).heldQuiet 2 = true
      ∧ (∀ st ∈ [ChannelState.up, .training, .quiet],
        ({ town with channels := #v[.blank, .blank, .blank, { upChannel with state := st }] }.chan 3).state = st) := by
  decide +kernel

/-- A channel that goes quiet out of TRAINING. -/
theorem witness_SiteLinesFollowed_training : ((pairIn .training).chan 0).state ≠ .up := by decide

theorem witness_ModeChangesOnlyBySetMode :
    ∃ t, exec (.setMode (sent 1) 0) (served { town with keyEnable := true }) = .next t
      ∧ t.site.mode ≠ (served { town with keyEnable := true }).site.mode := ⟨_, rfl, by decide +kernel⟩

theorem witness_AuthorizationRequestsTaken :
    (served town).admits (sent 3) 3 ∧ 1 + 2 * (1 : Byte).toNat = 3 ∧ (served town).admits (sent 1) 1 ∧ modeOf 4 = some .alarmsOnly
      ∧ { town with keyEnable := true }.keyEnable = true ∧ town.keyEnable = false
      ∧ [(4095 : Half)].length = (1 : Byte).toNat ∧ (∀ x ∈ [(4095 : Half)], 1 ≤ x.toNat ∧ x.toNat ≤ 4095)
      ∧ [(4095 : Half)].Nodup :=
  ⟨test_admitted _ 3, by decide, test_admitted _ 1, rfl, rfl, rfl, rfl, by simp, by simp⟩

/-- A permit that SET_MODE reverts, with its recorded vehicle in the roster; an unbound guest under supervision, and out of it.
-/
theorem witness_AuthorizationRequestsTaken_mode :
    let guest := { Terminal.guest 300 .personal with crew := none }
    let s := { town with roster := [(0, vehicle), (2, guest)], watches := [(2, watchIn .alarm 0)] }
    let t := { town with roster := [(2, guest)] }
    (permitted clearance .issuing 0).sorted = true ∧ (permitOf clearance .issuing 0).state = .issuing
      ∧ (permitOf clearance .issuing 0).recorded.bind (permitted clearance .issuing 0).byId = some (0, vehicle)
      ∧ s.sorted = true ∧ Table.look s.roster 2 = some guest ∧ guest.origin = .guest ∧ guest.crew = none
      ∧ Table.look s.watches 2 = some (watchIn .alarm 0) ∧ vehicle.origin ≠ .guest
      ∧ t.sorted = true ∧ ∀ e ∈ t.roster, e.2.origin = .guest → e.2.crew = none := by decide +kernel

/-! ### What every step keeps -/

/-- A site that is not that of reset meets the invariants, and its next step is a state. -/
theorem witness_invariants :
    town.sorted = true ∧ town.rosterSound = true ∧ town.channelsSound = true
      ∧ ∃ t, step { served town with pending := [.keySwitchMoved true] } = .next t :=
  ⟨by decide, by decide, by decide +kernel, _, rfl⟩

/-- The interlock law where it speaks: a CLOSE in ISSUING, at a switch point whose sections have no clearance. -/
theorem witness_InterlockLawKept : (permitted (.switching 7 .closing) .issuing 0).lawful := by
  refine ⟨?_, ?_⟩
  · intro e he sw hw _ q hq n hn
    simp only [permitted, town, List.mem_singleton] at he
    subst he
    simp only [permitOf, PermitWork.switching.injEq] at hw
    obtain ⟨rfl, _⟩ := hw
    simp only [permitted, town, Table.look, if_true, Option.some.injEq] at hq
    subst hq
    have h : n = 5 ∨ n = 6 := by simp [SwitchPoint.joins] at hn; omega
    rcases h with rfl | rfl <;> exact ⟨by decide, by simp [permitted, permitOf, PermitWork.sections]⟩
  · intro e he hs
    simp only [permitted, town, List.mem_singleton] at he
    subst he; cases hs

/-- The town with a clearance of section 5 in ISSUED and its portable in ALARM. -/
def busy : Site :=
  { permitted clearance .issued 0 with
    sections := [(5, 1), (6, 0)], watches := [(1, watchIn .alarm 0)]
    crews := [(1, { vehicle := some 0, members := [1], key := 1234, alarms := 1, permits := 1 })] }

/-- Two short addresses in use on one channel. -/
theorem witness_ShortAddressesStayApart :
    busy.sorted = true ∧ busy.apart ∧ busy.shortOn 0 0 = some 0 ∧ busy.shortOn 0 1 = some 1
      ∧ ∃ t, step { served busy with pending := [.keySwitchMoved true] } = .next t := by
  refine ⟨by decide +kernel, fun c i j x hi hj => ?_, by decide +kernel, by decide +kernel, _, rfl⟩
  have h : ∀ k y, busy.shortOn c k = some y → k = y := by
    intro k y e
    simp only [Site.shortOn, busy, permitted, town, Table.look] at e
    by_cases k0 : k = 0
    · subst k0; simp [Terminal.on, vehicle] at e; omega
    · by_cases k1 : k = 1
      · subst k1; simp [Terminal.on, portable] at e; omega
      · by_cases k2 : k = 2
        · subst k2; simp [Terminal.on, Terminal.loadedNow] at e
        · simp [Ne.symm k0, Ne.symm k1, Ne.symm k2] at e
  exact (h i x hi).trans (h j x hj).symm

/-- A section with a count of 1, and one with none. -/
theorem witness_ClearanceCountsKept : busy.sorted = true ∧ busy.Cleared ∧ busy.clearances 5 = 1
    ∧ ∃ t, step { served busy with pending := [.keySwitchMoved true] } = .next t := by
  refine ⟨by decide +kernel, ⟨fun n => ?_, fun k p hk _ => ?_, fun k p hk hr => ?_⟩, by decide +kernel, _, rfl⟩
  · by_cases h : n = 5
    · subst h; decide +kernel
    · by_cases h6 : n = 6
      · subst h6; decide +kernel
      · simp [Site.clearances, busy, permitted, town, Table.look, Table.tally, permitOf, clearance,
          PermitWork.sections, Ne.symm h, Ne.symm h6, h]
  all_goals
    simp only [busy, permitted, Table.look] at hk
    split at hk
    · cases hk
      first
        | exact ⟨by decide, by decide +kernel⟩
        | cases hr
    · cases hk

/-- A crew with one unresolved alarm and one live permit. -/
theorem witness_CrewCountsKept : busy.sorted = true ∧ busy.Booked ∧ busy.alarmsOf 1 = 1 ∧ busy.permitsOf 1 = 1
    ∧ ∃ t, step { served busy with pending := [.keySwitchMoved true] } = .next t := by
  have crews : ∀ n c, Table.look busy.crews n = some c →
      n = 1 ∧ c = { vehicle := some 0, members := [1], key := 1234, alarms := 1, permits := 1 } := by
    intro n c h
    simp only [busy, Table.look] at h
    split at h
    · rename_i e; cases h; exact ⟨e.symm, rfl⟩
    · cases h
  have units : ∀ i t, Table.look busy.roster i = some t → (i = 0 ∧ t = vehicle) ∨ (i = 1 ∧ t = portable)
      ∨ i = 2 ∧ t = Terminal.loadedNow 300 .personal := by
    intro i t h
    simp only [busy, permitted, town, Table.look] at h
    split at h
    · rename_i e; cases h; exact .inl ⟨e.symm, rfl⟩
    · split at h
      · rename_i e; cases h; exact .inr (.inl ⟨e.symm, rfl⟩)
      · split at h
        · rename_i e; cases h; exact .inr (.inr ⟨e.symm, rfl⟩)
        · cases h
  refine ⟨by decide +kernel, ⟨fun n => ?_, fun n => ?_, fun i n => ⟨fun h => ?_, fun ⟨c, hc, hi⟩ => ?_⟩, fun n c h => ?_,
    fun u r h => ?_, fun i t h hg => ?_, fun k p h hr => ?_⟩, by decide +kernel, by decide +kernel, _, rfl⟩
  · by_cases e : n = 1
    · subst e; decide +kernel
    · simp [Site.alarmsOf, busy, permitted, town, Table.look, Table.tally, Site.boundCrew, portable, Ne.symm e]
  · by_cases e : n = 1
    · subst e; decide +kernel
    · simp [Site.permitsOf, busy, permitted, Table.look, Table.tally, permitOf, Ne.symm e]
  · obtain ⟨t, ht, hn⟩ := Option.bind_eq_some_iff.1 h
    rcases units i t ht with ⟨rfl, rfl⟩ | ⟨rfl, rfl⟩ | ⟨rfl, rfl⟩ <;> cases hn
    all_goals exact ⟨_, rfl, by decide⟩
  · obtain ⟨rfl, rfl⟩ := crews n c hc
    have : i = 0 ∨ i = 1 := by simpa [Crew.terminals] using hi
    rcases this with rfl | rfl <;> rfl
  · obtain ⟨rfl, rfl⟩ := crews n c h
    exact ⟨by decide, fun i e => by cases e; rfl, fun i hi => by rw [List.mem_singleton.1 hi]; rfl⟩
  · simp only [busy, Table.look] at h
    split at h
    · rename_i e; rw [← e]; rfl
    · cases h
  · rcases units i t h with ⟨rfl, rfl⟩ | ⟨rfl, rfl⟩ | ⟨rfl, rfl⟩ <;> cases hg
  · simp only [busy, permitted, Table.look] at h
    split at h
    · cases h; cases hr
    · cases h

theorem witness_ConfigurationChangesOnlyBySetChannel :
    ∃ t, exec (.setChannel (sent 10) 0 ⟨0, 0, 0, 1, 15, 0, 7, 0, 0⟩) State.reset = .next t
      ∧ t.site.configs ≠ State.reset.site.configs := ⟨_, rfl, by decide +kernel⟩

/-! ### From the wire to the commands -/

theorem witness_RequestBodiesReadBack :
    requestBody (.setMode (sent 1) 4) = some (0x61, sent 1, [4]) ∧ (Instr.setMode (sent 1) 4).wellFormed = true :=
  ⟨rfl, by decide⟩

theorem witness_ControlFramesAreReceived :
    (0xA4 : Byte) ≠ 0xA5 ∧ ∃ last, controlFrame 0x62 1 [] = (controlFrame 0x62 1 []).dropLast ++ [last] :=
  ⟨by decide, 0x4A, by decide +kernel⟩

/-- A length of 1024 and one of 1025, the third byte of a frame, and a body of no bytes with its check. -/
theorem witness_ControlFramesAreReceived_lengths :
    (1024 : Half).toNat ≤ 1024 ∧ 1024 < (1025 : Half).toNat ∧ ([0x62, 1] : List Byte).length < 3
      ∧ [0x62, 1, 0, 0] ++ [(0x4A : Byte)] = 0x62 :: 1 :: (bytes2 0 ++ [0x4A]) ∧ ([0x4A] : List Byte).length < (0 : Half).toNat + 2
      ∧ ([] : List Byte).length = (0 : Half).toNat := by decide

/-- The last byte of a GET_AUTH frame and of a frame of an unknown kind and tag 0, the last of one whose check fails, a length
of 1025, and a byte of a frame not yet whole. -/
theorem witness_BytesBecomeCommands :
    let f := (controlFrame 0x62 1 []).tail
    ((Receiver.assembling f.dropLast).take (f.getLastD 0)).2 = .frame 0x62 (sent 0) []
      ∧ ((Receiver.assembling f.dropLast).take (f.getLastD 0 + 1)).2 = .badCheck
      ∧ (let g := (controlFrame 0x63 0 []).tail
        ((Receiver.assembling g.dropLast).take (g.getLastD 0)).2 = .frame 0x63 { tag := 0, len := 0 } [])
      ∧ requestCodes.contains 0x63 = false ∧ requestBody (.getAuth (sent 0)) = some (0x62, sent 0, [])
      ∧ (Instr.getAuth (sent 0)).wellFormed = true
      ∧ ((Receiver.assembling [0x62, 1, 0x04]).take 0x01).2 = .tooLong
      ∧ ((Receiver.assembling [0x62, 1, 0x04]).take 0x00).2 = .more := by decide +kernel

/-- A SET_MODE frame without its body: a request's kind whose body fits none of its requests. -/
theorem witness_BytesBecomeCommands_unfit :
    let f := (controlFrame 0x61 1 []).tail
    ((Receiver.assembling f.dropLast).take (f.getLastD 0)).2 = .frame 0x61 (sent 0) [] ∧ requestCodes.contains 0x61 = true := by
  decide +kernel

theorem witness_InboundFramesReadBack :
    (Sender.short 6).wellFormed = true ∧ (∀ c, Inbound.depart = .affiliate c → ∃ t, Sender.short 6 = .id t) :=
  ⟨by decide, fun _ h => nomatch h⟩

/-- Kind 0, an AFFILIATE in the short form, an alarm cause of 3 and a digit of 10; and a frame of each kind. -/
theorem witness_InboundFramesReadBack_contents :
    (∀ l ∈ ([[0x00], [0x10, 0, 0], 0x18 :: 3 :: List.replicate 10 0, [0x38, 0, 4, 0xA0, 0]] : List (List Byte)),
      readFrame l = (.short 0, none))
      ∧ readFrame [0x08] = (.short 0, some .access)
      ∧ readFrame [0x90, 0, 0, 0, 1, 1, 9] = (.id 1, some (.affiliate ⟨true, 0, false, false, false, 9⟩))
      ∧ (readFrame (0x18 :: 1 :: List.replicate 10 0)).2.isSome = true ∧ readFrame [0x20, 1, 5] = (.short 0, some (.ack true 5))
      ∧ (readFrame (0x28 :: List.replicate 10 0)).2.isSome = true ∧ (readFrame [0x30, 0, 0, 0, 9, 2, 0]).2.isSome = true
      ∧ readFrame [0x38, 0, 4, 0, 0x24] = (.short 0, some (.readback 4 24))
      ∧ readFrame [0x40, 0, 4] = (.short 0, some (.switchDone 4)) ∧ readFrame [0x48, 0, 4] = (.short 0, some (.releaseAsk 4))
      ∧ readFrame [0x50] = (.short 0, some .depart) := by decide +kernel

/-! ### Numbers -/

/-- The last code with a lead of its own, the first of those that share one, and the largest quality and frame. -/
theorem witness_DurationsAndLeads_and_RateFecAndAirtime :
    leadOf 9 = 600 ∧ 10 ≤ 10 ∧ leadOf 10 = 600 ∧ averaged 15 15 = 15 ∧ airtimeOf true 40 true .low false = 246 := by decide

theorem witness_BalanceComesToAnEnd :
    let a : Account := { urgent := 0, routine := 0, turn := .routine, added := false }
    8 ≤ 24 ∧ 8 ≤ 8 ∧ 8 ≤ 246 ∧ 246 ≤ 246 ∧ a.urgent ≤ 255 ∧ a.routine ≤ 255 := by decide

theorem witness_ArbiterTakesTheNextInTurn :
    let s := watched .watching 0 0
    s.tier 1 = .high ∧ s.tier 0 = .low ∧ ∀ j ∈ [0, 1], s.tier j = .high → ¬∀ x, some 1 = some x → x < j := by
  refine ⟨by decide, by decide, ?_⟩
  intro j hj ht h
  have := h 1 rfl
  simp at hj; omega

theorem witness_ReadbackCodes :
    (worked false [12, 13]).work = .clearance [12, 13]
      ∧ (permitOf (.switching 70 .closing) .issuing 0).work = .switching 70 .closing := ⟨rfl, rfl⟩

/-! ### Terminals and crews -/

/-- The town's third record as a guest. -/
def guestTown : Site := { town with roster := [(2, Terminal.guest 300 .personal)] }

/-- A roster with one index free, the last. -/
def nearlyFull : Table Terminal := (List.range 159).map fun n => (n, Terminal.loadedNow (n + 1) .vehicle)

theorem witness_TerminalRequestsTaken_create :
    (served town).admits (sent 5) 5 ∧ (0xFFFFFFFE : Word).toNat ≤ 0xFFFFFFFE ∧ 1 ≤ (1 : Word).toNat ∧ town.sorted = true
      ∧ town.byId 0xFFFFFFFE = none ∧ Table.firstFree town.roster 160 = some 3
      ∧ Table.firstFree nearlyFull 160 = some 159 := ⟨test_admitted _ 5, by decide +kernel⟩

theorem witness_TerminalRequestsTaken_held :
    town.byId 300 = some (2, Terminal.loadedNow 300 .personal) ∧ (Terminal.loadedNow 300 .personal).origin = .loaded
      ∧ guestTown.byId 300 = some (2, Terminal.guest 300 .personal) ∧ (Terminal.guest 300 .personal).origin = .guest
      ∧ terminalKindOf 1 = some (Terminal.loadedNow 300 .personal).kind := by decide

theorem witness_TerminalRequestsTaken_drop :
    (served town).admits (sent 4) 4 ∧ (Terminal.loadedNow 300 .personal).crew = none ∧ Table.look town.watches 2 = none :=
  ⟨test_admitted _ 4, rfl, rfl⟩

/-- An AFFILIATED terminal under supervision, an item addressed to another, and a retained permit whose result is addressed to
it. -/
theorem witness_TerminalRequestsTaken_removal :
    let result : PulItem := { owner := .permit 0, addressee := 0, content := .permitResult 4 .void 0, location := none }
    let other : PulItem := { owner := .terminal 2, addressee := 2, content := .watchStop, location := none }
    let kept := { permitOf clearance .void 0 with retained := true }
    let s := { town with pul := [(3, result), (4, other)], nextItem := 5, permits := [(0, kept)] }
    Table.look town.roster 0 = some vehicle ∧ vehicle.state = .affiliated ∧ vehicle.channel = some 0
      ∧ Table.look (watched .alarm 0 0).watches 1 = some (watchIn .alarm 0) ∧ Table.look town.watches 0 = none
      ∧ s.sorted = true ∧ s.rosterSound = true ∧ { s with roster := [] }.affiliated 0 = false
      ∧ Table.look s.pul 4 = some other ∧ other.addressee ≠ 0 ∧ Table.look s.permits 0 = some kept ∧ kept.retained = true
      ∧ (∃ e ∈ s.pul, e.2.addressee = 0 ∧ e.2.owner = .permit 0)
      ∧ Table.look (permitted clearance .issued 0).permits 0 = some (permitOf clearance .issued 0)
      ∧ (permitOf clearance .issued 0).retained = false := by decide +kernel

/-- A new crew at the last crew number, with one unbound member and no vehicle. -/
theorem witness_CrewRequestsTaken_new :
    (served town).admits (sent 13) 13 ∧ crewRanges 4095 0 [300] = true ∧ town.allHeld 0 [300] = true
      ∧ (town.namedVehicle 0 = none ∧ town.namedMembers [300] = [2]) ∧ town.kindAt 2 .personal = true
      ∧ town.freeFor 4095 2 = true ∧ Table.look town.crews 4095 = none ∧ town.crews.length < 64 :=
  ⟨test_admitted _ 13, by decide +kernel⟩

/-- Crew 1 loaded again, with its vehicle, and without one. -/
theorem witness_CrewRequestsTaken_again :
    crewRanges 1 100 [200] = true ∧ town.allHeld 100 [200] = true ∧ town.namedVehicle 100 = some 0
      ∧ town.kindAt 0 .vehicle = true ∧ town.namedMembers [200] = [1] ∧ town.kindAt 1 .personal = true
      ∧ town.freeFor 1 0 = true ∧ town.freeFor 1 1 = true ∧ (Table.look town.crews 1).map Crew.vehicle = some (some 0)
      ∧ Table.look town.watches 1 = none ∧ town.namedVehicle 0 = none ∧ crewRanges 1 0 [200] = true
      ∧ town.allHeld 0 [200] = true ∧ town.moving 1 = false ∧ town.issuing 1 = false := by decide +kernel

theorem witness_CrewRequestsTaken_drop :
    (served town).admits (sent 2) 2 ∧ crewOf 1 = some 1 ∧ (Table.look town.crews 1).map Crew.permits = some 0
      ∧ town.deliveryList 1 = [] ∧ Table.look town.watches 1 = none := ⟨test_admitted _ 2, by decide +kernel⟩

/-- A vehicle that is AFFILIATED and one that is not, and an order's blocks at a capacity and above it. -/
theorem witness_CrewRequestsTaken_orders :
    (ordered .held).vehicleRecord 1 = some (0, vehicle) ∧ vehicle.state = .affiliated
      ∧ { ordered .queued with roster := [(0, Terminal.loadedNow 100 .vehicle)] }.vehicleRecord 1
        = some (0, Terminal.loadedNow 100 .vehicle)
      ∧ (Terminal.loadedNow 100 .vehicle).state ≠ .affiliated ∧ (ordered .held).sorted = true
      ∧ (order .held).blocks ≤ 1 ∧ 0 < (order .queued).blocks := by decide +kernel

/-! ### Channels -/

/-- Channel 0 in a state, with its quiet timer and its pending bring-up as given. -/
def standing (st : ChannelState) (timer : Option Nat) (pend : Bool) : Site :=
  onChannel { upChannel with state := st, quietTimer := timer, pendingBringUp := pend }

theorem witness_ChannelRequestsTaken_bringUp :
    (served town).admits (sent 1) 1 ∧ (standing .down none false).secondary 0 = false
      ∧ (standing .quiet none false).members 0 = [0] ∧ ((standing .quiet none false).chan 0).state = .quiet
      ∧ ((standing .quiet (some 2) false).chan 0).quietTimer.isSome = true ∧ (pairIn .fault).members 0 = [0, 1]
      ∧ ((pairIn .fault).chan 1).state = .fault ∧ ((pairIn .fault).chan 1).leverOpen = false
      ∧ (pairIn .fault).supply = .normal := ⟨test_admitted _ 1, by decide +kernel⟩

/-- CHANNEL_RESET from UP, from DRAINING and from another state, by either member of a pair and at a slot without a pair. -/
theorem witness_ChannelRequestsTaken_reset :
    (∃ m ∈ town.members 0, (town.chan m).state ≠ .absent) ∧ (town.chan (town.logical 0)).state = .up
      ∧ ((pairIn .draining).chan ((pairIn .draining).logical 1)).state = .draining
      ∧ (∀ m ∈ (pairIn .training).members 1, ((pairIn .training).chan m).present = true)
      ∧ ((pairIn .training).chan ((pairIn .training).logical 1)).state = .training := by decide +kernel

theorem witness_ChannelRequestsTaken_quiet_and_reset :
    (town.chan 0).state = .up ∧ town.secondary 0 = false ∧ ((standing .quiet none true).chan 0).state = .quiet
      ∧ ((standing .fault none false).chan 0).present = true ∧ ((pairIn .training).chan 1).state ≠ .absent
      ∧ (pairIn .training).logical 1 = 0 ∧ ((pairIn .training).chan 0).state ≠ .up := by decide +kernel

/-- SET_CHANNEL at both ends of its ranges, and a pairing turned on at two channels that are DOWN. -/
theorem witness_ChannelRequestsTaken_settings :
    (served town).admits (sent 10) 10 ∧ (configOf ⟨0, 0, 0, 1, 15, 255, 7, 1, 0⟩).isSome = true
      ∧ (configOf ⟨2, 1, 1, 15, 1, 0, 0, 0, 1⟩).map ChannelConfig.pairing = some true ∧ primaryOf 2 = 2
      ∧ (town.chan 0).config.pairing = false ∧ ((pairIn .down).chan 0).state.pairable = true
      ∧ ((pairIn .down).chan (partnerOf 0)).state.pairable = true ∧ ((pairIn .down).chan 0).config.pairing = true :=
  ⟨test_admitted _ 10, by decide +kernel⟩

theorem witness_ChannelRequestsTaken_stats :
    (served town).admits (sent 2) 2 ∧ markOf 0 = some false ∧ markOf 1 = some true ∧ (3 : Byte).toNat = (3 : Chan).val :=
  ⟨test_admitted _ 2, rfl, rfl, rfl⟩

theorem witness_ChannelEventsTaken_module_and_lever :
    (town.chan 3).state = .absent ∧ (town.chan 3).present = false ∧ (town.chan 0).present = true
      ∧ (town.chan 0).state = .up ∧ (town.chan 0).leverOpen = false ∧ ((standing .down none false).chan 0).state = .down
      ∧ ((standing .quiet none true).chan 0).leverOpen = false := by decide +kernel

/-- A lever that opens and a module that leaves, in TRAINING and in DRAINING with no frame awaited; a lever that opens at an
empty slot; and one that opens in UP with the transmitter IDLE and with it SENDING. -/
theorem witness_ChannelEventsTaken_pairs :
    (∀ st ∈ [ChannelState.training, .draining], ((pairIn st).chan 1).state = st ∧ ((pairIn st).chan 1).present = true
        ∧ ((pairIn st).chan 1).leverOpen = false ∧ ((pairIn st).chan ((pairIn st).logical 1)).awaited = none)
      ∧ (town.chan 3).leverOpen = false ∧ (town.chan 3).state = .absent ∧ (town.chan (town.logical 0)).activity = .idle
      ∧ ((onChannel { upChannel with activity := .sending }).chan 0).activity ≠ .idle := by decide +kernel

/-- A pair whose other member is not ready, a single channel, and a training timer at its end. -/
theorem witness_ChannelEventsTaken_training :
    ((pairIn .training).chan 0).state = .training ∧ (∃ m ∈ (pairIn .training).members 0, m ≠ 0
        ∧ ((pairIn .training).chan m).ready = false)
      ∧ (∀ m ∈ (standing .training none false).members 0, m ≠ 0 → ((standing .training none false).chan m).ready = true)
      ∧ (onChannel { upChannel with state := .training, trainingTimer := some 0 }).count = 0 := by decide +kernel

theorem witness_ChannelEventsTaken_timers :
    ((standing .quiet (some 0) false).chan 0).quietTimer = some 0
      ∧ ((standing .quiet (some 0) false).chan 0).pendingBringUp = false
      ∧ ((standing .quiet (some 0) true).chan 0).pendingBringUp = true
      ∧ (∀ m ∈ (standing .quiet (some 0) true).members 0, m ≠ 0 → ((standing .quiet (some 0) true).chan m).quietTimer = none)
      ∧ ((onChannel { upChannel with beaconTimer := some 0 }).chan 0).beaconTimer = some 0
      ∧ ((onChannel { upChannel with beaconTimer := some 0 }).chan 0).state = .up := by decide +kernel

/-- A channel that is UP, a pair whose quiet timers both run, and one whose other timer has ended. -/
theorem witness_ChannelEventsTaken_ready_and_partner :
    let ch := { upChannel with
      state := .quiet, quietTimer := some 0, pendingBringUp := true, config := { ChannelConfig.default with pairing := true } }
    let both : Site := { Site.blank with channels := #v[ch, ch, .blank, .blank] }
    let one : Site := { both with channels := #v[{ ch with quietTimer := none }, ch, .blank, .blank] }
    (town.chan 0).state ≠ .training ∧ (both.chan 1).quietTimer = some 0
      ∧ (∃ m ∈ both.members 1, m ≠ 1 ∧ (both.chan m).quietTimer ≠ none)
      ∧ (one.chan (one.logical 1)).pendingBringUp = true ∧ ∀ m ∈ one.members 1, m ≠ 1 → (one.chan m).quietTimer = none := by
  decide +kernel

/-- A module that leaves a channel in UP, a frame on the air that is awaited, a window that awaits one, and neither. -/
theorem witness_ChannelEventsTaken_abandon :
    let s := onChannel { upChannel with activity := .listening, window := some { granted 0 with acked := some 0 } }
    (town.chan 0).present = true ∧ (town.chan 0).state = .up ∧ (town.chan 0).awaited = none ∧ (town.chan 0).onAir = none
      ∧ (s.chan 0).onAir = none ∧ (s.chan 0).awaited = some 0 := by decide +kernel

theorem witness_QuietDepartsFromUp :
    (served town).admits (sent 1) 1 ∧ town.secondary 0 = false ∧ (town.chan 0).state = .up
      ∧ ∃ t, exec (.quiet (sent 1) 0) (served town) = .next t := ⟨test_admitted _ 1, by decide, by decide, _, rfl⟩

/-! ### Owed items and orders -/

/-- The town with an ORDER frame of order 9 outstanding at the vehicle. -/
def outstanding (st : EntryStatus) (retry : Nat) : Site :=
  { ordered .inFlight with
    roster := [(0, { vehicle with outstanding := some { frame := .order 9 st, channel := 0, retry } })] }

/-- An entry of an item for the vehicle. -/
def entry (x : ItemContent) (st : EntryStatus) : UrgentEntry := { frame := .item 3 0 x, status := st, cancelled := false }

/-- The town with an item of order 9 outstanding at the vehicle. -/
def owed : Site :=
  { ordered .recalling with
    roster := [(0, { vehicle with outstanding := some { frame := .item 3, channel := 0, retry := 0 } })]
    pul := [(3, { owner := .order 9, addressee := 0, content := .recall 9 0, location := some 0 })]
    channels := #v[{ upChannel with urgents := [entry (.recall 9 0) .awaitingAck] }, .blank, .blank, .blank] }

/-- The town with an entry in its URGENT queue. -/
def urging (e : UrgentEntry) (st : OrderState) : Site :=
  { ordered st with channels := #v[{ upChannel with urgents := [e] }, .blank, .blank, .blank] }

/-- The town with `n` items that terminals own. -/
def owing (n : Nat) : Site :=
  { town with
    pul := (List.range n).map fun k => (k, { owner := .terminal k, addressee := 2, content := .watchStop, location := none }) }

/-- The town with `n` entries in channel 0's URGENT queue. -/
def crowded (n : Nat) : Site :=
  { town with
    channels := #v[{ upChannel with
      urgents := List.replicate n { frame := .item 99 2 .prompt, status := .waiting, cancelled := false } },
      .blank, .blank, .blank] }

/-- The sixteenth and the seventeenth item of the terminals, an addressee without a channel, and a queue with one place and
with none. -/
theorem witness_ItemPlacement :
    (owing 15).placementRefused (.terminal 20) = false ∧ (owing 16).placementRefused (.terminal 20) = true
      ∧ town.servingChannel 2 = none ∧ (crowded 15).servingChannel 0 = some 0
      ∧ ((crowded 15).chan 0).urgents.length < 16 ∧ (crowded 16).servingChannel 0 = some 0
      ∧ 16 ≤ ((crowded 16).chan 0).urgents.length ∧ Work.cancelOwned (Work.start (crowded 16)) (.watch 1) .prompt
        = Work.start (crowded 16) := by decide +kernel

/-- An owner's one item: on the list, in a queue without an entry, and with its entry WAITING and in AWAITING_ACK. -/
theorem witness_ItemPlacement_cancel :
    let it : PulItem := { owner := .order 9, addressee := 0, content := .recall 9 0, location := none }
    let queued := { it with location := some 0 }
    let s := { town with pul := [(3, it)], nextItem := 4 }
    let waiting := { urging (entry (.recall 9 0) .waiting) .recalling with pul := [(3, queued)] }
    town.sorted = true ∧ s.sorted = true ∧ s.pul = [] ++ (3, it) :: [] ∧ it.owner = .order 9 ∧ it.content.kind = .recall
      ∧ (∀ e ∈ s.pul, ∀ f ∈ s.pul, e = f) ∧ (∀ e ∈ town.pul, e.2.owner ≠ .order 9) ∧ Table.look s.pul 4 = none
      ∧ Table.look s.pul 3 = some it ∧ it.location = none ∧ Table.look { town with pul := [(3, queued)] }.pul 3 = some queued
      ∧ (town.chan 0).urgents = [] ∧ Table.look waiting.pul 3 = some queued
      ∧ (waiting.chan 0).urgents = [] ++ entry (.recall 9 0) .waiting :: [] ∧ (entry (.recall 9 0) .waiting).holds 3 = true
      ∧ Table.look owed.pul 3 = some queued ∧ (owed.chan 0).urgents = [] ++ entry (.recall 9 0) .awaitingAck :: []
      ∧ (entry (.recall 9 0) .awaitingAck).status ≠ .waiting := by decide +kernel

theorem witness_RecordsComplete :
    Table.look (ordered .queued).orders 9 = some (order .queued)
      ∧ Table.look (permitted clearance .issuing 0).permits 0 = some (permitOf clearance .issuing 0)
      ∧ Table.look (watched .watching 0 0).watches 1 = some (watchIn .watching 0)
      ∧ (watched .watching 0 0).terminalItemsFull = false ∧ (owing 16).terminalItemsFull = true := by decide +kernel

/-- An order that owns a RECALL and one that owns none; a result owed for a permit whose recorded vehicle is AFFILIATED, and
one whose vehicle is not. -/
theorem witness_RecordsComplete_items :
    let result : PulItem := { owner := .permit 0, addressee := 0, content := .permitResult 4 .withdrawn 0, location := none }
    let s := { permitted clearance .releasePending 0 with pul := [(3, result)] }
    let away := { s with roster := [(0, { vehicle with state := .absent, channel := none, short := none })] }
    (∀ e ∈ owed.pul, ∀ f ∈ owed.pul, e = f) ∧ owed.pul ≠ [] ∧ (ordered .queued).pul = []
      ∧ s.pul = [] ++ (3, result) :: [] ∧ s.owesFinalResult 0 = true
      ∧ (permitOf clearance .releasePending 0).recorded.bind s.byId = some (0, vehicle) ∧ vehicle.state = .affiliated
      ∧ ((permitOf clearance .releasePending 0).recorded.bind away.byId).map (fun e => e.2.state) = some .absent
      ∧ away.owesFinalResult 0 = true ∧ (permitted clearance .releasePending 0).owesFinalResult 0 = false := by decide +kernel

/-- An order of the largest size, at the last crew number, and one that does not fit its vehicle. -/
theorem witness_OrdersTaken_send :
    (served town).admits (sent 21) 21 ∧ (9 : Word) ≠ 0 ∧ (Table.look town.crews 1).isSome = true
      ∧ town.vehicleRecord 1 = some (0, vehicle) ∧ Table.look town.orders 9 = none ∧ town.orders.length < 256
      ∧ town.blocksUsed + 40 ≤ 3072 ∧ (vehicle.state = .affiliated ∧ 40 ≤ vehicle.capacity)
      ∧ ¬40 ≤ { vehicle with capacity := 39 }.capacity := ⟨test_admitted _ 21, by decide +kernel⟩

theorem witness_OrdersTaken_states :
    (served (ordered .held)).admits (sent 4) 4
      ∧ (∀ st, Table.look (ordered st).orders (9 : Word).toNat = some (order st))
      ∧ (ordered .delivered).recipientAffiliated (order .delivered) = true
      ∧ (ordered .accepted).recipientAffiliated { order .accepted with recipient := some 300 } = false
      ∧ (order .held).deadline = some 0 ∧ 0 ≤ (ordered .held).count :=
  ⟨test_admitted _ 4, fun _ => rfl, by decide +kernel⟩

/-- The town with `n` notes at its vehicle, 9 the first of them where there are any. -/
def noted (n : Nat) : Site :=
  { town with roster := [(0, { vehicle with notes := (List.range n).map (· + 9) })], orders := [(9, order .recalling)] }

/-- An order created QUEUED and one created HELD; a recipient in the roster and one who is not; a note that is kept already,
one that finds the last place, and one that is dropped. -/
theorem witness_OrdersTaken_recall :
    (order .queued).state = .queued ∧ (order .held).state ≠ .queued
      ∧ Table.look (ordered .delivered).orders 9 = some (order .delivered)
      ∧ (order .delivered).recipient.bind (ordered .delivered).byId = some (0, vehicle)
      ∧ (some 999).bind (ordered .delivered).byId = none ∧ ((noted 1).byId 100).map (fun e => e.2.notes) = some [9]
      ∧ ((noted 0).byId 100).map (fun e => e.2.notes.length) = some 0
      ∧ ((noted 16).byId 100).map (fun e => (e.2.notes.contains 99, e.2.notes.length)) = some (false, 16) := by
  decide +kernel

/-- Free blocks that raise a vehicle's credit and that lower it, a vehicle off the air, a portable, an outstanding ORDER and an
outstanding item. -/
theorem witness_OrdersTaken_credit :
    let low := { vehicle with credit := 3 }
    (Table.look { town with roster := [(0, low)] }.roster 0 = some low ∧ low.kind = .vehicle ∧ low.channel = some 0
        ∧ low.credit < min 9 low.capacity ∧ min 2 low.capacity ≤ low.credit)
      ∧ (Terminal.loadedNow 100 .vehicle).channel = none ∧ portable.kind = .personal
      ∧ ((Table.look (outstanding .awaitingAck 0).roster 0).bind Terminal.outstanding = some
          { frame := .order 9 .awaitingAck, channel := 0, retry := 0 })
      ∧ Table.look (outstanding .awaitingAck 0).orders 9 = some (order .inFlight)
      ∧ (Table.look owed.roster 0).bind Terminal.outstanding = some { frame := .item 3, channel := 0, retry := 0 }
      ∧ vehicle.outstanding = none := by decide +kernel

/-- The vehicle's reply in a window granted to it: its own order, an order of another recipient, and no order. -/
theorem witness_OrdersTaken_reply :
    (∀ st, (served (hearing (ordered st) 0)).inPlace fromVehicle 0)
      ∧ Table.look (hearing (ordered .delivered) 0).roster 0 = some vehicle
      ∧ (hearing (ordered .delivered) 0).replyMatches (order .delivered) 0 vehicle.id = true
      ∧ (hearing (ordered .delivered) 0).replyMatches { order .delivered with recipient := some 300 } 0 vehicle.id = false
      ∧ (∀ st ∈ [OrderState.queued, .held, .inFlight, .accepted, .recalling],
        (hearing (ordered st) 0).replyMatches (order st) 0 vehicle.id = true)
      ∧ Table.look (hearing town 0).orders 9 = none := by
  refine ⟨fun st => ?_, by decide +kernel⟩
  cases st <;> (unfold State.inPlace; decide +kernel)

/-! ### Supervision -/

theorem witness_WatchRequestsTaken_start :
    (served town).admits (sent 7) 7 ∧ town.byId 200 = some (1, portable) ∧ portable.kind = .personal
      ∧ portable.crew.isSome = true ∧ Table.look town.watches 1 = none ∧ town.watches.length < 64
      ∧ (1 ≤ (1 : Byte).toNat ∧ (3 : Byte).toNat ≤ 3) ∧ markOf 1 = some true
      ∧ (Table.look { town with stopNotices := [(1, 5)] }.stopNotices 1).isSome = true :=
  ⟨test_admitted _ 7, by decide +kernel⟩

theorem witness_WatchRequestsTaken_records :
    (served (watched .alarm 0 0)).admits (sent 4) 4 ∧ (served (watched .alarm 0 0)).admits (sent 5) 5
      ∧ (∀ st, Table.look (watched st 0 0).watches 1 = some (watchIn st 0))
      ∧ (watchIn .overdue 0).state.inAlarm = false ∧ (watchIn .acknowledged 0).state.inAlarm = true
      ∧ (watched .alarm 0 0).boundCrew 1 = some 1 :=
  ⟨test_admitted _ 4, test_admitted _ 5, fun _ => rfl, by decide +kernel⟩

/-- The portable's check-in in place, supervised and not. -/
theorem witness_CheckInCycle_checkIn :
    (∀ st, (served (hearing (watched st 0 0) 1)).inPlace fromPortable 1)
      ∧ (served (hearing town 1)).inPlace fromPortable 1 ∧ Table.look (hearing town 1).watches 1 = none := by
  refine ⟨fun st => ?_, ?_, rfl⟩
  · cases st <;> (unfold State.inPlace; decide +kernel)
  · unfold State.inPlace; decide +kernel

/-- Each expiry at the very second it is due, and a grace that renews and one that ends in ALARM. -/
theorem witness_CheckInCycle_expiries :
    (watchIn .watching 0).deadline - (watchIn .watching 0).lead ≤ (watched .watching 0 3000).count
      ∧ (watchIn .prompted 0).deadline ≤ (watched .prompted 0 3600).count
      ∧ (watchIn .overdue 0).deadline + (watchIn .overdue 0).lead ≤ (watched .overdue 0 4200).count
      ∧ (watchIn .overdue 0).missed + 1 < (watchIn .overdue 0).missLimit
      ∧ (watchIn .overdue 1).missLimit ≤ (watchIn .overdue 1).missed + 1
      ∧ (watchIn .alarm 0).escalationExpiry = some 60 ∧ 60 ≤ (watched .alarm 0 60).count := by decide

theorem witness_CheckInCycle_notices :
    let s := { town with stopNotices := [(1, 5)], count := 5 }
    let t := { s with
      pul := [(0, { owner := .terminal 1, addressee := 1, content := .watchStop, location := none })] }
    Table.look s.stopNotices 1 = some 5 ∧ 5 ≤ s.count ∧ s.owned (.terminal 1) .watchSet = none
      ∧ t.owned (.terminal 1) .watchSet
        = some (0, { owner := .terminal 1, addressee := 1, content := .watchStop, location := none }) := by decide +kernel

/-- The senders of an ALARM: supervised or not, a vehicle, an unknown ID, and a short address nobody holds. -/
theorem witness_AlarmsTaken :
    town.resolve 0 (.short 1) = some 1 ∧ Table.look town.roster 1 = some portable ∧ Table.look town.watches 1 = none
      ∧ town.watches.length < 64
      ∧ 64 ≤ { town with watches := (List.range 64).map fun n => (n + 3, watchIn .watching 0) }.watches.length
      ∧ Table.look { town with watches := (List.range 64).map fun n => (n + 3, watchIn .watching 0) }.watches 1 = none
      ∧ (∀ st ∈ [WatchState.watching, .prompted, .overdue, .alarm, .acknowledged],
        Table.look (watched st 0 0).watches 1 = some (watchIn st 0))
      ∧ town.resolve 0 (.short 0) = some 0 ∧ vehicle.kind = .vehicle
      ∧ town.resolve 0 (.id 0xFFFFFFFF) = none ∧ town.resolve 0 (.short 6) = none ∧ town.resolve 3 (.short 0) = none := by
  decide +kernel

/-- The town with `n` ALERT entries on channel 0. -/
def alerted (n : Nat) : Site :=
  { town with
    channels := #v[{ upChannel with
      alerts := List.replicate n { content := .alarmSeen 200 false, sendsLeft := 1, sending := false } },
      .blank, .blank, .blank] }

/-- The last place of an ALERT queue and none, a channel that is not UP, and a record without an alarm channel. -/
theorem witness_AlarmsTaken_placement :
    let r := { watchIn .alarm 0 with alarmChannel := some 0 }
    Table.look { alerted 7 with watches := [(1, r)] }.watches 1 = some r
      ∧ ((alerted 7).chan ((alerted 7).logical 0)).state = .up ∧ ((alerted 7).chan ((alerted 7).logical 0)).alerts.length < 8
      ∧ 8 ≤ ((alerted 8).chan ((alerted 8).logical 0)).alerts.length ∧ (town.chan (town.logical 1)).state ≠ .up
      ∧ (watchIn .alarm 0).alarmChannel = none := by decide +kernel

/-! ### The section map and the permits -/

theorem witness_MapRequestsTaken_sections :
    (served town).admits (sent 2) 2 ∧ (63 : Byte).toNat ≤ 63
      ∧ Table.look { town with switches := [] }.sections 6 ≠ none ∧ { town with switches := [] }.sectionHeld 6 = false
      ∧ { town with switches := [] }.sectionJoined 6 = false := ⟨test_admitted _ 2, by decide +kernel⟩

/-- Switch point 127 defined with two sides and with one; switch point 7 removed. -/
theorem witness_MapRequestsTaken_switches :
    (served town).admits (sent 4) 4 ∧ (127 : Byte).toNat ≤ 127 ∧ town.switchNamed 127 = false
      ∧ ((5 : Byte).toNat ≤ 63 ∧ (6 : Byte).toNat ≤ 63 ∧ (6 : Byte) ≠ 5 ∧ (0xFF : Byte) ≠ 5)
      ∧ (∀ x ∈ [5, 6], (Table.look town.sections x).isSome = true ∧ town.sectionHeld x = false)
      ∧ town.sidesOf 127 = [] ∧ Table.look town.switches 7 ≠ none ∧ town.switchNamed 7 = false
      ∧ town.sidesOf 7 = [5, 6] := ⟨test_admitted _ 4, by decide +kernel⟩

/-- A position recorded at a tagged point, which a CLOSED raises and an OPEN does not. -/
theorem witness_MapRequestsTaken_positions :
    let s := { permitted clearance .issued 0 with sections := [(5, 1), (6, 0)] }
    (served s).admits (sent 2) 2 ∧ s.sorted = true ∧ positionOf 1 = some .closed ∧ positionOf 0 = some .opened
      ∧ Table.look s.switches 7 = some { sideA := 5, sideB := some 6, position := .opened, violated := false }
      ∧ s.tagged { sideA := 5, sideB := some 6, position := .opened, violated := false } = true :=
  ⟨test_admitted _ 2, by decide +kernel⟩

/-- A DANGER with a place, at a full queue, on a channel that is not UP, without a vehicle and with one that is not AFFILIATED;
a permit that reverts and one that does not. -/
theorem witness_MapRequestsTaken_dangers :
    let away := { vehicle with channel := some 1 }
    (town.vehicleRecord 1 = some (0, vehicle) ∧ vehicle.state = .affiliated ∧ vehicle.channel = some 0)
      ∧ ((alerted 7).chan 0).alerts.length < 8 ∧ 8 ≤ ((alerted 8).chan 0).alerts.length ∧ (town.chan 1).state ≠ .up
      ∧ { town with roster := [(0, away)] }.vehicleRecord 1 = some (0, away)
      ∧ town.vehicleRecord 2 = none ∧ (Terminal.loadedNow 100 .vehicle).channel = none
      ∧ Table.look (permitted clearance .issued 0).permits 0 = some (permitOf clearance .issued 0)
      ∧ (permitOf clearance .issued 0).state ≠ .issuing ∧ (permitOf clearance .issuing 0).state = .issuing
      ∧ (permitted clearance .issued 0).sorted = true
      ∧ Table.look town.switches 7 = some { sideA := 5, sideB := some 6, position := .opened, violated := false } := by
  decide +kernel

theorem witness_PermitRequestsTaken_create :
    (served town).admits (sent 7) 7 ∧ permitNumberOf 65535 = some 65535 ∧ crewOf 1 = some 1
      ∧ permitWorkOf 0 [5] = some clearance ∧ town.namesDefined clearance = true ∧ town.livePermit 65535 = none
      ∧ Table.firstFree town.permits 48 = some 0 ∧ town.mode.allowsPermits = true ∧ town.authorized 1 = true
      ∧ town.interlock clearance = true ∧ { town with keyEnable := true }.keyEnable = true
      ∧ { town with keyEnable := true }.interlock clearance = true
      ∧ permitWorkOf 1 [7, 1] = some (.switching 7 .closing) ∧ town.interlock (.switching 7 .closing) = true :=
  ⟨test_admitted _ 7, by decide +kernel⟩

theorem witness_PermitRequestsTaken_live :
    (served (permitted clearance .requested 0)).admits (sent 2) 2
      ∧ (∀ st ∈ [PermitState.requested, .issuing, .issued, .releasePending],
        (permitted clearance st 0).livePermit 4 = some (0, permitOf clearance st 0))
      ∧ (permitted clearance .requested 0).authorized 1 = true
      ∧ (permitted clearance .requested 0).vehicleRecord 1 = some (0, vehicle)
      ∧ (permitted clearance .requested 0).issuing 1 = false
      ∧ (permitted clearance .requested 0).interlock clearance = true
      ∧ (permitted clearance .releasePending 0).alarmsOf 1 = 0
      ∧ { permitted clearance .releasePending 0 with
          crews := [(1, { vehicle := some 0, members := [1], key := 0, alarms := 1, permits := 1 })] }.alarmsOf 1 ≠ 0 :=
  ⟨test_admitted _ 2, by decide +kernel⟩

/-- The release code of the town's permit, 4 + 2 + 3 + 24 + 45 (R154, R156), and another code. -/
theorem witness_PermitRequestsTaken_code :
    (served (permitted clearance .issued 0)).admits (sent 4) 4
      ∧ (78 : Half).toNat = (permitted clearance .issued 0).releaseCode (permitOf clearance .issued 0)
      ∧ (9999 : Half).toNat ≠ (permitted clearance .issued 0).releaseCode (permitOf clearance .issued 0) :=
  ⟨test_admitted _ 4, by decide +kernel⟩

/-- The vehicle's permit frame in place: its crew's permit, no permit, and the readback deadline at its second. -/
theorem witness_PermitFramesTaken :
    (served (hearing (permitted clearance .issuing 2) 0)).inPlace fromVehicle 0
      ∧ (∀ st ∈ [PermitState.requested, .issuing, .issued, .releasePending],
        (hearing (permitted clearance st 0) 0).permitFrom 4 0 = some (0, permitOf clearance st 0))
      ∧ (hearing (permitted (.switching 7 .closing) .issued 0) 0).permitFrom 4 0
        = some (0, permitOf (.switching 7 .closing) .issued 0)
      ∧ (hearing town 0).permitFrom 4 0 = none
      ∧ (permitOf clearance .issuing 0).attempts + 1 < 3 ∧ 3 ≤ (permitOf clearance .issuing 2).attempts + 1
      ∧ (33 : Fin 10000).val = (permitted clearance .issuing 0).issueCode (permitOf clearance .issuing 0)
      ∧ (permitOf clearance .issuing 0).deadline = some 180
      ∧ 180 ≤ { permitted clearance .issuing 0 with count := 180 }.count := by
  refine ⟨?_, by decide +kernel⟩
  unfold State.inPlace; decide +kernel

theorem witness_PermitFramesTaken_result :
    (permitOf clearance .issuing 0).recorded.bind (permitted clearance .issuing 0).byId = some (0, vehicle)
      ∧ (permitOf clearance .issuing 0).recorded.bind { town with roster := [] }.byId = none
      ∧ Table.look (permitted clearance .issuing 0).permits 0 = some (permitOf clearance .issuing 0) := by decide +kernel

/-- A SWITCH_DONE that names an ISSUED clearance, a RELEASE_ASK that names an ISSUED switching permit, and a number whose first
live permit has another crew's vehicle for its sender. -/
theorem witness_PermitFramesTaken_unmatched :
    (permitOf clearance .issued 0).state = .issued ∧ (permitOf clearance .issued 0).work = .clearance [5]
      ∧ (permitOf (.switching 7 .closing) .issued 0).work = .switching 7 .closing
      ∧ (permitted clearance .issued 0).permits = [] ++ (0, permitOf clearance .issued 0) :: []
      ∧ (Table.look (permitted clearance .issued 0).crews 1).map Crew.vehicle = some (some 0)
      ∧ (permitted clearance .issued 0).permitFrom 4 2 = none ∧ town.permits = [] := by decide +kernel

/-! ### The requests that read, and the air -/

theorem witness_ReadsChangeNothing :
    (served town).admits (sent 5) 5 ∧ (served town).admits (sent 4) 4 ∧ (served town).admits (sent 2) 2
      ∧ (served town).admits (sent 1) 1 ∧ (served town).admits (sent 0) 0 ∧ town.byId 100 = some (0, vehicle)
      ∧ Table.look town.roster 0 = some vehicle ∧ (Table.look town.crews 1).isSome = true
      ∧ Table.look (ordered .held).orders 9 = some (order .held)
      ∧ Table.look (watched .watching 0 0).watches 1 = some (watchIn .watching 0)
      ∧ (permitted clearance .issued 0).permitNamed 4 = some (0, permitOf clearance .issued 0)
      ∧ (63 : Byte).toNat ≤ 63 ∧ (127 : Byte).toNat ≤ 127 :=
  ⟨test_admitted _ 5, test_admitted _ 4, test_admitted _ 2, test_admitted _ 1, test_admitted _ 0, by decide +kernel⟩

/-- The first on its crew's delivery list; a record in each supervision state; an owned item on the list, in a queue, and none;
a live permit and a retained record for one number, at a section it lists and at a switch point it names; an outstanding item
whose owner holds it and one cancelled; a terminal HIGH by each line of R24, and one in the access set. -/
theorem witness_ReadsChangeNothing_bodies :
    let it : PulItem := { owner := .watch 1, addressee := 1, content := .prompt, location := none }
    let kept := { permitOf clearance .void 0 with retained := true }
    (ordered .held).deliveryList (order .held).crew = [] ++ (9, order .held) :: []
      ∧ (∀ st ∈ [WatchState.watching, .prompted, .overdue, .alarm, .acknowledged], (watchIn st 0).state = st)
      ∧ (watchIn .alarm 0).escalationExpiry = some 60 ∧ Table.look town.roster 1 = some portable
      ∧ ([(3, it)] = [] ++ (3, it) :: [] ∧ it.owner = .watch 1 ∧ it.content.kind = .prompt ∧ it.location = none)
      ∧ { it with location := some 0 }.location = some 0 ∧ town.pul = []
      ∧ (permitted clearance .issued 0).sorted = true
      ∧ (permitted clearance .issued 0).permits = [] ++ (0, permitOf clearance .issued 0) :: []
      ∧ (permitOf clearance .issued 0).state = .issued ∧ kept.number = 4 ∧ kept.retained = true ∧ kept.state = .void
      ∧ (owed.chan 0).urgents = [] ++ entry (.recall 9 0) .awaitingAck :: [] ∧ (Table.look owed.pul 3).isSome = true
      ∧ Table.look { owed with pul := [] }.pul 3 = none
      ∧ (watched .watching 0 0).tier 1 = .high ∧ busy.tier 0 = .high ∧ (permitted clearance .issued 0).tier 0 = .high
      ∧ town.tier 0 = .low ∧ Table.look town.roster 3 = none
      ∧ { town with channels := #v[{ upChannel with accessSet := [0] }, .blank, .blank, .blank] }.accessPending 0 = true := by
  decide +kernel

/-- An entry that may go and one that may not, by each line of R69's table, and a cancelled frame in RETRY. -/
theorem witness_SchedulerChooses_urgent :
    let s := urging (entry .prompt .waiting) .held
    s.urgentEligible 0 (entry .prompt .waiting) = true ∧ s.urgentEligible 0 (entry (.recall 9 0) .retry) = true
      ∧ (outstanding .sending 0).urgentEligible 0 (entry (.recall 9 0) .waiting) = false
      ∧ owed.urgentEligible 0 (entry .prompt .waiting) = true
      ∧ { owed with channels := #v[{ upChannel with
            urgents := [{ entry (.recall 9 0) .retry with cancelled := true }] }, .blank, .blank, .blank] }.urgentEligible 0
          (entry .prompt .waiting) = false := by decide +kernel

/-- Every case of the choice: the classes barred, a retry, a first send, one class, both, and neither. -/
theorem witness_SchedulerChooses_classes :
    { town with mode := .alarmsOnly }.mode = .alarmsOnly ∧ { town with secondSupply := true }.supply = .critical
      ∧ town.mode ≠ .alarmsOnly ∧ town.supply ≠ .critical
      ∧ (outstanding .retry 1).retryHolder 0 9 = some 0 ∧ (outstanding .retry 1).rankedOrders = [(9, order .inFlight)]
      ∧ (ordered .queued).newSend 0 (order .queued) = some 0 ∧ (ordered .queued).urgentHead 0 = none
      ∧ (ordered .queued).routineHead 0 = some (9, order .queued, 0)
      ∧ (urging (entry .prompt .waiting) .held).urgentHead 0 = some (entry .prompt .waiting)
      ∧ (urging (entry .prompt .waiting) .held).routineHead 0 = none
      ∧ (urging (entry .prompt .waiting) .queued).routineHead 0 = some (9, order .queued, 0)
      ∧ (urging (entry .prompt .waiting) .queued).urgentHead 0 = some (entry .prompt .waiting)
      ∧ town.urgentHead 0 = none ∧ town.routineHead 0 = none := by decide +kernel

/-- A balance that affords its head and one that does not, in either turn; a channel that chooses and one that does not. -/
theorem witness_SchedulerChooses_balance :
    8 ≤ min 255 (0 + 24) ∧ min 255 (0 + 8) < 22 ∧ (town.chan 0).state = .up ∧ (town.chan 0).activity = .idle
      ∧ town.secondary 0 = false ∧ ¬((hearing town 0).chan 0).activity = .idle := by decide +kernel

/-- A beacon, an IDLE whose grant goes to the access set's member, and one that finds the set empty. -/
theorem witness_SendingsStart_grants :
    let s := { town with channels := #v[{ upChannel with accessSet := [0] }, .blank, .blank, .blank] }
    draftIdle.needsAck = false ∧ s.arbitrate (s.chan 0).highPointer (s.chan 0).lowPointer [0] = some (0, none, some 0)
      ∧ town.arbitrate none none [] = none := by decide +kernel

/-- The head ALERT, an entry of either need, and the first send and the resend of an order. -/
theorem witness_SendingsStart_classes :
    let alert : AlertEntry := { content := .alarmSeen 200 true, sendsLeft := 1, sending := false }
    ((onChannel { upChannel with alerts := [alert] }).chan 0).alerts = alert :: []
      ∧ ((urging (entry .prompt .waiting) .queued).chan 0).urgents = [] ++ entry .prompt .waiting :: []
      ∧ (entry .prompt .waiting).needsAck = false ∧ (entry (.recall 9 0) .retry).frame = .item 3 0 (.recall 9 0)
      ∧ (ItemContent.recall 9 0).needsAck = true ∧ (order .queued).state = .queued ∧ (order .inFlight).state ≠ .queued
      ∧ Table.look (ordered .queued).orders 9 = some (order .queued)
      ∧ Table.look (ordered .queued).roster 0 = some vehicle := by decide +kernel

/-- A frame to a short address, one by ID, a broadcast with a grant and one without, and frames of either need. -/
theorem witness_SendingsStart_forms :
    (town.recipientAt 0 0).broadcast = false ∧ (town.recipientAt 0 0).short = some 0 ∧ (town.recipientAt 0 2).short = none
      ∧ Recipient.all.broadcast = true ∧ (some 0).bind (Table.look town.roster) = some vehicle
      ∧ (none : Option Nat).bind (Table.look town.roster) = none ∧ (town.draftOrder 0 (order .queued) 9 0).needsAck = true
      ∧ draftIdle.needsAck = false := by decide +kernel

/-- A recorded ID that a record holds and one that none holds, and a clearance of five sections, that takes three blocks. -/
theorem witness_SendingsStart_drafts :
    town.byId 100 = some (0, vehicle) ∧ town.byId 999 = none ∧ Table.look town.roster 0 = some vehicle
      ∧ (town.draftUrgent 0 (.item 3 0 (.permit 4 5 0 0 (.clearance [1, 2, 3, 4, 5])))).blocks = 3 := by decide +kernel

/-- An outstanding frame of either kind, at the last miss within the limit and at the one above it, with its item in the list
and without. -/
theorem witness_FramesAreAcknowledgedOrMissed :
    (Table.look (outstanding .awaitingAck 0).roster 0).bind Terminal.outstanding
        = some { frame := .order 9 .awaitingAck, channel := 0, retry := 0 }
      ∧ (Table.look owed.roster 0).bind Terminal.outstanding = some { frame := .item 3, channel := 0, retry := 0 }
      ∧ (Table.look owed.pul 3).isSome = true ∧ Table.look { owed with pul := [] }.pul 3 = none
      ∧ 0 + 1 ≤ (owed.chan 0).config.retryLimit
      ∧ (owed.chan 0).config.retryLimit < (owed.chan 0).config.retryLimit + 1 := by decide +kernel

/-- Room that finds an item on the list, and a queue with none. -/
theorem witness_FramesAreAcknowledgedOrMissed_room :
    let it : PulItem := { owner := .watch 1, addressee := 1, content := .prompt, location := none }
    let s := { town with pul := [(3, it)] }
    (s.chan 0).state = .up ∧ (s.chan 0).urgents.length < 16 ∧ s.pul = [] ++ (3, it) :: [] ∧ it.location = none
      ∧ s.affiliatedOn it.addressee 0 = true ∧ ¬((crowded 16).chan 0).urgents.length < 16
      ∧ (∀ e ∈ { town with pul := [(3, { it with addressee := 2 })] }.pul, town.affiliatedOn e.2.addressee 0 = false) := by
  decide +kernel

/-- The note of an AFFILIATED vehicle that owns no RECALL, the last place for one and none, and a terminal without notes. -/
theorem witness_FramesAreAcknowledgedOrMissed_notes :
    Table.look (noted 2).roster 0 = some { vehicle with notes := [9, 10] } ∧ (noted 2).pul = []
      ∧ (noted 2).roster = [] ++ (0, { vehicle with notes := [9, 10] }) :: []
      ∧ ((owing 15).pul.filter fun e => e.2.owner.isTerminal).length < 16
      ∧ ¬((owing 16).pul.filter fun e => e.2.owner.isTerminal).length < 16 ∧ vehicle.notes = []
      ∧ (∀ y ∈ town.roster, ¬(y.2.state = .affiliated ∧ y.2.notes ≠ [])) := by decide +kernel

/-- The vehicle's absence with a frame outstanding, the absence of a terminal that is not AFFILIATED, and a terminal with none
outstanding. -/
theorem witness_AbsencesAndWithdrawals :
    Table.look town.roster 0 = some vehicle ∧ vehicle.state = .affiliated ∧ vehicle.channel = some 0
      ∧ Table.look town.roster 2 = some (Terminal.loadedNow 300 .personal)
      ∧ (Terminal.loadedNow 300 .personal).state ≠ .affiliated ∧ vehicle.outstanding = none
      ∧ (∃ e ∈ ((urging (entry .prompt .waiting) .held).chan 0).urgents, ∃ x, e.frame = .item 3 0 x ∧ e.status = .waiting)
      ∧ (outstanding .awaitingAck 0).sorted = true := by
  refine ⟨rfl, rfl, rfl, rfl, by decide, rfl, ⟨entry .prompt .waiting, .head _, .prompt, rfl, rfl⟩, by decide⟩

/-- The end of an ORDER frame: IN_FLIGHT with a reply and without one, RECALLING, and a capacity below and at the order's
blocks. -/
theorem witness_AbsencesAndWithdrawals_orders :
    Table.look (ordered .inFlight).orders 9 = some (order .inFlight) ∧ (order .inFlight).reply = none
      ∧ { order .inFlight with reply := some .done }.reply = some .done ∧ (order .recalling).state = .recalling
      ∧ 0 < (order .inFlight).blocks ∧ (order .inFlight).blocks ≤ 1 := by decide

/-- A frame on the air that awaits the vehicle's acknowledgement. -/
def sentFrame : AirFrame :=
  { header :=
      { kind := .order, addressee := 0, grant := 0, sequence := false, fec := false, rate := .mid, blocks := 1, channel := 0
        idField := none }
    payload := .order (List.replicate 12 0), grant := .implied, target := some 0, acked := some 0, airtime := 4 }

/-- Channel 0 sending that frame after `n` send failures, in a state. -/
def sending (st : ChannelState) (n : Nat) : Site :=
  onChannel { upChannel with state := st, activity := .sending, onAir := some sentFrame, sendFailureRun := n }

/-- A pair sending that frame. -/
def sendingPair (second : Bool) : Site :=
  let ch := { upChannel with
    activity := .sending, onAir := some sentFrame, config := { ChannelConfig.default with pairing := true } }
  { Site.blank with channels := #v[ch, { ch with memberDone := second }, .blank, .blank] }

theorem witness_SendsAndWindows_sending :
    ((sending .up 0).chan 0).onAir = some sentFrame ∧ ((sending .up 0).chan 0).activity = .sending
      ∧ ((sending .up 0).chan 0).memberDone = false
      ∧ (∃ m ∈ (sendingPair false).members 0, m ≠ 0 ∧ ((sendingPair false).chan m).memberDone = false)
      ∧ (∀ m ∈ (sendingPair true).members 0, m ≠ 0 → ((sendingPair true).chan m).memberDone = true)
      ∧ ((sending .draining 0).chan 0).state = .draining ∧ ((sending .up 1).chan 0).sendFailureRun < 2
      ∧ 2 ≤ ((sending .up 2).chan 0).sendFailureRun := by decide +kernel

/-- The ALERT and the URGENT entry that are being sent: the last send and one before it, a reply, an item of either need, and a
result whose permit is retained and one whose permit is not. -/
theorem witness_SendsAndWindows_ends :
    let alert : AlertEntry := { content := .alarmSeen 200 true, sendsLeft := 1, sending := true }
    let result : PulItem := { owner := .permit 0, addressee := 0, content := .permitResult 4 .withdrawn 0, location := some 0 }
    let s := { permitted clearance .withdrawn 0 with pul := [(3, result)] }
    let kept := { permitOf clearance .withdrawn 0 with retained := true }
    ([alert] = [] ++ alert :: [] ∧ alert.sending = true ∧ alert.sendsLeft ≤ 1 ∧ ¬{ alert with sendsLeft := 2 }.sendsLeft ≤ 1)
      ∧ ((urging (entry .prompt .sending) .held).chan 0).urgents = [] ++ entry .prompt .sending :: []
      ∧ ItemContent.prompt.needsAck = false ∧ (entry (.recall 9 0) .sending).needsAck = true
      ∧ (∀ e ∈ ((urging (entry .prompt .waiting) .held).chan 0).urgents, e.status ≠ .sending)
      ∧ Table.look s.pul 3 = some result ∧ Table.look s.permits 0 = some (permitOf clearance .withdrawn 0)
      ∧ (permitOf clearance .withdrawn 0).retained = false
      ∧ Table.look { s with permits := [(0, kept)] }.permits 0 = some kept ∧ kept.retained = true := by decide +kernel

/-- A window's close that judges nothing against the channel, and the sixteenth bad one. -/
theorem witness_SendsAndWindows_window :
    let bad := { granted 0 with badSeen := true }
    let s := onChannel { upChannel with activity := .listening, window := some bad, badWindowRun := 15 }
    ((hearing town 0).chan 0).window = some (granted 0) ∧ ((hearing town 0).chan 0).state = .up
      ∧ (s.chan 0).window = some bad ∧ bad.goodSeen = false ∧ bad.grant ≠ .none ∧ 16 ≤ (s.chan 0).badWindowRun + 1
      ∧ (s.chan 0).config.extended = false := by decide +kernel

/-- A pair of which either member trips. -/
theorem witness_SendsAndWindows_trip :
    (sendingPair false).members 1 = [0, 1] ∧ (sendingPair false).logical 1 = 0 ∧ (pairIn .up).members 0 = [0, 1] := by
  decide

theorem witness_ArrivalsTaken_frames :
    town.resolve 0 fromVehicle.sender = some 0 ∧ town.affiliatedOn 0 0 = true ∧ 0 ∉ (town.chan 0).accessSet
      ∧ 0 ∈ ((onChannel { upChannel with accessSet := [0] }).chan 0).accessSet ∧ town.affiliatedOn 2 0 = false
      ∧ town.resolve 0 (.id 300) = some 2 ∧ Table.look town.roster 0 = some vehicle
      ∧ ((listening town { granted 0 with acked := some 0 }).chan 0).window = some { granted 0 with acked := some 0 }
      ∧ vehicle.sequenceBit = false := by decide +kernel

/-- A granted-kind frame of a terminal that is known and not granted, one whose sender is unknown, and a channel with no
window. -/
theorem witness_ArrivalsTaken_aside :
    town.resolve 0 fromVehicle.sender = some 0 ∧ ¬(served town).inPlace fromVehicle 0
      ∧ (hearing town 0).resolve 0 fromPortable.sender = some 1 ∧ ¬(served (hearing town 0)).inPlace fromPortable 1
      ∧ town.resolve 0 (.short 6) = none ∧ town.resolve 0 (.id 999) = none ∧ (town.chan 0).window = none
      ∧ town.roster = [] ++ (0, vehicle) :: [(1, portable), (2, Terminal.loadedNow 300 .personal)] := by
  unfold State.inPlace; decide +kernel

theorem witness_ArrivalsTaken_depart :
    (served (hearing town 0)).inPlace fromVehicle 0 ∧ Table.look (hearing town 0).roster 0 = some vehicle := by
  unfold State.inPlace; decide +kernel

/-- The vehicle affiliates anew, and the unbound portable for the first time. -/
theorem witness_ArrivalsTaken_affiliate :
    (town.chan 0).state = .up ∧ town.sorted = true ∧ town.byId 100 = some (0, vehicle)
      ∧ vehicle.kind = declaredKind ⟨false, 2, false, false, false, 255⟩ ∧ town.paired 0 = false
      ∧ (town.terminalsOn 0).length < 40 ∧ (town.chan 0).urgents.length < 16
      ∧ town.byId 300 = some (2, Terminal.loadedNow 300 .personal)
      ∧ (Terminal.loadedNow 300 .personal).kind = declaredKind ⟨true, 0, false, false, false, 0⟩ := by decide +kernel

/-- A renewal, a move from channel 0 to 1, and a first affiliation; a lowest short address, and a channel that holds all seven;
a supervised portable in an alarm and out of it; a crew's vehicle and a terminal that is none. -/
theorem witness_ArrivalsTaken_acceptance :
    let all : Site := { town with
      roster := (List.range 7).map fun k => (k + 1, { portable with id := k + 1, short := some k }) }
    vehicle.state = .affiliated ∧ vehicle.channel = some 0 ∧ (0 : Chan) ≠ 1
      ∧ (Terminal.loadedNow 300 .personal).state ≠ .affiliated ∧ town.freeShort 0 2 = some 2 ∧ all.freeShort 0 0 = none
      ∧ Table.look (watched .alarm 0 0).watches 1 = some (watchIn .alarm 0) ∧ Table.look town.watches 1 = none
      ∧ town.crewOfVehicle 0 = some 1 ∧ town.crewOfVehicle 1 = none ∧ Table.look town.roster 0 = some vehicle := by
  decide +kernel

/-- Channel 0 of the town with `n` terminals on it, in a mode. -/
def joined (n : Nat) (m : Mode) : Site :=
  { onChannel upChannel with
    mode := m
    roster := (List.range n).map fun k => (k, { portable with id := k + 1, crew := none, short := none }) }

/-- A channel that is not UP; IDs 0 and 0xFFFFFFFF, that address nobody, and the last that does; an ID of another kind; a full
and a nearly full channel and queue; and a guest in OPEN and out of it. -/
theorem witness_ArrivalsTaken_refused :
    (town.chan 1).state ≠ .up ∧ ¬1 ≤ (0 : Word).toNat ∧ ¬(0xFFFFFFFF : Word).toNat ≤ 0xFFFFFFFE
      ∧ (1 ≤ (0xFFFFFFFE : Word).toNat ∧ (0xFFFFFFFE : Word).toNat ≤ 0xFFFFFFFE) ∧ town.byId 999 = none
      ∧ vehicle.kind ≠ declaredKind ⟨true, 0, false, false, false, 0⟩ ∧ town.mode ≠ .openMode
      ∧ { town with mode := .openMode }.mode = .openMode ∧ Table.look { town with mode := .openMode }.roster 3 = none
      ∧ (pairIn .up).paired 0 = true ∧ 40 ≤ ((joined 40 .openMode).terminalsOn 0).length
      ∧ ((joined 39 .openMode).terminalsOn 0).length < 40 ∧ (joined 40 .openMode).sorted = true
      ∧ (joined 40 .openMode).byId 41 = none ∧ (joined 40 .openMode).affiliatedOn 0 0 = true
      ∧ 16 ≤ ((crowded 16).chan 0).urgents.length ∧ ((crowded 15).chan 0).urgents.length < 16 := by decide +kernel

end Sys2Proof.Tests
end

/-!
The minutes of the duration codes and the check-in leads that rest on them (R1, R112).
-/
namespace Sys2Proof.Machine

theorem secondsOf_eq (c : Nat) : secondsOf c = 60 * minutesOf c := Nat.mul_comm ..

theorem minutesOf_pos (c : Nat) : 0 < minutesOf c := by
  unfold minutesOf
  split <;> decide

/-- Codes 10 and up stand for 90 minutes or more (R1), so a fifth of the interval is past the lead's 600-second limit. -/
theorem ninety_le_minutesOf {c : Nat} (h : 10 ≤ c) : 90 ≤ minutesOf c := by
  unfold minutesOf
  split <;> omega

/-- R112's three steps: a fifth of the interval, brought within 30 to 600 seconds, and at most half the interval. -/
theorem leadOf_eq_steps (c : Nat) :
    leadOf c = (let a := secondsOf c / 5
      let b := if a < 30 then 30 else if 600 < a then 600 else a
      if secondsOf c / 2 < b then secondsOf c / 2 else b) := by
  have clamp (a : Nat) : max 30 (min 600 a) = if a < 30 then 30 else if 600 < a then 600 else a := by
    split_ifs <;> omega
  have cap (b h : Nat) : min b h = if h < b then h else b := by
    split_ifs <;> omega
  rw [leadOf, clamp, cap]

theorem leadOf_of_ten_le {c : Nat} (h : 10 ≤ c) : leadOf c = 600 := by
  have hm := ninety_le_minutesOf h
  have hs := secondsOf_eq c
  unfold leadOf
  omega

/-- The lead is at most half the interval, which is never empty. -/
theorem leadOf_lt_secondsOf (c : Nat) : leadOf c < secondsOf c := by
  have hs : 0 < secondsOf c := Nat.mul_pos (minutesOf_pos c) (by decide)
  calc leadOf c ≤ secondsOf c / 2 := Nat.min_le_right ..
    _ < secondsOf c := Nat.div_lt_self hs (by decide)

/-- Settles O34: the two tables are evaluated; the rest is said of every code. -/
theorem durationsAndLeads : Obligations.DurationsAndLeads :=
  ⟨by decide, secondsOf_eq, leadOf_eq_steps, by decide, fun _ => leadOf_of_ten_le, leadOf_lt_secondsOf⟩

end Sys2Proof.Machine

/-!
Readback codes (Chapter 8): the weighted sum of a list of words, the words of each kind of permit, and the two codes of a
permit (R154 to R156).
-/
namespace Sys2Proof.Machine

/-- The sum of R154 place by place: the first word weighs `k`, and each later one 1 more than the word before it. -/
theorem weighted_eq_sum (k : Nat) (l : List Nat) :
    weighted k l = ((List.range l.length).map fun j => (k + j) * l.getD j 0).sum := by
  induction l generalizing k with
  | nil => rfl
  | cons w t ih =>
    rw [weighted, ih, List.length_cons, List.range_succ_eq_map]
    simp [Function.comp_def, Nat.add_right_comm, Nat.add_assoc]

theorem codeOf_eq_sum (l : List Nat) :
    codeOf l = ((List.range l.length).map fun j => (j + 1) * l.getD j 0).sum % 9973 := by
  simp only [codeOf, weighted_eq_sum, Nat.add_comm 1]

/-- A code is a remainder modulo 9973, so its four digits never pass 9972. -/
theorem codeOf_le (l : List Nat) : codeOf l ≤ 9972 := Nat.le_of_lt_succ (Nat.mod_lt _ (by decide))

theorem permitWords_of_clearance {p : Permit} {l : List Nat} (h : p.work = .clearance l) (key : Nat) :
    permitWords p key = [p.number, 1, p.crew] ++ l.map (· + 1) ++ if p.keyed = true then [key] else [] := by
  simp only [permitWords, h, PermitWork.isClearance, if_true]

theorem permitWords_of_switching {p : Permit} {sw : Nat} {op : SwitchOp} (h : p.work = .switching sw op) (key : Nat) :
    permitWords p key = [p.number, 2, p.crew, sw + 1, if op = .opening then 1 else 2]
      ++ if p.keyed = true then [key] else [] := by
  cases op <;> simp [permitWords, h, PermitWork.isClearance]

/-- R154 and R155 for a clearance. -/
theorem Site.issueCode_of_clearance (s : Site) {p : Permit} {l : List Nat} (h : p.work = .clearance l) :
    s.issueCode p =
      codeOf ([p.number, 1, p.crew] ++ l.map (· + 1) ++ if p.keyed = true then [s.keyOf p.crew] else []) := by
  rw [Site.issueCode, permitWords_of_clearance h]

/-- R156 for a clearance: the word 9 comes last, after the key. -/
theorem Site.releaseCode_of_clearance (s : Site) {p : Permit} {l : List Nat} (h : p.work = .clearance l) :
    s.releaseCode p =
      codeOf ([p.number, 1, p.crew] ++ l.map (· + 1) ++ (if p.keyed = true then [s.keyOf p.crew] else []) ++ [9]) := by
  rw [Site.releaseCode, permitWords_of_clearance h]

/-- R154 and R155 for a switching permit. -/
theorem Site.issueCode_of_switching (s : Site) {p : Permit} {sw : Nat} {op : SwitchOp} (h : p.work = .switching sw op) :
    s.issueCode p = codeOf ([p.number, 2, p.crew, sw + 1, if op = .opening then 1 else 2]
      ++ if p.keyed = true then [s.keyOf p.crew] else []) := by
  rw [Site.issueCode, permitWords_of_switching h]

/-- Settles O38: the sum by induction on the list of words, the words by the permit's kind of work. -/
theorem readbackCodes : Obligations.ReadbackCodes :=
  ⟨codeOf_eq_sum, fun s _ _ h => ⟨s.issueCode_of_clearance h, s.releaseCode_of_clearance h⟩,
    fun s _ _ _ h => s.issueCode_of_switching h, codeOf_le⟩

end Sys2Proof.Machine

/-!
The report queue: which reports coalesce, the place of one that does, and the limits for a routine one that does not
(R169, R170).
-/
namespace Sys2Proof.Machine

/-- R170's table, row by row; a pair of kinds outside it is of no common source. -/
theorem ReportBody.sameSource_iff (a b : ReportBody) : a.sameSource b = true ↔
    ((∃ x y, a = .terminalState x ∧ b = .terminalState y ∧ x.id = y.id)
      ∨ (∃ x y, a = .channelState x ∧ b = .channelState y ∧ x.channel = y.channel)
      ∨ (∃ x y z w, a = .supplyState x y ∧ b = .supplyState z w) ∨ ∃ x y, a = .linkError x ∧ b = .linkError y) := by
  unfold ReportBody.sameSource
  split
  · simp
  · simp
  · simp
  · simp
  next noTerminals noChannels noSupplies noLinks =>
    refine ⟨fun h => absurd h Bool.false_ne_true, ?_⟩
    rintro (⟨x, y, ha, hb, -⟩ | ⟨x, y, ha, hb, -⟩ | ⟨x, y, z, w, ha, hb⟩ | ⟨x, y, ha, hb⟩)
    · exact (noTerminals x y ha hb).elim
    · exact (noChannels x y ha hb).elim
    · exact (noSupplies x y z w ha hb).elim
    · exact (noLinks x y ha hb).elim

theorem replaceSource_cons_same {r x : Report} (h : x.body.sameSource r.body = true) (q : List Report) :
    replaceSource r (x :: q) = r :: q := if_pos h

theorem replaceSource_cons_other {r x : Report} (h : x.body.sameSource r.body = false) (q : List Report) :
    replaceSource r (x :: q) = x :: replaceSource r q := if_neg (by simp [h])

/-- The first report of the source gives up its place; those before it and behind it keep theirs. -/
theorem replaceSource_append {r x : Report} {p : List Report} (q : List Report)
    (before : ∀ y ∈ p, y.body.sameSource r.body = false) (same : x.body.sameSource r.body = true) :
    replaceSource r (p ++ x :: q) = p ++ r :: q := by
  induction p with
  | nil => exact replaceSource_cons_same same q
  | cons y p ih =>
    obtain ⟨hy, hp⟩ := List.forall_mem_cons.1 before
    rw [List.cons_append, replaceSource_cons_other hy, ih hp, List.cons_append]

/-- R170: whatever its class and however full the queue, a report that coalesces meets none of the limits of R169. -/
theorem Link.queueReport_of_sameSource {l : Link} {r x : Report} {p q : List Report} (hl : l.reports = p ++ x :: q)
    (before : ∀ y ∈ p, y.body.sameSource r.body = false) (same : x.body.sameSource r.body = true) :
    l.queueReport r = { l with reports := p ++ r :: q } := by
  have waits : (l.reports.any fun y => y.body.sameSource r.body) = true :=
    List.any_eq_true.2 ⟨x, by simp [hl], same⟩
  rw [Link.queueReport, if_pos waits, hl, replaceSource_append q before same]

/-- R169's two rows for a routine report. -/
theorem Link.queueReport_of_routine {l : Link} {r : Report} (alone : ∀ y ∈ l.reports, y.body.sameSource r.body = false)
    (routine : r.body.alarmClass = false) :
    l.queueReport r = (if routineCount l.reports < 48 ∧ l.reports.length < 64 then { l with reports := l.reports ++ [r] }
      else { l with reportsLost := true }) := by
  have noneWaits : ¬(l.reports.any fun y => y.body.sameSource r.body) = true := by
    simpa using alone
  rw [Link.queueReport, if_neg noneWaits, if_neg (by simp [routine])]

/-- No mark of the report mask covers LINK_ERROR (R171), so a discard always offers it, with the counters as just raised. -/
theorem Link.discarded_eq_queueReport (l : Link) (s : Site) (c : LinkCounters) :
    l.discarded s c = (({ l with receiver := .hunting, counters := c } : Link).queueReport
      { count := s.count, label := s.label, body := .linkError c }).chooseFrame := by
  have uncovered : ¬s.mask.covers (.linkError c) = true := Bool.false_ne_true
  rw [Link.discarded, Link.offerOne, if_neg uncovered]

/-- Settles O7: the sources by R170's table, the place by induction on the reports before it, the rest by R169's limits. -/
theorem reportsCoalesceInPlace : Obligations.ReportsCoalesceInPlace :=
  ⟨ReportBody.sameSource_iff, fun _ _ _ _ _ hl before same => Link.queueReport_of_sameSource hl before same,
    fun _ _ alone routine => Link.queueReport_of_routine alone routine, Link.discarded_eq_queueReport⟩

end Sys2Proof.Machine

/-!
What a step can do to the site as a whole: it runs the front command, and every command either upholds what the site's tables,
ranges, laws and counts say, or boots the part (R4, R15, R16, R19, R61, R72, R78, R81, R132, R139).
-/
namespace Sys2Proof.Machine

/-- What every command but a boot upholds, from site `a` to site `b`: Held without the configurations, which SET_CHANNEL
changes. -/
structure Upheld (a b : Site) : Prop where
  sorted : a.sorted = true → b.sorted = true
  roster : a.rosterSound = true → b.rosterSound = true
  channels : ∀ c, (a.chan c).sound = true → (b.chan c).sound = true
  lawful : a.sorted = true → a.lawful → b.lawful
  books : a.sorted = true → Books a b

theorem Held.upheld {a b : Site} (h : Held a b) : Upheld a b := ⟨h.sorted, h.roster, h.channels, h.lawful, h.books⟩

theorem Upheld.trans {a b c : Site} (h : Upheld a b) (k : Upheld b c) : Upheld a c :=
  ⟨k.sorted ∘ h.sorted, k.roster ∘ h.roster, fun d => k.channels d ∘ h.channels d,
    fun w l => k.lawful (h.sorted w) (h.lawful w l), fun w => (h.books w).trans (k.books (h.sorted w))⟩

/-- A channel may change in whatever its soundness does not read, its configuration among it. -/
theorem Upheld.modChan (w : Work) (c : Chan) (f : Channel → Channel) (hf : ∀ ch, (f ch).sound = ch.sound) :
    Upheld w.site (w.modChan c f).site where
  sorted h := h
  roster h := h
  channels d h := by
    rw [Work.modChan_chan]
    split
    next e => rw [hf, ← e]; exact h
    next => exact h
  lawful _ h := h
  books h := Level.books (b := (w.modChan c f).site) (.of_eq rfl rfl rfl rfl rfl) h h

theorem Upheld.modChans (cs : List Chan) (w : Work) (f : Channel → Channel) (hf : ∀ ch, (f ch).sound = ch.sound) :
    Upheld w.site (w.modChans cs f).site := by
  induction cs generalizing w with
  | nil => exact (Held.refl _).upheld
  | cons c cs ih => exact (Upheld.modChan w c f hf).trans (ih _)

theorem takeSetChannel_upheld (b : Byte) (f : ChannelFields) (w : Work) :
    Upheld w.site (takeSetChannel b f w).work.site := by
  have config : ∀ (v : Work) (c : Chan) (g : ChannelConfig),
      Upheld v.site (v.modChan c fun ch => { ch with config := g }).site :=
    fun v c g => Upheld.modChan v c _ fun _ => rfl
  have same := (Held.refl w.site).upheld
  unfold takeSetChannel
  split
  next c g _ _ =>
    split_ifs
    · exact same
    · exact (Upheld.modChans [c, partnerOf c] w (fun ch => { ch with pendingBringUp := false }) fun _ => rfl).trans
        (config _ c g)
    · exact same
    · exact config w c g
    · exact config w c g
  next => exact same

/-- A request whose taking upholds the site upholds it, however it is judged. -/
theorem request_upheld {s t : State} {h : Hdr} {k : Byte} {f : Bool} {act : Link → Work → Taking}
    (e : request h k f act s = .next t) (hact : ∀ l, Upheld s.begun.site (act l s.begun).work.site) :
    Upheld s.site t.site := by
  have arrived : Upheld s.site s.begun.site := (Held.arrived _).upheld
  have concluded : ∀ {w : Work} (l : Link), Upheld s.site w.site → Upheld s.site (s.conclude l w).site :=
    fun l hw => hw.trans (conclude_held s l (.refl _)).upheld
  rcases request_cases e with ⟨-, rfl⟩ | ⟨-, ⟨-, rfl⟩ | ⟨-, ⟨-, rfl⟩ | ⟨-, ⟨-, rfl⟩ | ⟨-, ⟨-, rfl⟩ | ⟨-, rfl⟩⟩⟩⟩⟩
  · exact (Held.refl _).upheld
  · exact concluded _ arrived
  · exact concluded _ arrived
  · exact concluded _ arrived
  · exact concluded (s.link.arrived s.site) arrived
  · exact concluded (s.link.arrived s.site) (arrived.trans (hact _))

/-- Every command upholds the site, or boots the part. -/
theorem exec_upheld_or_booted {c : Instr} {s t : State} (e : exec c s = .next t) :
    Upheld s.site t.site ∨ ∃ x : Site, t.site = x.booted := by
  by_cases calm : Calm c s
  · exact .inl (exec_held e calm).upheld
  · simp only [Calm, not_and_or, not_forall, not_not] at calm
    obtain ⟨h, b, f, rfl⟩ | ⟨l, rfl⟩ | ⟨a, b, tag, body, rfl, sent⟩ := calm
    · exact .inl (request_upheld e fun _ => takeSetChannel_upheld b f _)
    · cases e; exact .inr ⟨_, rfl⟩
    · cases hp : s.powered
      · rw [show exec (.outgoingFrameSent a b) s = .next s by simp [exec, execOutgoingFrameSent, hp]] at e
        cases e; exact .inl (Held.refl _).upheld
      · rw [show exec (.outgoingFrameSent a b) s = .next (s.boot s.site false a b) by
          simp [exec, execOutgoingFrameSent, hp, sent]] at e
        cases e; exact .inr ⟨_, rfl⟩

/-- A step idles, or runs the front command with the rest of the queue. -/
theorem step_cases {s t : State} (e : step s = .next t) :
    t = s ∨ ∃ c rest, s.pending = c :: rest ∧ exec c { s with pending := rest } = .next t := by
  unfold step at e
  split at e
  next => cases e; exact .inl rfl
  next c rest hp => exact .inr ⟨c, rest, hp, e⟩

theorem step_upheld_or_booted {s t : State} (e : step s = .next t) :
    Upheld s.site t.site ∨ ∃ x : Site, t.site = x.booted := by
  obtain rfl | ⟨c, rest, -, e⟩ := step_cases e
  · exact .inl (Held.refl _).upheld
  · exact exec_upheld_or_booted (s := { s with pending := rest }) e

/-! ### A part freshly booted (R177) -/

theorem Site.booted_sorted (s : Site) : s.booted.sorted = true := rfl

theorem Site.booted_rosterSound (s : Site) : s.booted.rosterSound = true := rfl

theorem Site.booted_chan (s : Site) (c : Chan) : s.booted.chan c = (s.chan c).booted (s.loaded.configs.get c) := by
  fin_cases c <;> rfl

theorem Site.booted_channelsSound (s : Site) : s.booted.channelsSound = true :=
  (channelsSound_iff _).2 fun c => by rw [Site.booted_chan]; rfl

theorem Site.booted_lawful (s : Site) : s.booted.lawful :=
  ⟨fun _ he => absurd he List.not_mem_nil, fun _ he => absurd he List.not_mem_nil⟩

/-- No terminal holds a short address where the roster is empty. -/
theorem Site.booted_apart (s : Site) : s.booted.apart := fun _ _ _ _ hi => by cases hi

theorem Site.booted_cleared (s : Site) : s.booted.Cleared where
  counts _ := rfl
  listed _ _ hp := by cases hp
  retained _ _ hp := by cases hp

theorem Site.booted_booked (s : Site) : s.booted.Booked where
  alarms _ := rfl
  permits _ := rfl
  bound i n := ⟨fun h => (by cases h), fun ⟨_, h, _⟩ => (by cases h)⟩
  kinds _ _ h := by cases h
  units _ _ h := by cases h
  guests _ _ h := by cases h
  retained _ _ h := by cases h

/-! ### What every step keeps -/

/-- Settles O21. -/
theorem tablesStayCanonical : Obligations.TablesStayCanonical := by
  intro s t k e
  obtain h | ⟨x, h⟩ := step_upheld_or_booted e
  · exact h.sorted k
  · rw [h]; exact x.booted_sorted

/-- Settles O22. -/
theorem rosterRangesKept : Obligations.RosterRangesKept := by
  intro s t k e
  obtain h | ⟨x, h⟩ := step_upheld_or_booted e
  · exact h.roster k
  · rw [h]; exact x.booted_rosterSound

/-- Settles O23. -/
theorem channelRangesKept : Obligations.ChannelRangesKept := by
  intro s t k e
  obtain h | ⟨x, h⟩ := step_upheld_or_booted e
  · exact (channelsSound_iff _).2 fun c => h.channels c ((channelsSound_iff _).1 k c)
  · rw [h]; exact x.booted_channelsSound

/-- Settles O24. -/
theorem interlockLawKept : Obligations.InterlockLawKept := by
  intro s t w k e
  obtain h | ⟨x, h⟩ := step_upheld_or_booted e
  · exact h.lawful w k
  · rw [h]; exact x.booted_lawful

/-- Settles O25. -/
theorem shortAddressesStayApart : Obligations.ShortAddressesStayApart := by
  intro s t w k e
  obtain h | ⟨x, h⟩ := step_upheld_or_booted e
  · exact (h.books w).apart k
  · rw [h]; exact x.booted_apart

/-- Settles O26. -/
theorem clearanceCountsKept : Obligations.ClearanceCountsKept := by
  intro s t w k e
  obtain h | ⟨x, h⟩ := step_upheld_or_booted e
  · exact (h.books w).cleared k
  · rw [h]; exact x.booted_cleared

/-- Settles O27. -/
theorem crewCountsKept : Obligations.CrewCountsKept := by
  intro s t w k e
  obtain h | ⟨x, h⟩ := step_upheld_or_booted e
  · exact (h.books w).booked k
  · rw [h]; exact x.booted_booked

/-- Settles O28: the configurations are part of what every other command holds. -/
theorem configurationChangesOnlyBySetChannel : Obligations.ConfigurationChangesOnlyBySetChannel := by
  intro s t c e changed
  by_contra other
  simp only [not_or, not_exists, not_and] at other
  have held := exec_held e ⟨other.1, other.2.1, other.2.2⟩
  exact changed (by simp only [Site.configs, held.configs])


/-! ### The limits of the link (R166, R169) -/

/-- The end of a sent frame frees the line and at most a place, or boots the part (R167, R177). -/
theorem outgoingFrameSent_bounded {a b : Bool} {s t : State} (k : s.link.bounded = true)
    (e : execOutgoingFrameSent a b s = .next t) : t.link.bounded = true := by
  have freed : ∀ p : List Place, p.length ≤ s.link.places.length →
      (s.conclude { s.link with outgoing := none, places := p } (Work.start s.site)).link.bounded = true :=
    fun p hp => State.conclude_bounded s (Link.places_bounded (l := { s.link with outgoing := none }) k p hp) _
  unfold execOutgoingFrameSent at e
  split at e
  next =>
    split at e
    next => cases e; exact k
    next => cases e; exact freed _ (Nat.le_refl _)
    next =>
      split at e
      next => cases e; exact State.boot_bounded ..
      next => cases e; exact freed _ (by rw [List.length_tail]; exact Nat.sub_le ..)
  next => cases e; exact k

/-- Every command keeps the limits: a request by its judgement, an event by its closing, a boot by emptying the queues. -/
theorem exec_bounded {c : Instr} {s t : State} (k : s.link.bounded = true) (e : exec c s = .next t) :
    t.link.bounded = true := by
  have stored : ∀ (f g : Place → Place) (w : Work),
      (s.conclude { s.link with places := (s.link.places.map f).map g } w).link.bounded = true :=
    fun f g w => State.conclude_bounded s (Link.places_bounded k _ (by simp)) w
  cases r : requestBody c with
  | some x =>
    obtain ⟨kind, h, b⟩ := x
    obtain ⟨fits, act, q⟩ := isRequest r
    exact request_bounded k ((q.runs s).symm.trans e)
  | none =>
    cases c <;> simp only [exec] at e
    case powerOn => cases e; exact State.boot_bounded ..
    case powerLoss =>
      unfold execPowerLoss at e
      split at e <;> cases e <;> exact k
    case outgoingFrameSent => exact outgoingFrameSent_bounded k e
    case storeWriteCompletion =>
      unfold execStoreWriteCompletion at e
      split at e
      next => split at e <;> cases e; exacts [stored _ _ _, k]
      next => cases e; exact k
    case modeWriteCompletion =>
      unfold execModeWriteCompletion at e
      split at e
      next => split at e <;> cases e; exacts [stored _ _ _, k]
      next => cases e; exact k
    case badTagDiscard => exact request_bounded k e
    case overflowDiscard =>
      unfold execOverflowDiscard at e
      split at e
      · exact request_bounded k e
      · cases e; exact k
    case unknownKindRefusal =>
      unfold execUnknownKindRefusal at e
      split at e
      · cases e; exact k
      · exact request_bounded k e
    case requestDiscardedAfterRestart =>
      unfold execRequestDiscardedAfterRestart at e
      split at e
      · exact request_bounded k e
      · cases e; exact k
    case badCheckDiscard | tooLongDiscard | gapExpiry => exact discard_bounded k e
    case inboundUndecodable | access | affiliate | alarm | ack => exact arrival_bounded k e
    case checkIn | orderReply | readback | switchDone | releaseAsk | depart => exact granted_bounded k e
    case moduleInserted | moduleRemoved | leverOpened | leverClosed | supplyLevelChange | keySwitchMoved
        | transceiverReady | trainingTimeout | quietTimerExpiry | beaconTimerExpiry | sendCompletion | sendFailure
        | windowClose | inboundBadCheck | secondTick | hostSilenceExpiry | holdExpiry | promptDue | deadlineExpiry
        | graceExpiry | escalationExpiry | stopNoticeDrop | readbackTimeout => exact event_bounded k e
    all_goals cases r

/-- Settles O5. -/
theorem linkLimitsKept : Obligations.LinkLimitsKept := by
  intro s t k e
  obtain rfl | ⟨c, rest, -, e⟩ := step_cases e
  · exact k
  · exact exec_bounded (s := { s with pending := rest }) k e

/-! ### Refused requests (R166) -/

/-- Settles O13: of the outcomes of a judgement only an answer holds a place, and a refusal leaves its work as it began. -/
theorem refusedRequestsChangeNothing : Obligations.RefusedRequestsChangeNothing := by
  intro c k h b s t st body hb powered e bad held
  obtain ⟨fits, act, q⟩ := isRequest hb
  have begun : s.begun.serve.site = s.site.arrived := by rw [Work.serve_of_no_offers _ rfl]; rfl
  have answer : ∀ x : Taking, t = s.answered h k x → x.wait = .ready st body := by
    rintro x rfl
    simpa using held
  obtain ⟨p, -⟩ | ⟨-, ⟨-, rfl⟩ | ⟨-, ⟨-, rfl⟩ | ⟨-, ⟨-, rfl⟩ | ⟨-, ⟨-, rfl⟩ | ⟨-, rfl⟩⟩⟩⟩⟩ :=
    request_cases ((q.runs s).symm.trans e)
  · exact absurd (powered.symm.trans p) (by decide)
  · simp at held
  · simp [State.discarded] at held
  · simp [State.discarded] at held
  · have w := answer _ rfl
    rw [Work.refused_wait, Wait.ready.injEq] at w
    exact ⟨begun, w.2.symm, State.answered_counters ..⟩
  · obtain ⟨whole, empty⟩ := q.refuses _ _ _ _ (answer _ rfl) bad
    exact ⟨by rw [State.answered_site, whole, begun], empty, State.answered_counters ..⟩

/-! ### The mode (R157, R161) -/

theorem Kept.mode {a b : Site} (h : Kept a b) : b.mode = a.mode :=
  have fixed : b.fixed.mode = a.fixed.mode := congrArg Site.mode h.fixed
  fixed

/-- The choices that close a step leave the mode alone. -/
theorem Work.serve_mode (w : Work) : w.serve.site.mode = w.site.mode :=
  (State.conclude_kept (a := w.site) State.reset .blank (.refl _)).mode

theorem request_mode {s t : State} {h : Hdr} {k : Byte} {f : Bool} {act : Link → Work → Taking}
    (e : request h k f act s = .next t) (hact : ∀ l, (act l s.begun).work.site.mode = s.site.mode) :
    t.site.mode = s.site.mode := by
  rcases request_cases e with ⟨-, rfl⟩ | ⟨-, ⟨-, rfl⟩ | ⟨-, ⟨-, rfl⟩ | ⟨-, ⟨-, rfl⟩ | ⟨-, ⟨-, rfl⟩ | ⟨-, rfl⟩⟩⟩⟩⟩
  · rfl
  · exact Work.serve_mode _
  · exact Work.serve_mode _
  · exact Work.serve_mode _
  · exact Work.serve_mode _
  · exact (Work.serve_mode _).trans (hact _)

theorem event_mode {s t : State} {f : Work → Work} (e : event f s = .next t)
    (h : (f s.work).site.mode = s.site.mode) : t.site.mode = s.site.mode := by
  unfold event at e
  split at e <;> cases e
  · exact (Work.serve_mode _).trans h
  · rfl

theorem discard_mode {s t : State} {f : LinkCounters → LinkCounters} (e : Sys2Proof.Machine.discard f s = .next t) :
    t.site.mode = s.site.mode := by
  unfold Sys2Proof.Machine.discard at e
  split at e <;> cases e
  · exact Work.serve_mode _
  · rfl

theorem arrival_mode {s t : State} {a : Arrival} {act : Chan → Option Nat → Work → Work}
    (e : arrival a act s = .next t) (h : ∀ c i (w : Work), Kept s.site w.site → Kept s.site (act c i w).site) :
    t.site.mode = s.site.mode :=
  event_mode e (h _ _ _ (Work.receive_kept (kept_work s) _ _ (Nat.le_of_lt_succ a.sample.isLt))).mode

theorem granted_mode {s t : State} {a : Arrival} {act : Chan → Nat → Work → Work}
    (e : granted a act s = .next t) (h : ∀ c i (w : Work), Kept s.site w.site → Kept s.site (act c i w).site) :
    t.site.mode = s.site.mode := by
  refine arrival_mode e fun c i w hw => ?_
  have heard : ∀ j, Kept s.site (w.modChan c fun ch => ch.hear j).site := fun j =>
    Work.modChan_kept hw c (fun ch => ch.hear j) rfl fun k => k
  dsimp only
  split
  next j => split; exacts [h _ _ _ (heard j), heard j]
  next => exact hw

/-- A write that ends leaves the mode in force; what it stores is the image's (R162, R175). -/
theorem Site.writeDone_mode (s : Site) (w : StoreWrite) : (s.writeDone w).mode = s.mode := by
  unfold Site.writeDone
  dsimp only
  split <;> rfl

/-- The commands that leave the mode alone are all but SET_MODE and the boots. -/
theorem exec_mode {c : Instr} {s t : State} (e : exec c s = .next t) (notSet : ∀ h m, c ≠ .setMode h m)
    (notPower : ∀ l, c ≠ .powerOn l)
    (notRestart : ∀ a b tag body, c = .outgoingFrameSent a b → s.link.outgoing ≠ some (.reply tag 0x05 .ok body)) :
    t.site.mode = s.site.mode := by
  cases c <;> simp only [exec] at e
  case powerOn l => exact absurd rfl (notPower l)
  case getStatus => exact request_mode e fun _ => rfl
  case setSite =>
    refine request_mode e fun _ => ?_
    split <;> rfl
  case setClock => exact request_mode e fun _ => rfl
  case storeSettings =>
    refine request_mode e fun _ => ?_
    split <;> rfl
  case restart => exact request_mode e fun _ => rfl
  case loadTerminal => exact request_mode e fun _ => (takeLoadTerminal_kept (.refl _) _ _).mode
  case dropTerminal => exact request_mode e fun _ => (takeDropTerminal_kept (.refl _) _).mode
  case getTerminal => exact request_mode e fun _ => by rw [takeGetTerminal_work]; rfl
  case loadCrew => exact request_mode e fun _ => (takeLoadCrew_kept (.refl _) _ _ _ _).mode
  case dropCrew => exact request_mode e fun _ => (takeDropCrew_kept (.refl _) _).mode
  case getCrew => exact request_mode e fun _ => by rw [takeGetCrew_work]; rfl
  case bringUp => exact request_mode e fun _ => (takeBringUp_kept (.refl _) _).mode
  case quiet => exact request_mode e fun _ => (takeQuiet_kept (.refl _) _).mode
  case channelReset => exact request_mode e fun _ => (takeChannelReset_kept (.refl _) _).mode
  case setChannel =>
    refine request_mode e fun _ => ?_
    unfold takeSetChannel
    split
    · split_ifs <;> rfl
    · rfl
  case takeStats => exact request_mode e fun _ => (takeTakeStats_kept (.refl _) _ _).mode
  case getChannel => exact request_mode e fun _ => by rw [takeGetChannel_work]; rfl
  case sendOrder => exact request_mode e fun _ => (takeSendOrder_kept (.refl _) _ _ _ _ _ _).mode
  case cancelOrder => exact request_mode e fun _ => (takeCancelOrder_kept (.refl _) _).mode
  case closeOrder => exact request_mode e fun _ => (takeCloseOrder_kept (.refl _) _).mode
  case getOrder => exact request_mode e fun _ => by rw [takeGetOrder_work]; rfl
  case startWatch => exact request_mode e fun _ => (takeStartWatch_kept (.refl _) _ _ _ _).mode
  case stopWatch => exact request_mode e fun _ => (takeStopWatch_kept (.refl _) _).mode
  case ackAlarm => exact request_mode e fun _ => (takeAckAlarm_kept (.refl _) _).mode
  case resolveAlarm => exact request_mode e fun _ => (takeResolveAlarm_kept (.refl _) _ _).mode
  case getWatch => exact request_mode e fun _ => by rw [takeGetWatch_work]; rfl
  case defineSection => exact request_mode e fun _ => (takeDefineSection_kept (.refl _) _ _).mode
  case defineSwitch => exact request_mode e fun _ => (takeDefineSwitch_kept (.refl _) _ _ _ _).mode
  case setSwitchPosition => exact request_mode e fun _ => (takeSetSwitchPosition_kept (.refl _) _ _).mode
  case requestPermit => exact request_mode e fun _ => (takeRequestPermit_kept (.refl _) _ _ _ _).mode
  case issuePermit =>
    exact request_mode e fun _ =>
      (Work.withPermit_kept (.refl _) _ _ fun k p hk => Work.checkIssue_kept (.refl _) _ _ hk).mode
  case withdrawPermit =>
    exact request_mode e fun _ =>
      (Work.withPermit_kept (.refl _) _ _ fun k p hk => Work.withdrawPermit_kept (.refl _) _ _ hk).mode
  case confirmRelease =>
    exact request_mode e fun _ =>
      (Work.withPermit_kept (.refl _) _ _ fun k p hk => Work.confirmRelease_kept (.refl _) _ _ hk).mode
  case rejectRelease =>
    exact request_mode e fun _ =>
      (Work.withPermit_kept (.refl _) _ _ fun k p hk => Work.rejectRelease_kept (.refl _) _ _ hk).mode
  case verbalRelease =>
    refine request_mode e fun _ => ?_
    split
    · exact (Work.withPermit_kept (.refl _) _ _ fun k p hk => Work.verbalRelease_kept (.refl _) _ _ _ hk).mode
    · rfl
  case restorePermit => exact request_mode e fun _ => (takeRestorePermit_kept (.refl _) _ _ _ _).mode
  case getSection => exact request_mode e fun _ => by rw [takeGetSection_work]; rfl
  case getSwitch => exact request_mode e fun _ => by rw [takeGetSwitch_work]; rfl
  case getPermit => exact request_mode e fun _ => by rw [takeGetPermit_work]; rfl
  case setAuthList =>
    refine request_mode e fun _ => ?_
    unfold takeSetAuthList
    split <;> rfl
  case setMode h m => exact absurd rfl (notSet h m)
  case getAuth => exact request_mode e fun _ => rfl
  case badCheckDiscard | tooLongDiscard | gapExpiry => exact discard_mode e
  case badTagDiscard => exact request_mode e fun _ => rfl
  case overflowDiscard =>
    unfold execOverflowDiscard at e
    split at e
    · exact request_mode e fun _ => rfl
    · cases e; rfl
  case unknownKindRefusal =>
    unfold execUnknownKindRefusal at e
    split at e
    · cases e; rfl
    · exact request_mode e fun _ => rfl
  case requestDiscardedAfterRestart =>
    unfold execRequestDiscardedAfterRestart at e
    split at e
    · exact request_mode e fun _ => rfl
    · cases e; rfl
  case outgoingFrameSent a b =>
    unfold execOutgoingFrameSent at e
    split at e
    next =>
      split at e
      next => cases e; rfl
      next => cases e; exact Work.serve_mode _
      next tag kind st body sent =>
        split at e
        next restart =>
          obtain ⟨rfl, rfl⟩ := restart
          exact absurd sent (notRestart a b tag body rfl)
        next => cases e; exact Work.serve_mode _
    next => cases e; rfl
  case storeWriteCompletion =>
    unfold execStoreWriteCompletion at e
    split at e
    next w _ =>
      split at e <;> cases e
      · exact (Work.serve_mode _).trans (s.site.writeDone_mode w)
      · rfl
    next => cases e; rfl
  case modeWriteCompletion =>
    unfold execModeWriteCompletion at e
    split at e
    next w _ =>
      split at e <;> cases e
      · exact (Work.serve_mode _).trans (s.site.writeDone_mode w)
      · rfl
    next => cases e; rfl
  case moduleInserted => exact event_mode e (Work.insertModule_kept (kept_work s) _).mode
  case moduleRemoved => exact event_mode e (Work.removeModule_kept (kept_work s) _).mode
  case leverOpened => exact event_mode e (Work.openLever_kept (kept_work s) _).mode
  case leverClosed => exact event_mode e (Work.closeLever_kept (kept_work s) _).mode
  case supplyLevelChange a b =>
    refine event_mode e ?_
    dsimp only
    split_ifs
    · rfl
    · exact (foldl_kept _ (fun _ _ hv => Work.criticalAt_kept hv _) _ _ (.refl _)).mode
    · rfl
    · rfl
  case keySwitchMoved => exact event_mode e rfl
  case transceiverReady => exact event_mode e (Work.ready_kept (kept_work s) _).mode
  case trainingTimeout => exact event_mode e (Work.trainingFails_kept (kept_work s) _).mode
  case quietTimerExpiry => exact event_mode e (Work.quietExpires_kept (kept_work s) _).mode
  case beaconTimerExpiry => exact event_mode e (Work.beaconExpires_kept (kept_work s) _).mode
  case sendCompletion => exact event_mode e (Work.sendCompletes_kept (kept_work s) _).mode
  case sendFailure => exact event_mode e (Work.sendFails_kept (kept_work s) _).mode
  case windowClose => exact event_mode e (Work.closeWindow_kept (kept_work s) _).mode
  case inboundBadCheck => exact event_mode e (Work.badFrame_kept (kept_work s) _).mode
  case inboundUndecodable => exact arrival_mode e fun _ _ _ h => h
  case access =>
    refine arrival_mode e fun c i w h => ?_
    split
    · split; exacts [Work.joinAccess_kept h _ _, h]
    · exact h
  case affiliate ch n id co =>
    unfold execAffiliate at e
    exact arrival_mode e fun _ _ _ h => Work.affiliate_kept h _ _ _ (Nat.le_of_lt_succ n.isLt)
  case alarm => exact arrival_mode e fun _ _ _ h => Work.takeAlarm_kept h _ _ _ _ _
  case ack =>
    refine arrival_mode e fun c i w h => ?_
    split
    · split; exacts [Work.acknowledge_kept h _ _, h]
    · exact h
  case checkIn => exact granted_mode e fun _ _ _ h => Work.takeCheckIn_kept h _ _
  case orderReply => exact granted_mode e fun _ _ _ h => Work.takeReply_kept h _ _ _ _
  case readback => exact granted_mode e fun _ _ _ h => Work.takeReadback_kept h _ _ _
  case switchDone => exact granted_mode e fun _ _ _ h => Work.takeSwitchDone_kept h _ _
  case releaseAsk => exact granted_mode e fun _ _ _ h => Work.takeReleaseAsk_kept h _ _
  case depart =>
    refine granted_mode e fun c i w h => ?_
    split
    · exact Work.absent_kept h _ _
    · exact h
  case secondTick =>
    refine event_mode e ?_
    rw [Work.modSite_site, Site.tick]
    split <;> rfl
  case hostSilenceExpiry =>
    refine event_mode e ?_
    split <;> rfl
  case holdExpiry => exact event_mode e (Work.holdExpires_kept (kept_work s) _).mode
  case promptDue => exact event_mode e (Work.promptExpires_kept (kept_work s) _).mode
  case deadlineExpiry => exact event_mode e (Work.deadlineExpires_kept (kept_work s) _).mode
  case graceExpiry => exact event_mode e (Work.graceExpires_kept (kept_work s) _).mode
  case escalationExpiry => exact event_mode e (Work.escalationExpires_kept (kept_work s) _).mode
  case stopNoticeDrop => exact event_mode e (Work.noticeExpires_kept (kept_work s) _).mode
  case readbackTimeout => exact event_mode e (Work.readbackExpires_kept (kept_work s) _).mode
  case powerLoss =>
    unfold execPowerLoss at e
    split at e <;> cases e <;> rfl

/-- Settles O19. -/
theorem modeChangesOnlyBySetMode : Obligations.ModeChangesOnlyBySetMode := by
  intro s t c e changed
  by_contra other
  simp only [not_or, not_exists, not_and] at other
  exact changed (exec_mode e other.1 other.2.1 other.2.2)

end Sys2Proof.Machine

/-!
The machine and its power: one command a step, power-on, the restart of a RESTART and the loss of power (R172, R175 to R177).
-/
namespace Sys2Proof.Machine

/-- Settles O1. -/
theorem stepRunsTheFrontCommand : Obligations.StepRunsTheFrontCommand :=
  ⟨fun _ _ _ => rfl, fun s h => by rw [step, h]⟩

/-- The START report finds an empty queue and a free line, so it is on the line at once (R167, R177). -/
theorem State.boot_link (s : State) (x : Site) (p a b : Bool) : (s.boot x p a b).link =
    { baud := baudOf a b, receiver := .hunting, counters := .zero, places := []
      outgoing := some (.report { count := 0, label := 0, body := .start (x.booted.startReport p (baudOf a b)) })
      reports := [], reportsLost := false } := rfl

theorem Site.booted_present (s : Site) : s.booted.channels.map Channel.present = s.channels.map Channel.present := by
  ext i hi
  have h := congrArg Channel.present (s.booted_chan ⟨i, hi⟩)
  simpa [Site.chan, Channel.booted, Vector.get_eq_getElem] using h

theorem Site.booted_leverOpen (s : Site) :
    s.booted.channels.map Channel.leverOpen = s.channels.map Channel.leverOpen := by
  ext i hi
  have h := congrArg Channel.leverOpen (s.booted_chan ⟨i, hi⟩)
  simpa [Site.chan, Channel.booted, Vector.get_eq_getElem] using h

/-- What a boot makes of a site is what R177 says of the image and the lines it finds. -/
theorem State.boot_freshlyBooted (s : State) (x : Site) (p a b : Bool) :
    (s.boot x p a b).freshlyBooted x.image (x.linesNow a b) p := by
  have link := s.boot_link x p a b
  rw [Site.startReport, Site.booted_present, Site.booted_leverOpen] at link
  refine ⟨rfl, link, rfl, rfl, rfl, rfl, rfl, rfl, rfl, rfl, rfl, rfl, rfl, rfl, rfl, rfl, rfl, rfl, rfl, rfl, rfl, rfl,
    rfl, rfl, rfl, rfl, rfl, rfl, rfl, rfl, rfl, rfl, rfl, rfl, rfl, rfl, fun c => ?_⟩
  have chan : (s.boot x p a b).site.chan c = (x.chan c).booted (x.loaded.configs.get c) := x.booted_chan c
  rw [chan]
  simp [Channel.booted, Site.linesNow, Site.chan, Site.loaded, Vector.get_eq_getElem]
  rfl

/-- The lines as read are the lines given. -/
theorem Site.withLines_linesNow (s : Site) (l : Lines) :
    (s.withLines l).linesNow l.firstStrapTied l.secondStrapTied = l := by
  have present : (s.withLines l).channels.map Channel.present = l.present := by
    ext i hi
    match i, hi with
    | 0, _ | 1, _ | 2, _ | 3, _ => simp [Site.withLines, Channel.withLines, Vector.get_eq_getElem]
  have leverOpen : (s.withLines l).channels.map Channel.leverOpen = l.leverOpen := by
    ext i hi
    match i, hi with
    | 0, _ | 1, _ | 2, _ | 3, _ => simp [Site.withLines, Channel.withLines, Vector.get_eq_getElem]
  rw [Site.linesNow, present, leverOpen]
  rfl

theorem State.imageFound_eq (s : State) : s.imageFound = (if s.powered then s.site.cut else s.site).image := by
  unfold State.imageFound Site.cut
  cases s.powered <;> simp

/-- Settles O2. -/
theorem powerOnAndRestartBootThePart : Obligations.PowerOnAndRestartBootThePart := by
  refine ⟨fun l s => ⟨_, rfl, ?_, rfl⟩, fun a b tag body s powered sent => ⟨s.boot s.site false a b, ?_, ?_, rfl⟩⟩
  · have h := s.boot_freshlyBooted ((if s.powered then s.site.cut else s.site).withLines l) true l.firstStrapTied
      l.secondStrapTied
    rwa [Site.withLines_linesNow, show ((if s.powered then s.site.cut else s.site).withLines l).image = s.imageFound
      from s.imageFound_eq.symm] at h
  · simp [exec, execOutgoingFrameSent, powered, sent]
  · exact s.boot_freshlyBooted s.site false a b

/-- The reset state is what a boot makes of a part with every line released and no image. -/
theorem State.reset_eq_boot : State.reset = State.reset.boot Site.blank true false false := by decide +kernel

/-- Settles O3. -/
theorem resetIsAPowerOn : Obligations.ResetIsAPowerOn := by
  refine ⟨?_, rfl, by decide +kernel⟩
  have h := State.reset.boot_freshlyBooted Site.blank true false false
  rwa [← State.reset_eq_boot, show Site.blank.linesNow false false = releasedLines by decide +kernel] at h

/-- Settles O29: reset is a boot, and every boot is sound. -/
theorem resetIsSound : Obligations.ResetIsSound := by
  have site : State.reset.site = Site.blank.booted := congrArg State.site State.reset_eq_boot
  unfold Obligations.ResetIsSound
  rw [site]
  exact ⟨rfl, Site.booted_sorted _, Site.booted_rosterSound _, Site.booted_channelsSound _, Site.booted_lawful _,
    Site.booted_apart _, Site.booted_cleared _, Site.booted_booked _⟩

/-- A part without power takes nothing but power. -/
theorem exec_unpowered {c : Instr} {s : State} (off : s.powered = false) (notPower : ∀ l, c ≠ .powerOn l) :
    exec c s = .next s := by
  have requests : ∀ h k f act, request h k f act s = .next s := fun h k f act => by simp [request, off]
  have events : ∀ f, event f s = .next s := fun f => event_unpowered off f
  have arrivals : ∀ a act, arrival a act s = .next s := fun a act => events _
  have grants : ∀ a act, granted a act s = .next s := fun a act => arrivals a _
  have discards : ∀ f, discard f s = .next s := fun f => by simp [discard, off]
  cases r : requestBody c with
  | some x =>
    obtain ⟨kind, h, b⟩ := x
    obtain ⟨fits, act, q⟩ := isRequest r
    exact (q.runs s).trans (requests ..)
  | none =>
    cases c <;> simp only [exec]
    case powerOn l => exact absurd rfl (notPower l)
    case badCheckDiscard | tooLongDiscard | gapExpiry => exact discards _
    case badTagDiscard => exact requests ..
    case overflowDiscard =>
      unfold execOverflowDiscard
      split; exacts [requests .., rfl]
    case unknownKindRefusal =>
      unfold execUnknownKindRefusal
      split; exacts [rfl, requests ..]
    case requestDiscardedAfterRestart =>
      unfold execRequestDiscardedAfterRestart
      split; exacts [requests .., rfl]
    case outgoingFrameSent => simp [execOutgoingFrameSent, off]
    case storeWriteCompletion =>
      unfold execStoreWriteCompletion
      split <;> simp [off]
    case modeWriteCompletion =>
      unfold execModeWriteCompletion
      split <;> simp [off]
    case powerLoss => simp [execPowerLoss, off]
    case moduleInserted | moduleRemoved | leverOpened | leverClosed | supplyLevelChange | keySwitchMoved
        | transceiverReady | trainingTimeout | quietTimerExpiry | beaconTimerExpiry | sendCompletion | sendFailure
        | windowClose | inboundBadCheck | secondTick | hostSilenceExpiry | holdExpiry | promptDue | deadlineExpiry
        | graceExpiry | escalationExpiry | stopNoticeDrop | readbackTimeout => exact events _
    case inboundUndecodable | access | affiliate | alarm | ack => exact arrivals _ _
    case checkIn | orderReply | readback | switchDone | releaseAsk | depart => exact grants _ _
    all_goals cases r

/-- Settles O4. -/
theorem powerLossEndsAWrite : Obligations.PowerLossEndsAWrite :=
  ⟨fun _ powered => ⟨_, if_pos powered, rfl, rfl, rfl⟩, fun _ _ off notPower => exec_unpowered off notPower⟩

end Sys2Proof.Machine

/-!
The control link: how a report is offered, masked and placed (R169, R171), and which frame the outgoing line takes (R167).
-/
namespace Sys2Proof.Machine

theorem OrderState.final_eq_false_iff (t : OrderState) :
    t.final = false ↔ t ≠ .done ∧ t ≠ .declined ∧ t ≠ .returned := by
  cases t <;> decide

/-- R171's table, mark by mark. -/
theorem ReportMask.covers_iff (m : ReportMask) (b : ReportBody) : m.covers b = true ↔
    ((∃ r, b = .terminalState r) ∧ m.terminals = true
      ∨ ((∃ r, b = .channelState r) ∨ ∃ x y, b = .supplyState x y) ∧ m.channels = true
      ∨ (∃ r, b = .orderState r ∧ r.state ≠ .done ∧ r.state ≠ .declined ∧ r.state ≠ .returned) ∧ m.orders = true
      ∨ (∃ r, b = .watchState r
          ∧ (r.cause = .promptDue ∨ r.cause = .deadline ∨ r.cause = .graceExpiry ∨ r.cause = .checkedIn))
        ∧ m.watches = true) := by
  cases b
  case orderState r => simp [ReportMask.covers, OrderState.final_eq_false_iff, and_comm]
  case watchState r => simp [ReportMask.covers, and_comm, or_assoc]
  all_goals simp [ReportMask.covers]

/-- The newest routine report is the last one behind which alarms alone wait. -/
theorem dropNewestRoutine_eq {p q : List Report} {x : Report} (hx : x.body.alarmClass = false)
    (hq : ∀ y ∈ q, y.body.alarmClass = true) : dropNewestRoutine (p ++ x :: q) = p ++ q := by
  have alarms : ∀ y ∈ q.reverse, ¬(!y.body.alarmClass) = true := fun y hy => by simp [hq y (List.mem_reverse.1 hy)]
  rw [dropNewestRoutine, List.reverse_append, List.reverse_cons, List.append_assoc, List.eraseP_append_right _ alarms,
    List.singleton_append, List.eraseP_cons_of_pos (by simp [hx])]
  simp

theorem routineCount_eq_zero {q : List Report} (h : ∀ y ∈ q, y.body.alarmClass = true) : routineCount q = 0 := by
  rw [routineCount, List.filter_eq_nil_iff.2 fun y hy => by simp [h y hy]]; rfl

theorem routineCount_ne_zero {p q : List Report} {x : Report} (h : x.body.alarmClass = false) :
    routineCount (p ++ x :: q) ≠ 0 := by
  rw [routineCount_append, routineCount_cons, h]
  simp

/-- R169's three rows for a report of the alarm class. -/
theorem Link.queueReport_of_alarm {l : Link} {r : Report} (alone : ∀ y ∈ l.reports, y.body.sameSource r.body = false)
    (alarm : r.body.alarmClass = true) :
    l.queueReport r = (if l.reports.length < 64 then { l with reports := l.reports ++ [r] }
      else if routineCount l.reports ≠ 0 then
        { l with reports := dropNewestRoutine l.reports ++ [r], reportsLost := true }
      else { l with reportsLost := true }) := by
  have noneWaits : ¬(l.reports.any fun y => y.body.sameSource r.body) = true := by simpa using alone
  rw [Link.queueReport, if_neg noneWaits, if_pos alarm]

/-- Settles O6. -/
theorem reportsAreOfferedAndPlaced : Obligations.ReportsAreOfferedAndPlaced := by
  refine ⟨fun _ _ _ => rfl, ReportMask.covers_iff, fun l r none => ?_⟩
  have alone : ∀ y ∈ l.reports, y.body.sameSource r.body = false := by simpa using none
  refine ⟨fun routine few room => ?_, fun routine full => ?_, fun alarm room => ?_, fun alarm full p q x hl hx hq => ?_,
    fun alarm full alarms => ?_⟩
  · rw [Link.queueReport_of_routine alone routine, if_pos ⟨few, room⟩]
  · rw [Link.queueReport_of_routine alone routine, if_neg (by omega)]
  · rw [Link.queueReport_of_alarm alone alarm, if_pos room]
  · rw [Link.queueReport_of_alarm alone alarm, if_neg (Nat.not_lt.2 full), hl, if_pos (routineCount_ne_zero hx),
      dropNewestRoutine_eq hx hq]
  · rw [Link.queueReport_of_alarm alone alarm, if_neg (Nat.not_lt.2 full), if_neg (by simp [routineCount_eq_zero alarms])]

/-! ### The outgoing line (R167) -/

theorem Link.chooseFrame_busy {l : Link} {f : OutFrame} (h : l.outgoing = some f) : l.chooseFrame = l := by
  rw [Link.chooseFrame, h]

theorem Link.chooseFrame_reply {l : Link} (free : l.outgoing = none) {tag kind : Byte} {st : Status} {body : ReplyBody}
    {rest : List Place} (oldest : l.places = { tag, kind, wait := .ready st body } :: rest) :
    l.chooseFrame = { l with outgoing := some (.reply tag kind st body) } := by
  rw [Link.chooseFrame, free, oldest]

theorem Link.chooseFrame_report {l : Link} (free : l.outgoing = none)
    (notReady : ∀ tag kind st body rest, l.places ≠ { tag, kind, wait := .ready st body } :: rest) {r : Report}
    {rest : List Report} (head : l.reports = r :: rest) :
    l.chooseFrame = { l with outgoing := some (.report r), reports := rest } := by
  rw [Link.chooseFrame, free]
  dsimp only
  split
  next tag kind st body t e => exact absurd e (notReady tag kind st body t)
  next => rw [head]

theorem Link.chooseFrame_nothing {l : Link} (free : l.outgoing = none)
    (notReady : ∀ tag kind st body rest, l.places ≠ { tag, kind, wait := .ready st body } :: rest)
    (empty : l.reports = []) : l.chooseFrame = l := by
  rw [Link.chooseFrame, free]
  dsimp only
  split
  next tag kind st body t e => exact absurd e (notReady tag kind st body t)
  next => rw [empty]

/-- A report offered to an idle line with nothing waiting is on the line at once. -/
theorem Link.offerOne_idle {s : Site} {l : Link} {b : ReportBody} (free : l.outgoing = none)
    (notReady : ∀ tag kind st body rest, l.places ≠ { tag, kind, wait := .ready st body } :: rest)
    (empty : l.reports = []) (open_ : s.mask.covers b = false) :
    Link.offerOne s l b = { l with outgoing := some (.report { count := s.count, label := s.label, body := b }) } := by
  have queued : ∀ r : Report, l.queueReport r = { l with reports := [r] } := fun r => by
    cases h : r.body.alarmClass <;> simp [Link.queueReport, empty, h, routineCount]
  rw [Link.offerOne, if_neg (by simp [open_]), queued]
  exact (Link.chooseFrame_report (l := { l with reports := [_] }) free notReady rfl).trans (by rw [empty])

/-- Settles O8. -/
theorem lineChoosesTheNextFrame : Obligations.LineChoosesTheNextFrame := by
  refine ⟨fun l => ⟨fun _ => Link.chooseFrame_busy, fun free _ _ _ _ _ => Link.chooseFrame_reply free,
      fun free notReady => ⟨fun _ _ => Link.chooseFrame_report free notReady, fun empty =>
        ⟨Link.chooseFrame_nothing free notReady empty, fun _ _ => Link.offerOne_idle free notReady empty⟩⟩⟩,
    fun a b s powered => ⟨fun r sent => ?_, fun tag kind st body sent notRestart => ?_⟩, fun _ _ _ _ => rfl⟩
  all_goals
    have concluded : ∀ l : Link, s.conclude l (Work.start s.site) = { s with link := l.chooseFrame } := fun l => by
      rw [State.conclude, Work.serve_of_no_offers _ rfl]; rfl
  · simp [exec, execOutgoingFrameSent, powered, sent, concluded]
  · show execOutgoingFrameSent a b s = _
    rw [execOutgoingFrameSent, if_pos powered, sent]
    dsimp only
    rw [if_neg notRestart, concluded]

end Sys2Proof.Machine

/-!
What every request has in common: its arrival (R130), the discards that go before its place (R165, R166, R177), the one place
it holds, and the refusal of a wrong length (R166).
-/
namespace Sys2Proof.Machine

/-- The choices that close a step leave the host-silence fields alone. -/
theorem Site.timed_serve {w : Work} {n : Nat} (h : w.site.timed n) : w.serve.site.timed n :=
  Site.timed_of_kept (State.conclude_kept (a := w.site) State.reset .blank (.refl _)) h

/-- Every arrival restarts host silence, whatever becomes of the request (R130). -/
theorem request_timed {s t : State} {h : Hdr} {k : Byte} {f : Bool} {act : Link → Work → Taking}
    (powered : s.powered = true) (time : KeepsTime act) (e : request h k f act s = .next t) :
    t.site.timed s.site.count := by
  have arrived : s.begun.site.timed s.site.count := s.site.arrived_timed
  obtain ⟨p, -⟩ | ⟨-, ⟨-, rfl⟩ | ⟨-, ⟨-, rfl⟩ | ⟨-, ⟨-, rfl⟩ | ⟨-, ⟨-, rfl⟩ | ⟨-, rfl⟩⟩⟩⟩⟩ := request_cases e
  · exact absurd (powered.symm.trans p) (by decide)
  · exact Site.timed_serve arrived
  · exact Site.timed_serve arrived
  · exact Site.timed_serve arrived
  · exact Site.timed_serve arrived
  · exact Site.timed_serve (time _ _ _ arrived)

/-- A request of a part with power, with no RESTART pending, a tag and a free place, is answered. -/
theorem request_answered {s t : State} {h : Hdr} {k : Byte} {f : Bool} {act : Link → Work → Taking}
    (powered : s.powered = true) (noRestart : s.link.restartPending = false) (tag : h.tag ≠ 0)
    (room : s.link.places.length < 4) (e : request h k f act s = .next t) :
    t = s.answered h k (if f = true then act (s.link.arrived s.site) s.begun else s.begun.refused .badLength) := by
  obtain ⟨p, -⟩ | ⟨-, ⟨r, -⟩ | ⟨-, ⟨g, -⟩ | ⟨-, ⟨full, -⟩ | ⟨-, ⟨hf, ht⟩ | ⟨hf, ht⟩⟩⟩⟩⟩ := request_cases e
  · exact absurd (powered.symm.trans p) (by decide)
  · exact absurd (noRestart.symm.trans r) (by decide)
  · exact absurd g tag
  · exact absurd room (Nat.not_lt.2 full)
  · rw [ht, hf]; rfl
  · rw [ht, if_pos hf]

/-- The end of UNATTENDED is reported at the arrival; no mark of the mask covers it (R130, R171). -/
theorem Link.arrived_eq (l : Link) (s : Site) : l.arrived s = (if s.attended = true then { l with receiver := .hunting }
    else (({ l with receiver := .hunting } : Link).queueReport
      { count := s.count, label := s.label, body := .attendance true s.silenceLimit (some s.count) }).chooseFrame) := rfl

/-- Settles O9. -/
theorem requestsRestartHostSilence : Obligations.RequestsRestartHostSilence := by
  refine ⟨fun c k h b s t hb powered e => ?_, fun s => ⟨fun attended => ?_, fun silent => ?_⟩⟩
  · obtain ⟨fits, act, q⟩ := isRequest hb
    have ran : request h k fits act s = .next t := (q.runs s).symm.trans e
    obtain ⟨-, attended, last, silence⟩ := request_timed powered q.time ran
    refine ⟨⟨attended, last, silence⟩, fun pending => ?_, fun noRestart tag room =>
      ⟨_, request_answered powered noRestart tag room ran⟩⟩
    rw [request, if_pos powered] at ran
    obtain rfl := Host.Outcome.next.inj ran
    exact if_pos (by rw [Link.arrived_restartPending, pending])
  · rw [Link.arrived_eq, if_pos attended]
  · rw [Link.arrived_eq, if_neg (by simp [silent])]

/-! ### Discarded frames (R165, R166, R177) -/

/-- The state after an arrival whose frame is discarded with the counters `c`, their LINK_ERROR report behind the reports of
the arrival (R165). -/
def State.counted (s : State) (c : LinkCounters) : State :=
  s.conclude (({ s.link.arrived s.site with receiver := .hunting, counters := c } : Link).queueReport
    { count := s.site.count, label := s.site.label, body := .linkError c }).chooseFrame s.begun

theorem State.begun_serve_site (s : State) : s.begun.serve.site = s.site.arrived := by
  rw [Work.serve_of_no_offers _ rfl]; rfl

theorem State.discarded_eq_counted (s : State) (c : LinkCounters) :
    s.discarded (s.link.arrived s.site) c s.site.arrived = s.counted c := by
  rw [State.discarded, Link.discarded_eq_queueReport]; rfl

@[simp] theorem State.counted_site (s : State) (c : LinkCounters) : (s.counted c).site = s.site.arrived :=
  s.begun_serve_site

@[simp] theorem State.counted_places (s : State) (c : LinkCounters) : (s.counted c).link.places = s.link.places := by
  simp [State.counted]

@[simp] theorem State.counted_counters (s : State) (c : LinkCounters) : (s.counted c).link.counters = c := by
  simp [State.counted]

/-- What a frame that holds no place leaves: a RESTART pending goes first, then the tag, then the places. -/
theorem request_discarded {s : State} (powered : s.powered = true) (h : Hdr) (k : Byte) (f : Bool)
    (act : Link → Work → Taking) (gone : s.link.restartPending = true ∨ h.tag = 0 ∨ 4 ≤ s.link.places.length) :
    request h k f act s = .next (
      if s.link.restartPending = true then s.conclude (s.link.arrived s.site) s.begun
      else if h.tag = 0 then s.counted s.link.counters.addBadTag else s.counted s.link.counters.addOverflow) := by
  rw [request, if_pos powered, judge]
  simp only [Link.arrived_restartPending, Link.arrived_counters, Link.arrived_places, State.discarded_eq_counted]
  by_cases pending : s.link.restartPending = true
  · rw [if_pos pending, if_pos pending]
  · rw [if_neg pending, if_neg pending]
    by_cases tag : h.tag = 0
    · rw [if_pos tag, if_pos tag]
    · have full : 4 ≤ s.link.places.length := (gone.resolve_left pending).resolve_left tag
      rw [if_neg tag, if_neg tag, if_pos full]

/-- The three ways of a discard change the site by its arrival, hold no place, and count what they count. -/
theorem discard_outcome {s t : State} {h : Hdr}
    (e : t = if s.link.restartPending = true then s.conclude (s.link.arrived s.site) s.begun
      else if h.tag = 0 then s.counted s.link.counters.addBadTag else s.counted s.link.counters.addOverflow) :
    t.site = s.site.arrived ∧ t.link.places = s.link.places
      ∧ t.link.counters = (if s.link.restartPending = true then s.link.counters
        else if h.tag = 0 then s.link.counters.addBadTag else s.link.counters.addOverflow) := by
  subst e
  split_ifs
  · exact ⟨s.begun_serve_site, by simp, by simp⟩
  · simp
  · simp

/-- Settles O10. -/
theorem discardedFramesHaveNoEffect : Obligations.DiscardedFramesHaveNoEffect := by
  intro s powered counted badTag overflow
  refine ⟨fun c k h b t hb e gone => ?_, fun h kind => ⟨fun noRestart => ?_, fun noRestart tag full => ?_,
    fun noRestart tag room unknown => ?_, fun pending => ?_⟩⟩
  · obtain ⟨fits, act, q⟩ := isRequest hb
    have ran := ((q.runs s).symm.trans e).symm.trans (request_discarded powered h k fits act gone)
    have left := Host.Outcome.next.inj ran
    exact ⟨discard_outcome left, left⟩
  · refine ⟨s.counted badTag, ?_, s.counted_site _, s.counted_places _, s.counted_counters _, rfl⟩
    have ran := request_discarded powered { tag := 0, len := 0 } 0x00 true (fun _ w => w.taken .empty) (.inr (.inl rfl))
    rwa [if_neg (by simp [noRestart]), if_pos rfl] at ran
  · refine ⟨s.counted overflow, ?_, s.counted_site _, s.counted_places _, s.counted_counters _, rfl⟩
    have ran := request_discarded powered h 0x00 true (fun _ w => w.taken .empty) (.inr (.inr full))
    rw [if_neg (by simp [noRestart]), if_neg tag] at ran
    exact (if_pos full).trans ran
  · refine ⟨s.answered h kind (s.begun.refused .unknownKind), ?_, s.begun_serve_site, State.answered_places ..,
      State.answered_counters .., rfl⟩
    have ran := request_admitted (n := h.len.toNat) ⟨powered, noRestart, tag, room, rfl⟩ kind true rfl
      (fun _ w => w.refused .unknownKind)
    exact (if_neg (by rw [unknown]; decide)).trans ran
  · refine ⟨s.conclude (s.link.arrived s.site) s.begun, ?_, s.begun_serve_site, by simp, by simp, rfl⟩
    have ran := request_discarded powered { tag := 1, len := 0 } 0x00 true (fun _ w => w.taken .empty) (.inl pending)
    rw [if_pos pending] at ran
    exact (if_pos pending).trans ran

/-! ### The place, and a wrong length (R166) -/

/-- Settles O11. -/
theorem everyRequestHoldsOnePlace : Obligations.EveryRequestHoldsOnePlace := by
  intro c k h b s t hb powered noRestart tag room e
  obtain ⟨fits, act, q⟩ := isRequest hb
  rw [request_answered powered noRestart tag room ((q.runs s).symm.trans e)]
  exact ⟨_, State.answered_places .., rfl, rfl⟩

/-- A well-formed request carries a tag. -/
theorem tag_ne_zero_of_wellFormed {c : Instr} {k : Byte} {h : Hdr} {b : List Byte} (hb : requestBody c = some (k, h, b))
    (wf : c.wellFormed = true) : h.tag ≠ 0 := by
  cases c <;> simp_all [requestBody, Instr.wellFormed, Hdr.wellFormed]

/-- Settles O12. -/
theorem wrongLengthIsRefused : Obligations.WrongLengthIsRefused := by
  intro c k h b s t hb wf powered noRestart room wrong e
  obtain ⟨fits, act, q⟩ := isRequest hb
  have misfit : fits = false := by simpa using (q.length wf).trans (by simpa using wrong)
  have tag := tag_ne_zero_of_wellFormed hb wf
  rw [request_answered powered noRestart tag room ((q.runs s).symm.trans e), if_neg (by simp [misfit])]
  exact ⟨s.begun_serve_site, State.answered_places ..⟩

/-! ### The receiver's discards (R165) and the counters (R47, R101) -/

theorem Counter.bump_of_lt {c : Counter} (h : c.value < 65535) : c.bump = { c with value := c.value + 1 } := if_pos h

theorem Counter.bump_of_full {c : Counter} (h : c.value = 65535) : c.bump = { c with saturated := true } :=
  if_neg (by omega)

theorem Counter.bump_le {c : Counter} (h : c.value ≤ 65535) : c.bump.value ≤ 65535 := by
  unfold Counter.bump
  split
  · assumption
  · exact h

/-- A discard of the receiver raises its counter and leaves the rest (R165). -/
theorem discard_spec {s : State} (powered : s.powered = true) (f : LinkCounters → LinkCounters) :
    ∃ t, discard f s = .next t ∧ t.site = s.site ∧ t.link.places = s.link.places ∧ t.link.receiver = .hunting
      ∧ t.link.counters = f s.link.counters ∧ t = s.conclude (s.link.discarded s.site t.link.counters) s.work := by
  have counters : ∀ w, (s.conclude (s.link.discarded s.site (f s.link.counters)) w).link.counters = f s.link.counters :=
    fun w => by simp
  refine ⟨_, if_pos powered, ?_, by simp, by simp, counters _, by rw [counters]; rfl⟩
  rw [State.conclude_site, Work.serve_of_no_offers _ rfl]; rfl

/-- Settles O14. -/
theorem receiverDiscardsAreCounted : Obligations.ReceiverDiscardsAreCounted :=
  ⟨fun _ powered => ⟨discard_spec powered fun c => { c with badCheck := c.badCheck.bump },
      discard_spec powered fun c => { c with tooLong := c.tooLong.bump },
      discard_spec powered fun c => { c with gap := c.gap.bump }⟩,
    fun _ => ⟨Counter.bump_of_lt, Counter.bump_of_full, Counter.bump_le⟩⟩

end Sys2Proof.Machine

/-!
The site requests, the writes of the settings store, time, and the key and supply lines (R44, R45, R157, R172 to R177).
-/
namespace Sys2Proof.Machine

/-! ### A request that its owner takes, and one that offers no choice -/

theorem lengthIs_of_admits {s : State} {h : Hdr} {n : Nat} (a : s.admits h n) : lengthIs h n = true := by
  obtain ⟨-, -, -, -, length⟩ := a
  simpa [lengthIs] using length

/-- A request of the required length is answered with its owner's taking. -/
theorem request_taken {s : State} {h : Hdr} {n : Nat} (a : s.admits h n) (kind : Byte) (act : Link → Work → Taking) :
    request h kind (lengthIs h n) act s = .next (s.answered h kind (act (s.link.arrived s.site) s.begun)) :=
  request_admitted a kind _ (lengthIs_of_admits a) act

theorem request_outcome {s : State} {h : Hdr} {n : Nat} (a : s.admits h n) (kind : Byte) (act : Link → Work → Taking)
    {x : Taking} (hx : act (s.link.arrived s.site) s.begun = x) :
    request h kind (lengthIs h n) act s = .next (s.answered h kind x) := by
  rw [request_taken a, hx]

theorem event_outcome {s : State} (powered : s.powered = true) {f : Work → Work} {w : Work} (h : f s.work = w) :
    event f s = .next (s.after w) := by
  rw [event_powered powered, h]

theorem State.answered_site_of_no_offers (s : State) (h : Hdr) (kind : Byte) {x : Taking} (quiet : x.work.offers = []) :
    (s.answered h kind x).site = x.work.site := by
  rw [State.answered_site, Work.serve_of_no_offers _ quiet]

/-- A taking that offers no choice leaves its work's site, and its reply in the place. -/
theorem request_settled {s : State} {h : Hdr} {n : Nat} (a : s.admits h n) (kind : Byte) (act : Link → Work → Taking)
    {x : Taking} (hx : act (s.link.arrived s.site) s.begun = x) (quiet : x.work.offers = []) :
    ∃ t, request h kind (lengthIs h n) act s = .next t ∧ t.site = x.work.site
      ∧ t.link.places = s.link.places ++ [{ tag := h.tag, kind, wait := x.wait }] := by
  refine ⟨_, request_taken a kind act, ?_, ?_⟩
  · rw [hx, State.answered_site_of_no_offers _ _ _ quiet]
  · rw [hx, State.answered_places]

/-! ### Site requests (R172 to R175, R177) -/

theorem PermitState.live_eq (t : PermitState) :
    t.live = (t == .requested || t == .issuing || t == .issued || t == .releasePending) := by
  cases t <;> rfl

theorem Link.restartPending_append (l : Link) (places : List Place) (tag : Byte)
    (h : l.places = places ++ [{ tag, kind := 0x05, wait := .ready .ok .empty }]) : l.restartPending = true := by
  simp [Link.restartPending, h]

/-- The reports-lost mark is cleared after a GET_STATUS has taken its value (R174). -/
theorem State.answered_reportsLost (s : State) (h : Hdr) (kind : Byte) {x : Taking} (clear : x.clearLost = true) :
    (s.answered h kind x).link.reportsLost = false := by
  simp [State.answered, Link.hold, clear]

/-- Settles O15. -/
theorem siteRequestsTaken : Obligations.SiteRequestsTaken := by
  refine ⟨fun x l => ?_, fun h s => ⟨fun id esc sil m a low high silence => ?_, fun v a => ?_, fun a idle => ?_,
    fun a busy => ?_, fun id esc sil m a bad => ?_, fun a => ?_, fun a => ?_⟩⟩
  · have live : ∀ p : Permit, p.live = (p.state == .requested || p.state == .issuing || p.state == .issued
        || p.state == .releasePending) := fun p => p.state.live_eq
    simp only [← live]
    rfl
  · exact request_settled (x := (s.begun.modSite fun y =>
      y.setSettings id.toNat esc.toNat sil.toNat (maskOf m)).taken .empty) a 0x02 _ (if_pos ⟨low, high, silence⟩) rfl
  · exact request_settled a 0x03 _ rfl rfl
  · have idle : ¬s.begun.site.write.isSome = true := by rw [show s.begun.site.write = none from idle]; decide
    exact request_settled (x := { work := s.begun.modSite fun y => { y with
        write := some { modeOnly := false, image := y.current }, copy := y.current }
                                  wait := .storeWrite, clearLost := false }) a 0x04 _ (if_neg idle) rfl
  · exact request_settled (x := s.begun.refused .busy) a 0x04 _ (if_pos busy) rfl
  · have bad : ¬(30 ≤ esc.toNat ∧ esc.toNat ≤ 300 ∧ (sil.toNat = 0 ∨ 30 ≤ sil.toNat ∧ sil.toNat ≤ 900)) := bad
    exact request_outcome a 0x02 _ (if_neg bad)
  · obtain ⟨t, run, site, places⟩ := request_settled a 0x05 (fun _ w => w.taken .empty) rfl rfl
    exact ⟨t, run, site, Link.restartPending_append _ _ _ places, places⟩
  · exact ⟨_, request_taken a 0x01 _, State.answered_site_of_no_offers _ _ _ rfl, State.answered_reportsLost _ _ _ rfl,
      State.answered_places ..⟩

/-! ### The ends of the store's writes (R162, R175) -/

/-- Settles O16. -/
theorem storeWritesComplete : Obligations.StoreWritesComplete := by
  intro s w powered write
  have site : ∀ l : Link, (s.conclude l (Work.start (s.site.writeDone w))).site = s.site.writeDone w := fun l => by
    rw [State.conclude_site, Work.serve_of_no_offers _ rfl]; rfl
  refine ⟨fun settings => ?_, fun mode => ?_⟩
  · have run : exec .storeWriteCompletion s = .next (s.conclude
        { s.link with places := (s.link.places.map Place.settingsStored).map Place.modeBegun }
        (Work.start (s.site.writeDone w))) := by
      simp [exec, execStoreWriteCompletion, write, powered, settings]
    refine ⟨_, run, ?_, ?_⟩
    · rw [site, Site.writeDone]
      dsimp only
      simp only [settings, Bool.and_false]
      split <;> simp_all [Site.beginModeWrite]
    · rw [State.conclude_places]
      dsimp only
      rw [List.map_map]
      refine List.map_congr_left fun p _ => ?_
      obtain ⟨tag, kind, wait⟩ := p
      cases wait <;> rfl
  · have run : exec .modeWriteCompletion s = .next (s.conclude
        { s.link with places := (s.link.places.map (Place.modeStored w.image.mode)).map Place.modeBegun }
        (Work.start (s.site.writeDone w))) := by
      simp [exec, execModeWriteCompletion, write, powered, mode]
    refine ⟨_, run, ?_, ?_⟩
    · rw [site, Site.writeDone]
      dsimp only
      simp only [mode, Bool.and_true]
      split <;> simp_all [Site.beginModeWrite]
    · rw [State.conclude_places]
      dsimp only
      rw [List.map_map]
      refine List.map_congr_left fun p _ => ?_
      obtain ⟨tag, kind, wait⟩ := p
      cases wait <;> rfl

/-! ### Time (R130, R172) -/

theorem State.after_site_of_no_offers (s : State) {w : Work} (quiet : w.offers = []) : (s.after w).site = w.site :=
  s.conclude_site_of_no_offers _ w quiet

theorem Site.tick_of_lt {s : Site} (h : s.count < 0xFFFFFFFF) :
    s.tick = { s with count := s.count + 1, label := s.label + 1 } := if_pos h

theorem Site.tick_of_end {s : Site} (h : 0xFFFFFFFF ≤ s.count) :
    s.tick = { s with
      count := Config.countAfterEnd s.freeUsed % 0x100000000, label := s.label + 1, freeUsed := s.freeUsed + 1 } :=
  if_neg (Nat.not_lt.2 h)

/-- Settles O17. -/
theorem secondsAndHostSilence : Obligations.SecondsAndHostSilence := by
  intro s powered
  refine ⟨⟨_, event_powered powered fun w => w.modSite Site.tick, fun low => ?_, fun high => ?_⟩, fun e running passed => ?_⟩
  · rw [State.after_site_of_no_offers _ rfl]
    exact Site.tick_of_lt low
  · have site : (s.after (s.work.modSite Site.tick)).site = s.site.tick := State.after_site_of_no_offers _ rfl
    rw [site, Site.tick_of_end high]
    exact ⟨Nat.le_of_lt_succ (Nat.mod_lt _ (by decide)), rfl⟩
  · have expired : due s.work.site.silence s.work.site.count = true := by
      show due s.site.silence s.site.count = true
      simpa [due, running] using passed
    exact event_outcome powered (if_pos expired)

/-! ### The key and supply lines (R38, R44, R45, R157) -/

/-- The CHANNEL_STATE report of a channel as it stands (R36). -/
def Site.channelReport (s : Site) (c : Chan) (cause : ChannelCause) : ReportBody :=
  .channelState { channel := c, state := (s.chan c).state, previous := (s.chan c).previous
                  lampLit := (s.chan c).lampLit, cause }

theorem Work.reportChannel_eq (w : Work) (c : Chan) (cause : ChannelCause) :
    w.reportChannel c cause = w.emit (w.site.channelReport c cause) := rfl

/-- Reports of several members, one after another, each with its cause. -/
theorem foldl_reportChannel (ms : List Chan) (cause : Chan → ChannelCause) (w : Work) :
    ms.foldl (fun v m => v.reportChannel m (cause m)) w =
      { w with out := w.out ++ ms.map fun m => w.site.channelReport m (cause m) } := by
  induction ms generalizing w with
  | nil => simp
  | cons m ms ih => rw [List.foldl_cons, ih]; simp [Work.reportChannel_eq, Work.emit]

theorem Work.reportPair_eq (w : Work) (c : Chan) (cause : ChannelCause) : w.reportPair c cause =
    { w with out := w.out ++ (w.site.members c).map fun m =>
        w.site.channelReport m (if m = c then cause else .pairPartner) } :=
  foldl_reportChannel _ (fun m => if m = c then cause else .pairPartner) w

theorem Work.reportMembers_eq (w : Work) (c : Chan) (cause : ChannelCause) : w.reportMembers c cause =
    { w with out := w.out ++ (w.site.members c).map fun m => w.site.channelReport m cause } :=
  foldl_reportChannel _ (fun _ => cause) w

theorem Kept.count {a b : Site} (h : Kept a b) : b.count = a.count :=
  have fixed : b.fixed.count = a.fixed.count := congrArg Site.count h.fixed
  fixed

theorem Work.modChans_members (w : Work) (cs : List Chan) (f : Channel → Channel) (hf : ∀ ch, (f ch).config = ch.config)
    (c : Chan) : (w.modChans cs f).site.members c = w.site.members c := by
  refine Site.members_of_config (fun d => ?_) c
  induction cs generalizing w with
  | nil => rfl
  | cons e cs ih =>
    refine (ih (w.modChan e f)).trans ?_
    rw [Work.modChan_chan]
    split
    next h => rw [hf, h]
    next => rfl

theorem Site.heldQuiet_iff (s : Site) (c : Chan) :
    s.heldQuiet c = true ↔ c = 1 ∧ s.paired 1 = false ∨ c = 2 ∨ c = 3 := by
  fin_cases c <;> simp [Site.heldQuiet]

/-- Out of UP the frame on the air is abandoned and the departure goes before the quiet (R35, R38). -/
theorem Work.goQuiet_of_up {w : Work} {c : Chan} {cause : ChannelCause} (up : (w.site.chan c).state = .up) :
    w.goQuiet c cause = (((w.abandon c).departUp c fun _ => .quiet).modChans (w.site.members c) fun x =>
      { x with trainingTimer := none, quietTimer := some (w.site.count + 2), pendingBringUp := false }).reportPair c
        cause := by
  have kept : Kept w.site ((w.abandon c).departUp c fun _ => .quiet).site :=
    Work.departUp_kept (Work.abandon_kept (.refl _) c) c _
  rw [Work.goQuiet, if_pos up, Site.members_of_config kept.configs, kept.count]

/-- Out of another state only the members go to QUIET and report (R38). -/
theorem Work.goQuiet_of_not_up {w : Work} {c : Chan} {cause : ChannelCause} (notUp : (w.site.chan c).state ≠ .up) :
    let t := w.goQuiet c cause
    t.site = { w.site with channels := t.site.channels } ∧ t.offers = w.offers
      ∧ (∀ d, t.site.chan d = if d ∈ w.site.members c then
          { w.site.chan d with
            previous := (w.site.chan d).state, state := .quiet, trainingTimer := none
            quietTimer := some (w.site.count + 2), pendingBringUp := false }
        else w.site.chan d)
      ∧ t.out = w.out ++ ((w.site.members c).map fun m => ReportBody.channelState
          { channel := m, state := .quiet, previous := (w.site.chan m).state, lampLit := (w.site.chan m).lampLit
            cause := if m = c then cause else .pairPartner }) := by
  have nodup := w.site.members_nodup c
  obtain ⟨site₁, out₁, offers₁, chan₁⟩ := w.modChans_spec (w.site.members c) (fun ch => ch.enter .quiet) nodup
  have members₁ := w.modChans_members (w.site.members c) (fun ch => ch.enter .quiet) (fun _ => rfl) c
  have count₁ := congrArg Site.count site₁
  rw [Work.goQuiet, if_neg notUp]
  dsimp only
  rw [members₁, show (w.modChans (w.site.members c) fun ch => ch.enter .quiet).site.count = w.site.count from count₁]
  generalize (w.modChans (w.site.members c) fun ch => ch.enter .quiet) = v at *
  obtain ⟨site₂, out₂, offers₂, chan₂⟩ := v.modChans_spec (w.site.members c) (fun ch => { ch with
    trainingTimer := none, quietTimer := some (w.site.count + 2), pendingBringUp := false }) nodup
  have members₂ := (v.modChans_members (w.site.members c) (fun ch => { ch with
    trainingTimer := none, quietTimer := some (w.site.count + 2), pendingBringUp := false }) (fun _ => rfl) c).trans
      members₁
  rw [Work.reportPair_eq]
  dsimp only
  rw [members₂]
  generalize (v.modChans (w.site.members c) fun ch => { ch with
    trainingTimer := none, quietTimer := some (w.site.count + 2), pendingBringUp := false }) = u at *
  have chans : ∀ d, u.site.chan d = if d ∈ w.site.members c then
      { w.site.chan d with
        previous := (w.site.chan d).state, state := .quiet, trainingTimer := none
        quietTimer := some (w.site.count + 2), pendingBringUp := false }
      else w.site.chan d := fun d => by
    rw [chan₂, chan₁]
    split <;> rfl
  refine ⟨by rw [site₂, site₁], by rw [offers₂, offers₁], chans, ?_⟩
  rw [out₂, out₁]
  congr 1
  refine List.map_congr_left fun m hm => ?_
  rw [Site.channelReport, chans, if_pos hm]

/-- Settles O18. -/
theorem siteLinesFollowed : Obligations.SiteLinesFollowed := by
  refine ⟨fun e s powered => ?_, fun a b => ?_, fun w c => ⟨w.site.heldQuiet_iff c, fun free => ?_, fun held =>
    ⟨?_, fun quiet => ?_⟩⟩, fun w c cause => ⟨Work.goQuiet_of_up, Work.goQuiet_of_not_up⟩, fun a b s powered => ?_⟩
  · refine ⟨_, event_powered powered fun w => w.modSite fun y => { y with keyEnable := e }, ?_, State.conclude_places ..⟩
    rw [State.after_site_of_no_offers _ rfl]; rfl
  · cases a <;> cases b <;> rfl
  · rw [Work.criticalAt, if_neg (by simp [free])]
  · rintro (up | training)
    · rw [Work.criticalAt, if_pos held, up]
    · rw [Work.criticalAt, if_pos held, training]
  · rw [Work.criticalAt, if_pos held, quiet]
  · intro w v
    have run : exec (.supplyLevelChange a b) s = .next (s.after (
        if supplyLevelOf a b = s.site.supply then w
        else if supplyLevelOf a b = .critical then ([0, 1, 2, 3] : List Chan).foldl Work.criticalAt v
        else if s.site.supply = .critical then v.offerEvery
        else v)) := by
      show execSupplyLevelChange a b s = _
      rw [execSupplyLevelChange, event_powered powered]
      rfl
    refine ⟨fun same => ?_, fun other critical => ?_, fun notCritical was => ?_, fun other notCritical wasNot => ?_⟩
    · rw [run, if_pos same]
    · rw [run, if_neg other, if_pos critical]; rfl
    · rw [run, if_neg (fun h => notCritical (h.trans was)), if_neg notCritical, if_pos was]
    · rw [run, if_neg other, if_neg notCritical, if_neg wasNot]

end Sys2Proof.Machine

/-! PROOFS. From the wire to the commands: request bodies, the receiver's frames, and what the link makes of a byte (Chapter
10, R165, R166). -/

namespace Sys2Proof.Machine

/-- Settles O30: each field is read where 10.2 puts it, and a counted list by its count. -/
theorem requestBodiesReadBack : Obligations.RequestBodiesReadBack := by
  intro i k h b e wf
  cases i
  all_goals try (cases e; done)
  all_goals
    simp only [requestBody, Option.some.injEq, Prod.mk.injEq] at e
    obtain ⟨rfl, rfl, rfl⟩ := e
    simp [Instr.wellFormed, Hdr.wellFormed] at wf
    simp [readRequest, wf, at2_succ, at4_succ, settingBytes]
  case loadCrew members => exact wf.2 ▸ wordsAt_flatMap members
  case sendOrder content => exact wf.2 ▸ bytesAt_self content
  case requestPermit items => exact wf.2 ▸ bytesAt_self items
  case restorePermit items => exact wf.2 ▸ bytesAt_self items
  case setAuthList crews => exact wf.2 ▸ halvesAt_flatMap crews

/-! ### The receiver -/

/-- The judgement of the bytes after the sync byte, from the length field on. -/
theorem judgeBytes_of_head (kind tag : Byte) (len : Half) (p : List Byte) :
    judgeBytes (kind :: tag :: (bytes2 len ++ p)) =
      if 1024 < len.toNat then .tooLong
      else if p.length < len.toNat + 2 then .more
      else if crc16 (kind :: tag :: (bytes2 len ++ p.take len.toNat)) = at2 p len.toNat then
        .frame kind { tag, len } (p.take len.toNat)
      else .badCheck := by
  have field : at2 (kind :: tag :: (bytes2 len ++ p)) 2 = len := at2_bytes2 len p
  have check : at2 (kind :: tag :: (bytes2 len ++ p)) (4 + len.toNat) = at2 p len.toNat := by
    rw [Nat.add_comm]; rfl
  have front : (kind :: tag :: (bytes2 len ++ p)).take (4 + len.toNat) =
      kind :: tag :: (bytes2 len ++ p.take len.toNat) := by
    rw [Nat.add_comm]; rfl
  have long : (kind :: tag :: (bytes2 len ++ p)).length = p.length + 4 := rfl
  rw [judgeBytes, field, check, front, long, if_neg (by omega)]
  congr 1
  exact if_congr (by omega) rfl rfl

/-- Fewer than four bytes say nothing yet. -/
theorem judgeBytes_of_short {l : List Byte} (h : l.length < 4) : judgeBytes l = .more := if_pos h

/-- What is judged whole says: a length within the limit, and a body of that length. -/
theorem judgeBytes_frame {l : List Byte} {k : Byte} {h : Hdr} {body : List Byte} (e : judgeBytes l = .frame k h body) :
    h.len.toNat ≤ 1024 ∧ body.length = h.len.toNat := by
  unfold judgeBytes at e
  split at e
  · cases e
  split at e
  · cases e
  split at e
  · cases e
  split at e
  · cases e
    simp only [List.length_take, List.length_drop]
    omega
  · cases e

theorem Receiver.take_frame {r : Receiver} {b k : Byte} {h : Hdr} {body : List Byte} (e : (r.take b).2 = .frame k h body) :
    h.len.toNat ≤ 1024 ∧ body.length = h.len.toNat := by
  cases r with
  | hunting => cases e
  | assembling l =>
    refine judgeBytes_frame (l := l ++ [b]) (k := k) ?_
    simp only [Receiver.take] at e
    split at e <;> rename_i judged <;> rw [judged] <;> exact e

/-- The receiver's step on an assembled frame, by the judgement of the bytes. -/
theorem Receiver.take_of_judged {l : List Byte} {b : Byte} {x : Received} (e : judgeBytes (l ++ [b]) = x)
    (more : x ≠ .more) : (Receiver.assembling l).take b = (.hunting, x) := by
  subst e
  simp only [Receiver.take]
  split <;> rename_i judged
  · exact absurd judged more
  all_goals rw [judged]

theorem Receiver.take_of_more {l : List Byte} {b : Byte} (e : judgeBytes (l ++ [b]) = .more) :
    (Receiver.assembling l).take b = (.assembling (l ++ [b]), .more) := by
  simp only [Receiver.take, e]

/-- While nothing is judged, the receiver only collects. -/
theorem Receiver.foldl_assembling (l acc : List Byte)
    (more : ∀ p, p <+: l → judgeBytes (acc ++ p) = .more) :
    l.foldl (fun r b => (Receiver.take r b).1) (.assembling acc) = .assembling (acc ++ l) := by
  induction l generalizing acc with
  | nil => simp
  | cons b l ih =>
    have first : judgeBytes (acc ++ [b]) = .more := more [b] (by simp)
    rw [List.foldl_cons, Receiver.take_of_more first, ih]
    · simp
    · intro p hp
      have := more (b :: p) (by simpa using hp)
      simpa using this

/-- Every proper prefix of a frame within the length limit is still to be completed. -/
theorem judgeBytes_of_prefix {kind tag : Byte} {len : Half} {p t l : List Byte} (limit : len.toNat ≤ 1024)
    (whole : l ++ t = kind :: tag :: (bytes2 len ++ p)) (short : l.length < 6 + len.toNat) : judgeBytes l = .more := by
  by_cases few : l.length < 4
  · exact judgeBytes_of_short few
  · obtain ⟨a, b, c, d, q, rfl⟩ : ∃ a b c d q, l = a :: b :: c :: d :: q := by
      match l, few with
      | [], few | [_], few | [_, _], few | [_, _, _], few => simp at few
      | a :: b :: c :: d :: q, _ => exact ⟨a, b, c, d, q, rfl⟩
    simp only [bytes2, List.cons_append, List.nil_append, List.cons.injEq] at whole
    obtain ⟨rfl, rfl, rfl, rfl, -⟩ := whole
    simp only [List.length_cons] at short
    have := judgeBytes_of_head a b len q
    rwa [if_neg (by omega), if_pos (by omega)] at this

/-- Settles O31: a proper prefix of a frame is still to be completed, and the whole of it is judged by its length and check. -/
theorem controlFramesAreReceived : Obligations.ControlFramesAreReceived := by
  refine ⟨?_, ?_, rfl, ?_, ?_⟩
  · intro b hb
    exact congrArg (·, Received.more) (if_neg hb)
  · intro kind tag body front last fits e
    have len : (BitVec.ofNat 16 body.length).toNat = body.length := by
      rw [BitVec.toNat_ofNat]; omega
    generalize hcheck : crc16 (checkedBytes kind tag body) = check at *
    have split : front ++ [last] =
        (0xA5 :: kind :: tag :: (halfOf body.length ++ (body ++ [check.extractLsb' 8 8]))) ++ [check.extractLsb' 0 8] := by
      rw [← e, controlFrame, hcheck]; simp [checkedBytes, bytes2]
    obtain ⟨rfl, same⟩ := List.append_inj' split rfl
    obtain rfl : last = check.extractLsb' 0 8 := by simpa using same
    refine ⟨?_, ?_⟩
    · show List.foldl _ (Receiver.assembling []) _ = _
      refine Receiver.foldl_assembling _ [] fun p ⟨t, hp⟩ => ?_
      refine judgeBytes_of_prefix (len := BitVec.ofNat 16 body.length) (by omega) hp ?_
      have := congrArg List.length hp
      simp [halfOf, bytes2] at this ⊢
      omega
    · have judged := judgeBytes_of_head kind tag (BitVec.ofNat 16 body.length) (body ++ bytes2 check)
      have last2 : at2 (body ++ bytes2 check) body.length = check := by
        simp [at2, at1, bytes2, half_join]
      have covered : crc16 (kind :: tag :: (bytes2 (BitVec.ofNat 16 body.length) ++ body)) = check := hcheck
      rw [len, if_neg (by omega), if_neg (by simp [bytes2]), List.take_left' rfl, last2, if_pos covered] at judged
      refine Receiver.take_of_judged (x := .frame kind { tag, len := BitVec.ofNat 16 body.length } body) ?_ (by simp)
      rw [← judged]
      simp [halfOf, bytes2]
  · intro l b short
    exact Receiver.take_of_more (judgeBytes_of_short (by simp; omega))
  · intro kind tag len
    refine ⟨?_, fun limit => ⟨?_, ?_⟩⟩
    · intro long
      have judged := judgeBytes_of_head kind tag len []
      rw [if_pos long] at judged
      exact Receiver.take_of_judged judged (by simp)
    · intro l p b e short
      refine Receiver.take_of_more (judgeBytes_of_prefix (t := []) limit (by simpa using e) ?_)
      have := congrArg List.length e
      simp [bytes2] at this ⊢
      omega
    · intro body check long
      have judged := judgeBytes_of_head kind tag len (body ++ bytes2 check)
      have last2 : at2 (body ++ bytes2 check) body.length = check := by
        simp [at2, at1, bytes2, half_join]
      rw [if_neg (by omega), if_neg (by simp [bytes2]; omega), ← long, List.take_left' rfl, last2] at judged
      refine Receiver.take_of_judged ?_ (by split <;> simp)
      simp only [eq_comm (a := check)]
      rw [← judged]
      simp [bytes2]

/-! ### The request of a frame -/

theorem bytes2_join (a b : Byte) : bytes2 (a ++ b) = [a, b] := by
  have high : (a ++ b : BitVec (8 + 8)).extractLsb' 8 8 = a := BitVec.extractLsb'_append_eq_left
  have low : (a ++ b : BitVec (8 + 8)).extractLsb' 0 8 = b := BitVec.extractLsb'_append_eq_right
  rw [bytes2, high, low]

theorem bytes4_join (v w : Half) : bytes4 (v ++ w) = bytes2 v ++ bytes2 w := by
  have high (n : Nat) : (v ++ w : BitVec (16 + 16)).extractLsb' (n + 16) 8 = v.extractLsb' n 8 :=
    (BitVec.extractLsb'_append_eq_of_le (by omega)).trans (by rw [Nat.add_sub_cancel])
  have low (n : Nat) (h : n ≤ 8) : (v ++ w : BitVec (16 + 16)).extractLsb' n 8 = w.extractLsb' n 8 :=
    BitVec.extractLsb'_append_eq_of_add_le (by omega)
  exact congrArg₂ List.cons (high 8) (congrArg₂ List.cons (high 0)
    (congrArg₂ List.cons (low 8 (by omega)) (congrArg₂ List.cons (low 0 (by omega)) rfl)))

/-- The bytes of a field read at an offset are the bytes that stand there. -/
theorem bytes2_at2 (l : List Byte) (i : Nat) : bytes2 (at2 l i) = [at1 l i, at1 l (i + 1)] := bytes2_join _ _

theorem bytes4_at4 (l : List Byte) (i : Nat) :
    bytes4 (at4 l i) = [at1 l i, at1 l (i + 1), at1 l (i + 2), at1 l (i + 3)] := by
  rw [at4, bytes4_join, bytes2_at2, bytes2_at2]; rfl

theorem at1_drop (l : List Byte) (n i : Nat) : at1 (l.drop n) i = at1 l (n + i) := by
  simp [at1, List.getD_eq_getElem?_getD]

theorem at1_tail (l : List Byte) (i : Nat) : at1 l.tail i = at1 l (i + 1) := by
  cases l <;> rfl

theorem length_bytesAt (n : Nat) (l : List Byte) : (bytesAt n l).length = n := by
  induction n generalizing l with
  | zero => rfl
  | succ n ih => exact congrArg (· + 1) (ih _)

theorem length_wordsAt (n : Nat) (l : List Byte) : (wordsAt n l).length = n := by
  induction n generalizing l with
  | zero => rfl
  | succ n ih => exact congrArg (· + 1) (ih _)

theorem length_halvesAt (n : Nat) (l : List Byte) : (halvesAt n l).length = n := by
  induction n generalizing l with
  | zero => rfl
  | succ n ih => exact congrArg (· + 1) (ih _)

theorem flatMap_wordsAt (n : Nat) (l : List Byte) : (wordsAt n l).flatMap bytes4 = bytesAt (4 * n) l := by
  induction n generalizing l with
  | zero => rfl
  | succ n ih =>
    rw [wordsAt, List.flatMap_cons, ih, bytes4_at4, Nat.mul_succ]
    simp [bytesAt, at1_drop, at1_tail]

theorem flatMap_halvesAt (n : Nat) (l : List Byte) : (halvesAt n l).flatMap bytes2 = bytesAt (2 * n) l := by
  induction n generalizing l with
  | zero => rfl
  | succ n ih =>
    rw [halvesAt, List.flatMap_cons, ih, bytes2_at2, Nat.mul_succ]
    simp [bytesAt, at1_tail]

/-- A frame of a request's kind gives a request of that kind, whose body, at the length the kind and the count require, is what
stands in the frame. -/
theorem requestBody_readRequest {k : Byte} (known : k ∈ requestCodes) {h : Hdr} (tag : h.tag ≠ 0) (b : List Byte) :
    ∃ n, requestBody (readRequest k h b) = some (k, h, bytesAt n b) := by
  suffices ∃ r, requestBody (readRequest k h b) = some (k, h, r) ∧ r = bytesAt r.length b by
    obtain ⟨r, body, rest⟩ := this
    exact ⟨r.length, by rw [← rest]; exact body⟩
  unfold readRequest
  rw [if_neg tag]
  fin_cases known
  all_goals
    refine ⟨_, rfl, ?_⟩
    simp [settingBytes, bytes2_at2, bytes4_at4, bytesAt, at1_drop, at1_tail, length_bytesAt, flatMap_wordsAt, flatMap_halvesAt]

theorem readRequest_wellFormed {k : Byte} (known : k ∈ requestCodes) {h : Hdr} (tag : h.tag ≠ 0)
    (limit : h.len.toNat ≤ 1024) (b : List Byte) : (readRequest k h b).wellFormed = true := by
  have header : h.wellFormed = true := by simpa [Hdr.wellFormed, limit] using tag
  unfold readRequest
  rw [if_neg tag]
  fin_cases known
  all_goals simp [Instr.wellFormed, header, length_wordsAt, length_bytesAt, length_halvesAt]

/-- A kind that is no request's gives the UNKNOWN_KIND refusal (R166). -/
theorem readRequest_of_unknown {k : Byte} (unknown : requestCodes.contains k = false) {h : Hdr} (tag : h.tag ≠ 0)
    (b : List Byte) : readRequest k h b = .unknownKindRefusal h k := by
  have other : k.toNat ∉ requestCodes.map BitVec.toNat := by
    rintro code
    obtain ⟨c, member, same⟩ := List.mem_map.1 code
    rw [BitVec.eq_of_toNat_eq same] at member
    rw [List.contains_iff_mem.2 member] at unknown
    exact absurd unknown (by decide)
  unfold readRequest
  rw [if_neg tag]
  split
  case h_43 => rfl
  all_goals
    rename_i code
    rw [code] at other
    exact absurd other (by decide)

/-- A received frame past the tag and the place is its request (R166). -/
theorem Link.commandOf_of_place {l : Link} (running : l.restartPending = false) {h : Hdr} (tag : h.tag ≠ 0)
    (free : l.places.length < 4) (k : Byte) (body : List Byte) : l.commandOf k h body = readRequest k h body := by
  rw [Link.commandOf, running, if_neg (by decide), if_neg tag, if_neg (by omega)]

/-- A powered part takes a byte through its receiver (R165). -/
theorem State.receiveByte_of_received {s : State} (powered : s.powered = true) {b : Byte} {x : Received}
    (e : (s.link.receiver.take b).2 = x) :
    s.receiveByte b = match (generalizing := false) x with
      | .more => .next (s.receiving (s.link.receiver.take b).1)
      | .tooLong => exec .tooLongDiscard s
      | .badCheck => exec .badCheckDiscard s
      | .frame kind h body => exec (s.link.commandOf kind h body) s := by
  rw [State.receiveByte, if_pos powered]
  revert e
  obtain ⟨r, y⟩ := s.link.receiver.take b
  rintro rfl
  cases y <;> rfl

/-- Settles O32: the receiver's verdict, then the link's, then the reading of the request. -/
theorem bytesBecomeCommands : Obligations.BytesBecomeCommands := by
  intro s b
  refine ⟨fun off => if_neg (by simp [off]), fun powered => ⟨fun e => ?_, fun e => ?_, fun e => ?_, fun k h body e => ?_⟩⟩
  · exact State.receiveByte_of_received powered e
  · exact State.receiveByte_of_received powered e
  · exact State.receiveByte_of_received powered e
  · obtain ⟨limit, long⟩ := Receiver.take_frame e
    have taken : s.receiveByte b = exec (s.link.commandOf k h body) s := State.receiveByte_of_received powered e
    rw [taken]
    refine ⟨fun pending => by rw [Link.commandOf, if_pos pending], fun running => ⟨fun tag => ?_, fun tag full => ?_,
      fun tag free => ?_⟩⟩
    · rw [Link.commandOf, running, if_neg (by decide), if_pos tag]
    · rw [Link.commandOf, running, if_neg (by decide), if_neg tag, if_pos full]
    · rw [Link.commandOf_of_place running tag free]
      refine ⟨fun unknown => by rw [readRequest_of_unknown unknown tag], fun i read wf => ?_, fun known => ?_⟩
      · rw [requestBodiesReadBack i k h body read wf]
      · have member := List.contains_iff_mem.1 known
        obtain ⟨n, read⟩ := requestBody_readRequest member tag body
        refine ⟨_, _, rfl, read, readRequest_wellFormed member tag limit body, ?_⟩
        by_cases same : body.length = n
        · exact .inl (same ▸ bytesAt_self body)
        · exact .inr (by rw [length_bytesAt]; omega)

end Sys2Proof.Machine

/-! PROOFS. Inbound frames read back, and the undecodable ones (R57, R180). -/

namespace Sys2Proof.Machine

theorem lead_of_short (kind : BitVec 4) (a : BitVec 3) :
    ((0 : BitVec 1) ++ kind ++ a : BitVec 8).msb = false
      ∧ ((0 : BitVec 1) ++ kind ++ a : BitVec 8).extractLsb' 3 4 = kind
      ∧ ((0 : BitVec 1) ++ kind ++ a : BitVec 8).extractLsb' 0 3 = a := by
  revert kind a; decide

theorem lead_of_id (kind : BitVec 4) :
    ((1 : BitVec 1) ++ kind ++ (0 : BitVec 3) : BitVec 8).msb = true
      ∧ ((1 : BitVec 1) ++ kind ++ (0 : BitVec 3) : BitVec 8).extractLsb' 3 4 = kind := by
  revert kind; decide

theorem readPosition_bytes (p : RawPosition) : readPosition (rawPositionBytes p) = p := by
  obtain ⟨present, latitude, longitude, age⟩ := p
  simp only [rawPositionBytes, readPosition, List.cons_append, List.append_assoc, at1_zero]
  have mark : (markByte present != 0) = present := by cases present <;> rfl
  rw [mark]
  congr 1
  · exact at4_bytes4 latitude (bytes4 longitude ++ [age])
  · exact at4_bytes4 longitude [age]

/-- The capacity of an AFFILIATE is a byte of its own. -/
theorem readAffiliate_capacity (b capacity : Byte) :
    readAffiliate b capacity = (readAffiliate b 0).map fun c => { c with capacity } := by
  unfold readAffiliate
  split <;> rfl

theorem readAffiliate_capability (c : AffiliateContent) : readAffiliate (capabilityByte c) c.capacity = some c := by
  have bits : ∀ personal maxRate fecLow fecHigh pairCapable,
      readAffiliate (capabilityByte ⟨personal, maxRate, fecLow, fecHigh, pairCapable, 0⟩) 0 =
        some ⟨personal, maxRate, fecLow, fecHigh, pairCapable, 0⟩ := by decide
  obtain ⟨personal, maxRate, fecLow, fecHigh, pairCapable, capacity⟩ := c
  rw [readAffiliate_capacity]
  exact congrArg (Option.map _) (bits personal maxRate fecLow fecHigh pairCapable)

/-- The four digits of a number of two bytes. -/
theorem digits_join (a b c d : BitVec 4) :
    let w : Half := (a ++ b : BitVec (4 + 4)) ++ (c ++ d : BitVec (4 + 4))
    w.extractLsb' 12 4 = a ∧ w.extractLsb' 8 4 = b ∧ w.extractLsb' 4 4 = c ∧ w.extractLsb' 0 4 = d := by
  have high (n : Nat) : ((a ++ b : BitVec 8) ++ (c ++ d : BitVec 8) : BitVec (8 + 8)).extractLsb' (n + 8) 4 =
      (a ++ b : BitVec (4 + 4)).extractLsb' n 4 :=
    (BitVec.extractLsb'_append_eq_of_le (by omega)).trans (by rw [Nat.add_sub_cancel])
  have low (n : Nat) (h : n ≤ 4) : ((a ++ b : BitVec 8) ++ (c ++ d : BitVec 8) : BitVec (8 + 8)).extractLsb' n 4 =
      (c ++ d : BitVec (4 + 4)).extractLsb' n 4 := BitVec.extractLsb'_append_eq_of_add_le (by omega)
  exact ⟨(high 4).trans BitVec.extractLsb'_append_eq_left, (high 0).trans BitVec.extractLsb'_append_eq_right,
    (low 4 (by omega)).trans BitVec.extractLsb'_append_eq_left, (low 0 (by omega)).trans BitVec.extractLsb'_append_eq_right⟩

theorem readDigits_digitBytes (code : Fin 10000) : readDigits (at2 (digitBytes code.val) 0) = some code := by
  obtain ⟨n, small⟩ := code
  obtain ⟨ha, hb, hc, hd⟩ := digits_join (BitVec.ofNat 4 (n / 1000)) (BitVec.ofNat 4 (n / 100 % 10))
    (BitVec.ofNat 4 (n / 10 % 10)) (BitVec.ofNat 4 (n % 10))
  have word : at2 (digitBytes n) 0 = (BitVec.ofNat 4 (n / 1000) ++ BitVec.ofNat 4 (n / 100 % 10) : BitVec (4 + 4)) ++
      (BitVec.ofNat 4 (n / 10 % 10) ++ BitVec.ofNat 4 (n % 10) : BitVec (4 + 4)) := rfl
  rw [← word] at ha hb hc hd
  have digit (m : Nat) (h : m ≤ 9) : (BitVec.ofNat 4 m).toNat = m := by rw [BitVec.toNat_ofNat]; omega
  simp only [readDigits, ha, hb, hc, hd]
  have da := digit (n / 1000) (by omega)
  have db := digit (n / 100 % 10) (by omega)
  have dc := digit (n / 10 % 10) (by omega)
  have dd := digit (n % 10) (by omega)
  simp only [da, db, dc, dd]
  rw [dif_pos (by omega)]
  congr 2
  omega

/-- The content of every inbound frame reads back; AFFILIATE needs the ID in the sender field (R56). -/
theorem readInbound_bytes (long : Bool) (i : Inbound) (h : ∀ c, i = .affiliate c → long = true) :
    readInbound long i.code i.bytes = some i := by
  cases i with
  | access | depart => rfl
  | ack bit free =>
    have mark : (markByte bit).getLsbD 0 = bit := by cases bit <;> decide
    exact congrArg (fun q => some (Inbound.ack q free)) mark
  | checkIn p => exact congrArg (fun q => some (Inbound.checkIn q)) (readPosition_bytes p)
  | affiliate c =>
    obtain rfl := h c rfl
    exact congrArg (Option.map Inbound.affiliate) (readAffiliate_capability c)
  | alarm cause p =>
    cases cause <;> exact congrArg (fun q => some (Inbound.alarm _ q)) (readPosition_bytes p)
  | orderReply n r free =>
    have number : at4 (bytes4 n ++ [crewReplyCode r, free]) 0 = n := at4_bytes4 n _
    cases r <;> exact congrArg (fun q => some (Inbound.orderReply q _ free)) number
  | readback n code =>
    have number : at2 (bytes2 n ++ digitBytes code.val) 0 = n := at2_bytes2 n _
    have read : readInbound long (Inbound.readback n code).code (Inbound.readback n code).bytes =
        (readDigits (at2 (digitBytes code.val) 0)).map
          fun c => .readback (at2 (bytes2 n ++ digitBytes code.val) 0) c := rfl
    rw [read, readDigits_digitBytes, number]; rfl
  | switchDone n => exact congrArg (fun q => some (Inbound.switchDone q)) (at2_bytes2_end n)
  | releaseAsk n => exact congrArg (fun q => some (Inbound.releaseAsk q)) (at2_bytes2_end n)

/-- A frame by its lead byte (R180). -/
theorem readFrame_cons (b : Byte) (l : List Byte) :
    readFrame (b :: l) = if b.msb then (.id (at4 l 0), readInbound true (b.extractLsb' 3 4) (l.drop 4))
      else (.short (b.extractLsb' 0 3), readInbound false (b.extractLsb' 3 4) l) := rfl

theorem readFrame_inboundBytes (f : Sender) (i : Inbound) (h : ∀ c, i = .affiliate c → ∃ t, f = .id t) :
    readFrame (inboundBytes f i) = (f, some i) := by
  cases f with
  | short a =>
    obtain ⟨form, kind, address⟩ := lead_of_short i.code a
    have content : readInbound false i.code i.bytes = some i :=
      readInbound_bytes false i fun c e => by obtain ⟨t, k⟩ := h c e; cases k
    have frame : inboundBytes (.short a) i = ((0 : BitVec 1) ++ i.code ++ a : BitVec 8) :: i.bytes := rfl
    rw [frame, readFrame_cons, form, kind, address, if_neg (by decide), content]
  | id t =>
    obtain ⟨form, kind⟩ := lead_of_id i.code
    have content : readInbound true i.code i.bytes = some i := readInbound_bytes true i fun _ _ => rfl
    have frame : inboundBytes (.id t) i = ((1 : BitVec 1) ++ i.code ++ (0 : BitVec 3) : BitVec 8) :: (bytes4 t ++ i.bytes) := rfl
    have identity : at4 (bytes4 t ++ i.bytes) 0 = t := at4_bytes4 t _
    rw [frame, readFrame_cons, form, kind, identity, if_pos rfl]
    exact congrArg (Prod.mk _) content

theorem readAffiliate_eq_none (b capacity : Byte) :
    readAffiliate b capacity = none ↔ (b.extractLsb' 1 2).toNat = 3 := by
  have := (b.extractLsb' 1 2).isLt
  unfold readAffiliate
  split
  · exact iff_of_false (by simp) (by omega)
  · exact iff_of_true rfl (by omega)

theorem readCall_eq_none (b : Byte) : readCall b = none ↔ b ≠ 1 ∧ b ≠ 2 := by
  unfold readCall
  split
  · simp_all
  · split <;> simp_all

theorem readReply_eq_none (b : Byte) : readReply b = none ↔ 2 < b.toNat := by
  revert b; decide

theorem readDigits_eq_none (w : Half) : readDigits w = none ↔
    ¬((w.extractLsb' 12 4).toNat ≤ 9 ∧ (w.extractLsb' 8 4).toNat ≤ 9 ∧ (w.extractLsb' 4 4).toNat ≤ 9
      ∧ (w.extractLsb' 0 4).toNat ≤ 9) := by
  dsimp only [readDigits]
  split
  · exact iff_of_false (by simp) (not_not_intro ‹_›)
  · exact iff_of_true rfl ‹_›

/-- The content is undecodable exactly by its kind, its length, or a value out of its range (R57, R180). -/
theorem readInbound_eq_none (long : Bool) (kind : BitVec 4) (l : List Byte) :
    readInbound long kind l = none ↔ kind.toNat = 0 ∨ 10 < kind.toNat
        ∨ l.length ≠ [0, 0, 2, 11, 2, 10, 6, 4, 2, 2, 0].getD kind.toNat 0
        ∨ kind.toNat = 2 ∧ (long = false ∨ readAffiliate (at1 l 0) (at1 l 1) = none)
        ∨ kind.toNat = 3 ∧ readCall (at1 l 0) = none
        ∨ kind.toNat = 6 ∧ readReply (at1 l 4) = none
        ∨ kind.toNat = 7 ∧ readDigits (at2 l 2) = none := by
  obtain ⟨n, small, e⟩ : ∃ n, n < 16 ∧ kind.toNat = n := ⟨_, kind.isLt, rfl⟩
  unfold readInbound
  rw [e]
  interval_cases n
  all_goals split <;> simp_all
  cases long <;> simp

/-- The transceiver's report of a frame whose check passed, by the sender and the content read (R57). -/
theorem State.receiveAir_of_read {s : State} {channel : Chan} {sample : Fin 16} {l : List Byte} {c : Instr}
    (h : airCommand channel true sample l = c) : s.receiveAir channel true sample l = exec c s :=
  congrArg (exec · s) h

/-- Settles O33: each content reads back by its kind, and each content read is its kind's command. -/
theorem inboundFramesReadBack : Obligations.InboundFramesReadBack := by
  refine ⟨fun f i _ h => readFrame_inboundBytes f i h, fun l => ?_, fun s channel sample l => ⟨rfl, fun f => ?_⟩⟩
  · intro long kind body code
    have undecodable := readInbound_eq_none long ((at1 l 0).extractLsb' 3 4) body
    simp only [readAffiliate_eq_none, readCall_eq_none, readReply_eq_none, readDigits_eq_none] at undecodable
    have read : readFrame l = (if long then .id (at4 l 1) else .short ((at1 l 0).extractLsb' 0 3),
        readInbound long ((at1 l 0).extractLsb' 3 4) body) := by
      cases form : (at1 l 0).msb <;> simp only [readFrame, form, long, body] <;> rfl
    rw [read]
    exact ⟨rfl, undecodable⟩
  · refine ⟨fun read => ?_, fun read => ?_, fun t c e read => ?_, fun c p read => ?_, fun bit n read => ?_, fun p read => ?_,
      fun n r x read => ?_, fun n c read => ?_, fun n read => ?_, fun n read => ?_, fun read => ?_⟩
    case refine_3 =>
      subst e
      exact State.receiveAir_of_read (by rw [airCommand, if_pos rfl, read])
    all_goals exact State.receiveAir_of_read (by rw [airCommand, if_pos rfl, read])

end Sys2Proof.Machine

/-! PROOFS. Numbers: rates, FEC and airtime (R61 to R64), the arbiter (R79), the balance (R71, R72) and the interlock checks
(R139). -/

namespace Sys2Proof.Machine

/-! ### Rate, FEC and airtime -/

theorem bitsPerSecond_least (a b : Rate) (paired : Bool) :
    bitsPerSecond (a.least b) paired = min (bitsPerSecond a paired) (bitsPerSecond b paired) := by
  cases a <;> cases b <;> cases paired <;> rfl

theorem bitsPerSecond_pos (r : Rate) (paired : Bool) : 4800 ≤ bitsPerSecond r paired := by
  cases r <;> cases paired <;> decide

/-- A quotient rounded up is the least number of parts that hold the whole. -/
theorem roundUp_spec (x : Nat) {d : Nat} (pos : 0 < d) :
    x ≤ d * ((x + (d - 1)) / d) ∧ d * ((x + (d - 1)) / d) < x + d := by
  have whole := Nat.div_add_mod (x + (d - 1)) d
  have rest := Nat.mod_lt (x + (d - 1)) pos
  omega

/-- With at most 40 blocks the coded frame holds at most 5904 bits with its 48, which the lowest rate carries in 246 units. -/
theorem airtimeOf_le (l : Bool) (n : Nat) (f : Bool) (r : Rate) (p : Bool) (h : n ≤ 40) : airtimeOf l n f r p ≤ 246 := by
  have slowest := bitsPerSecond_pos r p
  dsimp only [airtimeOf]
  generalize bitsPerSecond r p = bps at slowest ⊢
  have bits : (if f = true then (3 * ((if l = true then 64 else 32) + 96 * n) + 1) / 2
      else (if l = true then 64 else 32) + 96 * n) ≤ 5856 := by
    split <;> split <;> omega
  rw [Nat.div_le_iff_le_mul_add_pred (by omega)]
  nlinarith

/-- Settles O35: the airtime is the coded frame's bits rounded up to whole units. -/
theorem rateFecAndAirtime : Obligations.RateFecAndAirtime := by
  refine ⟨fun _ _ => rfl, fun q m hq hm => ?_, fun _ => rfl, fun g t => ?_, fun _ => ⟨rfl, fun _ => rfl⟩, fun g t r => ?_,
    ⟨rfl, rfl, rfl, fun r => by cases r <;> rfl⟩, fun long blocks fec r paired => ?_, airtimeOf_le, rfl⟩
  · unfold averaged; omega
  · rw [rateFor, bitsPerSecond_least, bitsPerSecond_least, Nat.min_assoc]
  · cases r <;> simp [fecFor]
  · intro p bps units
    obtain ⟨holds, least⟩ := roundUp_spec (200 * (48 + if fec = true then (3 * p + 1) / 2 else p))
      (Nat.lt_of_lt_of_le (by decide) (bitsPerSecond_pos r paired))
    refine ⟨_, fun off => if_neg (by simp [off]), fun on => ?_, holds, least⟩
    rw [if_pos on]
    omega

/-! ### The arbiter -/


theorem afterPointer_iff (p : Option Nat) (i : Nat) : afterPointer p i = true ↔ ∀ x, p = some x → x < i := by
  cases p <;> simp [afterPointer]

/-- The least member a filter keeps. -/
theorem min?_filter_eq_some (f : Nat → Bool) {l : List Nat} {i : Nat} (mem : i ∈ l) (kept : f i = true)
    (least : ∀ j, j ∈ l → f j = true → i ≤ j) : (l.filter f).min? = some i :=
  List.min?_eq_some_iff.2 ⟨List.mem_filter.2 ⟨mem, kept⟩, fun j hj =>
    least j (List.mem_filter.1 hj).1 (List.mem_filter.1 hj).2⟩

theorem min?_filter_eq_none (f : Nat → Bool) {l : List Nat} (h : ∀ j, j ∈ l → ¬f j = true) :
    (l.filter f).min? = none := by
  rw [List.min?_eq_none_iff, List.filter_eq_nil_iff]; exact h

/-- Settles O36: the four cases in the order in which the arbiter tries them. -/
theorem arbiterTakesTheNextInTurn : Obligations.ArbiterTakesTheNextInTurn := by
  intro s high low l after H L
  have mem_highs (i : Nat) : i ∈ l.filter (fun i => s.tier i == .high) ↔ H i := by simp [H]
  have mem_lows (i : Nat) : i ∈ l.filter (fun i => s.tier i == .low) ↔ L i := by simp [L]
  unfold Site.arbitrate
  dsimp only
  refine ⟨fun i hi next least => ?_, fun noHigh => ?_⟩
  · rw [min?_filter_eq_some _ ((mem_highs i).2 hi) ((afterPointer_iff high i).2 next)
      fun j hj later => least j ((mem_highs j).1 hj) ((afterPointer_iff high j).1 later)]
  · rw [min?_filter_eq_none (afterPointer high) fun j hj later =>
      noHigh j ((mem_highs j).1 hj) ((afterPointer_iff high j).1 later)]
    refine ⟨fun i hi next least => ?_, fun noLow => ?_⟩
    · rw [min?_filter_eq_some _ ((mem_lows i).2 hi) ((afterPointer_iff low i).2 next)
        fun j hj later => least j ((mem_lows j).1 hj) ((afterPointer_iff low j).1 later)]
    · rw [min?_filter_eq_none (afterPointer low) fun j hj later =>
        noLow j ((mem_lows j).1 hj) ((afterPointer_iff low j).1 later)]
      refine ⟨fun i hi least => ?_, fun empty => ?_⟩
      · rw [min?_filter_eq_some (fun i => s.tier i == .low) hi.1 (beq_iff_eq.2 hi.2)
          fun j hj tier => least j ⟨hj, beq_iff_eq.1 tier⟩]
      · rw [min?_filter_eq_none (fun i => s.tier i == .low) fun j hj tier => empty j ⟨hj, beq_iff_eq.1 tier⟩]
        refine ⟨fun i hi least => ?_, fun alone => ?_⟩
        · rw [min?_filter_eq_some (fun i => s.tier i == .high) hi.1 (beq_iff_eq.2 hi.2)
            fun j hj tier => least j ⟨hj, beq_iff_eq.1 tier⟩]
          rfl
        · rw [min?_filter_eq_none (fun i => s.tier i == .high) fun j hj tier => alone j ⟨hj, beq_iff_eq.1 tier⟩]
          rfl

/-! ### The balance of the two classes -/

/-- A bound on the passes that can still fail: a failing pass takes its class at least one quantum of 8 nearer to 246, or spends
a quantum-added mark found set. -/
def Account.passesLeft (a : Account) : Nat :=
  (253 - a.urgent) / 8 + (253 - a.routine) / 8 + if a.added then 1 else 0

/-- A pass that does not end the balance leaves fewer passes that can fail: its class gained a quantum and stays below 246, or
the mark was found set and is spent. -/
theorem Account.passesLeft_pass {a : Account} {quantum airtime : Nat} (wide : 8 ≤ quantum) (short : airtime ≤ 246)
    (failed : (a.pass quantum airtime).1 = false) : (a.pass quantum airtime).2.passesLeft < a.passesLeft := by
  obtain ⟨turn, added, urgent, routine⟩ := a
  unfold Account.pass at failed ⊢
  cases turn <;> cases added
  all_goals
    simp only [Account.grow, Account.deficit, Account.setDeficit, Bool.false_eq_true, if_false, if_true] at failed ⊢
    split at failed <;> rename_i affords
    · cases failed
    · rw [if_neg affords]
      simp only [Account.passesLeft, if_true, Bool.false_eq_true, if_false]
      omega

/-- A pass that ends the balance leaves the quantum-added mark set. -/
theorem Account.added_pass {a : Account} {quantum airtime : Nat} (ended : (a.pass quantum airtime).1 = true) :
    (a.pass quantum airtime).2.added = true := by
  have marked : (a.grow quantum).added = true := by
    unfold Account.grow; split <;> simp_all
  unfold Account.pass at ended ⊢
  dsimp only at ended ⊢
  split at ended
  · rw [if_pos ‹_›]
    cases turn : (a.grow quantum).turn <;> exact marked
  · cases ended

/-- With more passes allowed than can fail, the balance ends, and how many more are allowed makes no difference. -/
theorem Account.balance_spec {uq rq ua ra : Nat} (hu : 8 ≤ uq) (hr : 8 ≤ rq) (hua : ua ≤ 246) (hra : ra ≤ 246) (n : Nat) :
    ∀ (m : Nat) (a : Account), a.within → a.passesLeft < n → a.passesLeft < m →
      Account.balance uq rq ua ra m a = Account.balance uq rq ua ra n a
        ∧ (Account.balance uq rq ua ra n a).within ∧ (Account.balance uq rq ua ra n a).added = true := by
  induction n with
  | zero => intro m a _ h; omega
  | succ n ih =>
    rintro (_ | m) a within hn hm
    · omega
    have wide : 8 ≤ a.turn.of uq rq := by cases a.turn <;> assumption
    have short : a.turn.of ua ra ≤ 246 := by cases a.turn <;> assumption
    have within' := Account.within_pass within (a.turn.of uq rq) (a.turn.of ua ra)
    have fewer := Account.passesLeft_pass (a := a) wide short
    have ends := Account.added_pass (a := a) (quantum := a.turn.of uq rq) (airtime := a.turn.of ua ra)
    unfold Account.balance
    generalize a.pass (a.turn.of uq rq) (a.turn.of ua ra) = x at ends fewer within'
    obtain ⟨_ | _, b⟩ := x
    · have less : b.passesLeft < a.passesLeft := fewer rfl
      exact ih m b within' (by omega) (by omega)
    · exact ⟨rfl, within', ends rfl⟩

/-- Settles O37: at most 63 passes fail, and the model allows 80. -/
theorem balanceComesToAnEnd : Obligations.BalanceComesToAnEnd := by
  intro uq rq ua ra n a huq hrq hua hra hu hr hn
  have few : a.passesLeft < 80 := by unfold Account.passesLeft; split <;> omega
  obtain ⟨same, ⟨urgent, routine⟩, added⟩ := Account.balance_spec huq hrq hua hra 80 n a ⟨hu, hr⟩ few (by omega)
  exact ⟨same, urgent, routine, added⟩

/-! ### The interlock checks -/

theorem Site.tagged_iff (s : Site) (p : SwitchPoint) : s.tagged p = true ↔ ∃ n, p.joins n = true ∧ s.clearances n ≠ 0 := by
  simp only [Site.tagged, joins_iff, List.any_eq_true, bne_iff_ne]

/-- Settles O39: each check through what it asks of one switch point or one permit. -/
theorem interlockChecksSaid : Obligations.InterlockChecksSaid := by
  intro s
  refine ⟨fun l => ?_, fun l => ?_, fun sw => ?_, fun sw => ?_, fun _ => rfl, fun _ => rfl, fun _ => rfl⟩
  · simp only [Site.checkCL1, List.all_eq_true, Bool.or_eq_true, Bool.not_eq_true', beq_iff_eq]
    refine forall₂_congr fun e _ => ?_
    rw [← Bool.not_eq_true, List.any_eq_true, imp_iff_not_or]
  · simp only [Site.checkCL2, List.all_eq_true]
    refine forall₂_congr fun e _ => ?_
    split
    · rename_i sw work
      rw [work]
      cases found : Table.look s.switches sw with
      | none => exact iff_of_true (by simp) (by rintro _ ⟨⟩ _ q h; rw [found] at h; cases h)
      | some q =>
        rw [Option.any_some, Bool.or_eq_true, Bool.not_eq_true', Bool.not_eq_true', ← Bool.not_eq_true, Bool.or_eq_true,
          beq_iff_eq, beq_iff_eq, List.any_eq_false, ← imp_iff_not_or]
        constructor
        · rintro clear _ ⟨⟩ inForce _ h n hn
          rw [found] at h
          cases h
          exact Bool.not_eq_true _ ▸ clear inForce n hn
        · intro clear inForce n hn
          exact Bool.not_eq_true _ ▸ clear sw rfl inForce q found n hn
    · rename_i other
      exact iff_of_true rfl fun sw work => absurd work (other sw)
  · simp only [Site.checkSC1, Bool.not_eq_true']
    cases Table.look s.switches sw with
    | none => simp
    | some p => 
      rw [← Bool.not_eq_true, Option.any_some, Site.tagged_iff]
      simp
  · simp only [Site.checkSC2, List.all_eq_true]
    cases Table.look s.switches sw with
    | none => simp
    | some p =>
      simp only [Option.any_some, Option.some.injEq, forall_eq', Bool.or_eq_true, bne_iff_ne, Bool.not_eq_true',
        ← imp_iff_not_or, ne_eq]
      refine forall₂_congr fun e _ => forall_congr' fun _ => ?_
      cases e.2.work <;> simp [PermitWork.meets, PermitWork.sections]
end Sys2Proof.Machine

/-! PROOFS. The requests that read: what each returns, part by part (R9, R14, R49, R91, R117, R153, R163). -/

namespace Sys2Proof.Table

/-- The first record that satisfies a test, from the place where it stands. -/
theorem seek_of_split {α : Type} {t : Table α} {f : Nat → α → Bool} {p q : List (Nat × α)} {k : Nat} {x : α}
    (split : t = p ++ (k, x) :: q) (found : f k x = true) (before : ∀ e ∈ p, f e.1 e.2 = false) :
    seek t f = some (k, x) :=
  List.find?_eq_some_iff_append.2 ⟨found, p, q, split, fun e he => by simp [before e he]⟩

theorem seek_eq_none {α : Type} {t : Table α} {f : Nat → α → Bool} (h : ∀ e ∈ t, f e.1 e.2 = false) : seek t f = none :=
  List.find?_eq_none.2 fun e he => by simp [h e he]

end Sys2Proof.Table

namespace Sys2Proof.Machine

/-! ### Orders by rank (R86) -/

/-- An order's rank is no later than another's: priority, then submission sequence (R86). -/
def Order.noLater (a b : Nat × Order) : Prop :=
  a.2.priority < b.2.priority ∨ (a.2.priority = b.2.priority ∧ a.2.seq ≤ b.2.seq)

theorem Order.before_iff (a b : Nat × Order) : a.2.before b.2 = true ↔ Order.noLater a b := by
  simp [Order.before, Order.noLater]

theorem rankInsert_perm (e : Nat × Order) (l : List (Nat × Order)) : (rankInsert e l).Perm (e :: l) := by
  induction l with
  | nil => exact .refl _
  | cons x l ih =>
    unfold rankInsert
    split
    · exact .refl _
    · exact (ih.cons x).trans (.swap ..)

theorem rankInsert_pairwise (e : Nat × Order) {l : List (Nat × Order)} (h : l.Pairwise Order.noLater) :
    (rankInsert e l).Pairwise Order.noLater := by
  induction l with
  | nil => exact List.pairwise_singleton _ _
  | cons x l ih =>
    obtain ⟨first, rest⟩ := List.pairwise_cons.1 h
    unfold rankInsert
    split
    · rename_i before
      have lead := (Order.before_iff e x).1 before
      refine List.pairwise_cons.2 ⟨fun y hy => ?_, h⟩
      rcases List.mem_cons.1 hy with rfl | hy
      · exact lead
      · have := first y hy
        unfold Order.noLater at *
        omega
    · rename_i after
      rw [Order.before_iff] at after
      refine List.pairwise_cons.2 ⟨fun y hy => ?_, ih rest⟩
      rcases List.mem_cons.1 ((rankInsert_perm e l).mem_iff.1 hy) with rfl | hy
      · unfold Order.noLater at *
        omega
      · exact first y hy

theorem Site.rankedOrders_perm (s : Site) : s.rankedOrders.Perm s.orders := by
  unfold Site.rankedOrders
  induction s.orders with
  | nil => exact .refl _
  | cons e l ih => exact (rankInsert_perm e _).trans (ih.cons e)

theorem Site.rankedOrders_pairwise (s : Site) : s.rankedOrders.Pairwise Order.noLater := by
  unfold Site.rankedOrders
  induction s.orders with
  | nil => exact .nil
  | cons e l ih => exact rankInsert_pairwise e ih

/-- A position on a list counts the entries up to the first of its number. -/
theorem findIdx_of_split {l p q : List (Nat × Order)} {n : Nat} {o : Order} (split : l = p ++ (n, o) :: q)
    (before : ∀ e ∈ p, e.1 ≠ n) : (l.findIdx fun e => e.1 == n) = p.length := by
  subst split
  induction p with
  | nil => simp [List.findIdx_cons]
  | cons e p ih =>
    rw [List.cons_append, List.findIdx_cons, beq_false_of_ne (before e (by simp))]
    exact congrArg (· + 1) (ih fun y hy => before y (by simp [hy]))

/-! ### The parts of a reply -/

theorem Site.standing_of_none {s : Site} {o : Owner} {k : ItemKind}
    (h : ∀ e ∈ s.pul, ¬(e.2.owner = o ∧ e.2.content.kind = k)) : s.standing o k = .notOwed := by
  have absent : s.owned o k = none := Table.seek_eq_none fun e he => by
    rw [← Bool.not_eq_true, Bool.and_eq_true, beq_iff_eq, beq_iff_eq]; exact h e he
  rw [Site.standing, absent]

theorem Site.owned_of_split {s : Site} {o : Owner} {k : ItemKind} {p q : List (Nat × PulItem)} {id : Nat} {it : PulItem}
    (split : s.pul = p ++ (id, it) :: q) (mine : it.owner = o ∧ it.content.kind = k)
    (before : ∀ e ∈ p, ¬(e.2.owner = o ∧ e.2.content.kind = k)) : s.owned o k = some (id, it) :=
  Table.seek_of_split split (by simp [mine]) fun e he => by
    rw [← Bool.not_eq_true, Bool.and_eq_true, beq_iff_eq, beq_iff_eq]; exact before e he

theorem PermitWork.mem_sections (k : PermitWork) (n : Nat) : n ∈ k.sections ↔ ∃ l, k = .clearance l ∧ n ∈ l := by
  cases k <;> simp [PermitWork.sections]

theorem PermitWork.names_iff (k : PermitWork) (n : Nat) : k.names n = true ↔ ∃ g, k = .switching n g := by
  cases k <;> simp [PermitWork.names]

theorem Permit.live_iff (p : Permit) :
    p.live = true ↔ p.state = .requested ∨ p.state = .issuing ∨ p.state = .issued ∨ p.state = .releasePending := by
  unfold Permit.live
  cases p.state <;> simp [PermitState.live]

theorem SwitchPoint.joins_iff_side (sw : SwitchPoint) (n : Nat) : sw.joins n = true ↔ sw.sideA = n ∨ sw.sideB = some n := by
  simp [SwitchPoint.joins]


theorem Site.permitsAtSection_spec (s : Site) (n : Nat) : ∃ l : List (Nat × Permit), l.Sublist s.permits
    ∧ s.permitsAtSection n = l.map (fun e => e.2.brief)
    ∧ ∀ e ∈ s.permits, e ∈ l ↔ e.2.live = true ∧ (n ∈ e.2.work.sections
      ∨ ∃ x, (∃ sw, (x, sw) ∈ s.switches ∧ sw.joins n = true) ∧ e.2.work.names x = true) := by
  refine ⟨_, List.filter_sublist, rfl, fun e he => ?_⟩
  simp only [List.mem_filter, he, true_and, Bool.and_eq_true, Bool.or_eq_true, List.contains_iff_mem, List.any_eq_true,
    Prod.exists, ← exists_and_right, and_assoc]

theorem Site.permitsAtSwitch_spec (s : Site) (n : Nat) : ∃ l : List (Nat × Permit), l.Sublist s.permits
    ∧ s.permitsAtSwitch n = l.map (fun e => e.2.brief)
    ∧ ∀ e ∈ s.permits, e ∈ l ↔ e.2.live = true ∧ (e.2.work.names n = true
      ∨ ∃ y ∈ s.sidesOf n, y ∈ e.2.work.sections) := by
  refine ⟨_, List.filter_sublist, rfl, fun e he => ?_⟩
  simp only [List.mem_filter, he, true_and, Bool.and_eq_true, Bool.or_eq_true, List.contains_iff_mem, List.any_eq_true]

theorem Site.mem_sidesOf {s : Site} (wf : s.switches.wf = true) (n y : Nat) :
    y ∈ s.sidesOf n ↔ ∃ sw, (n, sw) ∈ s.switches ∧ sw.joins y = true := by
  unfold Site.sidesOf
  constructor
  · intro member
    cases found : Table.look s.switches n with
    | none => simp [found] at member
    | some sw =>
      rw [found] at member
      exact ⟨sw, Table.mem_of_look found, (joins_iff sw y).2 member⟩
  · rintro ⟨sw, member, joins⟩
    rw [Table.look_of_mem wf member]
    exact (joins_iff sw y).1 joins

/-- The crew whose vehicle a terminal is: the first that names it. -/
theorem Site.crewOfVehicle_eq_some (s : Site) (i n : Nat) : s.crewOfVehicle i = some n ↔
    ∃ p c q, s.crews = p ++ (n, c) :: q ∧ c.vehicle = some i ∧ ∀ e ∈ p, e.2.vehicle ≠ some i := by
  have first (e : Nat × Crew) : Table.seek s.crews (fun _ c => c.vehicle == some i) = some e ↔
      e.2.vehicle = some i ∧ ∃ p q, s.crews = p ++ e :: q ∧ ∀ y ∈ p, y.2.vehicle ≠ some i := by
    simp [Table.seek, List.find?_eq_some_iff_append]
  simp only [Site.crewOfVehicle, Option.map_eq_some_iff, first]
  constructor
  · rintro ⟨⟨_, c⟩, ⟨vehicle, p, q, split, before⟩, rfl⟩
    exact ⟨p, c, q, split, vehicle, before⟩
  · rintro ⟨p, c, q, split, vehicle, before⟩
    exact ⟨(n, c), ⟨vehicle, p, q, split, before⟩, rfl⟩

/-- The three grounds of tier HIGH (R24). -/
theorem Site.tier_high_iff {s : Site} {i : Nat} {x : Terminal} (found : Table.look s.roster i = some x) :
    s.tier i = .high ↔ (x.kind = .personal ∧ ∃ r, Table.look s.watches i = some r)
      ∨ (∃ n c, x.crew = some n ∧ Table.look s.crews n = some c ∧ c.alarms ≠ 0)
      ∨ ∃ p n c q, s.crews = p ++ (n, c) :: q ∧ c.vehicle = some i ∧ (∀ e ∈ p, e.2.vehicle ≠ some i)
        ∧ ∃ e ∈ s.permits, e.2.crew = n ∧ (e.2.state = .issuing ∨ e.2.state = .issued ∨ e.2.state = .releasePending) := by
  have supervised : (x.kind == .personal && (Table.look s.watches i).isSome) = true ↔
      x.kind = .personal ∧ ∃ r, Table.look s.watches i = some r := by
    simp [Option.isSome_iff_exists]
  have alarmed : (x.crew.any fun n => s.alarmsOf n != 0) = true ↔
      ∃ n c, x.crew = some n ∧ Table.look s.crews n = some c ∧ c.alarms ≠ 0 := by
    cases x.crew with
    | none => simp
    | some n => cases found : Table.look s.crews n <;> simp [Site.alarmsOf, found]
  have permitted : ((s.crewOfVehicle i).any fun n => s.permits.any fun e => e.2.crew == n
        && (e.2.state == .issuing || e.2.state == .issued || e.2.state == .releasePending)) = true ↔
      ∃ p n c q, s.crews = p ++ (n, c) :: q ∧ c.vehicle = some i ∧ (∀ e ∈ p, e.2.vehicle ≠ some i)
        ∧ ∃ e ∈ s.permits, e.2.crew = n ∧ (e.2.state = .issuing ∨ e.2.state = .issued ∨ e.2.state = .releasePending) := by
    simp only [Option.any_eq_true, Site.crewOfVehicle_eq_some, List.any_eq_true, Bool.and_eq_true, Bool.or_eq_true,
      beq_iff_eq, or_assoc]
    constructor
    · rintro ⟨n, ⟨p, c, q, split, vehicle, before⟩, permit⟩
      exact ⟨p, n, c, q, split, vehicle, before, permit⟩
    · rintro ⟨p, n, c, q, split, vehicle, before, permit⟩
      exact ⟨n, ⟨p, c, q, split, vehicle, before⟩, permit⟩
  rw [← supervised, ← alarmed, ← permitted, ← or_assoc, ← Bool.or_eq_true, ← Bool.or_eq_true, Site.tier, found]
  dsimp only
  split
  · exact iff_of_true rfl ‹_›
  · exact iff_of_false (by simp) ‹_›

/-- A taken request that only reads: the site stands as the arrival leaves it. -/
theorem request_read {s : State} {h : Hdr} {n : Nat} (a : s.admits h n) (kind : Byte) (act : Link → Work → Taking)
    {body : ReplyBody} (hx : act (s.link.arrived s.site) s.begun = s.begun.taken body) :
    ∃ t, request h kind (lengthIs h n) act s = .next t ∧ t.site = s.site.arrived ∧ s.repliesTo t h kind .ok body :=
  request_settled a kind act hx rfl

theorem idOf_of_range {v : Word} (low : 1 ≤ v.toNat) (high : v.toNat ≤ 0xFFFFFFFE) : idOf v = some v.toNat :=
  if_pos ⟨low, high⟩

theorem chanOf_of_eq {b : Byte} {c : Chan} (h : b.toNat = c.val) : chanOf b = some c := by
  have small : b.toNat < 4 := h ▸ c.isLt
  rw [chanOf, dif_pos small]
  exact congrArg some (Fin.ext h)

theorem Work.describeTerminal_of_look {w : Work} {i : Nat} {x : Terminal} (found : Table.look w.site.roster i = some x) :
    w.describeTerminal i =
      w.taken (.terminal i x (x.outstanding.map w.site.outstandingBody) (w.site.tier i) (w.site.accessPending i)) := by
  rw [Work.describeTerminal, found]

theorem Work.withWatch_of_look {w : Work} {id : Word} {u : Nat} {x : Terminal} {r : Watch} {act : Nat → Watch → Taking}
    (low : 1 ≤ id.toNat) (high : id.toNat ≤ 0xFFFFFFFE) (holds : w.site.byId id.toNat = some (u, x))
    (found : Table.look w.site.watches u = some r) : w.withWatch id act = act u r := by
  rw [Work.withWatch, idOf_of_range low high]
  dsimp only
  rw [holds]
  dsimp only
  rw [found]

/-- Settles O54. -/
theorem readsChangeNothing : Obligations.ReadsChangeNothing := by
  refine ⟨fun s => ⟨rfl, rfl, rfl, fun n => ⟨s.rankedOrders_perm.filter _, ?_⟩, fun n o p q split before => ?_,
    fun u r => ?_, fun o k => ?_, fun n => ?_, fun o => ?_, fun i x found => ?_, fun i found => ?_⟩, fun h s => ?_⟩
  · exact List.Pairwise.filter _ s.rankedOrders_pairwise
  · exact congrArg (· + 1) (findIdx_of_split split before)
  · refine ⟨rfl, rfl, rfl, rfl, fun x found => ?_, ?_, ?_, ?_, ?_, ?_⟩
    · constructor
      · show (Table.look s.roster u).bind Terminal.crew = _
        rw [found]; rfl
      · show ((Table.look s.roster u).map Terminal.state).getD .unknown = _
        rw [found]; rfl
    all_goals
      intro state
      simp only [Site.watchBody, Watch.next, state]
    exact fun e expiry => by rw [expiry]; rfl
  · refine ⟨Site.standing_of_none, fun p id it q split mine before => ?_⟩
    have owned := Site.owned_of_split split mine before
    constructor
    · intro place
      rw [Site.standing, owned]; dsimp only; rw [place]
    · intro c place
      rw [Site.standing, owned]; dsimp only; rw [place]
  · intro brief live lists names joins
    refine ⟨?_, fun sorted => ?_, fun p k x q split number alive before => ?_, fun p k x q none split number kept before => ?_⟩
    · obtain ⟨l, sub, eq, mem⟩ := s.permitsAtSection_spec n
      refine ⟨l, sub, eq, fun e he => (mem e he).trans ?_⟩
      simp only [Permit.live_iff, PermitWork.mem_sections, PermitWork.names_iff, SwitchPoint.joins_iff_side]
      exact .rfl
    · obtain ⟨-, -, -, -, -, -, -, switches, -⟩ := (sorted_iff s).1 sorted
      obtain ⟨l, sub, eq, mem⟩ := s.permitsAtSwitch_spec n
      refine ⟨l, sub, eq, fun e he => (mem e he).trans ?_⟩
      simp only [Permit.live_iff, PermitWork.mem_sections, PermitWork.names_iff, Site.mem_sidesOf switches,
        SwitchPoint.joins_iff_side]
      exact .rfl
    · have named : s.livePermit n = some (k, x) :=
        Table.seek_of_split split (by rw [Bool.and_eq_true, beq_iff_eq, Permit.live_iff]; exact ⟨number, alive⟩)
          fun e he => by rw [← Bool.not_eq_true, Bool.and_eq_true, beq_iff_eq, Permit.live_iff]; exact before e he
      rw [Site.permitNamed, named]; rfl
    · have dead : s.livePermit n = Option.none := Table.seek_eq_none fun e he => by
        rw [← Bool.not_eq_true, Bool.and_eq_true, beq_iff_eq, Permit.live_iff]; exact none e he
      rw [Site.permitNamed, dead, Option.none_or]
      refine Table.seek_of_split split (by simp [number, kept]) fun e he => ?_
      rw [← Bool.not_eq_true, Bool.and_eq_true, beq_iff_eq]; exact before e he
  · obtain ⟨frame, channel, retry⟩ := o
    cases frame with
    | order m mark =>
      exact ⟨rfl, rfl, fun n m e => (by cases e; exact ⟨rfl, rfl⟩), fun id e => (by cases e)⟩
    | item id =>
      refine ⟨rfl, rfl, fun n m e => (by cases e), fun id' e => ?_⟩
      cases e
      refine ⟨fun p e q split holds before => ?_, fun it found => ?_, fun found => ?_⟩
      · have first : s.entryOf channel id = some e :=
          List.find?_eq_some_iff_append.2 ⟨holds, p, q, split, fun y hy => by simp [before y hy]⟩
        exact congrArg (Option.map _) first
      · exact congrArg (Option.map _) found
      · exact congrArg (Option.map _) found
  · refine ⟨Site.tier_high_iff found, ?_, by rw [Site.crewTerminal, found]; rfl⟩
    rw [Site.accessPending, found, Option.bind_some]
    cases x.channel <;> simp
  · rw [Site.crewTerminal, found]; rfl
  · refine ⟨fun v i x a holds low high found => request_read a _ _ ?_, fun v x a small found => request_read a _ _ ?_,
      fun n c a number found => request_read a _ _ ?_, fun b c a number => request_read a _ _ ?_, fun a => ⟨?_, ?_, ?_, ?_⟩,
      fun b a => ⟨fun small => request_read a _ _ (if_pos small), fun small => request_read a _ _ (if_pos small)⟩,
      fun a => ⟨request_read a _ _ rfl, fun n k p nonzero named => request_read a _ _ ?_⟩, fun a => request_read a _ _ rfl⟩
    · show takeGetTerminal 0 v s.begun = _
      have holder : s.begun.site.byId v.toNat = some (i, x) := holds
      rw [takeGetTerminal, if_pos rfl, idOf_of_range low high]
      dsimp only
      rw [holder]
      exact Work.describeTerminal_of_look found
    · show takeGetTerminal 1 v s.begun = _
      rw [takeGetTerminal, if_neg (by decide), if_pos rfl, if_pos small]
      exact Work.describeTerminal_of_look found
    · have crew : Table.look s.begun.site.crews n.toNat = some c := found
      rw [takeGetCrew, number]
      dsimp only
      rw [crew]
      rfl
    · rw [takeGetChannel, chanOf_of_eq number]
      rfl
    · exact request_read a _ _ (if_pos rfl)
    · exact request_read a _ _ (if_pos rfl)
    · intro v o nonzero found
      have order : Table.look s.begun.site.orders v.toNat = some o := found
      refine request_read a _ _ ?_
      rw [takeGetOrder, if_neg nonzero, order]
      rfl
    · intro v u x r low high holds found
      have nonzero : v ≠ 0 := by rintro rfl; exact absurd low (by decide)
      refine request_read a _ _ ?_
      rw [takeGetWatch, if_neg nonzero, Work.withWatch_of_look low high holds found]
      rfl
    · have permit : s.begun.site.permitNamed n.toNat = some (k, p) := named
      rw [takeGetPermit, if_neg nonzero, permit]
      rfl

end Sys2Proof.Machine

/-! PROOFS. Supervision: its requests, the check-in cycle and the alarms (Chapter 6). -/

namespace Sys2Proof.Machine

/-! ### A supervision record changed, and its reports -/

theorem Work.modWatch_look (w : Work) (u : Nat) (f : Watch → Watch) :
    Table.look (w.modWatch u f).site.watches u = (Table.look w.site.watches u).map f := Table.look_adjust_same _ _ _

theorem Work.modWatch_modWatch (w : Work) (u : Nat) (f g : Watch → Watch) :
    (w.modWatch u f).modWatch u g = w.modWatch u fun r => g (f r) :=
  congrArg (fun t => w.modSite fun s => { s with watches := t }) (Table.adjust_adjust _ _ _ _)

/-- A change of a record is told by the record it leaves. -/
theorem Work.modWatch_congr {w : Work} {u : Nat} {f g : Watch → Watch} {r : Watch}
    (found : Table.look w.site.watches u = some r) (same : f r = g r) : w.modWatch u f = w.modWatch u g :=
  congrArg (fun t => w.modSite fun s => { s with watches := t }) (Table.adjust_congr found same)

/-- The report of a record's change, its unit named by a site with the same roster. -/
theorem Work.reportWatch_eq {w : Work} {s : Site} (roster : w.site.roster = s.roster) (u : Nat) (r : Watch)
    (state : Option WatchState) (previous : WatchState) (cause : WatchCause) (refused : Bool) :
    w.reportWatch u r state previous cause refused = w.emit (.watchState
      { id := s.idAt u, index := u, crew := s.boundCrew u, state, previous, cause, missed := r.missed
        deadline := r.deadline, lastCheckIn := r.lastCheckIn, stopNotPlaced := refused }) := by
  rw [Work.reportWatch, Site.idAt, Site.boundCrew, roster]; rfl

theorem Work.cancelOwned_watches (w : Work) (o : Owner) (k : ItemKind) : (w.cancelOwned o k).site.watches = w.site.watches :=
  Site.rest_eq (w.cancelOwned_rest o k) Site.watches fun _ => rfl

theorem Work.cancelOwned_roster (w : Work) (o : Owner) (k : ItemKind) : (w.cancelOwned o k).site.roster = w.site.roster :=
  Site.rest_eq (w.cancelOwned_rest o k) Site.roster fun _ => rfl

theorem Work.place_watches (w : Work) (o : Owner) (i : Nat) (x : ItemContent) :
    (w.place o i x).site.watches = w.site.watches := Site.rest_eq (w.place_rest o i x) Site.watches fun _ => rfl

theorem Work.place_roster (w : Work) (o : Owner) (i : Nat) (x : ItemContent) :
    (w.place o i x).site.roster = w.site.roster := Site.rest_eq (w.place_rest o i x) Site.roster fun _ => rfl

theorem Work.placeWatchStart_of_look {w : Work} {u : Nat} {r : Watch} (found : Table.look w.site.watches u = some r) :
    w.placeWatchStart u = w.place (.watch u) u (.watchStart r.interval r.missLimit r.lead) := by
  rw [Work.placeWatchStart, found]

theorem Work.placeAlarmSeen_roster (w : Work) (u : Nat) : (w.placeAlarmSeen u).site.roster = w.site.roster := by
  unfold Work.placeAlarmSeen
  repeat' split
  all_goals rfl

theorem Work.lowerAlarms_watches (w : Work) (u : Nat) : (w.lowerAlarms u).site.watches = w.site.watches := by
  rw [Work.lowerAlarms_site]

theorem Work.lowerAlarms_roster (w : Work) (u : Nat) : (w.lowerAlarms u).site.roster = w.site.roster := by
  rw [Work.lowerAlarms_site]

theorem Work.lowerAlarms_count (w : Work) (u : Nat) : (w.lowerAlarms u).site.count = w.site.count := by
  rw [Work.lowerAlarms_site]

/-- Where an owed ALARM_SEEN goes: on its channel when that is UP with room, and else it stays owed (R126). -/
theorem Work.placeAlarmSeen_of_room {w : Work} {u : Nat} {r : Watch} {c : Chan} (found : Table.look w.site.watches u = some r)
    (channel : r.alarmChannel = some c) (room : w.site.alertRoom c = true) :
    w.placeAlarmSeen u = (w.pushAlert c (.alarmSeen (w.site.idAt u) (r.state == .acknowledged))).modWatch u fun y =>
      { y with seenOwed := false } := by
  rw [Work.placeAlarmSeen, found]
  dsimp only
  rw [channel]
  dsimp only
  rw [if_pos room]

theorem Work.placeAlarmSeen_of_no_room {w : Work} {u : Nat} {r : Watch} (found : Table.look w.site.watches u = some r)
    (full : ∀ c, r.alarmChannel = some c → w.site.alertRoom c = false) :
    w.placeAlarmSeen u = w.modWatch u fun y => { y with seenOwed := true } := by
  rw [Work.placeAlarmSeen, found]
  dsimp only
  cases channel : r.alarmChannel with
  | none => rfl
  | some c =>
    dsimp only
    rw [full c channel, if_neg (by decide)]

/-- After the placing of an ALARM_SEEN the record tells whether one is still owed (R126). -/
theorem Work.placeAlarmSeen_look {w : Work} {u : Nat} {r : Watch} (found : Table.look w.site.watches u = some r) :
    Table.look (w.placeAlarmSeen u).site.watches u =
      some { r with seenOwed := !((r.alarmChannel.map w.site.alertRoom).getD false) } := by
  by_cases room : ∃ c, r.alarmChannel = some c ∧ w.site.alertRoom c = true
  · obtain ⟨c, channel, room⟩ := room
    have owed : (!(r.alarmChannel.map w.site.alertRoom).getD false) = false := by simp [channel, room]
    rw [Work.placeAlarmSeen_of_room found channel room, Work.modWatch_look, owed]
    exact congrArg (Option.map _) found
  · have full : ∀ c, r.alarmChannel = some c → w.site.alertRoom c = false :=
      fun c channel => Bool.not_eq_true _ ▸ fun yes => room ⟨c, channel, yes⟩
    have owed : (!(r.alarmChannel.map w.site.alertRoom).getD false) = true := by
      cases channel : r.alarmChannel with
      | none => rfl
      | some c => simp [full c channel]
    rw [Work.placeAlarmSeen_of_no_room found full, Work.modWatch_look, owed]
    exact congrArg (Option.map _) found

theorem Work.removeWatch_watches {w : Work} {u : Nat} {r : Watch} (found : Table.look w.site.watches u = some r)
    (cause : WatchCause) : (w.removeWatch u cause).site.watches = w.site.watches.del u := by
  unfold Work.removeWatch
  rw [found]
  dsimp only
  have cancelled : (((w.cancelOwned (.watch u) .watchSet).cancelOwned (.watch u) .prompt).modSite
      fun s => { s with watches := s.watches.del u }).site.watches = w.site.watches.del u := by
    show Table.del (((w.cancelOwned (.watch u) .watchSet).cancelOwned (.watch u) .prompt).site.watches) u = _
    rw [Work.cancelOwned_watches, Work.cancelOwned_watches]
  split
  · exact cancelled
  · exact (Work.place_watches _ _ _ _).trans cancelled

/-! ### The supervision requests -/

theorem takeStartWatch_of_checks {w : Work} {id : Word} {interval miss assist : Byte} {u : Nat} {x : Terminal} {m : Bool}
    (low : 1 ≤ id.toNat) (high : id.toNat ≤ 0xFFFFFFFE) (holds : w.site.byId id.toNat = some (u, x))
    (mark : markOf assist = some m) (least : 1 ≤ miss.toNat) (most : miss.toNat ≤ 3) (kind : x.kind = .personal)
    (bound : x.crew.isSome = true) (fresh : Table.look w.site.watches u = none) (room : w.site.watches.length < 64) :
    let r := w.site.newWatch (durationCodeOf interval) miss.toNat m
    takeStartWatch id interval miss assist w = (w.startWatch u r).taken (.watchStarted u r.lead r.deadline) := by
  rw [takeStartWatch, idOf_of_range low high, mark]
  dsimp only
  rw [if_pos ⟨least, most⟩, holds]
  dsimp only
  rw [if_neg (by simp [kind, Option.isNone_iff_eq_none, Option.isSome_iff_ne_none.1 bound]), if_neg (by simp [fresh]),
    if_neg (by omega)]

theorem Work.startWatch_eq (w : Work) (u : Nat) (r : Watch) :
    let v := w.modSite fun s => { s with watches := s.watches.put u r }
    w.startWatch u r = (if (Table.look w.site.stopNotices u).isSome = true
      then (v.cancelOwned (.terminal u) .watchSet).dropNotice u else v).place (.watch u) u
        (.watchStart r.interval r.missLimit r.lead) := by
  intro v
  refine Work.placeWatchStart_of_look ?_
  show Table.look (if (Table.look w.site.stopNotices u).isSome = true
      then (v.cancelOwned (.terminal u) .watchSet).dropNotice u else v).site.watches u = some r
  have put : Table.look v.site.watches u = some r := Table.look_put_same _ _ _
  split
  · show Table.look (v.cancelOwned (.terminal u) .watchSet).site.watches u = some r
    rw [Work.cancelOwned_watches, put]
  · exact put

/-- The watch goes on after an alarm was settled (R116). -/
theorem Work.resumeWatch_eq {w : Work} {u : Nat} {r : Watch} (found : Table.look w.site.watches u = some r)
    (previous : WatchState) :
    let back : Watch := { r with state := .watching, missed := 0, deadline := w.site.count + secondsOf r.interval }
    let v := w.modWatch u fun _ => back
    w.resumeWatch u previous = (if r.confirmed = true then v
      else v.place (.watch u) u (.watchStart r.interval r.missLimit r.lead)).emit (.watchState
        { id := w.site.idAt u, index := u, crew := w.site.boundCrew u, state := some .watching, previous, cause := .resolved
          missed := 0, deadline := w.site.count + secondsOf r.interval, lastCheckIn := r.lastCheckIn
          stopNotPlaced := false }) := by
  intro back v
  have start : (w.modWatch u fun y =>
      { y with state := .watching, missed := 0, deadline := w.site.count + secondsOf y.interval }) = v :=
    Work.modWatch_congr found rfl
  have standing : Table.look v.site.watches u = some back := by rw [Work.modWatch_look, found]; rfl
  have roster : (if r.confirmed = true then v
      else v.place (.watch u) u (.watchStart r.interval r.missLimit r.lead)).site.roster = w.site.roster := by
    split
    · rfl
    · exact Work.place_roster _ _ _ _
  unfold Work.resumeWatch
  dsimp only
  rw [start, standing]
  dsimp only
  rw [Work.placeWatchStart_of_look standing]
  exact Work.reportWatch_eq roster _ _ _ _ _ _

/-- Settles O48. -/
theorem watchRequestsTaken : Obligations.WatchRequestsTaken := by
  intro h s id u x low high holds
  refine ⟨fun interval miss assist m a mark least most kind bound fresh room => ?_, fun r found => ⟨fun a quiet => ?_,
    fun a alarm => request_outcome a _ _ ?_, fun a alarm => ⟨?_, ?_⟩, fun a alarm => ?_⟩⟩
  · intro code w
    refine request_outcome a _ _ ((takeStartWatch_of_checks (w := s.begun) low high holds mark least most kind bound fresh
      room).trans ?_)
    rw [Work.startWatch_eq]
    rfl
  · refine ⟨request_outcome a _ _ ?_, Work.removeWatch_watches (w := s.begun) found _⟩
    rw [takeStopWatch, Work.withWatch_of_look low high holds found, if_neg (by simp [quiet])]
  · rw [takeStopWatch, Work.withWatch_of_look low high holds found, if_pos alarm]
  · refine request_outcome a _ _ ?_
    rw [takeAckAlarm, Work.withWatch_of_look low high holds found, if_pos alarm, Work.ackAlarm,
      Work.reportWatch_eq (s := s.site) (Work.placeAlarmSeen_roster _ _)]
  · have acknowledged : Table.look (s.begun.modWatch u fun y =>
        { y with state := .acknowledged, escalationExpiry := none }).site.watches u =
          some { r with state := .acknowledged, escalationExpiry := none } := by
      rw [Work.modWatch_look]; exact congrArg (Option.map _) found
    exact Work.placeAlarmSeen_look acknowledged
  · intro settled w back
    have inAlarm : r.state.inAlarm = true := by rcases alarm with e | e <;> rw [e] <;> rfl
    have start : (s.begun.modWatch u Watch.settled).lowerAlarms u = w :=
      congrArg (Work.lowerAlarms · u) (Work.modWatch_congr (r := r) found rfl)
    have standing : Table.look w.site.watches u = some settled := by
      rw [Work.lowerAlarms_watches, Work.modWatch_look]; exact congrArg (Option.map _) found
    refine ⟨request_outcome a _ _ ?_, request_outcome a _ _ ?_, fun n bound => ?_⟩
    · show s.begun.withWatch id (fun u r => if r.state.inAlarm then (s.begun.resolveAlarm u r true).taken .empty
        else s.begun.refused .badState) = _
      rw [Work.withWatch_of_look low high holds found, if_pos inAlarm, Work.resolveAlarm, start, if_pos rfl,
        Work.resumeWatch_eq standing]
      have roster : w.site.roster = s.site.roster := Work.lowerAlarms_roster _ _
      have count : w.site.count = s.site.count := Work.lowerAlarms_count _ _
      simp only [Site.idAt, Site.boundCrew, roster, count]
      rfl
    · show s.begun.withWatch id (fun u r => if r.state.inAlarm then (s.begun.resolveAlarm u r false).taken .empty
        else s.begun.refused .badState) = _
      rw [Work.withWatch_of_look low high holds found, if_pos inAlarm, Work.resolveAlarm, start, if_neg (by decide)]
    · have crew : (s.begun.modWatch u fun _ => settled).site.boundCrew u = some n := bound
      rw [Work.lowerAlarms_site, Site.recounted, crew]
      rfl


/-! ### The check-in cycle -/

/-- A frame received changes no terminal's ID and no binding. -/
theorem State.received_idAt (s : State) (a : Arrival) (u : Nat) : (s.received a).site.idAt u = s.site.idAt u := by
  rw [Site.idAt, State.received_look, Site.idAt]
  cases Table.look s.site.roster u with
  | none => rfl
  | some x => simp only [Option.map_some]; split <;> rfl

theorem State.received_boundCrew (s : State) (a : Arrival) (u : Nat) :
    (s.received a).site.boundCrew u = s.site.boundCrew u := by
  rw [Site.boundCrew, State.received_look, Site.boundCrew]
  cases Table.look s.site.roster u with
  | none => rfl
  | some x => simp only [Option.map_some, Option.bind_some]; split <;> rfl

theorem State.heardFrom_idAt (s : State) (a : Arrival) (i u : Nat) : (s.heardFrom a i).site.idAt u = s.site.idAt u :=
  s.received_idAt a u

theorem State.heardFrom_boundCrew (s : State) (a : Arrival) (i u : Nat) :
    (s.heardFrom a i).site.boundCrew u = s.site.boundCrew u := s.received_boundCrew a u

theorem State.heardFrom_watches (s : State) (a : Arrival) (i : Nat) : (s.heardFrom a i).site.watches = s.site.watches := by
  rw [State.heardFrom_site]

theorem State.heardFrom_count (s : State) (a : Arrival) (i : Nat) : (s.heardFrom a i).site.count = s.site.count := by
  rw [State.heardFrom_site]

/-- A check-in for a record, by the state it finds (R121). -/
theorem Work.checkedIn_eq {w : Work} {u : Nat} {r : Watch} (found : Table.look w.site.watches u = some r)
    (p : Option Position) :
    let heard : Watch := { r with lastPosition := p.or r.lastPosition, lastCheckIn := some w.site.count }
    let back : Watch := { heard with state := .watching, missed := 0, deadline := w.site.count + secondsOf r.interval }
    let v := (w.modWatch u fun _ => back).cancelOwned (.watch u) .prompt
    w.checkedIn u r p = if r.state.inAlarm = true then w.modWatch u fun _ => heard
      else if r.state = .watching then v
      else v.reportWatch u back (some .watching) r.state .checkedIn false := by
  intro heard back v
  have first : (w.modWatch u fun r => { r.placed p with lastCheckIn := some w.site.count }) = w.modWatch u fun _ => heard :=
    Work.modWatch_congr found rfl
  have second : ((w.modWatch u fun r => { r.placed p with lastCheckIn := some w.site.count }).modWatch u fun r =>
      { r with state := .watching, missed := 0, deadline := w.site.count + secondsOf r.interval }) =
        w.modWatch u fun _ => back := by
    rw [Work.modWatch_modWatch]; exact Work.modWatch_congr found rfl
  have standing : Table.look v.site.watches u = some back := by
    rw [Work.cancelOwned_watches, Work.modWatch_look, found]; rfl
  have cycle : ∀ x : Work, x = v → (match r.state, Table.look x.site.watches u with
      | .watching, _ => x
      | _, some now => x.reportWatch u now (some .watching) r.state .checkedIn false
      | _, none => x) = if r.state = .watching then v
        else v.reportWatch u back (some .watching) r.state .checkedIn false := by
    rintro x rfl
    rw [standing]
    cases r.state <;> rfl
  unfold Work.checkedIn
  split
  · exact first
  · exact cycle _ (congrArg (Work.cancelOwned · _ _) second)

/-- The escalation of an alarm (R127). -/
theorem Work.escalate_eq (w : Work) (u : Nat) (r : Watch) :
    let raised : Watch := { r with
      escalations := if r.escalations < 255 then r.escalations + 1 else 255
      escalationExpiry := some (w.site.count + w.site.escalation) }
    let x := (w.modWatch u fun _ => raised).reportAlarm u raised .escalation
    let v := if r.assist = true ∨ w.site.attended = false then x.placeAssists u raised else x
    w.escalate u r = if r.seenOwed = true then v.placeAlarmSeen u else v := by
  have counted : min 255 (r.escalations + 1) = if r.escalations < 255 then r.escalations + 1 else 255 := by
    split <;> omega
  have assisted : (r.assist || !w.site.attended) = true ↔ r.assist = true ∨ w.site.attended = false := by simp
  dsimp only
  rw [← counted]
  simp only [← assisted]
  rfl

/-- The drop time of a stop notice (R114). -/
theorem Work.noticeExpires_of_due {w : Work} {u e : Nat} (found : Table.look w.site.stopNotices u = some e)
    (reached : e ≤ w.site.count) :
    w.noticeExpires u = match w.site.owned (.terminal u) .watchSet with
      | some (id, it) => if it.location.isNone then (w.dropNotice u).cancelItem id else w.dropNotice u
      | none => w.dropNotice u := by
  have expired : due (Table.look w.site.stopNotices u) w.site.count = true := by simp [due, found, reached]
  rw [Work.noticeExpires, if_pos expired]
  rfl

/-- Settles O49. -/
theorem checkInCycle : Obligations.CheckInCycle := by
  intro s u powered
  refine ⟨fun r found => ?_, fun a p inPlace unwatched => ?_, fun e found reached => ?_⟩
  · intro report
    refine ⟨fun a p inPlace => ?_, fun state reached => event_outcome powered (f := fun w => w.promptExpires u.val) ?_,
      fun state reached => event_outcome powered (f := fun w => w.deadlineExpires u.val) ?_,
      fun state reached => ⟨fun again => ?_, fun last => ?_⟩,
      fun e state expiry reached => event_outcome powered (f := fun w => w.escalationExpires u.val) ?_⟩
    · intro heard back w
      have heardRecord : Table.look (s.heardFrom a u.val).site.watches u.val = some r := by
        rw [State.heardFrom_watches, found]
      have run : exec (.checkIn a p) s =
          .next (s.after ((s.heardFrom a u.val).checkedIn u.val r (positionTaken p))) := by
        refine (granted_inPlace inPlace fun _ i w => w.takeCheckIn i (positionTaken p)).trans ?_
        rw [Work.takeCheckIn, heardRecord]
      rw [run, Work.checkedIn_eq heardRecord, State.heardFrom_count]
      refine ⟨fun inAlarm => by rw [if_pos inAlarm], fun state => ?_, fun state => ?_⟩
      · rw [if_neg (by simp [state, WatchState.inAlarm]), if_pos state]
      · have quiet : ¬r.state.inAlarm = true := by rcases state with e | e <;> simp [e, WatchState.inAlarm]
        have other : r.state ≠ .watching := by rcases state with e | e <;> simp [e]
        have roster : w.site.roster = (s.heardFrom a u.val).site.roster := Work.cancelOwned_roster _ _ _
        rw [if_neg quiet, if_neg other]
        refine congrArg (fun v => Host.Outcome.next (s.after v)) ((Work.reportWatch_eq roster _ _ _ _ _ _).trans ?_)
        rw [State.heardFrom_idAt, State.heardFrom_boundCrew]
    · show s.work.promptExpires u.val = _
      have here : Table.look s.work.site.watches u.val = some r := found
      rw [Work.promptExpires, here]
      dsimp only
      rw [if_pos ⟨state, reached⟩, Work.placePrompt, Work.reportWatch_eq (s := s.site) (Work.place_roster _ _ _ _)]
      simp only [report, state]
    · show s.work.deadlineExpires u.val = _
      have here : Table.look s.work.site.watches u.val = some r := found
      rw [Work.deadlineExpires, here]
      dsimp only
      rw [if_pos ⟨state, reached⟩, Work.reportWatch_eq (s := s.site) rfl]
      simp only [report, state]
    · refine event_outcome powered (f := fun w => w.graceExpires u.val) ?_
      show s.work.graceExpires u.val = _
      have here : Table.look s.work.site.watches u.val = some r := found
      rw [Work.graceExpires, here]
      dsimp only
      rw [if_pos ⟨state, reached⟩, if_pos again, Work.renewGrace, Work.placePrompt,
        Work.reportWatch_eq (s := s.site) (Work.place_roster _ _ _ _)]
      simp only [report, state]
      rfl
    · refine event_outcome powered (f := fun w => w.graceExpires u.val) ?_
      show s.work.graceExpires u.val = _
      have here : Table.look s.work.site.watches u.val = some r := found
      rw [Work.graceExpires, here]
      dsimp only
      rw [if_pos ⟨state, reached⟩, if_neg (by omega)]
      rfl
    · show s.work.escalationExpires u.val = _
      have here : Table.look s.work.site.watches u.val = some r := found
      have expired : due r.escalationExpiry s.work.site.count = true := by
        rw [expiry]; exact decide_eq_true reached
      rw [Work.escalationExpires, here]
      dsimp only
      rw [if_pos ⟨state, expired⟩]
      exact Work.escalate_eq _ _ _
  · have unheard : Table.look (s.heardFrom a u.val).site.watches u.val = none := by
      rw [State.heardFrom_watches, unwatched]
    refine (granted_inPlace inPlace fun _ i w => w.takeCheckIn i (positionTaken p)).trans ?_
    rw [Work.takeCheckIn, unheard]
  · refine ⟨fun unowned => event_outcome powered (f := fun w => w.noticeExpires u.val) ?_,
      fun id it owned => event_outcome powered (f := fun w => w.noticeExpires u.val) ?_⟩
    · refine (Work.noticeExpires_of_due (w := s.work) found reached).trans ?_
      have here : s.work.site.owned (.terminal u.val) .watchSet = none := unowned
      rw [here]
    · refine (Work.noticeExpires_of_due (w := s.work) found reached).trans ?_
      have here : s.work.site.owned (.terminal u.val) .watchSet = some (id, it) := owned
      rw [here]
      exact if_congr Option.isNone_iff_eq_none rfl rfl


/-! ### Alarms -/

theorem Site.alertRoom_iff (s : Site) (c : Chan) :
    s.alertRoom c = true ↔ (s.chan (s.logical c)).state = .up ∧ (s.chan (s.logical c)).alerts.length < 8 := by
  simp [Site.alertRoom]

/-- A frame received leaves the ALERT queues, the supervision records and the count alone. -/
theorem State.received_alertRoom (s : State) (a : Arrival) (c : Chan) :
    (s.received a).site.alertRoom c = s.site.alertRoom c := by
  have config : ∀ d, ((s.received a).site.chan d).config = (s.site.chan d).config := fun d => by
    rw [State.received_chan]; split <;> rfl
  rw [Site.alertRoom, Site.alertRoom, Site.logical_of_config config, State.received_chan]
  split <;> rfl

theorem State.received_watches (s : State) (a : Arrival) : (s.received a).site.watches = s.site.watches := by
  rw [State.received_site]

theorem State.received_count (s : State) (a : Arrival) : (s.received a).site.count = s.site.count := by
  rw [State.received_site]

theorem State.received_sender {s : State} {a : Arrival} {i : Nat} {x : Terminal}
    (sender : s.site.resolve (s.site.logical a.channel) a.sender = some i) (found : Table.look s.site.roster i = some x) :
    Table.look (s.received a).site.roster i =
      some (x.heard (s.site.logical a.channel) s.site.count a.sample.val) := by
  rw [State.received_look, found, Option.map_some, if_pos sender]

theorem Work.raiseAlarms_eq (w : Work) (u : Nat) :
    w.raiseAlarms u = (w.site.boundCrew u).elim w fun n => w.modCrew n fun y => { y with alarms := y.alarms + 1 } := by
  unfold Work.raiseAlarms
  cases w.site.boundCrew u <;> rfl

theorem Work.placeAssists_eq (v : Work) (u : Nat) (r : Watch) :
    v.placeAssists u r = (([0, 1, 2, 3] : List Chan).filter fun d =>
        !v.site.secondary d && (v.site.chan d).state == .up).foldl (fun x d =>
      if (x.site.chan (x.site.logical d)).state = .up ∧ (x.site.chan (x.site.logical d)).alerts.length < 8 then
        x.pushAlert d (.assist ((x.site.boundCrew u).getD 0) (x.site.idAt u) (r.cause.getD .noCheckIn) r.escalations
          r.lastPosition)
      else x.modSite fun y => { y with assistDrops := y.assistDrops.bump }) v := by
  simp only [Work.placeAssists, Site.logicals, List.filter_filter, Site.alertRoom_iff, Bool.and_comm]

/-- The last steps of an entry to ALARM: the escalation starts and the record is reported (R125). -/
def Work.startEscalation (w : Work) (u : Nat) : Work :=
  let w := w.modWatch u fun r => { r with escalationExpiry := some (w.site.count + w.site.escalation) }
  match Table.look w.site.watches u with
  | some r => w.reportAlarm u r .entry
  | none => w

theorem Work.startEscalation_eq {w : Work} {u : Nat} {r : Watch} (found : Table.look w.site.watches u = some r) :
    w.startEscalation u = (w.modWatch u fun y =>
      { y with escalationExpiry := some (w.site.count + w.site.escalation) }).reportAlarm u
        { r with escalationExpiry := some (w.site.count + w.site.escalation) } .entry := by
  have standing : Table.look (w.modWatch u fun y =>
      { y with escalationExpiry := some (w.site.count + w.site.escalation) }).site.watches u =
        some { r with escalationExpiry := some (w.site.count + w.site.escalation) } := by
    rw [Work.modWatch_look, found]; rfl
  unfold Work.startEscalation
  dsimp only
  rw [standing]

/-- The ALARM report of an entry, its unit told by a site with the same roster and attendance. -/
theorem Work.reportAlarm_entry_eq {w : Work} {s : Site} (roster : w.site.roster = s.roster)
    (attended : w.site.attended = s.attended) (u : Nat) (r : Watch) :
    w.reportAlarm u r .entry = w.emit (.alarm
      { id := s.idAt u, index := u, crew := s.boundCrew u, state := r.state, cause := r.cause, time := r.alarmTime
        escalations := r.escalations, reason := .entry, lastCheckIn := r.lastCheckIn, lastPosition := r.lastPosition
        terminalState := ((Table.look s.roster u).map fun x => x.state.reported).getD .unknown
        channel := (Table.look s.roster u).bind Terminal.channel, alarmChannel := r.alarmChannel, attended := s.attended }) := by
  rw [Work.reportAlarm, Site.idAt, Site.boundCrew, roster, attended]
  rfl

/-- The crew's count follows the entry: the crews alone change. -/
theorem Work.counting_site (w : Work) (u : Nat) (counted : Bool) :
    ∃ crews, (if counted = true then w else w.raiseAlarms u).site = { w.site with crews } := by
  split
  · exact ⟨_, rfl⟩
  · exact ⟨_, Work.raiseAlarms_site _ _⟩

/-- The entry to ALARM, step by step (R125). -/
theorem Work.enterAlarm_eq {v : Work} {u : Nat} {r : Watch} (found : Table.look v.site.watches u = some r) (k : AlarmCause)
    (d : Option Chan) (counted : Bool) :
    let standing := v.modWatch u (Watch.alarmed k d v.site.count)
    let counting := if counted = true then standing else standing.raiseAlarms u
    let now : Watch := { r.alarmed k d v.site.count with escalationExpiry := some (v.site.count + v.site.escalation) }
    let w := (counting.cancelOwned (.watch u) .prompt).modWatch u fun y =>
      { y with escalationExpiry := some (v.site.count + v.site.escalation) }
    v.enterAlarm u k d counted = w.reportAlarm u now .entry ∧ Table.look w.site.watches u = some now
      ∧ w.site.roster = v.site.roster ∧ w.site.attended = v.site.attended ∧ w.site.crews = counting.site.crews := by
  intro standing counting now w
  obtain ⟨crews, site⟩ : ∃ crews, counting.site = { standing.site with crews } := standing.counting_site u counted
  have rest := counting.cancelOwned_rest (.watch u) .prompt
  have count : (counting.cancelOwned (.watch u) .prompt).site.count = v.site.count :=
    (Site.rest_eq rest Site.count fun _ => rfl).trans (by rw [site]; rfl)
  have escalation : (counting.cancelOwned (.watch u) .prompt).site.escalation = v.site.escalation :=
    (Site.rest_eq rest Site.escalation fun _ => rfl).trans (by rw [site]; rfl)
  have record : Table.look (counting.cancelOwned (.watch u) .prompt).site.watches u = some (r.alarmed k d v.site.count) := by
    rw [Work.cancelOwned_watches, congrArg Site.watches site]
    show Table.look standing.site.watches u = _
    rw [Work.modWatch_look, found]; rfl
  refine ⟨?_, ?_, ?_, ?_, Site.rest_eq rest Site.crews fun _ => rfl⟩
  · have entered : v.enterAlarm u k d counted = (counting.cancelOwned (.watch u) .prompt).startEscalation u := rfl
    rw [entered, Work.startEscalation_eq record, count, escalation]
  · rw [Work.modWatch_look, record]; rfl
  · exact (Work.cancelOwned_roster _ _ _).trans (by rw [site]; rfl)
  · exact (Site.rest_eq rest Site.attended fun _ => rfl).trans (by rw [site]; rfl)

/-- An ALARM of a supervised unit, by the state its record stood in (R123). -/
theorem Work.alarmRaised_eq {w : Work} {u : Nat} {r : Watch} (found : Table.look w.site.watches u = some r) (c : Chan)
    (cause : AlarmCause) (p : Option Position) :
    let v := w.modWatch u fun y => { y with lastPosition := p.or r.lastPosition }
    w.alarmRaised u r c cause p = (match r.state with
      | .watching | .prompted | .overdue => v.enterAlarm u cause (some c) false
      | .alarm => v.modWatch u fun y => { y with alarmChannel := some c }
      | .acknowledged => v.enterAlarm u cause (some c) true).placeAlarmSeen u := by
  intro v
  have placed : (w.modWatch u fun y => y.placed p) = v := Work.modWatch_congr found rfl
  cases state : r.state <;> simp only [Work.alarmRaised, placed, state]

/-- Settles O50. -/
theorem alarmsTaken : Obligations.AlarmsTaken := by
  intro s a call p powered c w cause unsupervised fresh
  have run : exec (.alarm a call p) s = .next (s.after (w.takeAlarm (s.site.resolve c a.sender) c a.sender cause
      (positionTaken p))) :=
    arrival_powered powered a fun c sender w => w.takeAlarm sender c a.sender (calledCause call) (positionTaken p)
  rw [run]
  refine ⟨fun i x sender found => ?_, fun id form unknown => ?_, fun n form unknown => ?_, fun v u r found => ?_,
    fun v u k d counted r found => ?_⟩
  · have record := State.received_sender sender found
    have taken : w.takeAlarm (s.site.resolve c a.sender) c a.sender cause (positionTaken p) =
        w.alarmFrom i (x.heard c s.site.count a.sample.val) c cause (positionTaken p) := by
      rw [sender, Work.takeAlarm, record]
    rw [taken]
    refine ⟨fun kind => ?_, fun kind unwatched => ⟨fun free => ?_, fun full => ?_⟩, fun kind r watched => ?_⟩
    · refine congrArg (fun v => Host.Outcome.next (s.after v)) ?_
      have vehicle : (x.heard c s.site.count a.sample.val).kind = .vehicle := kind
      rw [Work.alarmFrom, vehicle]
      rfl
    · refine congrArg (fun v => Host.Outcome.next (s.after v)) ?_
      have personal : (x.heard c s.site.count a.sample.val).kind = .personal := kind
      have none : Table.look w.site.watches i = none := by rw [State.received_watches, unwatched]
      have room : w.site.watches.length < 64 := by rw [State.received_watches]; exact free
      have record : w.site.alarmWatch (positionTaken p) = fresh := by
        rw [Site.alarmWatch, State.received_count]; rfl
      rw [Work.alarmFrom, personal]
      dsimp only
      rw [none]
      dsimp only
      rw [if_pos room, ← record]
      rfl
    · refine congrArg (fun v => Host.Outcome.next (s.after v)) ?_
      have personal : (x.heard c s.site.count a.sample.val).kind = .personal := kind
      have none : Table.look w.site.watches i = none := by rw [State.received_watches, unwatched]
      have busy : ¬w.site.watches.length < 64 := by rw [State.received_watches]; omega
      have room : (unsupervised w (.record x.id i) (some x) .noRecordFree).site.alertRoom c = s.site.alertRoom c :=
        s.received_alertRoom a c
      rw [Work.alarmFrom, personal]
      dsimp only
      rw [none]
      dsimp only
      rw [if_neg busy, ← room]
      rfl
    · have personal : (x.heard c s.site.count a.sample.val).kind = .personal := kind
      have standing : Table.look w.site.watches i = some r := by rw [State.received_watches, watched]
      have raised : w.alarmFrom i (x.heard c s.site.count a.sample.val) c cause (positionTaken p) =
          w.alarmRaised i r c cause (positionTaken p) := by
        rw [Work.alarmFrom, personal]
        dsimp only
        rw [standing]
      rw [raised, Work.alarmRaised_eq standing]
      refine ⟨fun state => ?_, fun state => by rw [state], fun state => by rw [state]⟩
      rcases state with e | e | e <;> rw [e]
  · rw [unknown, form]; rfl
  · rw [unknown, form]; rfl
  · intro room
    refine ⟨fun d channel free => Work.placeAlarmSeen_of_room found channel ((Site.alertRoom_iff _ _).2 free),
      fun full => Work.placeAlarmSeen_of_no_room found fun d channel => ?_, Work.placeAssists_eq v u r⟩
    rw [← Bool.not_eq_true, Site.alertRoom_iff]
    exact full d channel
  · intro t standing crew raised counting
    obtain ⟨entered, record, roster, attended, crews⟩ := Work.enterAlarm_eq found k d counted
    have counting_eq : (if counted = true then v.modWatch u (Watch.alarmed k d v.site.count)
        else (v.modWatch u (Watch.alarmed k d v.site.count)).raiseAlarms u) = counting := by
      rw [Work.raiseAlarms_eq]; rfl
    refine ⟨entered.trans ?_, ?_, ?_⟩
    · rw [counting_eq] at roster attended ⊢
      exact Work.reportAlarm_entry_eq roster attended u _
    · rw [show t = _ from entered]
      exact record
    · rw [show t = _ from entered]
      refine crews.trans ?_
      split
      · rfl
      · rw [Work.raiseAlarms_eq]
        show (crew.elim standing raised).site.crews = _
        cases crew <;> rfl

end Sys2Proof.Machine

/-! PROOFS. Owed items: placing, cancelling and moving them (R77, R81 to R84), and the ends of the records that own them. -/

namespace Sys2Proof.Table

theorem look_ne_none_of_mem {α : Type} {t : Table α} {n : Nat} {x : α} (h : (n, x) ∈ t) : look t n ≠ none := by
  induction t with
  | nil => cases h
  | cons e t ih =>
    obtain ⟨k, y⟩ := e
    unfold look
    split
    · simp
    · rename_i other
      rcases List.mem_cons.1 h with first | later
      · exact absurd (congrArg Prod.fst first).symm other
      · exact ih later

end Sys2Proof.Table

namespace Sys2Proof.Machine

/-! ### The words of the Pending Urgent List -/

theorem Owner.isTerminal_iff (o : Owner) : o.isTerminal = true ↔ ∃ n, o = .terminal n := by
  cases o <;> simp [Owner.isTerminal]

theorem UrgentEntry.holds_iff (e : UrgentEntry) (id : Nat) : e.holds id = true ↔ ∃ a x, e.frame = .item id a x := by
  unfold UrgentEntry.holds
  cases e.frame <;> simp

theorem Site.affiliatedOn_iff (s : Site) (i : Nat) (c : Chan) :
    s.affiliatedOn i c = true ↔ ∃ x, Table.look s.roster i = some x ∧ x.state = .affiliated ∧ x.channel = some c := by
  simp [Site.affiliatedOn, Terminal.on, Option.any_eq_true]

theorem Site.servingChannel_iff (s : Site) (i : Nat) (c : Chan) :
    s.servingChannel i = some c ↔ s.affiliatedOn i c = true ∧ (s.chan c).state = .up := by
  rw [Site.affiliatedOn_iff, Site.servingChannel]
  cases Table.look s.roster i with
  | none => simp
  | some x =>
    dsimp only
    cases channel : x.channel with
    | none => simp [channel]
    | some d =>
      dsimp only
      rw [Option.ite_none_right_eq_some, Option.some.injEq]
      constructor
      · rintro ⟨⟨state, up⟩, rfl⟩
        exact ⟨⟨x, rfl, state, channel⟩, up⟩
      · rintro ⟨⟨_, found, state, here⟩, up⟩
        cases found
        obtain rfl : d = c := by rw [channel] at here; exact Option.some.inj here
        exact ⟨⟨state, up⟩, rfl⟩

theorem Site.placementRefused_iff (s : Site) (o : Owner) :
    s.placementRefused o = true ↔ (∃ n, o = .terminal n) ∧ 16 ≤ (s.pul.filter fun e => e.2.owner.isTerminal).length := by
  rw [Site.placementRefused, Bool.and_eq_true, Owner.isTerminal_iff, Site.terminalItemsFull, decide_eq_true_iff]
  rfl

theorem Site.urgentRoom_iff (s : Site) (c : Chan) : s.urgentRoom c = true ↔ (s.chan c).urgents.length < 16 :=
  decide_eq_true_iff

/-- A change of a channel is told by the record it leaves. -/
theorem Work.modChan_congr {w : Work} {c : Chan} {f g : Channel → Channel} (same : f (w.site.chan c) = g (w.site.chan c)) :
    w.modChan c f = w.modChan c g :=
  congrArg (fun ch => w.modSite fun s => { s with channels := s.channels.set c.val ch c.isLt }) same

theorem Work.modChan_chan_same (w : Work) (c : Chan) (f : Channel → Channel) :
    (w.modChan c f).site.chan c = f (w.site.chan c) := by
  rw [Work.modChan_chan, if_pos rfl]

/-! ### Placing -/

theorem Work.place_of_refused {w : Work} {o : Owner} (refused : w.site.placementRefused o = true) (i : Nat)
    (x : ItemContent) : w.place o i x = w := if_pos refused

theorem Work.place_of_taken {w : Work} {o : Owner} (taken : w.site.placementRefused o = false) (i : Nat)
    (x : ItemContent) : w.place o i x = (w.cancelOwned o x.kind).insertItem o i x :=
  if_neg (by simp [taken])

/-- The item stands at the tail of the list, whatever its addressee's channel. -/
def Work.holdItem (w : Work) (o : Owner) (i : Nat) (x : ItemContent) : Work :=
  w.modSite fun s => { s with
    nextItem := w.site.nextItem + 1
    pul := s.pul.put w.site.nextItem { owner := o, addressee := i, content := x, location := none } }

theorem Work.insertItem_of_unserved {w : Work} {i : Nat} (unserved : w.site.servingChannel i = none) (o : Owner)
    (x : ItemContent) : w.insertItem o i x = w.holdItem o i x := by
  have here : (w.holdItem o i x).site.servingChannel i = none := unserved
  show (match (w.holdItem o i x).site.servingChannel i with
    | some ch => if (w.holdItem o i x).site.urgentRoom ch then (w.holdItem o i x).moveItem w.site.nextItem _ ch
      else w.holdItem o i x
    | none => w.holdItem o i x) = _
  rw [here]

theorem Work.insertItem_of_served {w : Work} {i : Nat} {c : Chan} (served : w.site.servingChannel i = some c) (o : Owner)
    (x : ItemContent) : w.insertItem o i x = if (w.site.chan c).urgents.length < 16 then
      (w.holdItem o i x).moveItem w.site.nextItem { owner := o, addressee := i, content := x, location := none } c
      else w.holdItem o i x := by
  have here : (w.holdItem o i x).site.servingChannel i = some c := served
  have room : ((w.holdItem o i x).site.urgentRoom c = true) = ((w.site.chan c).urgents.length < 16) :=
    propext (Site.urgentRoom_iff _ _)
  show (match (w.holdItem o i x).site.servingChannel i with
    | some ch => if (w.holdItem o i x).site.urgentRoom ch then (w.holdItem o i x).moveItem w.site.nextItem _ ch
      else w.holdItem o i x
    | none => w.holdItem o i x) = _
  rw [here]
  dsimp only
  simp only [room]

/-! ### Cancelling -/

theorem Work.cancelOwned_of_none {w : Work} {o : Owner} {k : ItemKind}
    (h : ∀ e ∈ w.site.pul, ¬(e.2.owner = o ∧ e.2.content.kind = k)) : w.cancelOwned o k = w := by
  have absent : w.site.owned o k = none := Table.seek_eq_none fun e he => by
    rw [← Bool.not_eq_true, Bool.and_eq_true, beq_iff_eq, beq_iff_eq]; exact h e he
  rw [Work.cancelOwned, absent]

theorem Work.cancelOwned_of_owned {w : Work} {o : Owner} {k : ItemKind} {id : Nat} {it : PulItem}
    (owned : w.site.owned o k = some (id, it)) : w.cancelOwned o k = w.cancelItem id := by
  rw [Work.cancelOwned, owned]

/-- No item of the list meets a condition that its place does not enter. -/
def Site.owesNone (s : Site) (mine : PulItem → Prop) : Prop := ∀ e ∈ s.pul, ¬mine e.2

section
variable {mine : PulItem → Prop} (placeless : ∀ it place, mine { it with location := place } → mine it)
include placeless

theorem Work.fillSome_owesNone (c : Chan) (n : Nat) {w : Work} (h : w.site.owesNone mine) :
    (Work.fillSome c n w).site.owesNone mine := by
  induction n generalizing w with
  | zero => exact h
  | succ n ih =>
    unfold Work.fillSome
    split
    · split
      · rename_i id it next
        refine ih fun e he => ?_
        rcases Table.mem_put he with rfl | he
        · exact fun bad => h (id, it) (List.mem_of_find?_eq_some next) (placeless it _ bad)
        · exact h e he
      · exact h
    · exact h

theorem Work.insertItem_owesNone {w : Work} (h : w.site.owesNone mine) (o : Owner) (i : Nat) (x : ItemContent)
    (other : ¬mine { owner := o, addressee := i, content := x, location := none }) :
    (w.insertItem o i x).site.owesNone mine := by
  have held : (w.holdItem o i x).site.owesNone mine := fun e he => by
    rcases Table.mem_put he with rfl | he
    · exact other
    · exact h e he
  cases served : w.site.servingChannel i with
  | none => rw [Work.insertItem_of_unserved served]; exact held
  | some c =>
    rw [Work.insertItem_of_served served]
    split
    · intro e he
      rcases Table.mem_put he with rfl | he
      · exact fun bad => other (placeless _ _ bad)
      · exact held e he
    · exact held

/-- What follows a cancellation brings no item but one of a terminal. -/
theorem Work.leftSystem_owesNone {w : Work} (h : w.site.owesNone mine) (it : PulItem)
    (other : ∀ x : PulItem, x.owner.isTerminal = true → ¬mine x) : (w.leftSystem it).site.owesNone mine := by
  unfold Work.leftSystem
  split
  · unfold Work.serveNotes
    split
    · unfold Work.placeNoteRecall
      repeat' split
      · exact Work.insertItem_owesNone placeless h _ _ _ (other _ rfl)
      all_goals exact h
    · exact h
  · exact h

theorem Work.cancelItem_owesNone {w : Work} {id : Nat} {it : PulItem} (member : (id, it) ∈ w.site.pul)
    (unique : ∀ e ∈ w.site.pul, mine e.2 → e.1 = id)
    (other : ∀ x : PulItem, x.owner.isTerminal = true → ¬mine x) : (w.cancelItem id).site.owesNone mine := by
  have dropped : (w.dropItem id).site.owesNone mine := fun e he bad => by
    obtain ⟨he, kept⟩ := List.mem_filter.1 he
    exact absurd (unique e he bad) (by simpa using kept)
  unfold Work.cancelItem
  split
  · rename_i absent
    exact absurd absent (Table.look_ne_none_of_mem member)
  · split
    · exact Work.leftSystem_owesNone placeless dropped _ other
    · refine Work.leftSystem_owesNone placeless ?_ _ other
      unfold Work.cancelEntry
      repeat' split
      · exact Work.fillSome_owesNone placeless _ _ dropped
      all_goals exact dropped

end

/-- The owner holds the item of a kind no longer once it is cancelled. -/
theorem Work.cancelOwned_owesNone {w : Work} {o : Owner} (other : o.isTerminal = false) (k : ItemKind)
    (unique : ∀ e ∈ w.site.pul, ∀ f ∈ w.site.pul, (e.2.owner = o ∧ e.2.content.kind = k) →
      (f.2.owner = o ∧ f.2.content.kind = k) → e = f) :
    (w.cancelOwned o k).site.owesNone fun it => it.owner = o ∧ it.content.kind = k := by
  cases owned : w.site.owned o k with
  | none =>
    rw [Work.cancelOwned, owned]
    intro e he mine
    have := List.find?_eq_none.1 owned e he
    simp [mine] at this
  | some e =>
    obtain ⟨id, it⟩ := e
    have member := List.mem_of_find?_eq_some owned
    have mine : it.owner = o ∧ it.content.kind = k := by simpa using List.find?_some owned
    rw [Work.cancelOwned_of_owned owned]
    refine Work.cancelItem_owesNone (fun _ _ h => h) member (fun e he his => ?_) fun x terminal his => ?_
    · rw [unique e he (id, it) member his mine]
    · rw [his.1, other] at terminal
      cases terminal

theorem Work.cancelItem_of_listed {w : Work} {id : Nat} {it : PulItem} (found : Table.look w.site.pul id = some it)
    (listed : it.location = none) : w.cancelItem id = (w.dropItem id).leftSystem it := by
  rw [Work.cancelItem, found]
  dsimp only
  rw [listed]

theorem Work.cancelItem_of_queued {w : Work} {id : Nat} {it : PulItem} {c : Chan}
    (found : Table.look w.site.pul id = some it) (queued : it.location = some c) :
    w.cancelItem id = ((w.dropItem id).cancelEntry c id).leftSystem it := by
  rw [Work.cancelItem, found]
  dsimp only
  rw [queued]

theorem Work.cancelEntry_of_none {w : Work} {c : Chan} {id : Nat}
    (h : ∀ y ∈ (w.site.chan c).urgents, y.holds id = false) : w.cancelEntry c id = w := by
  have absent : w.site.entryOf c id = none := List.find?_eq_none.2 fun y hy => by simp [h y hy]
  rw [Work.cancelEntry, absent]

/-- The one entry of an item in its queue: a WAITING one leaves, another is marked (R77). -/
theorem Work.cancelEntry_of_split {w : Work} {c : Chan} {id : Nat} {p q : List UrgentEntry} {e : UrgentEntry}
    (split : (w.site.chan c).urgents = p ++ e :: q) (holds : e.holds id = true)
    (alone : ∀ y ∈ p ++ q, y.holds id = false) :
    w.cancelEntry c id = if e.status = .waiting then (w.modChan c fun ch => { ch with urgents := p ++ q }).fill c
      else w.modChan c fun ch => { ch with urgents := p ++ { e with cancelled := true } :: q } := by
  have before : ∀ y ∈ p, y.holds id = false := fun y hy => alone y (by simp [hy])
  have behind : ∀ y ∈ q, y.holds id = false := fun y hy => alone y (by simp [hy])
  have first : w.site.entryOf c id = some e :=
    List.find?_eq_some_iff_append.2 ⟨holds, p, q, split, fun y hy => by simp [before y hy]⟩
  have removed : w.removeEntry c id = w.modChan c fun ch => { ch with urgents := p ++ q } := by
    refine Work.modChan_congr ?_
    rw [split, List.filter_append, List.filter_cons_of_neg (by simp [holds]),
      List.filter_eq_self.2 fun y hy => by simp [before y hy], List.filter_eq_self.2 fun y hy => by simp [behind y hy]]
  have marked : (w.modEntry c id fun e => { e with cancelled := true }) =
      w.modChan c fun ch => { ch with urgents := p ++ { e with cancelled := true } :: q } := by
    refine Work.modChan_congr ?_
    have still : ∀ l : List UrgentEntry, (∀ y ∈ l, y.holds id = false) →
        (l.map fun y => if y.holds id = true then { y with cancelled := true } else y) = l := fun l others =>
      (List.map_congr_left fun y hy => by rw [others y hy, if_neg (by decide)]).trans (List.map_id' l)
    rw [split, List.map_append, List.map_cons, if_pos holds, still p before, still q behind]
  rw [Work.cancelEntry, first]
  dsimp only
  rw [removed, marked]

/-! ### Filling a queue (R83) -/

theorem Work.fillSome_of_full {w : Work} {c : Chan} (full : ¬(w.site.chan c).urgents.length < 16) (n : Nat) :
    Work.fillSome c n w = w := by
  cases n with
  | zero => rfl
  | succ n => exact if_neg fun room => full ((Site.urgentRoom_iff _ _).1 room.2)

/-- A moved item takes one place of the queue. -/
theorem Work.moveItem_urgents (w : Work) (id : Nat) (it : PulItem) (c : Chan) :
    ((w.moveItem id it c).site.chan c).urgents = (w.site.chan c).urgents
      ++ [{ frame := .item id it.addressee it.content, status := .waiting, cancelled := false }] := by
  show (((w.modSite fun s => { s with pul := s.pul.put id { it with location := some c } }).modChan c fun ch =>
    { ch with urgents := ch.urgents
      ++ [{ frame := .item id it.addressee it.content, status := .waiting, cancelled := false }] }).site.chan c).urgents = _
  rw [Work.modChan_chan_same]
  rfl

theorem Work.moveItem_length (w : Work) (id : Nat) (it : PulItem) (c : Chan) :
    ((w.moveItem id it c).site.chan c).urgents.length = (w.site.chan c).urgents.length + 1 := by
  rw [Work.moveItem_urgents, List.length_append]
  rfl

/-- Moves beyond the places of the queue change nothing. -/
theorem Work.fillSome_enough (c : Chan) (n : Nat) : ∀ (m : Nat) (w : Work), 16 ≤ (w.site.chan c).urgents.length + n →
    16 ≤ (w.site.chan c).urgents.length + m → Work.fillSome c n w = Work.fillSome c m w := by
  induction n with
  | zero =>
    intro m w hn hm
    rw [Work.fillSome_of_full (by omega), Work.fillSome_of_full (by omega)]
  | succ n ih =>
    rintro (_ | m) w hn hm
    · rw [Work.fillSome_of_full (by omega), Work.fillSome_of_full (by omega)]
    · unfold Work.fillSome
      split
      · split
        · exact ih m _ (by rw [Work.moveItem_length]; omega) (by rw [Work.moveItem_length]; omega)
        · rfl
      · rfl

theorem Work.fill_of_idle {w : Work} {c : Chan} (idle : ¬((w.site.chan c).state = .up ∧ (w.site.chan c).urgents.length < 16)
      ∨ ∀ e ∈ w.site.pul, ¬(e.2.location = none ∧ w.site.affiliatedOn e.2.addressee c = true)) : w.fill c = w := by
  unfold Work.fill Work.fillSome
  split
  · rename_i room
    have nobody : w.site.nextWaiting c = none := Table.seek_eq_none fun e he => by
      rw [← Bool.not_eq_true, Bool.and_eq_true, beq_iff_eq]
      exact (idle.resolve_left fun no => no ⟨room.1, (Site.urgentRoom_iff _ _).1 room.2⟩) e he
    rw [nobody]
  · rfl

/-- The oldest waiting item moves first. -/
theorem Work.fill_of_split {w : Work} {c : Chan} {p q : List (Nat × PulItem)} {id : Nat} {it : PulItem}
    (room : (w.site.chan c).state = .up ∧ (w.site.chan c).urgents.length < 16) (split : w.site.pul = p ++ (id, it) :: q)
    (waits : it.location = none ∧ w.site.affiliatedOn it.addressee c = true)
    (before : ∀ e ∈ p, ¬(e.2.location = none ∧ w.site.affiliatedOn e.2.addressee c = true)) :
    w.fill c = (w.moveItem id it c).fill c := by
  have next : w.site.nextWaiting c = some (id, it) := Table.seek_of_split split (by simp [waits]) fun e he => by
    rw [← Bool.not_eq_true, Bool.and_eq_true, beq_iff_eq]; exact before e he
  have step : w.fill c = Work.fillSome c 15 (w.moveItem id it c) := by
    unfold Work.fill
    rw [Work.fillSome, if_pos ⟨room.1, (Site.urgentRoom_iff _ _).2 room.2⟩, next]
  rw [step]
  exact Work.fillSome_enough c 15 16 _ (by rw [Work.moveItem_length]; omega) (by omega)

/-- Settles O45. -/
theorem itemPlacement : Obligations.ItemPlacement := by
  refine ⟨fun w o i x => ⟨Site.placementRefused_iff _ _, fun refused => Work.place_of_refused refused i x,
      fun taken => ?_⟩, Owner.isTerminal_iff, fun x => ?_, fun s i c => ⟨s.affiliatedOn_iff i c, s.servingChannel_iff i c⟩,
    fun w o k => ⟨Work.cancelOwned_of_none, fun p id it q split mine before =>
      Work.cancelOwned_of_owned (Site.owned_of_split split mine before), fun other unique => ?_⟩,
    UrgentEntry.holds_iff, fun w id absent => by rw [Work.cancelItem, absent], fun w id it found => ?_,
    fun w c => ⟨Work.fill_of_idle, fun p id it q room split waits before => Work.fill_of_split room split waits before⟩⟩
  · intro v id held
    refine ⟨fun sorted => ?_, fun unserved => ?_, fun c served => ⟨fun room => ?_, fun full => ?_⟩⟩
    · have kept : v.site.sorted = true := (Work.cancelOwned_kept (.refl _) o x.kind).sorted sorted
      obtain ⟨-, -, items, -⟩ := (sorted_iff _).1 kept
      exact Table.put_next ((Table.wfBelow_iff _ _).1 items).2 _
    · rw [Work.place_of_taken taken, Work.insertItem_of_unserved unserved]; rfl
    · intro t
      have placed : t = held.moveItem id { owner := o, addressee := i, content := x, location := none } c := by
        show w.place o i x = _
        rw [Work.place_of_taken taken, Work.insertItem_of_served served, if_pos room]; rfl
      refine ⟨placed, ?_, ?_, by rw [placed]; rfl, by rw [placed]; rfl⟩
      · rw [placed]; exact Table.look_put_same _ _ _
      · rw [placed, Work.moveItem_urgents]; rfl
    · rw [Work.place_of_taken taken, Work.insertItem_of_served served, if_neg (by omega)]; rfl
  · cases x <;> simp [ItemContent.kind]
  · refine Work.cancelOwned_owesNone ?_ k unique
    rw [← Bool.not_eq_true, Owner.isTerminal_iff]
    rintro ⟨n, e⟩
    exact other n e
  · intro v left
    refine ⟨Work.cancelItem_of_listed found, fun c queued => ⟨fun absent => ?_, fun p e q split holds alone => ⟨fun waiting => ?_,
      fun standing => ?_⟩⟩⟩
    · rw [Work.cancelItem_of_queued found queued, Work.cancelEntry_of_none (w := w.dropItem id) absent]
      rfl
    · rw [Work.cancelItem_of_queued found queued, Work.cancelEntry_of_split (w := w.dropItem id) split holds alone,
        if_pos waiting]
      rfl
    · rw [Work.cancelItem_of_queued found queued, Work.cancelEntry_of_split (w := w.dropItem id) split holds alone,
        if_neg standing]
      rfl


/-! ### The ends of records -/

theorem Work.modPermit_look (w : Work) (k : Nat) (f : Permit → Permit) :
    Table.look (w.modPermit k f).site.permits k = (Table.look w.site.permits k).map f := Table.look_adjust_same _ _ _

theorem Work.modPermit_modPermit (w : Work) (k : Nat) (f g : Permit → Permit) :
    (w.modPermit k f).modPermit k g = w.modPermit k fun p => g (f p) :=
  congrArg (fun t => w.modSite fun s => { s with permits := t }) (Table.adjust_adjust _ _ _ _)

/-- A change of a record is told by the record it leaves. -/
theorem Work.modPermit_congr {w : Work} {k : Nat} {f g : Permit → Permit} {p : Permit}
    (found : Table.look w.site.permits k = some p) (same : f p = g p) : w.modPermit k f = w.modPermit k g :=
  congrArg (fun t => w.modSite fun s => { s with permits := t }) (Table.adjust_congr found same)

theorem Work.finishOrder_of_look {w : Work} {n : Nat} {o : Order} (found : Table.look w.site.orders n = some o)
    (new : OrderState) (cause : OrderCause) (reason : Option ReturnReason) (note : Option NoteResult) :
    w.finishOrder n new cause reason note = ((w.reportOrder n o new cause reason note).cancelOwned (.order n) .recall).modSite
      fun s => { s with orders := s.orders.del n } := by
  rw [Work.finishOrder, found]

theorem Site.owesFinalResult_iff (s : Site) (k : Nat) : s.owesFinalResult k = true ↔
    ∃ p id it q, s.pul = p ++ (id, it) :: q ∧ it.owner = .permit k
      ∧ (∃ n a, it.content = .permitResult n .withdrawn a ∨ it.content = .permitResult n .void a)
      ∧ ∀ e ∈ p, ¬(e.2.owner = .permit k ∧ e.2.content.kind = .permit) := by
  constructor
  · intro owes
    unfold Site.owesFinalResult at owes
    cases owned : s.owned (.permit k) .permit with
    | none => rw [owned] at owes; cases owes
    | some e =>
      obtain ⟨id, it⟩ := e
      rw [owned] at owes
      obtain ⟨mine, p, q, split, before⟩ := List.find?_eq_some_iff_append.1 owned
      rw [Bool.and_eq_true, beq_iff_eq, beq_iff_eq] at mine
      refine ⟨p, id, it, q, split, mine.1, ?_, fun e he his => by simpa [his] using before e he⟩
      dsimp only at owes
      split at owes
      · exact ⟨_, _, .inl ‹_›⟩
      · exact ⟨_, _, .inr ‹_›⟩
      · cases owes
  · rintro ⟨p, id, it, q, split, owner, ⟨n, a, content⟩, before⟩
    have kind : it.content.kind = .permit := by rcases content with e | e <;> rw [e] <;> rfl
    rw [Site.owesFinalResult, Site.owned_of_split split ⟨owner, kind⟩ before]
    rcases content with e | e <;> simp only [e]

/-- The report of a permit's end. -/
def Permit.endReport (p : Permit) (new : PermitState) (cause : PermitCause) : PermitReport :=
  { number := p.number, work := p.work, crew := p.crew, state := new, previous := some p.state, cause
    attempts := p.attempts, compromised := p.compromised, restored := p.restored
    resultConfirmed := p.resultConfirmed
    violationSwitch := if p.compromised = true then p.violationSwitch else none, recorded := p.recorded }

/-- The record of a permit at its end (R150). -/
def Permit.ended (p : Permit) (new : PermitState) : Permit := { p with state := new, deadline := none, dangerOwed := false }

/-- The end of a permit, by the result it owes and by who holds its recorded ID (R150). -/
theorem Work.finishPermit_eq {w : Work} {k : Nat} {p : Permit} (found : Table.look w.site.permits k = some p)
    (new : PermitState) (cause : PermitCause) :
    let v := (w.emit (.permitState (p.endReport new cause))).modPermit k fun _ => p.ended new
    let fewer := fun (x : Work) => x.modCrew p.crew fun c => { c with permits := c.permits - 1 }
    w.finishPermit k new cause = if w.site.owesFinalResult k = true then
        if ((p.recorded.bind w.site.byId).any fun e => e.2.state == .affiliated) = true then
          (fewer v).modPermit k fun y => { y with retained := true }
        else ((fewer v).cancelOwned (.permit k) .permit).freePermit k
      else (fewer (v.cancelOwned (.permit k) .permit)).freePermit k := by
  intro v fewer
  have entered : Table.look (w.modPermit k fun p => { p with state := new }).site.permits k =
      some { p with state := new } := by
    rw [Work.modPermit_look, found]; rfl
  have ended : ((w.modPermit k fun p => { p with state := new }).emit (.permitState (p.endReport new cause))).modPermit k
      (fun p => { p with deadline := none, dangerOwed := false }) = v :=
    (Work.modPermit_modPermit (w.emit (.permitState (p.endReport new cause))) k _ _).trans
      (Work.modPermit_congr (w := w.emit (.permitState (p.endReport new cause))) found rfl)
  have reported : (w.modPermit k fun p => { p with state := new }).reportRecord k (some p.state) cause =
      (w.modPermit k fun p => { p with state := new }).emit (.permitState (p.endReport new cause)) := by
    rw [Work.reportRecord, entered]
    rfl
  rw [Work.finishPermit, found]
  dsimp only
  unfold Work.completePermit
  rw [reported]
  have still : Table.look ((w.modPermit k fun p => { p with state := new }).emit
      (.permitState (p.endReport new cause))).site.permits k = some { p with state := new } := entered
  dsimp only
  rw [still]
  dsimp only
  rw [ended]
  split
  · rename_i owes
    have owed : w.site.owesFinalResult k = true := owes
    rw [if_pos owed]
    rfl
  · rename_i owes
    have unowed : ¬w.site.owesFinalResult k = true := owes
    rw [if_neg unowed]

/-- A placed item stands on the list under its number. -/
theorem Work.insertItem_look (w : Work) (o : Owner) (i : Nat) (x : ItemContent) :
    ∃ place, Table.look (w.insertItem o i x).site.pul w.site.nextItem =
      some { owner := o, addressee := i, content := x, location := place } := by
  cases served : w.site.servingChannel i with
  | none => exact ⟨none, by rw [Work.insertItem_of_unserved served]; exact Table.look_put_same _ _ _⟩
  | some c =>
    rw [Work.insertItem_of_served served]
    split
    · exact ⟨some c, Table.look_put_same _ _ _⟩
    · exact ⟨none, Table.look_put_same _ _ _⟩

theorem heldBy_iff (o : Option (Nat × Terminal)) :
    (o.any fun e => e.2.state == .affiliated) = true ↔ ∃ e, o = some e ∧ e.2.state = .affiliated := by
  cases o <;> simp

/-- What the end of a permit leaves of the tables, with or without the cancelling of an item it owns. -/
theorem Work.ended_tables {v x : Work} {k : Nat} (rest : x.site.rest = v.site.rest) :
    (x.freePermit k).site.sections = v.site.sections ∧ (x.freePermit k).site.switches = v.site.switches
      ∧ Table.look (x.freePermit k).site.permits k = none
      ∧ ∀ j, j ≠ k → Table.look (x.freePermit k).site.permits j = Table.look v.site.permits j := by
  have permits : x.site.permits = v.site.permits := Site.rest_eq rest Site.permits fun _ => rfl
  exact ⟨Site.rest_eq rest Site.sections fun _ => rfl, Site.rest_eq rest Site.switches fun _ => rfl,
    Table.look_del_same _ _, fun j other => (Table.look_del_other _ _ _ other).trans (by rw [permits])⟩

/-- Settles O46. -/
theorem recordsComplete : Obligations.RecordsComplete := by
  refine ⟨fun w n o new cause reason note found => ?_, Site.owesFinalResult_iff, fun w k p new cause found => ?_,
    fun w u r cause found => ?_⟩
  · intro t
    have ends : t = _ := Work.finishOrder_of_look found new cause reason note
    have rest := (w.reportOrder n o new cause reason note).cancelOwned_rest (.order n) .recall
    refine ⟨?_, ?_, ?_, ?_, ⟨_, ends⟩, fun unowned => ?_, fun unique => ?_⟩
    · rw [ends]
      exact Work.cancelOwned_out _ _ _
    · rw [ends]
      exact congrArg (Table.del · n) (Site.rest_eq rest Site.orders fun _ => rfl)
    · rw [ends]
      exact Site.rest_eq rest Site.permits fun _ => rfl
    · rw [ends]
      exact Site.rest_eq rest Site.crews fun _ => rfl
    · rw [ends, Work.cancelOwned_of_none (w := w.reportOrder n o new cause reason note) unowned]
      rfl
    · rw [ends]
      exact Work.cancelOwned_owesNone (w := w.reportOrder n o new cause reason note) rfl .recall
        fun e he f hf mine yours => unique e he f hf mine.1 yours.1
  · intro t
    have ends : t = _ := Work.finishPermit_eq found new cause
    have affiliated := heldBy_iff (p.recorded.bind w.site.byId)
    have entered : ∀ j, j ≠ k → Table.look ((w.emit (.permitState (p.endReport new cause))).modPermit k fun _ =>
        p.ended new).site.permits j = Table.look w.site.permits j := fun j other => Table.look_adjust_other _ _ _ _ other
    by_cases owes : w.site.owesFinalResult k = true
    · by_cases held : ∃ e, p.recorded.bind w.site.byId = some e ∧ e.2.state = .affiliated
      · rw [if_pos owes, if_pos (affiliated.2 held)] at ends
        refine ⟨by rw [ends]; rfl, by rw [ends]; rfl, by rw [ends]; rfl, by rw [ends]; rfl, ?_, fun j other => ?_,
          p.endReport new cause, fun _ _ => ends, fun _ no => absurd held no, fun no => absurd owes (by simp [no])⟩
        · rw [ends, Work.modPermit_look, if_pos ⟨owes, held⟩]
          show (Table.look (Work.modPermit _ k _).site.permits k).map _ = _
          rw [Work.modPermit_look]
          exact congrArg (Option.map _) (congrArg (Option.map _) found)
        · rw [ends]
          exact (Table.look_adjust_other _ _ _ _ other).trans (entered j other)
      · rw [if_pos owes, if_neg fun yes => held (affiliated.1 yes)] at ends
        have rest := Work.cancelOwned_rest (((w.emit (.permitState (p.endReport new cause))).modPermit k fun _ =>
          p.ended new).modCrew p.crew fun c => { c with permits := c.permits - 1 }) (.permit k) .permit
        obtain ⟨sections, switches, freed, others⟩ := Work.ended_tables rest
        refine ⟨?_, ?_, ?_, ?_, ?_, fun j other => ?_,
          p.endReport new cause, fun _ yes => absurd yes held, fun _ _ => ends, fun no => absurd owes (by simp [no])⟩
        · rw [ends]; exact Work.cancelOwned_out _ _ _
        · rw [ends]; exact Site.rest_eq rest Site.crews fun _ => rfl
        · rw [ends]; exact sections
        · rw [ends]; exact switches
        · rw [ends, if_neg fun both => held both.2]; exact freed
        · rw [ends]; exact (others j other).trans (entered j other)
    · rw [if_neg owes] at ends
      have rest := Work.cancelOwned_rest ((w.emit (.permitState (p.endReport new cause))).modPermit k fun _ =>
          p.ended new) (.permit k) .permit
      obtain ⟨sections, switches, freed, others⟩ := Work.ended_tables rest
      refine ⟨?_, ?_, ?_, ?_, ?_, fun j other => ?_,
        p.endReport new cause, fun yes => absurd yes owes, fun yes => absurd yes owes, fun _ => ends⟩
      · rw [ends]; exact Work.cancelOwned_out _ _ _
      · rw [ends]; exact congrArg (Table.adjust · p.crew fun c => { c with permits := c.permits - 1 }) (Site.rest_eq rest Site.crews fun _ => rfl)
      · rw [ends]; exact sections
      · rw [ends]; exact switches
      · rw [ends, if_neg fun both => owes both.1]; exact freed
      · rw [ends]; exact (others j other).trans (entered j other)
  · intro v t
    have roster : v.site.roster = w.site.roster := by
      rw [Work.cancelOwned_roster, Work.cancelOwned_roster]
    have out : v.out = w.out := by
      rw [Work.cancelOwned_out, Work.cancelOwned_out]
    have rest : v.site.rest = w.site.rest := by
      rw [Work.cancelOwned_rest, Work.cancelOwned_rest]
    let removed := v.modSite fun s => { s with watches := s.watches.del u }
    let reported := removed.reportWatch u r none r.state cause v.site.terminalItemsFull
    have reported_out : reported.out = w.out ++ [.watchState
        { id := w.site.idAt u, index := u, crew := w.site.boundCrew u, state := none, previous := r.state, cause
          missed := r.missed, deadline := r.deadline, lastCheckIn := r.lastCheckIn
          stopNotPlaced := v.site.terminalItemsFull }] :=
      (congrArg Work.out (Work.reportWatch_eq (w := removed) roster u r none r.state cause _)).trans (congrArg (· ++ _) out)
    have ends : t = if v.site.terminalItemsFull = true then reported
        else (reported.place (.terminal u) u .watchStop).modSite
          fun s => { s with stopNotices := s.stopNotices.put u (s.count + secondsOf r.interval) } := by
      show w.removeWatch u cause = _
      rw [Work.removeWatch, found]
      rfl
    refine ⟨Work.removeWatch_watches found cause, ?_⟩
    cases full : v.site.terminalItemsFull with
    | true =>
      rw [if_pos full] at ends
      refine ⟨?_, ?_, fun no => by cases no⟩
      · rw [ends, ← full]
        exact reported_out
      · rw [ends, if_pos rfl]
        exact Site.rest_eq rest Site.stopNotices fun _ => rfl
    | false =>
      rw [if_neg (by simp [full])] at ends
      have taken : reported.site.placementRefused (.terminal u) = false := full
      have placed := reported.place_rest (.terminal u) u .watchStop
      have notices : (reported.place (.terminal u) u .watchStop).site.stopNotices = w.site.stopNotices :=
        (Site.rest_eq placed Site.stopNotices fun _ => rfl).trans (Site.rest_eq rest Site.stopNotices fun _ => rfl)
      have count : (reported.place (.terminal u) u .watchStop).site.count = w.site.count :=
        (Site.rest_eq placed Site.count fun _ => rfl).trans (Site.rest_eq rest Site.count fun _ => rfl)
      refine ⟨?_, ?_, fun _ => ?_⟩
      · rw [ends, ← full]
        exact (Work.place_out _ _ _ _).trans reported_out
      · rw [ends, if_neg (by decide), ← notices, ← count]
        rfl
      · obtain ⟨place, standing⟩ := Work.insertItem_look (reported.cancelOwned (.terminal u) .watchSet) (.terminal u) u
          .watchStop
        refine ⟨((reported.cancelOwned (.terminal u) .watchSet).site.nextItem,
          { owner := .terminal u, addressee := u, content := .watchStop, location := place }), ?_, rfl, rfl, rfl⟩
        rw [ends, Work.place_of_taken taken]
        exact Table.mem_of_look standing

end Sys2Proof.Machine

/-! ### Orders (Chapter 5) -/

namespace Sys2Proof.Machine

/-! #### Credit -/

theorem Work.setCredit_of_personal {w : Work} {i : Nat} {x : Terminal} (found : Table.look w.site.roster i = some x)
    (personal : x.kind = .personal) (v : Nat) : w.setCredit i v = w := by
  rw [Work.setCredit, found]
  dsimp only
  rw [if_neg (by rw [personal]; decide)]

theorem Work.setCredit_of_vehicle {w : Work} {i : Nat} {x : Terminal} (found : Table.look w.site.roster i = some x)
    (vehicle : x.kind = .vehicle) (v : Nat) :
    (∀ c, x.channel = some c → x.credit < min v x.capacity →
      w.setCredit i v = (w.modTerminal i fun y => { y with credit := min v y.capacity }).offer c)
    ∧ (x.channel = none ∨ min v x.capacity ≤ x.credit →
      w.setCredit i v = w.modTerminal i fun y => { y with credit := min v y.capacity }) := by
  rw [Work.setCredit, found]
  dsimp only
  rw [if_pos vehicle]
  refine ⟨fun c at_c rises => ?_, fun stays => ?_⟩
  · rw [at_c]; exact if_pos rises
  · cases at_ : x.channel with
    | none => rfl
    | some c =>
      rw [at_] at stays
      exact if_neg (by rcases stays with no | low; · cases no
                       · omega)

/-- Setting a credit changes the roster alone. -/
theorem Work.setCredit_site (w : Work) (i v : Nat) : ∃ t, (w.setCredit i v).site = { w.site with roster := t } := by
  unfold Work.setCredit
  cases Table.look w.site.roster i with
  | none => exact ⟨_, rfl⟩
  | some x =>
    dsimp only
    split
    · cases x.channel with
      | none => exact ⟨_, rfl⟩
      | some c => dsimp only; split <;> exact ⟨_, rfl⟩
    · exact ⟨_, rfl⟩

theorem Work.creditFromReply_of_order {w : Work} {i n : Nat} {x : Terminal} {o : Order} {st : EntryStatus} {c : Chan} {k : Nat}
    (found : Table.look w.site.roster i = some x)
    (out : x.outstanding = some { frame := .order n st, channel := c, retry := k })
    (live : Table.look w.site.orders n = some o) (free : Nat) :
    w.creditFromReply i free = w.setCredit i (free - o.blocks) := by
  rw [Work.creditFromReply, found, Option.bind_some, out]
  dsimp only
  rw [live]
  rfl

theorem Work.creditFromReply_of_none {w : Work} {i : Nat} {x : Terminal} (found : Table.look w.site.roster i = some x)
    (other : ∀ o, x.outstanding = some o → ∃ id, o.frame = .item id) (free : Nat) :
    w.creditFromReply i free = w.setCredit i free := by
  rw [Work.creditFromReply, found, Option.bind_some]
  cases out : x.outstanding with
  | none => rfl
  | some o =>
    obtain ⟨frame, c, k⟩ := o
    obtain ⟨id, isItem⟩ := other _ out
    cases isItem
    rfl

theorem Work.creditFromReply_site (w : Work) (i free : Nat) :
    ∃ t, (w.creditFromReply i free).site = { w.site with roster := t } := by
  unfold Work.creditFromReply
  split <;> exact Work.setCredit_site _ _ _

/-! #### Matching -/

theorem Site.vehicleOf_iff (s : Site) (n i : Nat) :
    s.vehicleOf n = some i ↔ ∃ c, Table.look s.crews n = some c ∧ c.vehicle = some i := by
  rw [Site.vehicleOf, Option.bind_eq_some_iff]

theorem Site.vehicleRecord_iff (s : Site) (n i : Nat) (x : Terminal) : s.vehicleRecord n = some (i, x) ↔
    Table.look s.roster i = some x ∧ ∃ c, Table.look s.crews n = some c ∧ c.vehicle = some i := by
  rw [← Site.vehicleOf_iff, Site.vehicleRecord]
  cases s.vehicleOf n with
  | none => simp
  | some j =>
    simp only [Option.map_eq_some_iff, Prod.mk.injEq, Option.some.injEq]
    constructor
    · rintro ⟨y, look, rfl, rfl⟩; exact ⟨look, rfl⟩
    · rintro ⟨look, rfl⟩; exact ⟨x, look, rfl, rfl⟩

theorem Site.replyMatches_iff (s : Site) (o : Order) (i id : Nat) : s.replyMatches o i id = true ↔ o.recipient = some id
    ∨ (o.recipient = none ∧ ∃ c, Table.look s.crews o.crew = some c ∧ c.vehicle = some i) := by
  rw [← Site.vehicleOf_iff, Site.replyMatches]
  cases o.recipient <;> simp

theorem Site.recipientAffiliated_iff (s : Site) (o : Order) : s.recipientAffiliated o = true ↔
    ∃ id e, o.recipient = some id ∧ s.byId id = some e ∧ e.2.state = .affiliated := by
  simp only [Site.recipientAffiliated, Option.any_eq_true, Option.bind_eq_some_iff, beq_iff_eq]
  constructor
  · rintro ⟨e, ⟨id, recipient, record⟩, state⟩; exact ⟨id, e, recipient, record, state⟩
  · rintro ⟨id, e, recipient, record, state⟩; exact ⟨e, ⟨id, recipient, record⟩, state⟩

/-! #### Changes of an order's state -/

theorem Work.modOrder_look (w : Work) (n : Nat) (f : Order → Order) :
    Table.look (w.modOrder n f).site.orders n = (Table.look w.site.orders n).map f := Table.look_adjust_same _ _ _

theorem Work.moveOrder_of_look {w : Work} {n : Nat} {o : Order} (found : Table.look w.site.orders n = some o)
    (new : OrderState) (cause : OrderCause) (f : Order → Order) : w.moveOrder n new cause f =
      (w.reportOrder n o new cause none none).modOrder n fun o => { f o with state := new } := by
  rw [Work.moveOrder, found]

/-- The report of a change between live states carries neither a reason nor a reply nor a note. -/
theorem Work.reportOrder_live (w : Work) (n : Nat) (o : Order) (new : OrderState) (cause : OrderCause) :
    w.reportOrder n o new cause none none = w.emit (.orderState
      { number := n, crew := o.crew, state := new, previous := o.state, cause, reason := none, reply := none, note := none
        retry := if o.state = .inFlight then o.retry else none }) := by
  simp [Work.reportOrder]

theorem Work.applyReply_of_look {w : Work} {n : Nat} {o : Order} (found : Table.look w.site.orders n = some o) :
    (o.state = .delivered → w.applyReply n .accept = w.moveOrder n .accepted .crewReply id)
    ∧ (o.state = .delivered ∨ o.state = .accepted → w.applyReply n .done = w.finishOrder n .done .crewReply none none)
    ∧ (o.state = .delivered → w.applyReply n .decline = w.finishOrder n .declined .crewReply none none)
    ∧ ∀ r, o.state = .accepted → r ≠ .done → w.applyReply n r = w.ignoreReply := by
  have at_ : ∀ {st}, o.state = st → (Table.look w.site.orders n).map Order.state = some st := fun state => by
    rw [found, Option.map_some, state]
  refine ⟨fun state => ?_, fun state => ?_, fun state => ?_, fun r state other => ?_⟩
  · simp only [Work.applyReply, at_ state]
  · rcases state with state | state <;> simp only [Work.applyReply, at_ state]
  · simp only [Work.applyReply, at_ state]
  · cases r with
    | done => exact absurd rfl other
    | accept => simp only [Work.applyReply, at_ state]
    | decline => simp only [Work.applyReply, at_ state]

theorem Work.recallOrder_of_look {w : Work} {n : Nat} {o : Order} (found : Table.look w.site.orders n = some o) :
    let recalling := w.moveOrder n .recalling .hostCancel id
    (∀ e, o.recipient.bind w.site.byId = some e → w.recallOrder n = recalling.place (.order n) e.1 (.recall n 0))
    ∧ (o.recipient.bind w.site.byId = none → w.recallOrder n = recalling) := by
  intro recalling
  have same : (w.moveOrder n .recalling .hostCancel id).site.byId = w.site.byId := by
    rw [Work.moveOrder_of_look found]; rfl
  refine ⟨fun e held => ?_, fun unheld => ?_⟩
  · rw [Work.recallOrder, found]
    dsimp only
    rw [same, held]
  · rw [Work.recallOrder, found]
    dsimp only
    rw [same, unheld]

theorem Work.returnUnconfirmed_of_look {w : Work} {n : Nat} {o : Order} (found : Table.look w.site.orders n = some o)
    (cause : OrderCause) : w.returnUnconfirmed n cause = (w.addNote o.recipient n).1.finishOrder n .returned cause
      (some .cancelledUnconfirmed) (some (w.addNote o.recipient n).2) := by
  rw [Work.returnUnconfirmed, found]

/-- What becomes of the note of an unconfirmed recall. -/
theorem Work.addNote_eq (w : Work) (recipient : Option Nat) (n : Nat) :
    (recipient.bind w.site.byId = none → w.addNote recipient n = (w, .none))
    ∧ ∀ i x, recipient.bind w.site.byId = some (i, x) →
      (n ∈ x.notes → w.addNote recipient n = (w, .kept))
      ∧ (n ∉ x.notes → x.notes.length < 16 →
        w.addNote recipient n = (w.modTerminal i fun y => { y with notes := y.notes ++ [n] }, .kept))
      ∧ (n ∉ x.notes → 16 ≤ x.notes.length →
        w.addNote recipient n = (w.modSite fun s => { s with notesDropped := s.notesDropped.bump }, .dropped)) := by
  refine ⟨fun unheld => ?_, fun i x held => ⟨fun noted => ?_, fun new room => ?_, fun new full => ?_⟩⟩
  · rw [Work.addNote, unheld]
  · rw [Work.addNote, held]; exact if_pos (List.contains_iff_mem.2 noted)
  · rw [Work.addNote, held]
    dsimp only
    rw [if_neg (mt List.contains_iff_mem.1 new), if_pos room]
  · rw [Work.addNote, held]
    dsimp only
    rw [if_neg (mt List.contains_iff_mem.1 new), if_neg (by omega)]

theorem Work.createOrder_eq (w : Work) (n : Nat) (o : Order) (channel : Option Chan) :
    (∀ c, o.state = .queued → channel = some c → w.createOrder n o channel =
      (w.modSite fun s => { s with orders := s.orders.put n o, nextSeq := s.nextSeq + 1 }).offer c)
    ∧ (o.state ≠ .queued ∨ channel = none → w.createOrder n o channel =
      w.modSite fun s => { s with orders := s.orders.put n o, nextSeq := s.nextSeq + 1 }) := by
  refine ⟨fun c queued at_c => ?_, fun silent => ?_⟩
  · rw [at_c]; exact if_pos queued
  · cases channel with
    | none => rfl
    | some c => exact if_neg (silent.resolve_right nofun)

/-- A delivery reports, clears what belongs to the sending, and applies the recorded reply to the delivered order. -/
theorem Work.deliverOrder_of_look {w : Work} {n : Nat} {o : Order} (found : Table.look w.site.orders n = some o)
    (cause : OrderCause) :
    let delivered := (w.emit (.orderState
      { number := n, crew := o.crew, state := .delivered, previous := o.state, cause, reason := none, reply := none
        note := none, retry := if o.state = .inFlight then o.retry else none })).modOrder n fun y =>
      { y with state := .delivered, deadline := none, retry := none, frameChannel := none, reply := none }
    w.deliverOrder n cause none = delivered
    ∧ (∀ r, w.deliverOrder n cause (some r) = delivered.applyReply n r)
    ∧ Table.look delivered.site.orders n =
      some { o with state := .delivered, deadline := none, retry := none, frameChannel := none, reply := none } := by
  intro delivered
  have moved : (w.moveOrder n .delivered cause fun o =>
      { o with deadline := none, retry := none, frameChannel := none, reply := none }) = delivered := by
    rw [Work.moveOrder_of_look found, Work.reportOrder_live]
  refine ⟨moved, fun r => ?_, ?_⟩
  · rw [← moved]; rfl
  · rw [Work.modOrder_look]
    show (Table.look w.site.orders n).map _ = _
    rw [found]; rfl

/-! #### The requests and the reply -/

theorem recordedReply_eq (old : Option CrewReply) (r : CrewReply) :
    recordedReply old r = if r = .accept ∧ old.isSome = true then old else some r := by
  cases r with
  | accept => cases old <;> rfl
  | decline => rfl
  | done => rfl

theorem Work.takeReply_eq {w : Work} {i : Nat} {t : Terminal} (found : Table.look w.site.roster i = some t) (n : Nat)
    (r : CrewReply) (free : Nat) :
    let v := if t.kind = .vehicle then w.creditFromReply i free else w
    (Table.look w.site.orders n = none → w.takeReply i n r free = v.ignoreReply)
    ∧ ∀ o, Table.look w.site.orders n = some o →
      (w.site.replyMatches o i t.id = false → w.takeReply i n r free = v.ignoreReply)
      ∧ (w.site.replyMatches o i t.id = true → w.takeReply i n r free = v.orderReplied n t.id o r)
      ∧ Table.look v.site.orders n = some o := by
  intro v
  obtain ⟨roster, site⟩ : ∃ u, v.site = { w.site with roster := u } := by
    show ∃ u, (if t.kind = .vehicle then w.creditFromReply i free else w).site = _
    split
    · exact Work.creditFromReply_site _ _ _
    · exact ⟨_, rfl⟩
  have orders : v.site.orders = w.site.orders := by rw [site]
  have matching : ∀ o, v.site.replyMatches o i t.id = w.site.replyMatches o i t.id := fun o => by rw [site]; rfl
  refine ⟨fun gone => ?_, fun o live => ⟨fun other => ?_, fun its => ?_, by rw [orders, live]⟩⟩
  all_goals rw [Work.takeReply, found]
  · show (match Table.look v.site.orders n with | some o => _ | none => _) = _
    rw [orders, gone]
  · show (match Table.look v.site.orders n with | some o => _ | none => _) = _
    rw [orders, live]
    exact if_neg (by rw [matching, other]; decide)
  · show (match Table.look v.site.orders n with | some o => _ | none => _) = _
    rw [orders, live]
    exact if_pos (by rw [matching, its])

theorem Site.newOrder_eq (s : Site) (x : Terminal) (crew priority hold blocks : Nat) (content : List Byte) :
    let fits := x.state = .affiliated ∧ blocks ≤ x.capacity
    s.newOrder x crew priority hold blocks content =
      { crew, priority, hold, blocks, content, state := if fits then .queued else .held, seq := s.nextSeq
        recipient := none, retry := none, frameChannel := none
        deadline := if fits then none else some (s.count + secondsOf hold), reply := none } := by
  intro fits
  have fit : (x.state == .affiliated && decide (blocks ≤ x.capacity)) = decide fits := by
    rw [Bool.decide_and]; rfl
  rw [Site.newOrder, fit]
  by_cases holds : fits <;> simp [holds]

theorem takeSendOrder_of_checks {w : Work} {number : Word} {crew : Half} {priority hold count : Byte} {content : List Byte}
    {i : Nat} {x : Terminal} (ranges : orderRanges number crew priority count = true)
    (known : (Table.look w.site.crews crew.toNat).isSome = true)
    (vehicle : w.site.vehicleRecord crew.toNat = some (i, x)) (new : Table.look w.site.orders number.toNat = none)
    (room : w.site.orders.length < 256) (blocks : w.site.blocksUsed + count.toNat ≤ 3072) :
    takeSendOrder number crew priority hold count content w =
      let o := w.site.newOrder x crew.toNat priority.toNat (durationCodeOf hold) count.toNat content
      (w.createOrder number.toNat o x.channel).taken (.orderState o.state) := by
  obtain ⟨crewRecord, standing⟩ := Option.isSome_iff_exists.1 known
  rw [takeSendOrder, if_neg (by rw [ranges]; decide), standing]
  dsimp only
  rw [vehicle]
  dsimp only
  rw [new, if_neg (by simp), if_neg (by omega)]

theorem takeCancelOrder_of_look {w : Work} {number : Word} {o : Order} (nonzero : number ≠ 0)
    (found : Table.look w.site.orders number.toNat = some o) :
    takeCancelOrder number w = w.cancelOrder number.toNat o := by
  rw [takeCancelOrder, if_neg nonzero, found]

/-- Settles O47: each operation by the case of its definition, and each request or reply by the operation its state names. -/
theorem ordersTaken : Obligations.OrdersTaken := by
  refine ⟨fun w i x found => ⟨fun v personal => Work.setCredit_of_personal found personal v,
      fun v vehicle => Work.setCredit_of_vehicle found vehicle v,
      fun free => ⟨fun n st c k o out live => Work.creditFromReply_of_order found out live free,
        fun other => Work.creditFromReply_of_none found other free⟩⟩,
    fun s o => ⟨fun i id => s.replyMatches_iff o i id, s.recipientAffiliated_iff o⟩,
    fun s n i x => s.vehicleRecord_iff n i x, fun w => rfl, fun w n o channel => w.createOrder_eq n o channel,
    fun w n o found => ?_, fun h s number nonzero => ⟨?_, fun o found => ⟨fun a => ?_, fun e powered state deadline reached => ?_⟩,
      fun a i x r free inPlace found => ?_⟩⟩
  · intro said recalling
    have moved : w.moveOrder n .recalling .hostCancel id = recalling := by
      rw [Work.moveOrder_of_look found, Work.reportOrder_live]; rfl
    obtain ⟨held, unheld⟩ := Work.recallOrder_of_look found
    rw [moved] at held unheld
    refine ⟨held, unheld, fun cause => ?_, fun cause => ?_⟩
    · rw [Work.returnUnconfirmed_of_look found]
      obtain ⟨unheld, held⟩ := w.addNote_eq o.recipient n
      refine ⟨fun no => by rw [unheld no], fun i x record => ?_⟩
      obtain ⟨noted, added, dropped⟩ := held i x record
      exact ⟨fun m => by rw [noted m], fun m l => by rw [added m l], fun m l => by rw [dropped m l]⟩
    · obtain ⟨plain, replied, delivered⟩ := Work.deliverOrder_of_look found cause
      intro v
      obtain ⟨accept, done, decline, -⟩ := Work.applyReply_of_look delivered
      refine ⟨plain, (replied _).trans ((accept rfl).trans ?_), (replied _).trans (done (.inl rfl)),
        (replied _).trans (decline rfl)⟩
      rw [Work.moveOrder_of_look delivered, Work.reportOrder_live]
      rfl
  · intro crew priority hold count content i x a lengths crewLow crewHigh low high some most known vehicle new room blocks
      fits st
    have ranges : orderRanges number crew priority count = true := by
      have positive : 1 ≤ number.toNat := Nat.one_le_iff_ne_zero.2 fun zero => nonzero (BitVec.eq_of_toNat_eq zero)
      simp [orderRanges, crewOf, *]
    have order : s.site.newOrder x crew.toNat priority.toNat (durationCodeOf hold) count.toNat content = _ :=
      s.site.newOrder_eq x _ _ _ _ _
    show request h 0x30 (lengthIs h _ && content.length == _) _ s = _
    rw [lengths, beq_self_eq_true, Bool.and_true]
    refine request_outcome a 0x30 (fun _ w => takeSendOrder number crew priority hold count content w) ?_
    refine (takeSendOrder_of_checks (w := s.begun) ranges known vehicle new room blocks).trans ?_
    exact congrArg (fun o => (s.begun.createOrder number.toNat o x.channel).taken (.orderState o.state)) order
  · have here : Table.look s.begun.site.orders number.toNat = some o := found
    refine ⟨fun state => ?_, fun state => ?_, fun state known => ?_, fun state lost => ?_, fun state => ?_, fun state => ?_⟩
    · refine request_outcome a 0x31 (fun _ w => takeCancelOrder number w) ((takeCancelOrder_of_look nonzero here).trans ?_)
      rcases state with state | state <;> simp only [Work.cancelOrder, state]
    · refine request_outcome a 0x31 (fun _ w => takeCancelOrder number w) ((takeCancelOrder_of_look nonzero here).trans ?_)
      simp only [Work.cancelOrder, state]
    · refine request_outcome a 0x31 (fun _ w => takeCancelOrder number w) ((takeCancelOrder_of_look nonzero here).trans ?_)
      have affiliated : s.begun.site.recipientAffiliated o = true := known
      rcases state with state | state <;> simp only [Work.cancelOrder, state, affiliated, if_true]
    · refine request_outcome a 0x31 (fun _ w => takeCancelOrder number w) ((takeCancelOrder_of_look nonzero here).trans ?_)
      have absent : s.begun.site.recipientAffiliated o = false := lost
      rcases state with state | state <;> simp [Work.cancelOrder, state, absent]
    · refine request_outcome a 0x31 (fun _ w => takeCancelOrder number w) ((takeCancelOrder_of_look nonzero here).trans ?_)
      simp only [Work.cancelOrder, state]
    · refine request_outcome a 0x32 (fun _ w => takeCloseOrder number w) ?_
      rw [takeCloseOrder, if_neg nonzero, here]
      rcases state with state | state <;> simp only [state]
  · refine event_outcome powered (f := fun w => w.holdExpires number.toNat) ?_
    show s.work.holdExpires number.toNat = _
    have here : Table.look s.work.site.orders number.toNat = some o := found
    rw [Work.holdExpires, here]
    exact if_pos ⟨state, by rw [deadline]; exact decide_eq_true reached⟩
  · intro w
    have run : exec (.orderReply a number r free) s =
        .next (s.after ((s.heardFrom a i).takeReply i number.toNat r free.toNat)) :=
      granted_inPlace inPlace fun _ i w => w.takeReply i number.toNat r free.toNat
    have sender : Table.look (s.heardFrom a i).site.roster i =
        some (x.heard (s.site.logical a.channel) s.site.count a.sample.val) := by
      rw [State.heardFrom_look _ _ _ _ inPlace.2.1, found, Option.map_some, if_pos rfl]
    have orders : (s.heardFrom a i).site.orders = s.site.orders := by rw [State.heardFrom_site]
    have matching : ∀ o, (s.heardFrom a i).site.replyMatches o i x.id = s.site.replyMatches o i x.id := fun o => by
      rw [State.heardFrom_site]; rfl
    obtain ⟨gone, live⟩ := Work.takeReply_eq sender number.toNat r free.toNat
    rw [orders] at gone live
    refine ⟨fun none => by rw [run]; exact congrArg (fun v => Host.Outcome.next (s.after v)) (gone none), fun o found => ?_⟩
    obtain ⟨other, its, here⟩ := live o found
    refine ⟨fun not => by
        rw [run]; exact congrArg (fun v => Host.Outcome.next (s.after v)) (other ((matching o).trans not)), fun own => ?_⟩
    have replied := its ((matching o).trans own)
    obtain ⟨accept, done, decline, again⟩ := Work.applyReply_of_look here
    rw [run]
    refine ⟨fun state kind => ?_, fun state kind => ?_, fun state kind => ?_, fun state kind => ?_, fun state => ?_,
        fun state => ?_⟩
    all_goals refine congrArg (fun v => Host.Outcome.next (s.after v)) (replied.trans ?_)
    · subst kind
      simp only [Work.orderReplied, state]
      refine (accept state).trans ((Work.moveOrder_of_look here _ _ _).trans ?_)
      rw [Work.reportOrder_live, state]
      rfl
    · subst kind
      rcases state with e | e <;> simp only [Work.orderReplied, e]
      · exact done (.inl e)
      · exact done (.inr e)
    · subst kind
      simp only [Work.orderReplied, state]
      exact decline state
    · simp only [Work.orderReplied, state]
      exact again r state kind
    · rcases state with e | e <;> simp only [Work.orderReplied, e, recordedReply_eq] <;> rfl
    · rcases state with e | e <;> simp only [Work.orderReplied, e] <;> rfl

end Sys2Proof.Machine

/-! ### Permits (Chapter 7) -/

namespace Sys2Proof.Machine

/-! #### The operations of a permit's record -/

theorem Work.placeResult_permits (w : Work) (k : Nat) (r : ResultCode) :
    (w.placeResult k r).site.permits = w.site.permits :=
  Site.rest_eq (w.placeResult_rest k r) Site.permits fun _ => rfl

theorem Work.cancelOwned_permits (w : Work) (o : Owner) (k : ItemKind) :
    (w.cancelOwned o k).site.permits = w.site.permits :=
  Site.rest_eq (w.cancelOwned_rest o k) Site.permits fun _ => rfl

theorem Work.place_permits (w : Work) (o : Owner) (i : Nat) (x : ItemContent) :
    (w.place o i x).site.permits = w.site.permits :=
  Site.rest_eq (w.place_rest o i x) Site.permits fun _ => rfl

theorem Work.raiseSections_eq (w : Work) (l : List Nat) : w.raiseSections l =
    w.modSite fun s => { s with sections := l.foldl (fun t n => Table.adjust t n (· + 1)) s.sections } := by
  unfold Work.raiseSections
  induction l generalizing w with
  | nil => rfl
  | cons n l ih => exact ih _

theorem Work.raiseSections_permits (w : Work) (l : List Nat) : (w.raiseSections l).site.permits = w.site.permits := by
  rw [Work.raiseSections_eq]; rfl

theorem Work.placeResult_of_look {w : Work} {k : Nat} {p : Permit} (found : Table.look w.site.permits k = some p)
    (r : ResultCode) :
    (∀ i x, p.recorded.bind w.site.byId = some (i, x) →
      w.placeResult k r = w.place (.permit k) i (.permitResult p.number r p.attempts))
    ∧ (p.recorded.bind w.site.byId = none → w.placeResult k r = w) := by
  refine ⟨fun i x held => ?_, fun unheld => ?_⟩
  · rw [Work.placeResult, found]
    dsimp only
    rw [held]
  · rw [Work.placeResult, found]
    dsimp only
    rw [unheld]

theorem Work.reportRecord_of_look {w : Work} {k : Nat} {p : Permit} (found : Table.look w.site.permits k = some p)
    (previous : Option PermitState) (cause : PermitCause) : w.reportRecord k previous cause = w.reportPermit p previous cause := by
  rw [Work.reportRecord, found]

theorem Work.revertPermit_of_other {w : Work} {k : Nat} {p : Permit} (found : Table.look w.site.permits k = some p)
    (other : p.state ≠ .issuing) (cause : PermitCause) (result : Bool) : w.revertPermit k cause result = w := by
  rw [Work.revertPermit, found]
  exact if_neg other

/-- A permit in ISSUING reverts to REQUESTED (R141). -/
theorem Work.revertPermit_of_issuing {w : Work} {k : Nat} {p : Permit} (found : Table.look w.site.permits k = some p)
    (issuing : p.state = .issuing) (cause : PermitCause) (result : Bool) :
    let v := (w.modPermit k fun q => { q with state := .requested, deadline := none }).cancelOwned (.permit k) .permit
    w.revertPermit k cause result = (if result = true then v.placeResult k .withdrawn else v).reportPermit
      { p with state := .requested, deadline := none } (some .issuing) cause := by
  intro v
  have reverted : Table.look v.site.permits k = some { p with state := .requested, deadline := none } := by
    rw [Work.cancelOwned_permits, Work.modPermit_look, found]; rfl
  have standing : Table.look (if result = true then v.placeResult k .withdrawn else v).site.permits k =
      some { p with state := .requested, deadline := none } := by
    split
    · rw [Work.placeResult_permits, reverted]
    · exact reverted
  rw [Work.revertPermit, found]
  dsimp only
  rw [if_pos issuing]
  exact Work.reportRecord_of_look standing _ _

/-! #### Who holds a number -/

/-- A live permit holds the number `n` (R137). -/
def Permit.holds (p : Permit) (n : Nat) : Prop :=
  p.number = n ∧ (p.state = .requested ∨ p.state = .issuing ∨ p.state = .issued ∨ p.state = .releasePending)

theorem Permit.holds_iff (p : Permit) (n : Nat) : (p.number == n && p.live) = true ↔ p.holds n := by
  rw [Bool.and_eq_true, beq_iff_eq, Permit.live_iff]; rfl

theorem Site.livePermit_of_none {s : Site} {n : Nat} (free : ∀ e ∈ s.permits, ¬e.2.holds n) : s.livePermit n = none :=
  Table.seek_eq_none fun e he => by rw [← Bool.not_eq_true, Permit.holds_iff]; exact free e he

theorem Site.livePermit_of_split {s : Site} {n k : Nat} {p : Permit} {f q : List (Nat × Permit)}
    (split : s.permits = f ++ (k, p) :: q) (holds : p.holds n) (before : ∀ e ∈ f, ¬e.2.holds n) :
    s.livePermit n = some (k, p) :=
  Table.seek_of_split split ((p.holds_iff n).2 holds) fun e he => by
    rw [← Bool.not_eq_true, Permit.holds_iff]; exact before e he

theorem Site.permitFrom_of_none {s : Site} {n : Nat} (free : s.livePermit n = none) (i : Nat) : s.permitFrom n i = none := by
  rw [Site.permitFrom, free]

theorem Site.permitFrom_of_live {s : Site} {n k : Nat} {p : Permit} (live : s.livePermit n = some (k, p)) (i : Nat) :
    (s.vehicleOf p.crew = some i → s.permitFrom n i = some (k, p))
    ∧ (s.vehicleOf p.crew ≠ some i → s.permitFrom n i = none) := by
  refine ⟨fun is => ?_, fun not => ?_⟩
  · rw [Site.permitFrom, live]; exact if_pos is
  · rw [Site.permitFrom, live]; exact if_neg not

/-! #### The frames of a crew's vehicle -/

theorem State.heardFrom_permitFrom (s : State) (a : Arrival) (i n j : Nat) :
    (s.heardFrom a i).site.permitFrom n j = s.site.permitFrom n j := by rw [State.heardFrom_site]; rfl

theorem State.heardFrom_permits (s : State) (a : Arrival) (i : Nat) : (s.heardFrom a i).site.permits = s.site.permits := by
  rw [State.heardFrom_site]

theorem Work.takeSwitchDone_of_none {w : Work} {i n : Nat} (unmatched : ∀ k p, w.site.permitFrom n i = some (k, p) →
    p.state = .issued → ∀ sw op, p.work ≠ .switching sw op) : w.takeSwitchDone i n = w.ignoreArrival := by
  unfold Work.takeSwitchDone
  cases named : w.site.permitFrom n i with
  | none => rfl
  | some e =>
    obtain ⟨k, p⟩ := e
    cases state : p.state with
    | issued =>
      cases work : p.work with
      | clearance l => simp only [state, work]
      | switching sw op => exact absurd work (unmatched k p named state sw op)
    | _ => simp only [state]

theorem Work.takeReleaseAsk_of_none {w : Work} {i n : Nat} (unmatched : ∀ k p, w.site.permitFrom n i = some (k, p) →
    p.state = .issued → p.work.isClearance = false) : w.takeReleaseAsk i n = w.ignoreArrival := by
  unfold Work.takeReleaseAsk
  cases named : w.site.permitFrom n i with
  | none => rfl
  | some e =>
    obtain ⟨k, p⟩ := e
    exact if_neg fun both => by rw [unmatched k p named both.1] at both; exact absurd both.2 (by decide)

theorem Work.takeReadback_of_none {w : Work} {i n : Nat} (unmatched : ∀ k p, w.site.permitFrom n i = some (k, p) →
    p.state ≠ .issuing) (code : Nat) : w.takeReadback i n code = w.ignoreArrival := by
  unfold Work.takeReadback
  cases named : w.site.permitFrom n i with
  | none => rfl
  | some e =>
    obtain ⟨k, p⟩ := e
    exact if_neg (unmatched k p named)

/-- A READBACK that shows the issue code (R143). -/
theorem Work.readbackMatch_eq {w : Work} {k : Nat} {p : Permit} (found : Table.look w.site.permits k = some p) :
    let v := (w.modPermit k fun y => { y with state := .issued, deadline := none }).raiseSections p.work.sections
    w.readbackMatch k p = (v.placeResult k .accepted).reportPermit { p with state := .issued, deadline := none }
      (some .issuing) .readbackMatch := by
  intro v
  refine Work.reportRecord_of_look (w := v.placeResult k .accepted) ?_ _ _
  rw [Work.placeResult_permits, Work.raiseSections_permits, Work.modPermit_look, found]
  rfl

/-- A READBACK that shows another code, by the attempts made (R143). -/
theorem Work.readbackMismatch_eq {w : Work} {k : Nat} {p : Permit} (found : Table.look w.site.permits k = some p) :
    let v := w.modPermit k fun y => { y with attempts := y.attempts + 1 }
    (p.attempts + 1 < 3 → w.readbackMismatch k p = ((v.placeResult k .mismatch).modPermit k fun y =>
        { y with deadline := some (p.deadline.getD (w.site.count + 180)) }).reportPermit
          { p with attempts := p.attempts + 1, deadline := some (p.deadline.getD (w.site.count + 180)) }
          (some .issuing) .readbackMismatch)
    ∧ (3 ≤ p.attempts + 1 → w.readbackMismatch k p = (v.placeResult k .void).finishPermit k .void .readbackMismatch) := by
  intro v
  have counted : Table.look (v.placeResult k .mismatch).site.permits k = some { p with attempts := p.attempts + 1 } := by
    rw [Work.placeResult_permits, Work.modPermit_look, found]; rfl
  refine ⟨fun again => ?_, fun last => ?_⟩
  · have same : (v.placeResult k .mismatch).modPermit k (fun y =>
          { y with deadline := some (y.deadline.getD (w.site.count + 180)) }) =
        (v.placeResult k .mismatch).modPermit k fun y =>
          { y with deadline := some (p.deadline.getD (w.site.count + 180)) } := Work.modPermit_congr counted rfl
    rw [Work.readbackMismatch, if_pos again]
    refine (congrArg (fun x => Work.reportRecord x k (some .issuing) .readbackMismatch) same).trans
      (Work.reportRecord_of_look ?_ _ _)
    rw [Work.modPermit_look, counted]
    rfl
  · rw [Work.readbackMismatch, if_neg (by omega)]

/-- Settles O53. -/
theorem permitFramesTaken : Obligations.PermitFramesTaken := by
  refine ⟨fun w k r p found => Work.placeResult_of_look found r, fun w => rfl, fun s n i => ?_, fun s number =>
    ⟨fun a i inPlace => ?_, fun k p e powered live found issuing deadline reached => ?_⟩⟩
  · refine ⟨fun none => ?_, fun f k p q split holds before => ?_⟩
    · have dead := Site.livePermit_of_none (n := n) none
      exact ⟨dead, Site.permitFrom_of_none dead i⟩
    · have live := Site.livePermit_of_split split holds before
      obtain ⟨is, not⟩ := Site.permitFrom_of_live live i
      exact ⟨live, fun v => is ((s.vehicleOf_iff _ _).2 v), fun v => not (mt (s.vehicleOf_iff _ _).1 v)⟩
  · intro w
    have from_ : ∀ n, w.site.permitFrom n i = s.site.permitFrom n i := fun n => s.heardFrom_permitFrom a i n i
    have readback : ∀ code : Fin 10000, exec (.readback a number code) s =
        .next (s.after (w.takeReadback i number.toNat code.val)) := fun code =>
      granted_inPlace inPlace fun _ i w => w.takeReadback i number.toNat code.val
    have switchDone : exec (.switchDone a number) s = .next (s.after (w.takeSwitchDone i number.toNat)) :=
      granted_inPlace inPlace fun _ i w => w.takeSwitchDone i number.toNat
    have releaseAsk : exec (.releaseAsk a number) s = .next (s.after (w.takeReleaseAsk i number.toNat)) :=
      granted_inPlace inPlace fun _ i w => w.takeReleaseAsk i number.toNat
    refine ⟨fun unmatched => ?_, fun k p matched found => ?_⟩
    · have no : ∀ k p, w.site.permitFrom number.toNat i ≠ some (k, p) := fun k p => by rw [from_, unmatched]; nofun
      refine ⟨fun code => ?_, ?_, ?_⟩
      · rw [readback, Work.takeReadback_of_none fun k p h => absurd h (no k p)]
      · rw [switchDone, Work.takeSwitchDone_of_none fun k p h => absurd h (no k p)]
      · rw [releaseAsk, Work.takeReleaseAsk_of_none fun k p h => absurd h (no k p)]
    · intro report
      have named : w.site.permitFrom number.toNat i = some (k, p) := (from_ _).trans matched
      have unique : ∀ j q, w.site.permitFrom number.toNat i = some (j, q) → q = p := fun j q h => by
        cases named.symm.trans h; rfl
      have here : Table.look w.site.permits k = some p := by rw [State.heardFrom_permits, found]
      have issueCode : w.site.issueCode p = s.site.issueCode p := by rw [State.heardFrom_site]; rfl
      have count : w.site.count = s.site.count := s.heardFrom_count a i
      have sections : w.site.sections = s.site.sections := by rw [State.heardFrom_site]
      refine ⟨fun code issuing same => ?_, fun code issuing other => ?_, fun sw op issued work => ?_,
        fun issued clearance => ?_, fun other code => ?_, fun other => ⟨?_, ?_⟩, fun l work => ?_, fun sw op work => ?_⟩
      · intro v
        refine ⟨?_, ?_⟩
        · rw [readback, Work.takeReadback, named]
          dsimp only
          rw [if_pos issuing, if_pos (issueCode ▸ same), Work.readbackMatch_eq here]
          simp only [report, issuing]
          rfl
        · rw [← sections]
          exact congrArg Site.sections (sections_fold (· + 1) p.work.sections _)
      · have run : exec (.readback a number code) s = .next (s.after (w.readbackMismatch k p)) := by
          rw [readback, Work.takeReadback, named]
          dsimp only
          rw [if_pos issuing, if_neg (issueCode ▸ other)]
        obtain ⟨again, last⟩ := Work.readbackMismatch_eq here
        intro v
        refine ⟨fun few => ?_, fun third => ?_⟩
        · rw [run, again few, count]
          simp only [report, issuing]
          rfl
        · rw [run, last third]
      · rw [switchDone, Work.takeSwitchDone, named]
        simp only [issued, work]
        cases op <;> rfl
      · rw [releaseAsk, Work.takeReleaseAsk, named]
        dsimp only
        rw [if_pos ⟨issued, clearance⟩, Work.reportRecord_of_look (p := { p with state := .releasePending })
          (by rw [Work.modPermit_look, here]; rfl)]
        simp only [report, issued]
        rfl
      · rw [readback, Work.takeReadback_of_none fun j q h => unique j q h ▸ other]
      · rw [switchDone, Work.takeSwitchDone_of_none fun j q h issued => absurd (unique j q h ▸ issued) other]
      · rw [releaseAsk, Work.takeReleaseAsk_of_none fun j q h issued => absurd (unique j q h ▸ issued) other]
      · rw [switchDone, Work.takeSwitchDone_of_none fun j q h _ sw op => by
          rw [unique j q h, work]; nofun]
      · rw [releaseAsk, Work.takeReleaseAsk_of_none fun j q h _ => by rw [unique j q h, work]; rfl]
  · refine event_outcome powered (f := fun w => w.readbackExpires number.toNat) ?_
    show s.work.readbackExpires number.toNat = _
    have here : s.work.site.livePermit number.toNat = some (k, p) := live
    rw [Work.readbackExpires, here]
    dsimp only
    rw [if_pos ⟨issuing, by rw [deadline]; exact decide_eq_true reached⟩,
      Work.revertPermit_of_issuing (w := s.work) found issuing]
    rfl

/-! #### The permit requests -/

theorem Work.withPermit_of_live {w : Work} {number : Half} {n k : Nat} {p : Permit} (valid : permitNumberOf number = some n)
    (live : w.site.livePermit n = some (k, p)) (act : Nat → Permit → Taking) : w.withPermit number act = act k p := by
  rw [Work.withPermit, valid]
  dsimp only
  rw [live]

theorem Work.requestPermit_of_checks {w : Work} {n c i : Nat} {k : PermitWork} (mode : w.site.mode.allowsPermits = true)
    (known : (Table.look w.site.crews c).isSome = true) (allowed : w.site.authorized c = true)
    (defined : w.site.namesDefined k = true) (new : w.site.livePermit n = none)
    (free : Table.firstFree w.site.permits 48 = some i) (safe : k.isClearance = true ∨ w.site.interlock k = true) :
    w.requestPermit n c k =
      (w.createPermit i (.created n k c .requested none false false) .requested).taken (.permitState .requested) := by
  rw [Work.requestPermit, if_neg (by simp [mode]), if_neg (by simpa using Option.isSome_iff_ne_none.1 known),
    if_neg (by simp [allowed]), if_neg (by simp [defined]), if_neg (by simp [new]), free]
  dsimp only
  rw [if_neg (by rcases safe with h | h <;> simp [h])]

theorem Work.restorePermit_of_checks {w : Work} {n c i : Nat} {k : PermitWork} (key : w.site.keyEnable = true)
    (known : (Table.look w.site.crews c).isSome = true)
    (defined : w.site.namesDefined k = true) (new : w.site.livePermit n = none)
    (free : Table.firstFree w.site.permits 48 = some i) (safe : w.site.interlock k = true) :
    w.restorePermit n c k =
      ((w.raiseSections k.sections).createPermit i (.created n k c .issued ((w.site.vehicleRecord c).map fun v => v.2.id)
        (w.site.mode == .keyed) true) .restored).taken (.permitState .issued) := by
  rw [Work.restorePermit, if_neg (by simp [key]), if_neg (by simpa using Option.isSome_iff_ne_none.1 known),
    if_neg (by simp [defined]), if_neg (by simp [new]), free]
  dsimp only
  rw [if_neg (by simp [safe])]

theorem Work.issuePermit_eq {w : Work} {k i tid : Nat} {p : Permit} (found : Table.look w.site.permits k = some p) :
    let keyed := w.site.mode == .keyed
    w.issuePermit k i tid p = ((w.modPermit k fun y =>
        { y with state := .issuing, recorded := some tid, keyed, deadline := none }).place (.permit k) i
        (.permit p.number p.crew (p.attempts + 1) keyed (w.site.permitBody p.work))).reportPermit
          { p with state := .issuing, recorded := some tid, keyed, deadline := none } (some .requested) .issuedByHost := by
  intro keyed
  refine Work.reportRecord_of_look ?_ _ _
  rw [Work.place_permits, Work.modPermit_look, found]
  rfl

theorem Work.checkIssue_of_checks {w : Work} {k i : Nat} {p : Permit} {x : Terminal} (state : p.state = .requested)
    (mode : w.site.mode.allowsPermits = true) (allowed : w.site.authorized p.crew = true)
    (vehicle : w.site.vehicleRecord p.crew = some (i, x)) (affiliated : x.state = .affiliated)
    (alone : w.site.issuing p.crew = false) (safe : w.site.interlock p.work = true) :
    w.checkIssue k p = (w.issuePermit k i x.id p).taken (.permitState .issuing) := by
  rw [Work.checkIssue, if_neg (not_not.2 state), if_neg (by simp [mode]), if_neg (by simp [allowed]), vehicle]
  dsimp only
  rw [if_neg (not_not.2 affiliated), if_neg (by simp [alone]), if_neg (by simp [safe])]

/-- Settles O52. -/
theorem permitRequestsTaken : Obligations.PermitRequestsTaken := by
  intro h s number n valid
  refine ⟨fun kind crew c count items k i a lengths crewValid workValid known defined new free => ?_,
    fun k p live found => ?_⟩
  · intro created report
    refine ⟨fun mode allowed safe => ?_, fun key safe => ?_⟩
    · show request h 0x53 (lengthIs h _ && items.length == _) _ s = _
      rw [lengths, beq_self_eq_true, Bool.and_true]
      refine request_outcome a 0x53 (fun _ w => takeRequestPermit number kind crew items w) ?_
      rw [takeRequestPermit, valid, crewValid, workValid]
      exact Work.requestPermit_of_checks (w := s.begun) mode known allowed defined new free safe
    · show request h 0x59 (lengthIs h _ && items.length == _) _ s = _
      rw [lengths, beq_self_eq_true, Bool.and_true]
      refine request_outcome a 0x59 (fun _ w => takeRestorePermit number kind crew items w) ?_
      rw [takeRestorePermit, valid, crewValid, workValid]
      refine (Work.restorePermit_of_checks (w := s.begun) key known defined new free safe).trans ?_
      rw [Work.raiseSections_eq]
      rfl
  · intro report
    have here : s.begun.site.livePermit n = some (k, p) := live
    have standing : Table.look s.begun.site.permits k = some p := found
    have named := fun act => Work.withPermit_of_live (w := s.begun) valid here act
    refine ⟨fun i x a state mode allowed vehicle affiliated alone safe => ?_, fun a state => ?_, fun a state => ?_,
      fun a state => ⟨fun calm => ?_, fun alarm => ?_, ?_⟩, fun code a range clearance state => ?_⟩
    · refine request_outcome a 0x54 (fun _ w => w.withPermit number fun k p => w.checkIssue k p) ((named _).trans ?_)
      refine (Work.checkIssue_of_checks (w := s.begun) state mode allowed vehicle affiliated alone safe).trans ?_
      rw [Work.issuePermit_eq standing]
      rfl
    · refine request_outcome a 0x55 (fun _ w => w.withPermit number fun k p => w.withdrawPermit k p) ((named _).trans ?_)
      simp only [Work.withdrawPermit, state]
    · refine request_outcome a 0x55 (fun _ w => w.withPermit number fun k p => w.withdrawPermit k p) ((named _).trans ?_)
      simp only [Work.withdrawPermit, state]
    · refine request_outcome a 0x56 (fun _ w => w.withPermit number fun k p => w.confirmRelease k p) ((named _).trans ?_)
      have none : s.begun.site.alarmsOf p.crew = 0 := calm
      rw [Work.confirmRelease, if_neg (not_not.2 state), if_neg (not_not.2 none)]
      rfl
    · refine request_outcome a 0x56 (fun _ w => w.withPermit number fun k p => w.confirmRelease k p) ((named _).trans ?_)
      have some : s.begun.site.alarmsOf p.crew ≠ 0 := alarm
      rw [Work.confirmRelease, if_neg (not_not.2 state), if_pos some]
    · refine request_outcome a 0x57 (fun _ w => w.withPermit number fun k p => w.rejectRelease k p) ((named _).trans ?_)
      rw [Work.rejectRelease, if_pos state, Work.reportRecord_of_look (p := { p with state := .issued })
          (by rw [Work.modPermit_look, standing]; rfl)]
      rfl
    · have run : exec (.verbalRelease h number code) s =
          .next (s.answered h 0x58 (s.begun.verbalRelease k p code.toNat)) := by
        refine request_outcome a 0x58 (fun _ w => if code.toNat ≤ 9999 then
          w.withPermit number fun k p => w.verbalRelease k p code.toNat else w.refused .badValue) ?_
        rw [if_pos range]
        exact named _
      have open_ : ¬(!(p.work.isClearance && (p.state == .issued || p.state == .releasePending))) = true := by
        rcases state with e | e <;> simp [clearance, e]
      rw [run, Work.verbalRelease, if_neg open_]
      refine ⟨fun same calm => ?_, fun same alarm => ?_, fun other => ?_⟩
      · have right : ¬code.toNat ≠ s.begun.site.releaseCode p := not_not.2 same
        have none : ¬s.begun.site.alarmsOf p.crew ≠ 0 := not_not.2 calm
        rw [if_neg right, if_neg none]
        rfl
      · have right : ¬code.toNat ≠ s.begun.site.releaseCode p := not_not.2 same
        have some : s.begun.site.alarmsOf p.crew ≠ 0 := alarm
        rw [if_neg right, if_pos some]
      · have wrong : code.toNat ≠ s.begun.site.releaseCode p := other
        rw [if_pos wrong]

end Sys2Proof.Machine

/-! ### The section map (R134 to R136, R152) -/

namespace Sys2Proof.Table
variable {α β : Type}

/-- A change that settles at once, made at each number of a list. -/
theorem look_foldl_adjust (l : List (Nat × β)) {f : α → α} (settles : ∀ x, f (f x) = f x) (t : Table α) (k : Nat) :
    look (l.foldl (fun t e => adjust t e.1 f) t) k = (look t k).map fun x => if k ∈ l.map Prod.fst then f x else x := by
  induction l generalizing t with
  | nil => simp
  | cons e l ih =>
    rw [List.foldl_cons, ih]
    by_cases same : k = e.1
    · subst same
      rw [look_adjust_same, Option.map_map]
      congr 1
      funext x
      by_cases again : e.1 ∈ l.map Prod.fst <;> simp [again, settles]
    · rw [look_adjust_other _ _ _ _ same]
      refine congrArg (Option.map · _) (funext fun x => if_congr ?_ rfl rfl)
      rw [List.map_cons, List.mem_cons, or_iff_right same]

end Sys2Proof.Table

namespace Sys2Proof.Machine

/-! #### Permits by number -/

theorem numberInsert_perm (e : Nat × Permit) (l : List (Nat × Permit)) : (numberInsert e l).Perm (e :: l) := by
  induction l with
  | nil => exact .refl _
  | cons x l ih =>
    unfold numberInsert
    split
    · exact .refl _
    · exact (ih.cons x).trans (.swap ..)

theorem numberInsert_pairwise (e : Nat × Permit) {l : List (Nat × Permit)}
    (h : l.Pairwise fun a b => a.2.number ≤ b.2.number) :
    (numberInsert e l).Pairwise fun a b => a.2.number ≤ b.2.number := by
  induction l with
  | nil => exact List.pairwise_singleton _ _
  | cons x l ih =>
    obtain ⟨first, rest⟩ := List.pairwise_cons.1 h
    unfold numberInsert
    split
    · rename_i lead
      refine List.pairwise_cons.2 ⟨fun y hy => ?_, h⟩
      rcases List.mem_cons.1 hy with rfl | hy
      · exact lead
      · exact lead.trans (first y hy)
    · rename_i after
      refine List.pairwise_cons.2 ⟨fun y hy => ?_, ih rest⟩
      rcases List.mem_cons.1 ((numberInsert_perm e l).mem_iff.1 hy) with rfl | hy
      · omega
      · exact first y hy

theorem Site.permitsBy_perm (s : Site) (f : Permit → Bool) : (s.permitsBy f).Perm (s.permits.filter fun e => f e.2) := by
  unfold Site.permitsBy
  induction s.permits.filter fun e => f e.2 with
  | nil => exact .refl _
  | cons e l ih => exact (numberInsert_perm e _).trans (ih.cons e)

theorem Site.permitsBy_pairwise (s : Site) (f : Permit → Bool) :
    (s.permitsBy f).Pairwise fun a b => a.2.number ≤ b.2.number := by
  unfold Site.permitsBy
  induction s.permits.filter fun e => f e.2 with
  | nil => exact .nil
  | cons e l ih => exact numberInsert_pairwise e ih

/-- The numbers of the records on a list by number are those whose record passes the test. -/
theorem Site.permitsBy_listed {s : Site} (sorted : s.sorted = true) {f : Permit → Bool} {k : Nat} {p : Permit}
    (found : Table.look s.permits k = some p) : k ∈ (s.permitsBy f).map Prod.fst ↔ f p = true := by
  have form : Table.wf s.permits = true := by
    obtain ⟨-, -, -, -, -, -, -, -, permits⟩ := (sorted_iff s).1 sorted
    exact permits
  constructor
  · intro listed
    obtain ⟨⟨j, q⟩, member, rfl⟩ := List.mem_map.1 listed
    obtain ⟨stands, passes⟩ := permitsBy_spec member
    cases (Table.look_of_mem form stands).symm.trans found
    exact passes
  · intro passes
    exact List.mem_map.2 ⟨(k, p), (s.permitsBy_perm f).mem_iff.2 (List.mem_filter.2 ⟨Table.mem_of_look found, passes⟩), rfl⟩

/-! #### Marking clearances and warning their crews -/

theorem foldl_modPermit (l : List (Nat × Permit)) (f : Permit → Permit) (w : Work) :
    l.foldl (fun w e => w.modPermit e.1 f) w =
      w.modSite fun s => { s with permits := l.foldl (fun t e => Table.adjust t e.1 f) s.permits } := by
  induction l generalizing w with
  | nil => rfl
  | cons e l ih => exact ih _

theorem Work.offerDanger_of_look {w : Work} {k : Nat} {p : Permit} (found : Table.look w.site.permits k = some p) (sw : Nat) :
    let owed := fun (v : Work) => v.modPermit k fun q => { q with dangerOwed := true }
    (∀ i x c, w.site.vehicleRecord p.crew = some (i, x) → x.state = .affiliated → x.channel = some c →
      let ch := w.site.chan (w.site.logical c)
      (ch.state = .up → ch.alerts.length < 8 → w.offerDanger k sw = (w.pushAlert c (.danger p.number sw x.id), .placed))
      ∧ (ch.state = .up → 8 ≤ ch.alerts.length → w.offerDanger k sw =
        (owed (w.modSite fun s => { s with dangerDrops := s.dangerDrops.bump }), .dropped))
      ∧ (ch.state ≠ .up → w.offerDanger k sw = (owed w, .owed)))
    ∧ ((∀ i x, w.site.vehicleRecord p.crew = some (i, x) → x.state ≠ .affiliated ∨ x.channel = none) →
      w.offerDanger k sw = (owed w, .owed)) := by
  intro owed
  refine ⟨fun i x c vehicle affiliated at_c => ?_, fun unreached => ?_⟩
  · have run : w.offerDanger k sw = if w.site.alertRoom c = true then (w.pushAlert c (.danger p.number sw x.id), .placed)
        else if (w.site.chan (w.site.logical c)).state = .up then
          (owed (w.modSite fun s => { s with dangerDrops := s.dangerDrops.bump }), .dropped)
        else (owed w, .owed) := by
      rw [Work.offerDanger, found]
      dsimp only
      rw [vehicle]
      dsimp only
      rw [at_c]
      dsimp only
      rw [if_pos affiliated]
      rfl
    rw [run]
    refine ⟨fun up room => ?_, fun up full => ?_, fun down => ?_⟩
    · rw [if_pos ((w.site.alertRoom_iff c).2 ⟨up, room⟩)]
    · rw [if_neg fun room => absurd ((w.site.alertRoom_iff c).1 room).2 (by omega), if_pos up]
    · rw [if_neg fun room => down ((w.site.alertRoom_iff c).1 room).1, if_neg down]
  · rw [Work.offerDanger, found]
    dsimp only
    cases vehicle : w.site.vehicleRecord p.crew with
    | none => rfl
    | some e =>
      obtain ⟨i, x⟩ := e
      dsimp only
      cases at_ : x.channel with
      | none => rfl
      | some c => exact if_neg ((unreached i x vehicle).resolve_right (by rw [at_]; nofun))

/-- What the recording of a position reads of a permit. -/
def Permit.duty (p : Permit) : PermitState × PermitWork := (p.state, p.work)

/-- The map is as it was, and so are the states and the work of the permits. -/
structure Unmoved (a b : Site) : Prop where
  sections : b.sections = a.sections
  switches : b.switches = a.switches
  duties : ∀ j, Table.view b.permits Permit.duty j = Table.view a.permits Permit.duty j

theorem Unmoved.refl (a : Site) : Unmoved a a := ⟨rfl, rfl, fun _ => rfl⟩

theorem Unmoved.trans {a b c : Site} (h : Unmoved a b) (k : Unmoved b c) : Unmoved a c :=
  ⟨k.sections.trans h.sections, k.switches.trans h.switches, fun j => (k.duties j).trans (h.duties j)⟩

theorem Work.modPermit_unmoved (w : Work) (k : Nat) {f : Permit → Permit} (keeps : ∀ p, (f p).duty = p.duty) :
    Unmoved w.site (w.modPermit k f).site :=
  ⟨rfl, rfl, Table.view_adjust _ k f Permit.duty fun p _ => keeps p⟩

theorem Work.offerDanger_unmoved (w : Work) (k sw : Nat) : Unmoved w.site (w.offerDanger k sw).1.site := by
  have owed : ∀ v : Work, Unmoved v.site (v.modPermit k fun p => { p with dangerOwed := true }).site := fun v =>
    v.modPermit_unmoved k fun _ => rfl
  have dropped : Unmoved w.site w.dropDanger.site := ⟨rfl, rfl, fun _ => rfl⟩
  unfold Work.offerDanger
  repeat' split
  all_goals first
    | exact owed w
    | exact dropped.trans (owed w.dropDanger)
    | exact ⟨rfl, rfl, fun _ => rfl⟩

/-- One clearance is offered its DANGER, and what became of it is noted (step 3 of R136). -/
def Work.warn (sw : Nat) (a : Work × List MarkedClearance) (e : Nat × Permit) : Work × List MarkedClearance :=
  ((a.1.offerDanger e.1 sw).1, a.2 ++ [{ number := e.2.number, crew := e.2.crew, state := e.2.state
                                         outcome := (a.1.offerDanger e.1 sw).2 }])

theorem foldl_warn_unmoved (sw : Nat) (l : List (Nat × Permit)) (a : Work × List MarkedClearance) :
    Unmoved a.1.site (l.foldl (Work.warn sw) a).1.site := by
  induction l generalizing a with
  | nil => exact .refl _
  | cons e l ih => exact (a.1.offerDanger_unmoved e.1 sw).trans (ih (Work.warn sw a e))

/-- A clearance that a switch point's violation concerns: in ISSUED or RELEASE_PENDING, and meeting it (R136). -/
def SwitchPoint.marks (p : SwitchPoint) (q : Permit) : Bool :=
  (q.state == .issued || q.state == .releasePending) && q.work.meets p

/-- The violated mark is set and the clearances that meet the point are marked compromised (steps 1 and 2 of R136). -/
def Work.markViolation (w : Work) (sw : Nat) (p : SwitchPoint) : Work :=
  (w.site.permitsBy p.marks).foldl (fun v e => v.modPermit e.1 fun q =>
    { q with compromised := true, violationSwitch := some sw })
    (w.modSite fun s => { s with switches := s.switches.adjust sw fun y => { y with violated := true } })

theorem Work.markViolation_eq (w : Work) (sw : Nat) (p : SwitchPoint) : w.markViolation sw p = w.modSite fun s =>
    { s with
      permits := (w.site.permitsBy p.marks).foldl
        (fun t e => Table.adjust t e.1 fun q => { q with compromised := true, violationSwitch := some sw }) s.permits
      switches := s.switches.adjust sw fun y => { y with violated := true } } :=
  foldl_modPermit _ _ _

theorem Work.markViolation_look {w : Work} (sorted : w.site.sorted = true) (sw : Nat) (p : SwitchPoint) (k : Nat) :
    Table.look (w.markViolation sw p).site.permits k = (Table.look w.site.permits k).map fun q =>
      if p.marks q = true then { q with compromised := true, violationSwitch := some sw } else q := by
  rw [Work.markViolation_eq]
  refine (Table.look_foldl_adjust _ (f := fun q : Permit =>
    { q with compromised := true, violationSwitch := some sw }) (fun _ => rfl) _ _).trans ?_
  cases found : Table.look w.site.permits k with
  | none => rfl
  | some q => exact congrArg some (if_congr (Site.permitsBy_listed sorted found) rfl rfl)

theorem Work.markViolation_duties (w : Work) (sw : Nat) (p : SwitchPoint) (j : Nat) :
    Table.view (w.markViolation sw p).site.permits Permit.duty j = Table.view w.site.permits Permit.duty j := by
  rw [Work.markViolation_eq]
  unfold Table.view
  refine (congrArg (Option.map _) (Table.look_foldl_adjust _ (f := fun q : Permit =>
    { q with compromised := true, violationSwitch := some sw }) (fun _ => rfl) _ _)).trans ?_
  rw [Option.map_map]
  refine congrArg (Option.map · _) (funext fun q => ?_)
  show Permit.duty (if _ then _ else _) = _
  split <;> rfl

theorem Work.tagViolation_eq (w : Work) (sw : Nat) (p : SwitchPoint) (previous : SwitchPosition) (source : PositionSource) :
    let u := (w.site.permitsBy p.marks).foldl (Work.warn sw) (w.markViolation sw p, [])
    w.tagViolation sw p previous source = (u.1.emit (.tagViolation
      { switch := sw, sideA := p.sideA, sideB := p.sideB, countA := w.site.clearances p.sideA
        countB := p.sideB.map w.site.clearances, previous, source, marked := u.2 }), (w.site.permitsBy p.marks).length) := by
  intro u
  have sections : u.1.site.sections = w.site.sections :=
    (foldl_warn_unmoved sw _ (w.markViolation sw p, [])).sections.trans (by rw [Work.markViolation_eq]; rfl)
  have clearances : u.1.site.clearances = w.site.clearances := by
    funext n; rw [Site.clearances, sections, Site.clearances]
  show (u.1.emit (.tagViolation
      { switch := sw, sideA := p.sideA, sideB := p.sideB, countA := u.1.site.clearances p.sideA
        countB := p.sideB.map u.1.site.clearances, previous, source, marked := u.2 }),
      (w.site.permitsBy p.marks).length) = _
  rw [clearances]

theorem Work.tagViolation_switches (w : Work) (sw : Nat) (p : SwitchPoint) (previous : SwitchPosition)
    (source : PositionSource) : (w.tagViolation sw p previous source).1.site.switches =
      w.site.switches.adjust sw fun y => { y with violated := true } := by
  rw [Work.tagViolation_eq]
  exact (foldl_warn_unmoved sw _ (w.markViolation sw p, [])).switches.trans (by rw [Work.markViolation_eq]; rfl)

theorem Work.tagViolation_duties (w : Work) (sw : Nat) (p : SwitchPoint) (previous : SwitchPosition)
    (source : PositionSource) (j : Nat) : Table.view (w.tagViolation sw p previous source).1.site.permits Permit.duty j =
      Table.view w.site.permits Permit.duty j := by
  rw [Work.tagViolation_eq]
  exact ((foldl_warn_unmoved sw _ (w.markViolation sw p, [])).duties j).trans (w.markViolation_duties sw p j)

theorem Work.tagViolation_length (w : Work) (sw : Nat) (p : SwitchPoint) (previous : SwitchPosition)
    (source : PositionSource) : (w.tagViolation sw p previous source).2 =
      (w.site.permits.filter fun e => p.marks e.2).length := by
  rw [Work.tagViolation_eq]
  exact (w.site.permitsBy_perm p.marks).length_eq

/-! #### The recording of a position -/

/-- The recording itself: the position, and the violated mark cleared by an OPEN (R135). -/
def Work.setPosition (w : Work) (sw : Nat) (pos : SwitchPosition) : Work :=
  w.modSite fun s => { s with
    switches := s.switches.adjust sw fun y =>
      { y with position := pos, violated := if pos = .opened then false else y.violated } }

/-- The recording with the violation it raises. -/
def Work.violate (w : Work) (sw : Nat) (p : SwitchPoint) (pos : SwitchPosition) (source : PositionSource) : Work × Nat :=
  if (pos == .closed && w.site.tagged p && !p.violated) = true then
    (w.setPosition sw pos).tagViolation sw p p.position source
  else (w.setPosition sw pos, 0)

/-- The clearances in ISSUING that a recording catches (R141). -/
def Site.caught (s : Site) (p : SwitchPoint) (pos : SwitchPosition) : List (Nat × Permit) :=
  if pos = .opened then [] else s.permitsBy fun q => q.state == .issuing && q.work.meets p

theorem Work.recordPosition_of_look {w : Work} {sw : Nat} {p : SwitchPoint}
    (found : Table.look w.site.switches sw = some p) (pos : SwitchPosition) (source : PositionSource) :
    let u := w.violate sw p pos source
    w.recordPosition sw pos source = ((u.1.site.caught p pos).foldl (fun x e => x.revertPermit e.1 .switchNotOpen true) u.1,
      pos == .closed && w.site.tagged p && !p.violated, u.2, (u.1.site.caught p pos).length) := by
  rw [Work.recordPosition, found]
  rfl

theorem Site.caught_perm (s : Site) (p : SwitchPoint) (pos : SwitchPosition) :
    (s.caught p pos).Perm (if pos = .opened then [] else
      s.permits.filter fun e => e.2.state == .issuing && e.2.work.meets p) := by
  unfold Site.caught
  split
  · exact .refl _
  · exact s.permitsBy_perm _

theorem Site.caught_pairwise (s : Site) (p : SwitchPoint) (pos : SwitchPosition) :
    (s.caught p pos).Pairwise fun a b => a.2.number ≤ b.2.number := by
  unfold Site.caught
  split
  · exact .nil
  · exact s.permitsBy_pairwise _

theorem Work.revertPermit_switches (w : Work) (k : Nat) (cause : PermitCause) (result : Bool) :
    (w.revertPermit k cause result).site.switches = w.site.switches := by
  cases found : Table.look w.site.permits k with
  | none => rw [Work.revertPermit, found]
  | some p =>
    by_cases issuing : p.state = .issuing
    · have cancelled := (w.modPermit k fun q => { q with state := .requested, deadline := none }).cancelOwned_rest
        (.permit k) .permit
      have switches := Site.rest_eq cancelled Site.switches fun _ => rfl
      rw [Work.revertPermit_of_issuing found issuing]
      show Site.switches (Work.site (if _ then _ else _)) = _
      split
      · exact (Site.rest_eq (Work.placeResult_rest _ _ _) Site.switches fun _ => rfl).trans switches
      · exact switches
    · rw [Work.revertPermit_of_other found issuing]

theorem foldl_revertPermit_switches (l : List (Nat × Permit)) (cause : PermitCause) (result : Bool) (w : Work) :
    (l.foldl (fun x e => x.revertPermit e.1 cause result) w).site.switches = w.site.switches := by
  induction l generalizing w with
  | nil => rfl
  | cons e l ih => exact (ih _).trans (w.revertPermit_switches _ _ _)

theorem Work.violate_look {w : Work} {sw : Nat} {p : SwitchPoint}
    (found : Table.look w.site.switches sw = some p) (pos : SwitchPosition) (source : PositionSource) :
    Table.look (w.violate sw p pos source).1.site.switches sw = some { p with
      position := pos
      violated := if pos = .opened then false
        else p.violated || (pos == .closed && w.site.tagged p && !p.violated) } := by
  have set_ : Table.look (w.setPosition sw pos).site.switches sw =
      some { p with position := pos, violated := if pos = .opened then false else p.violated } :=
    (Table.look_adjust_same _ _ _).trans (by rw [found]; rfl)
  unfold Work.violate
  split
  · rename_i raised
    rw [Work.tagViolation_switches, Table.look_adjust_same, set_, raised]
    cases pos
    · exact absurd raised (by simp)
    all_goals simp
  · rename_i calm
    rw [set_, Bool.not_eq_true] at *
    rw [calm, Bool.or_false]

theorem Work.violate_duties (w : Work) (sw : Nat) (p : SwitchPoint) (pos : SwitchPosition) (source : PositionSource) (j : Nat) :
    Table.view (w.violate sw p pos source).1.site.permits Permit.duty j = Table.view w.site.permits Permit.duty j := by
  unfold Work.violate
  split
  · exact Work.tagViolation_duties _ _ _ _ _ _
  · rfl

theorem Work.violate_kept (w : Work) (sw : Nat) (p : SwitchPoint) (pos : SwitchPosition) (source : PositionSource) :
    Kept w.site (w.violate sw p pos source).1.site := by
  have recorded : Kept w.site (w.setPosition sw pos).site :=
    Work.adjustSwitch_kept (.refl _) sw (fun y =>
      { y with position := pos, violated := if pos = .opened then false else y.violated }) fun _ _ => rfl
  unfold Work.violate
  split
  · exact Work.tagViolation_kept recorded _ _ _ _
  · exact recorded

/-- A recording catches as many clearances as meet the point before it: marking and warning move no permit. -/
theorem Work.violate_caught {w : Work} (sorted : w.site.sorted = true) (sw : Nat) (p : SwitchPoint) (pos : SwitchPosition)
    (source : PositionSource) : ((w.violate sw p pos source).1.site.caught p pos).length = if pos = .opened then 0
      else (w.site.permits.filter fun e => e.2.state == .issuing && e.2.work.meets p).length := by
  rw [(Site.caught_perm _ p pos).length_eq]
  split
  · rfl
  · have form : ∀ {s : Site}, s.sorted = true → Table.wf s.permits = true := fun h => by
      obtain ⟨-, -, -, -, -, -, -, -, permits⟩ := (sorted_iff _).1 h
      exact permits
    refine Table.tally_congr (p := fun _ q => q.state == .issuing && q.work.meets p)
      (q := fun _ q => q.state == .issuing && q.work.meets p) (form ((w.violate_kept sw p pos source).sorted sorted))
      (form sorted) fun j => ?_
    have same := congrArg (Option.any fun d : PermitState × PermitWork => d.1 == .issuing && d.2.meets p)
      (w.violate_duties sw p pos source j)
    rw [Table.view, Table.view, Option.any_map, Option.any_map] at same
    exact same

/-! #### The map requests -/

theorem PermitWork.meets_clearance_iff (l : List Nat) (p : SwitchPoint) :
    (PermitWork.clearance l).meets p = true ↔ ∃ n ∈ l, p.joins n = true := by
  simp [PermitWork.meets, PermitWork.sections]

theorem Work.placeOwedDangers_of_reached {w : Work} {crew i : Nat} {x : Terminal} {c : Chan}
    (vehicle : w.site.vehicleRecord crew = some (i, x)) (at_c : x.channel = some c) : w.placeOwedDangers crew =
      (w.site.permitsBy fun q => q.crew == crew && q.dangerOwed && (q.state == .issued || q.state == .releasePending)).foldl
        (fun v e =>
          if (v.site.chan (v.site.logical c)).state = .up ∧ (v.site.chan (v.site.logical c)).alerts.length < 8 then
            (v.pushAlert c (.danger e.2.number (e.2.violationSwitch.getD 0) x.id)).modPermit e.1 fun q =>
              { q with dangerOwed := false }
          else v.modSite fun s => { s with dangerDrops := s.dangerDrops.bump }) w := by
  rw [Work.placeOwedDangers, vehicle]
  dsimp only
  rw [at_c]
  refine congrArg (List.foldl · w _) (funext fun v => funext fun e => ?_)
  exact if_congr (v.site.alertRoom_iff c) rfl rfl

theorem Work.placeOwedDangers_of_unreached {w : Work} {crew : Nat}
    (unreached : ∀ i x, w.site.vehicleRecord crew = some (i, x) → x.channel = none) : w.placeOwedDangers crew = w := by
  rw [Work.placeOwedDangers]
  cases vehicle : w.site.vehicleRecord crew with
  | none => rfl
  | some e =>
    obtain ⟨i, x⟩ := e
    dsimp only
    rw [unreached i x vehicle]

/-- A taken request that only changes the site and replies with an empty body. -/
theorem request_changes {s : State} {h : Hdr} {n : Nat} (a : s.admits h n) (kind : Byte) (act : Link → Work → Taking)
    (f : Site → Site) (hx : act (s.link.arrived s.site) s.begun = (s.begun.modSite f).taken .empty) :
    ∃ t, request h kind (lengthIs h n) act s = .next t ∧ s.repliesTo t h kind .ok .empty ∧ t.site = f s.begun.site := by
  obtain ⟨t, run, site, places⟩ := request_settled a kind act hx rfl
  exact ⟨t, run, places, site⟩

/-- Settles O51. -/
theorem mapRequestsTaken : Obligations.MapRequestsTaken := by
  refine ⟨fun w sw => ?_, fun h s n => ⟨fun a range => ⟨?_, fun defined free apart => ?_⟩,
    fun a range unnamed => ⟨fun sideA sideB low high other => ?_, fun sideA sideB defined free => ?_⟩,
    fun b pos p a range valid sorted found => ?_⟩⟩
  · intro byNumber
    have listed : ∀ f, byNumber (w.site.permitsBy f) f := fun f => ⟨w.site.permitsBy_perm f, w.site.permitsBy_pairwise f⟩
    refine ⟨fun k p found => ?_, fun p previous source sorted => ?_, fun pos source p found => ?_,
      fun l p => ⟨PermitWork.meets_clearance_iff l p, w.site.tagged_iff p, fun n op => rfl⟩,
      fun crew => ⟨fun i x c vehicle at_c => ⟨_, listed _, Work.placeOwedDangers_of_reached vehicle at_c⟩,
        Work.placeOwedDangers_of_unreached⟩⟩
    · obtain ⟨reached, unreached⟩ := Work.offerDanger_of_look found sw
      exact ⟨reached, unreached, fun other cause result => Work.revertPermit_of_other found other cause result,
        fun issuing cause result => Work.revertPermit_of_issuing found issuing cause result⟩
    · intro meets
      refine ⟨w.markViolation sw p, _, ?_, ?_, ?_, w.markViolation_look sorted sw p, listed p.marks,
        w.tagViolation_eq sw p previous source⟩
      all_goals rw [Work.markViolation_eq]; rfl
    · intro raised v u
      exact ⟨_, u.1.site.caught_perm p pos, u.1.site.caught_pairwise p pos, Work.recordPosition_of_look found pos source⟩
  · refine request_changes a 0x50 (fun _ w => takeDefineSection n 0 w)
      (fun y => { y with sections := y.sections.put n.toNat (y.clearances n.toNat) }) ?_
    rw [takeDefineSection, if_pos range]
    rfl
  · refine request_changes a 0x50 (fun _ w => takeDefineSection n 1 w)
      (fun y => { y with sections := y.sections.del n.toNat }) ?_
    have known : ¬(Table.look s.begun.site.sections n.toNat).isNone = true := by
      rw [Option.isNone_iff_eq_none]; exact defined
    have loose : ¬(s.begun.site.sectionHeld n.toNat = true ∨ s.begun.site.sectionJoined n.toNat = true) := by
      rw [show s.begun.site.sectionHeld n.toNat = false from free, show s.begun.site.sectionJoined n.toNat = false from apart]
      simp
    rw [takeDefineSection, if_pos range]
    show (if _ then _ else if _ then _ else _) = _
    rw [if_neg known, if_neg loose]
  · intro p sections free
    refine request_changes a 0x51 (fun _ w => takeDefineSwitch n 0 sideA sideB w)
      (fun y => { y with switches := y.switches.put n.toNat p }) ?_
    have ranges : sidesInRange sideA sideB = true := by
      rw [sidesInRange, bne_iff_ne.2 other, decide_eq_true low, Bool.true_and, Bool.and_true, Bool.or_eq_true, beq_iff_eq,
        decide_eq_true_iff]
      exact high
    have known : (!p.sides.all fun x => (Table.look s.begun.site.sections x).isSome) = false := by
      rw [Bool.not_eq_false', List.all_eq_true]; exact sections
    have clear : s.begun.site.sidesHeld (s.begun.site.sidesOf n.toNat ++ p.sides) = false :=
      List.any_eq_false.2 fun x hx => by rw [Bool.not_eq_true]; exact free x hx
    have unnamed : s.begun.site.switchNamed n.toNat = false := unnamed
    rw [takeDefineSwitch, if_pos range]
    show (if sidesInRange sideA sideB = true then s.begun.defineSwitch n.toNat p else _) = _
    rw [if_pos ranges, Work.defineSwitch, known, unnamed, clear]
    rfl
  · refine request_changes a 0x51 (fun _ w => takeDefineSwitch n 1 sideA sideB w)
      (fun y => { y with switches := y.switches.del n.toNat }) ?_
    have known : (Table.look s.begun.site.switches n.toNat).isNone = false := by
      rw [Option.isNone_eq_false_iff, Option.isSome_iff_ne_none]; exact defined
    have clear : s.begun.site.sidesHeld (s.begun.site.sidesOf n.toNat) = false :=
      List.any_eq_false.2 fun x hx => by rw [Bool.not_eq_true]; exact free x hx
    have unnamed : s.begun.site.switchNamed n.toNat = false := unnamed
    rw [takeDefineSwitch, if_pos range]
    show s.begun.removeSwitch n.toNat = _
    rw [Work.removeSwitch, known, unnamed, clear]
    rfl
  · intro r raised
    have here : Table.look s.begun.site.switches n.toNat = some p := found
    have recorded : r = _ := Work.recordPosition_of_look here pos .host
    refine ⟨request_outcome a 0x52 (fun _ w => takeSetSwitchPosition n b w) ?_, ?_, ?_, ?_⟩
    · rw [takeSetSwitchPosition, if_pos range, valid]
      dsimp only
      rw [if_neg (by rw [here]; simp)]
      have answer : r.2.1 = raised := by rw [recorded]; rfl
      rw [← answer]
    · rw [recorded]
      exact (congrArg (Table.look · n.toNat) (foldl_revertPermit_switches _ _ _ _)).trans
        (Work.violate_look here pos .host)
    · rw [recorded]
      show (s.begun.violate n.toNat p pos .host).2 = _
      unfold Work.violate
      by_cases yes : raised = true
      · rw [if_pos yes, if_pos (show (pos == .closed && s.begun.site.tagged p && !p.violated) = true from yes)]
        exact Work.tagViolation_length _ _ _ _ _
      · rw [if_neg yes, if_neg (show ¬(pos == .closed && s.begun.site.tagged p && !p.violated) = true from yes)]
    · rw [recorded]
      exact Work.violate_caught (w := s.begun) sorted n.toNat p pos .host

end Sys2Proof.Machine

/-! ### Channels (Chapter 2) -/

namespace Sys2Proof.Machine

/-! #### All channels at once -/

/-- The site with every channel given. -/
def Work.setChans (w : Work) (g : Chan → Channel) : Work := w.modSite fun s => { s with channels := Vector.ofFn g }

theorem Work.setChans_chan (w : Work) (g : Chan → Channel) (d : Chan) : (w.setChans g).site.chan d = g d :=
  Vector.getElem_ofFn d.isLt

theorem Work.setChans_setChans (w : Work) (g k : Chan → Channel) : (w.setChans g).setChans k = w.setChans k := rfl

/-- A site that differs from another in its channels alone is told by them. -/
theorem Work.eq_setChans {v w : Work} {g : Chan → Channel} (site : v.site = { w.site with channels := v.site.channels })
    (out : v.out = w.out) (offers : v.offers = w.offers) (chan : ∀ d, v.site.chan d = g d) : v = w.setChans g := by
  have channels : v.site.channels = Vector.ofFn g := by
    refine Vector.ext fun i hi => ?_
    rw [Vector.getElem_ofFn]
    exact chan ⟨i, hi⟩
  obtain ⟨s, o, f⟩ := v
  rw [channels] at site
  cases out
  cases offers
  exact congrArg (fun x => (⟨x, w.out, w.offers⟩ : Work)) site

theorem Work.modChan_eq (w : Work) (c : Chan) (f : Channel → Channel) :
    w.modChan c f = w.setChans fun d => if d = c then f (w.site.chan d) else w.site.chan d := by
  refine Work.eq_setChans rfl rfl rfl fun d => ?_
  rw [Work.modChan_chan]
  split
  next is => rw [is]
  next => rfl

theorem Work.modChans_eq (w : Work) {cs : List Chan} (nodup : cs.Nodup) (f : Channel → Channel) :
    w.modChans cs f = w.setChans fun d => if d ∈ cs then f (w.site.chan d) else w.site.chan d := by
  obtain ⟨site, out, offers, chan⟩ := w.modChans_spec cs f nodup
  exact Work.eq_setChans site out offers chan

theorem Work.setChans_modChan (w : Work) (g : Chan → Channel) (c : Chan) (f : Channel → Channel) :
    (w.setChans g).modChan c f = w.setChans fun d => if d = c then f (g d) else g d := by
  rw [Work.modChan_eq, Work.setChans_setChans]
  exact congrArg w.setChans (funext fun d => by rw [Work.setChans_chan])

theorem Work.setChans_modChans (w : Work) (g : Chan → Channel) {cs : List Chan} (nodup : cs.Nodup) (f : Channel → Channel) :
    (w.setChans g).modChans cs f = w.setChans fun d => if d ∈ cs then f (g d) else g d := by
  rw [Work.modChans_eq _ nodup, Work.setChans_setChans]
  exact congrArg w.setChans (funext fun d => by rw [Work.setChans_chan])

theorem Work.setChans_members {w : Work} {g : Chan → Channel} (configs : ∀ d, (g d).config = (w.site.chan d).config)
    (c : Chan) : (w.setChans g).site.members c = w.site.members c :=
  Site.members_of_config (fun d => by rw [Work.setChans_chan]; exact configs d) c

/-- What the reports of some members add to the work. -/
def Work.saying (w : Work) (ms : List Chan) (cause : Chan → ChannelCause) : Work :=
  { w with out := w.out ++ ms.map fun m => w.site.channelReport m (cause m) }

theorem Work.reportPair_saying (w : Work) (c : Chan) (cause : ChannelCause) :
    w.reportPair c cause = w.saying (w.site.members c) fun m => if m = c then cause else .pairPartner := w.reportPair_eq c cause

theorem Work.reportMembers_saying (w : Work) (c : Chan) (cause : ChannelCause) :
    w.reportMembers c cause = w.saying (w.site.members c) fun _ => cause := w.reportMembers_eq c cause

theorem Work.reportChannel_saying (w : Work) (c : Chan) (cause : ChannelCause) :
    w.reportChannel c cause = w.saying [c] fun _ => cause := rfl

theorem foldl_saying (ms : List Chan) (cause : ChannelCause) (w : Work) :
    ms.foldl (fun v m => v.reportChannel m cause) w = w.saying ms fun _ => cause := foldl_reportChannel ms (fun _ => cause) w

theorem Work.saying_nil (w : Work) (cause : Chan → ChannelCause) : w.saying [] cause = w := by
  rw [Work.saying, List.map_nil, List.append_nil]

/-! #### Members -/

theorem Site.members_logical (s : Site) (c : Chan) : s.members (s.logical c) = s.members c := by
  unfold Site.logical
  split
  · rename_i pair
    have again : primaryOf (primaryOf c) = primaryOf c := by clear * -; revert c; decide
    have primary : s.paired (primaryOf c) = true := by rw [Site.paired, again]; exact pair
    rw [Site.members, Site.members, if_pos primary, if_pos pair, again]
  · rfl

theorem Site.logical_mem_members (s : Site) (c : Chan) : s.logical c ∈ s.members c := by
  rw [← s.members_logical c]; exact s.self_mem_members _

/-! #### Requests that change channels alone -/

/-- A request taken with reports of some members and no choice offered. -/
theorem request_channels {s : State} {h : Hdr} {n : Nat} (a : s.admits h n) (kind : Byte) (act : Link → Work → Taking)
    {g : Chan → Channel} {ms : List Chan} {cause : Chan → ChannelCause} {body : ReplyBody}
    (hx : act (s.link.arrived s.site) s.begun = ((s.begun.setChans g).saying ms cause).taken body) :
    ∃ t, request h kind (lengthIs h n) act s = .next t ∧ s.repliesTo t h kind .ok body
      ∧ t = s.answered h kind (({ site := t.site, out := ms.map fun m => t.site.channelReport m (cause m), offers := [] } :
        Work).taken body)
      ∧ t.site = { s.site.arrived with channels := t.site.channels } ∧ ∀ d, t.site.chan d = g d := by
  obtain ⟨t, run, site, places⟩ := request_settled a kind act hx rfl
  have answered := (request_outcome a kind act hx).symm.trans run
  have channels : t.site = (s.begun.setChans g).site := site
  refine ⟨t, run, places, ?_, by rw [channels]; rfl, fun d => by rw [channels, Work.setChans_chan]⟩
  rw [channels]
  exact (Host.Outcome.next.inj answered).symm

/-! #### BRING_UP, QUIET, SET_CHANNEL and TAKE_STATS -/

theorem Work.beginTraining_eq (w : Work) (c : Chan) : w.beginTraining c =
    (w.setChans fun d => if d ∈ w.site.members c then
        { w.site.chan d with
          previous := (w.site.chan d).state, state := .training, lampLit := false
          trainingTimer := some (w.site.count + 5), ready := false, quietTimer := none, pendingBringUp := false }
      else w.site.chan d).saying (w.site.members c) fun _ => .bringUp := by
  rw [Work.beginTraining, Work.modChans_eq _ (w.site.members_nodup c), Work.reportMembers_saying,
    Work.setChans_members fun d => by split <;> rfl]
  rfl

theorem Work.bringUp_of_ready {w : Work} {c : Chan}
    (ready : ∀ m ∈ w.site.members c, (w.site.chan m).state = .quiet → (w.site.chan m).quietTimer = none) :
    w.bringUp c = (w.beginTraining c).taken (.bringUp true) := by
  refine if_pos (List.all_eq_true.2 fun m hm => ?_)
  by_cases quiet : (w.site.chan m).state = .quiet
  · simp [ready m hm quiet]
  · simp [quiet]

theorem Work.bringUp_of_waiting {w : Work} {c : Chan}
    (waiting : ∃ m ∈ w.site.members c, (w.site.chan m).state = .quiet ∧ (w.site.chan m).quietTimer.isSome = true) :
    w.bringUp c = ((w.setChans fun d => if d ∈ w.site.members c then
        { w.site.chan d with
          lampLit := false, pendingBringUp := if d = c then true else (w.site.chan d).pendingBringUp }
      else w.site.chan d).saying ((w.site.members c).filter fun m => (w.site.chan m).lampLit) fun _ => .bringUp).taken
        (.bringUp false) := by
  have some_ : ¬((w.site.members c).all fun m => (w.site.chan m).state != .quiet || (w.site.chan m).quietTimer.isNone) =
      true := by
    obtain ⟨m, hm, quiet, runs⟩ := waiting
    rw [List.all_eq_true]
    intro all
    have := all m hm
    rw [quiet, Option.isNone_iff_eq_none.not.2 (Option.isSome_iff_ne_none.1 runs) |> Bool.eq_false_iff.2] at this
    exact absurd this (by decide)
  rw [Work.bringUp, if_neg some_, Work.modChans_eq _ (w.site.members_nodup c), Work.setChans_modChan]
  refine congrArg (fun v => Work.taken v (.bringUp false)) ((foldl_saying _ _ _).trans ?_)
  refine congrArg (fun g => (w.setChans g).saying _ fun _ => .bringUp) (funext fun d => ?_)
  by_cases is : d = c
  · subst is
    simp [w.site.self_mem_members]
  · simp only [is, if_false]

theorem takeBringUp_of_checks {w : Work} {b : Byte} {c : Chan} (chan : chanOf b = some c) (own : w.site.secondary c = false)
    (states : ∀ m ∈ w.site.members c,
      (w.site.chan m).state = .down ∨ (w.site.chan m).state = .fault ∨ (w.site.chan m).state = .quiet)
    (levers : ∀ m ∈ w.site.members c, (w.site.chan m).leverOpen = false)
    (supply : ¬(w.site.supply = .critical ∧ w.site.heldQuiet c = true)) : takeBringUp b w = w.bringUp c := by
  have bringable : ((w.site.members c).all fun m => (w.site.chan m).state.bringable) = true :=
    List.all_eq_true.2 fun m hm => by
      rcases states m hm with e | e | e <;> rw [e] <;> rfl
  have closed : ((w.site.members c).any fun m => (w.site.chan m).leverOpen) = false :=
    List.any_eq_false.2 fun m hm => by rw [levers m hm]; decide
  rw [takeBringUp, chan]
  dsimp only
  rw [own, if_neg (by decide), bringable, if_neg (by decide), closed, if_neg (by decide), if_neg supply]

/-- What a change of the members leaves of the pending bring-ups. -/
theorem Work.clearPending_eq (w : Work) (c : Chan) : w.clearPending c = w.setChans fun d =>
    if d ∈ w.site.members c then { w.site.chan d with pendingBringUp := false } else w.site.chan d :=
  w.modChans_eq (w.site.members_nodup c) _

theorem partnerOf_ne (c : Chan) : c ≠ partnerOf c := by revert c; decide

/-- A QUIET's reports go after what its departure reports (R36, R38). -/
theorem Work.goQuiet_out {w : Work} {c : Chan} {cause : ChannelCause} (up : (w.site.chan c).state = .up) :
    ∃ l, (w.goQuiet c cause).out = l ++ (w.site.members c).map fun m =>
      (w.goQuiet c cause).site.channelReport m (if m = c then cause else .pairPartner) := by
  have kept : Kept w.site ((w.abandon c).departUp c fun _ => .quiet).site :=
    Work.departUp_kept (Work.abandon_kept (.refl _) c) c _
  have members := Site.members_of_config kept.configs c
  rw [Work.goQuiet_of_up up, Work.reportPair_eq, Work.modChans_members, members]
  · exact ⟨_, rfl⟩
  · exact fun _ => rfl

/-- A pairing turned on or off: the configuration of one member, and the pending bring-ups of both (R27, R40). -/
theorem Work.setPairing_eq (w : Work) (c : Chan) (g : ChannelConfig) :
    ((w.modChans [c, partnerOf c] fun ch => { ch with pendingBringUp := false }).modChan c fun ch =>
      { ch with config := g }) = w.setChans fun d =>
        { w.site.chan d with
          config := if d = c then g else (w.site.chan d).config
          pendingBringUp := if d = c ∨ d = partnerOf c then false else (w.site.chan d).pendingBringUp } := by
  rw [Work.modChans_eq _ (by simpa using partnerOf_ne c), Work.setChans_modChan]
  refine congrArg w.setChans (funext fun d => ?_)
  by_cases is : d = c
  · subst is
    simp
  · by_cases partner : d = partnerOf c
    · subst partner
      simp [is]
    · simp [is, partner]

/-! #### CHANNEL_RESET -/

/-- What a departure from UP or the abandoning of a frame may touch of a channel, and what it leaves. -/
theorem Work.silence_chan (w : Work) (c d : Chan) : (w.silence c).site.chan d = if d ∈ w.site.members c then
    { w.site.chan d with activity := .idle, memberDone := false, onAir := none, window := none } else w.site.chan d := by
  rw [Work.silence, Work.modChans_eq _ (w.site.members_nodup c), Work.setChans_chan]

theorem Work.silence_eq (w : Work) (c : Chan) : w.silence c = w.setChans fun d => if d ∈ w.site.members c then
    { w.site.chan d with activity := .idle, memberDone := false, onAir := none, window := none } else w.site.chan d :=
  w.modChans_eq (w.site.members_nodup c) _

/-- An abandoned frame leaves the transmitters of the members IDLE, and no channel otherwise changed but in its queues. -/
theorem Work.abandon_thinned (w : Work) (c : Chan) : Thinned (w.silence c).site (w.abandon c).site := by
  unfold Work.abandon
  split
  · exact Work.miss_thinned _ _
  · exact .refl _

/-- Withdrawing the queues changes the list of owed items and the one channel (step 3 of R35). -/
theorem Work.withdrawQueues_eq (w : Work) (c : Chan) : w.withdrawQueues c =
    (w.modSite fun s => { s with
      pul := ((w.site.chan c).urgents.filterMap UrgentEntry.itemId).foldl
        (fun t id => Table.adjust t id fun it => { it with location := none }) s.pul }).modChan c fun ch =>
      { ch with alerts := [], urgents := [] } := by
  have items : ∀ (l : List Nat) (v : Work), l.foldl (fun (w : Work) id => w.modSite fun s =>
      { s with pul := s.pul.adjust id fun it => { it with location := none } }) v =
      v.modSite fun s => { s with pul := l.foldl (fun t id => Table.adjust t id fun it => { it with location := none }) s.pul } :=
    fun l => by
      induction l with
      | nil => exact fun _ => rfl
      | cons id l ih => exact fun v => ih _
  rw [Work.withdrawQueues, items]

/-- The transmitter falls IDLE with no frame and no window (R29, R35). -/
def Channel.silenced (ch : Channel) : Channel :=
  { ch with activity := .idle, memberDone := false, onAir := none, window := none }

/-- A member leaves UP for a state: its beacon stops and its runs are 0 (R35). -/
def Channel.departed (goes : ChannelState) (ch : Channel) : Channel :=
  { (ch.enter goes).clearRuns with beaconTimer := none, beaconDue := false }

theorem Work.abandon_members (w : Work) (c d : Chan) : (w.abandon c).site.members d = w.site.members d :=
  Site.members_of_config (Work.abandon_kept (.refl _) c).configs d

/-- After an abandoned frame the members' transmitters are IDLE and every channel is otherwise as it was but in its queues. -/
theorem Work.abandon_spec (w : Work) (c d : Chan) :
    ((w.abandon c).site.chan d).still =
      (if d ∈ w.site.members c then (w.site.chan d).silenced else w.site.chan d).still
    ∧ (d ∈ w.site.members c → ((w.abandon c).site.chan d).window = none ∧ ((w.abandon c).site.chan d).onAir = none) := by
  have thinned := w.abandon_thinned c
  have silence := w.silence_chan c d
  refine ⟨(thinned.still d).trans (congrArg Channel.still silence), fun member => ?_⟩
  rw [if_pos member] at silence
  exact ⟨thinned.shut d (by rw [silence]), thinned.silent d (by rw [silence])⟩

/-- The departure of a channel from UP with its frame abandoned, member by member (R29, R35). -/
theorem Work.abandon_departUp_spec (w : Work) (c : Chan) (goes : Chan → ChannelState) {d : Chan} (member : d ∈ w.site.members c) :
    let t := ((w.abandon c).departUp c goes).site
    (t.chan d).still = (if d = c then ((w.site.chan d).silenced.departed (goes d)).clearScheduler
      else (w.site.chan d).silenced.departed (goes d)).still
    ∧ (t.chan d).window = none ∧ (t.chan d).onAir = none := by
  intro t
  obtain ⟨still, quiet⟩ := w.abandon_spec c d
  obtain ⟨noWindow, noFrame⟩ := quiet member
  obtain ⟨left, shut, silent, -⟩ := (w.abandon c).departUp_spec c goes
  refine ⟨?_, shut d noWindow, silent d noFrame⟩
  have here : d ∈ (w.abandon c).site.members c := by rw [Work.abandon_members]; exact member
  have departed := left d
  rw [if_pos member] at still
  simp only [if_pos here] at departed
  refine departed.trans ?_
  split
  · have cleared := congrArg (fun ch : Channel => (ch.departed (goes d)).clearScheduler.still) still
    exact cleared
  · have kept := congrArg (fun ch : Channel => (ch.departed (goes d)).still) still
    exact kept

/-- What R46 does before the members are cleared: out of UP a departure, out of DRAINING the frame is abandoned. -/
def Work.resetDeparture (w : Work) (c : Chan) : Work :=
  match (w.site.chan c).state with
  | .up => (w.abandon c).departUp c fun _ => .down
  | .draining => w.abandon c
  | .absent | .down | .training | .quiet | .fault => w

theorem Work.resetDeparture_of_up {w : Work} {c : Chan} (up : (w.site.chan c).state = .up) :
    w.resetDeparture c = (w.abandon c).departUp c fun _ => .down := by
  rw [Work.resetDeparture, up]

theorem Work.resetDeparture_of_draining {w : Work} {c : Chan} (draining : (w.site.chan c).state = .draining) :
    w.resetDeparture c = w.abandon c := by
  rw [Work.resetDeparture, draining]

theorem Work.resetDeparture_of_other {w : Work} {c : Chan} (notUp : (w.site.chan c).state ≠ .up)
    (notDraining : (w.site.chan c).state ≠ .draining) : w.resetDeparture c = w := by
  rw [Work.resetDeparture]
  split
  · exact absurd ‹_› notUp
  · exact absurd ‹_› notDraining
  all_goals rfl

/-- What the clearing of a reset reads of a channel: where it stands, its lever, its lamp, its slot and its configuration. -/
def Channel.stand (ch : Channel) : ChannelState × ChannelState × Bool × Bool × Bool × ChannelConfig :=
  (ch.state, ch.previous, ch.leverOpen, ch.lampLit, ch.present, ch.config)

theorem Work.resetDeparture_stand (w : Work) (c : Chan) {d : Chan} (member : d ∈ w.site.members c) :
    ((w.resetDeparture c).site.chan d).stand = (if (w.site.chan c).state = .up then (w.site.chan d).enter .down
      else w.site.chan d).stand := by
  by_cases up : (w.site.chan c).state = .up
  · rw [Work.resetDeparture_of_up up, if_pos up]
    obtain ⟨still, -⟩ := w.abandon_departUp_spec c (fun _ => .down) member
    refine (congrArg Channel.stand still).trans ?_
    split <;> rfl
  · rw [if_neg up]
    by_cases draining : (w.site.chan c).state = .draining
    · rw [Work.resetDeparture_of_draining draining]
      obtain ⟨still, -⟩ := w.abandon_spec c d
      rw [if_pos member] at still
      have stand := congrArg Channel.stand still
      exact stand
    · rw [Work.resetDeparture_of_other up draining]

theorem Work.resetDeparture_silent {w : Work} {c : Chan}
    (active : (w.site.chan c).state = .up ∨ (w.site.chan c).state = .draining) {d : Chan} (member : d ∈ w.site.members c) :
    ((w.resetDeparture c).site.chan d).activity = .idle ∧ ((w.resetDeparture c).site.chan d).onAir = none
      ∧ ((w.resetDeparture c).site.chan d).window = none := by
  rcases active with up | draining
  · rw [Work.resetDeparture_of_up up]
    obtain ⟨still, window, onAir⟩ := w.abandon_departUp_spec c (fun _ => .down) member
    refine ⟨(congrArg Channel.activity still).trans ?_, onAir, window⟩
    split <;> rfl
  · rw [Work.resetDeparture_of_draining draining]
    obtain ⟨still, quiet⟩ := w.abandon_spec c d
    rw [if_pos member] at still
    obtain ⟨window, onAir⟩ := quiet member
    exact ⟨congrArg Channel.activity still, onAir, window⟩

/-- The clearing of a reset: the queues of the channel, and each present member (R46). -/
theorem Work.resetChannel_eq (w : Work) (c : Chan) :
    let v := w.resetDeparture c
    let present := (w.site.members c).filter fun m => (w.site.chan m).present
    w.resetChannel c = ((v.withdrawQueues c).setChans fun d =>
      if d ∈ present then ((v.withdrawQueues c).site.chan d).afterReset else (v.withdrawQueues c).site.chan d).saying present
        fun _ => .reset := by
  intro v present
  have nodup : present.Nodup := (w.site.members_nodup c).filter _
  rw [← Work.modChans_eq _ nodup]
  exact foldl_saying _ _ _

/-- What the clearing leaves of a member (steps 2 to 5 of R46). -/
theorem Channel.afterReset_fields (ch : Channel) :
    ch.afterReset.state = .down
      ∧ ch.afterReset.previous = (if ch.state = .down then ch.previous else ch.state)
      ∧ ch.afterReset.present = ch.present ∧ ch.afterReset.leverOpen = ch.leverOpen
      ∧ ch.afterReset.lampLit = (ch.lampLit || ch.leverOpen) ∧ ch.afterReset.config = ch.config
      ∧ ch.afterReset.activity = ch.activity ∧ ch.afterReset.onAir = ch.onAir ∧ ch.afterReset.window = ch.window
      ∧ ch.afterReset.alerts = ch.alerts ∧ ch.afterReset.urgents = ch.urgents := by
  by_cases down : ch.state = .down
  · simp only [Channel.afterReset, if_pos down]
    exact ⟨down, rfl, rfl, rfl, rfl, rfl, rfl, rfl, rfl, rfl, rfl⟩
  · simp only [Channel.afterReset, if_neg down]
    exact ⟨rfl, rfl, rfl, rfl, rfl, rfl, rfl, rfl, rfl, rfl, rfl⟩

/-- The channels after a reset, the queues of the channel emptied before the members are cleared (R46). -/
theorem Work.resetChannel_chan (w : Work) (c d : Chan) :
    let v := (w.resetDeparture c).site
    let emptied : Channel := if d = c then { v.chan d with alerts := [], urgents := [] } else v.chan d
    (w.resetChannel c).site.chan d =
      if d ∈ (w.site.members c).filter (fun m => (w.site.chan m).present) then emptied.afterReset else emptied := by
  intro v emptied
  have withdrawn : ((w.resetDeparture c).withdrawQueues c).site.chan d = emptied := by
    obtain ⟨chan, -⟩ := (w.resetDeparture c).withdrawQueues_chan c d
    rw [chan]
    by_cases is : d = c
    · subst is; rfl
    · rw [if_neg is]; exact (if_neg is).symm
  rw [Work.resetChannel_eq]
  refine (Work.setChans_chan _ _ d).trans ?_
  rw [withdrawn]

theorem Work.resetChannel_tables (w : Work) (c : Chan) :
    (w.resetChannel c).site.roster = (w.resetDeparture c).site.roster
      ∧ (w.resetChannel c).site.orders = (w.resetDeparture c).site.orders
      ∧ (w.resetChannel c).site.permits = (w.resetDeparture c).site.permits := by
  rw [Work.resetChannel_eq]
  simp only [Work.withdrawQueues_eq]
  exact ⟨rfl, rfl, rfl⟩

theorem Work.resetChannel_out (w : Work) (c : Chan) : (w.resetChannel c).out = (w.resetDeparture c).out ++
    ((w.site.members c).filter fun m => (w.site.chan m).present).map fun m =>
      (w.resetChannel c).site.channelReport m .reset := by
  rw [Work.resetChannel_eq]
  refine congrArg (· ++ _) ?_
  show ((w.resetDeparture c).withdrawQueues c).out = _
  rw [Work.withdrawQueues_eq]
  rfl

/-- A member cleared by a reset, told by where it stood before the clearing. -/
theorem Channel.afterReset_of_stand {x ch : Channel} (h : x.stand = ch.stand) :
    x.afterReset.state = .down ∧ x.afterReset.previous = (if ch.state = .down then ch.previous else ch.state)
      ∧ x.afterReset.present = ch.present ∧ x.afterReset.leverOpen = ch.leverOpen
      ∧ x.afterReset.lampLit = (ch.lampLit || ch.leverOpen) ∧ x.afterReset.config = ch.config := by
  simp only [Channel.stand, Prod.mk.injEq] at h
  obtain ⟨state, previous, lever, lamp, present, config⟩ := h
  obtain ⟨down, before, slot, lever', lamp', config', -⟩ := x.afterReset_fields
  exact ⟨down, by rw [before, state, previous], slot.trans present, lever'.trans lever, by rw [lamp', lamp, lever],
    config'.trans config⟩

/-- Settles O42. -/
theorem channelRequestsTaken : Obligations.ChannelRequestsTaken := by
  intro h s b c named said reports
  have chan := chanOf_of_eq named
  refine ⟨fun a own states levers supply => ?_, fun a own => ⟨fun up => ?_, fun quiet => ?_⟩, fun a some_ => ?_,
    fun f g a valid => ⟨fun same pairing => ?_, fun other pairing here there => ?_⟩, fun k m a valid => ?_⟩
  · have run : takeBringUp b s.begun = s.begun.bringUp c :=
      takeBringUp_of_checks (w := s.begun) chan own states levers supply
    refine ⟨fun ready => ?_, fun waiting => ?_⟩
    · refine request_channels a 0x20 (fun _ w => takeBringUp b w) (run.trans ?_)
      rw [Work.bringUp_of_ready (w := s.begun) ready, Work.beginTraining_eq]
      rfl
    · exact request_channels a 0x20 (fun _ w => takeBringUp b w) (run.trans (Work.bringUp_of_waiting (w := s.begun) waiting))
  · intro w
    refine ⟨request_outcome a 0x21 (fun _ w => takeQuiet b w) ?_, ?_⟩
    · have here : (s.begun.site.chan c).state = .up := up
      rw [takeQuiet, chan]
      dsimp only
      rw [show s.begun.site.secondary c = false from own, if_neg (by decide), here]
    · exact Work.goQuiet_out (w := s.begun) up
  · refine request_channels a 0x21 (fun _ w => takeQuiet b w) (ms := []) (cause := fun _ => .quietRequest) ?_
    have here : (s.begun.site.chan c).state = .quiet := quiet
    rw [takeQuiet, chan]
    dsimp only
    rw [show s.begun.site.secondary c = false from own, if_neg (by decide), here]
    dsimp only
    rw [Work.clearPending_eq, Work.saying_nil]
    rfl
  · intro lc u
    have members : s.begun.site.members lc = s.site.members c := s.site.members_logical c
    have filtered : ∀ {m}, m ∈ s.site.members c → (s.site.chan m).present = true →
        m ∈ (s.begun.site.members lc).filter fun m => (s.begun.site.chan m).present := fun hm present => by
      rw [members]; exact List.mem_filter.2 ⟨hm, present⟩
    obtain ⟨roster, orders, permits⟩ := s.begun.resetChannel_tables lc
    have out := s.begun.resetChannel_out lc
    rw [members] at out
    have chans := s.begun.resetChannel_chan lc
    refine ⟨request_outcome a 0x22 (fun _ w => takeChannelReset b w) ?_, ⟨⟨_, out⟩, fun notUp notDraining => ?_⟩, ?_, ?_,
      fun m hm present => ?_, fun active m hm => ?_, fun up i => ?_, fun notUp notDraining => ?_⟩
    · have standing : ¬((s.begun.site.members c).all fun m => (s.begun.site.chan m).state == .absent) = true := by
        obtain ⟨m, hm, stands⟩ := some_
        rw [List.all_eq_true]
        exact fun all => stands (beq_iff_eq.1 (all m hm))
      rw [takeChannelReset, chan]
      dsimp only
      rw [if_neg standing]
      rfl
    · rw [out, Work.resetDeparture_of_other (w := s.begun) notUp notDraining]
      rfl
    · rw [chans, if_pos rfl]
      split
      · obtain ⟨-, -, -, -, -, -, -, -, -, alerts, -⟩ := Channel.afterReset_fields _
        exact alerts
      · rfl
    · rw [chans, if_pos rfl]
      split
      · obtain ⟨-, -, -, -, -, -, -, -, -, -, urgents⟩ := Channel.afterReset_fields _
        exact urgents
      · rfl
    · have stand := s.begun.resetDeparture_stand lc (d := m) (members.symm ▸ hm)
      rw [chans, if_pos (filtered hm present)]
      generalize emptied : (if m = lc then _ else _ : Channel) = x
      have same : x.stand = (if (s.site.chan lc).state = .up then (s.site.chan m).enter .down else s.site.chan m).stand := by
        rw [← emptied]
        refine Eq.trans ?_ stand
        split <;> rfl
      obtain ⟨state, previous, slot, lever, lamp, config⟩ := Channel.afterReset_of_stand same
      refine ⟨state, previous.trans ?_, rfl, rfl, rfl, rfl, rfl, rfl, rfl, rfl, rfl, rfl, rfl, rfl, rfl, rfl, rfl, rfl, rfl,
        slot.trans ?_, lever.trans ?_, lamp.trans ?_, config.trans ?_⟩
      · by_cases up : (s.site.chan lc).state = .up
        · rw [if_pos up]
          exact (if_pos rfl).trans (if_neg fun both => both.2 up).symm
        · rw [if_neg up]
          exact if_congr (and_iff_left up).symm rfl rfl
      · split <;> exact present
      · split <;> rfl
      · split <;> rfl
      · split <;> rfl
    · have member : m ∈ s.begun.site.members lc := members.symm ▸ hm
      obtain ⟨idle, onAir, window⟩ := Work.resetDeparture_silent (w := s.begun) active member
      rw [chans]
      generalize emptied : (if m = lc then _ else _ : Channel) = x
      have same : x.activity = .idle ∧ x.onAir = none ∧ x.window = none := by
        rw [← emptied]
        split <;> exact ⟨idle, onAir, window⟩
      split
      · obtain ⟨-, -, -, -, -, -, activity', onAir', window', -⟩ := x.afterReset_fields
        rw [activity', onAir', window']
        exact same
      · exact same
    · have here : (s.begun.site.chan lc).state = .up := up
      obtain ⟨-, -, -, -, -, -, gone⟩ := (s.begun.abandon lc).departUp_spec lc fun _ => .down
      rw [Site.affiliatedOn, roster, Work.resetDeparture_of_up here]
      exact gone i
    · have same := Work.resetDeparture_of_other (w := s.begun) notUp notDraining
      rw [same] at roster orders permits chans
      refine ⟨roster, orders, permits, fun d hd => ?_⟩
      have other : d ≠ lc := fun e => hd (e ▸ s.site.logical_mem_members c)
      rw [chans, if_neg fun member => hd (members ▸ (List.mem_filter.1 member).1), if_neg other]
      rfl
  · refine request_outcome a 0x23 (fun _ w => takeSetChannel b f w) ?_
    have sameHere : ¬g.pairing ≠ (s.begun.site.chan c).config.pairing := not_not.2 same
    rw [takeSetChannel, chan, valid]
    dsimp only
    rw [if_neg fun both => both.2 (pairing both.1), if_neg sameHere]
    rfl
  · have otherHere : g.pairing ≠ (s.begun.site.chan c).config.pairing := other
    have pairable : (s.begun.site.chan c).state.pairable = true ∧ (s.begun.site.chan (partnerOf c)).state.pairable = true :=
      ⟨here, there⟩
    have taken : takeSetChannel b f s.begun = ((s.begun.setChans fun d =>
        { s.site.chan d with
          config := if d = c then g else (s.site.chan d).config
          pendingBringUp := if d = c ∨ d = partnerOf c then false else (s.site.chan d).pendingBringUp }).saying []
          fun _ => .bringUp).taken .empty := by
      rw [takeSetChannel, chan, valid]
      dsimp only
      rw [if_neg fun both => both.2 (pairing both.1), if_pos otherHere, if_pos pairable, Work.setPairing_eq, Work.saying_nil]
      rfl
    obtain ⟨t, run, replies, -, site, chans⟩ := request_channels a 0x23 (fun _ w => takeSetChannel b f w) taken
    exact ⟨t, run, replies, site, chans⟩
  · have one : statsChannels b = some [c] := by
      have small : b ≠ 0xFF := fun e => by
        have := c.isLt
        rw [e] at named
        exact absurd (show (255 : Nat) = c.val from named) (by omega)
      rw [statsChannels, if_neg small, chan]; rfl
    have taken : ∀ (b : Byte) (cs : List Chan), statsChannels b = some cs → cs.Nodup → takeTakeStats b k s.begun =
        ((s.begun.setChans fun d => if m = true ∧ d ∈ cs then { s.site.chan d with stats := .zero } else s.site.chan d).saying
          [] fun _ => .bringUp).taken (.stats (cs.map fun d => (d, (s.site.chan d).stats))) := fun b cs which nodup => by
      rw [takeTakeStats, which, valid, Work.saying_nil]
      dsimp only
      refine congrArg (fun v => Work.taken v _) ?_
      cases m with
      | true => exact (Work.modChans_eq _ nodup _).trans (congrArg _ (funext fun d => by simp; rfl))
      | false => exact Work.eq_setChans rfl rfl rfl fun d => by simp; rfl
    obtain ⟨t, run, replies, -, site, chans⟩ := request_channels a 0x24 (fun _ w => takeTakeStats b k w)
      (taken b [c] one (by simp))
    obtain ⟨u, runAll, repliesAll, -, siteAll, chansAll⟩ := request_channels a 0x24 (fun _ w => takeTakeStats 0xFF k w)
      (taken 0xFF [0, 1, 2, 3] rfl (by decide))
    refine ⟨⟨t, run, replies, site, fun d => ?_⟩, u, runAll, repliesAll, siteAll, fun d => ?_⟩
    · rw [chans]
      exact if_congr (and_congr_right fun _ => List.mem_singleton) rfl rfl
    · rw [chansAll]
      exact if_congr (and_iff_left (by clear * -; revert d; decide)) rfl rfl

/-! #### A QUIET out of UP -/

/-- A member of a channel that has gone from UP to QUIET (R35, R38). -/
def Channel.quieted (now : Nat) (ch : Channel) : Channel :=
  { ch with trainingTimer := none, quietTimer := some (now + 2), pendingBringUp := false }

theorem Work.goQuiet_chan {w : Work} {c : Chan} {cause : ChannelCause} (up : (w.site.chan c).state = .up) (d : Chan) :
    let v := (w.abandon c).departUp c fun _ => .quiet
    (w.goQuiet c cause).site.chan d =
      (if d ∈ w.site.members c then (v.site.chan d).quieted w.site.count else v.site.chan d)
    ∧ (w.goQuiet c cause).site.roster = v.site.roster := by
  intro v
  rw [Work.goQuiet_of_up up, Work.reportPair_eq, Work.modChans_eq _ (w.site.members_nodup c)]
  exact ⟨Work.setChans_chan _ _ d, rfl⟩

theorem Work.goQuiet_config {w : Work} {c : Chan} {cause : ChannelCause} (up : (w.site.chan c).state = .up) (d : Chan) :
    ((w.goQuiet c cause).site.chan d).config = (w.site.chan d).config := by
  have kept : Kept w.site ((w.abandon c).departUp c fun _ => .quiet).site :=
    Work.departUp_kept (Work.abandon_kept (.refl _) c) c _
  obtain ⟨chan, -⟩ := Work.goQuiet_chan (cause := cause) up d
  rw [chan, ← kept.configs d]
  split <;> rfl

/-- A field that traffic cannot touch, and the scheduler's clearing does not, after a departure from UP (R29, R35). -/
theorem Work.abandon_departUp_field (w : Work) (c : Chan) (goes : Chan → ChannelState) {d : Chan}
    (member : d ∈ w.site.members c) {α : Type} (field : Channel → α) (still : ∀ ch, field ch.still = field ch)
    (scheduler : ∀ ch, field ch.clearScheduler = field ch) :
    field (((w.abandon c).departUp c goes).site.chan d) = field ((w.site.chan d).silenced.departed (goes d)) := by
  obtain ⟨same, -⟩ := w.abandon_departUp_spec c goes member
  have fields := congrArg field same
  rw [still, still] at fields
  rw [fields]
  split
  · exact scheduler _
  · rfl

/-- A field of the channel's scheduler record after a departure from UP (R35). -/
theorem Work.abandon_departUp_scheduler (w : Work) (c : Chan) (goes : Chan → ChannelState) {α : Type} (field : Channel → α)
    (still : ∀ ch, field ch.still = field ch) : field (((w.abandon c).departUp c goes).site.chan c) =
      field ((w.site.chan c).silenced.departed (goes c)).clearScheduler := by
  obtain ⟨same, -⟩ := w.abandon_departUp_spec c goes (w.site.self_mem_members c)
  rw [if_pos rfl] at same
  have fields := congrArg field same
  rwa [still, still] at fields

/-- A member of a channel that has departed from UP with its frame abandoned (R29, R35). -/
theorem Work.abandon_departUp_member (w : Work) (c : Chan) (goes : Chan → ChannelState) {d : Chan}
    (member : d ∈ w.site.members c) {x : Channel} (stands : ((w.abandon c).departUp c goes).site.chan d = x) :
    x.state = goes d ∧ x.previous = (w.site.chan d).state ∧ x.beaconTimer = none ∧ x.beaconDue = false
      ∧ x.sendFailureRun = 0 ∧ x.badWindowRun = 0 ∧ x.activity = .idle ∧ x.onAir = none ∧ x.window = none
      ∧ x.present = (w.site.chan d).present ∧ x.leverOpen = (w.site.chan d).leverOpen
      ∧ x.lampLit = (w.site.chan d).lampLit ∧ x.pendingBringUp = (w.site.chan d).pendingBringUp
      ∧ x.trainingTimer = (w.site.chan d).trainingTimer ∧ x.quietTimer = (w.site.chan d).quietTimer
      ∧ x.ready = (w.site.chan d).ready := by
  obtain ⟨-, window, onAir⟩ := w.abandon_departUp_spec c goes member
  have field := fun {α : Type} (g : Channel → α) => w.abandon_departUp_field c goes member g
  rw [stands] at window onAir
  simp only [stands] at field
  exact ⟨field Channel.state (fun _ => rfl) fun _ => rfl, field Channel.previous (fun _ => rfl) fun _ => rfl,
    field Channel.beaconTimer (fun _ => rfl) fun _ => rfl, field Channel.beaconDue (fun _ => rfl) fun _ => rfl,
    field Channel.sendFailureRun (fun _ => rfl) fun _ => rfl, field Channel.badWindowRun (fun _ => rfl) fun _ => rfl,
    field Channel.activity (fun _ => rfl) fun _ => rfl, onAir, window,
    field Channel.present (fun _ => rfl) fun _ => rfl, field Channel.leverOpen (fun _ => rfl) fun _ => rfl,
    field Channel.lampLit (fun _ => rfl) fun _ => rfl, field Channel.pendingBringUp (fun _ => rfl) fun _ => rfl,
    field Channel.trainingTimer (fun _ => rfl) fun _ => rfl, field Channel.quietTimer (fun _ => rfl) fun _ => rfl,
    field Channel.ready (fun _ => rfl) fun _ => rfl⟩

/-- The queues, the access set and the scheduler record of a channel that has departed from UP (R35). -/
theorem Work.abandon_departUp_cleared (w : Work) (c : Chan) (goes : Chan → ChannelState) {x : Channel}
    (stands : ((w.abandon c).departUp c goes).site.chan c = x) :
    x.alerts = [] ∧ x.urgents = [] ∧ x.accessSet = [] ∧ x.urgentDeficit = 0 ∧ x.routineDeficit = 0 ∧ x.turn = .routine
      ∧ x.quantumAdded = false := by
  obtain ⟨-, -, -, alerts, urgents, access, -⟩ := (w.abandon c).departUp_spec c goes
  have field := fun {α : Type} (g : Channel → α) => w.abandon_departUp_scheduler c goes g
  rw [stands] at alerts urgents access
  simp only [stands] at field
  exact ⟨alerts, urgents, access, field Channel.urgentDeficit fun _ => rfl, field Channel.routineDeficit fun _ => rfl,
    field Channel.turn fun _ => rfl, field Channel.quantumAdded fun _ => rfl⟩

/-- Settles O44: the departure's own facts, which the choices at the end of the step do not touch. -/
theorem quietDepartsFromUp : Obligations.QuietDepartsFromUp := by
  intro h s t b c a named own up ran
  have here : (s.begun.site.chan c).state = .up := up
  have run : exec (.quiet h b) s = .next (s.answered h 0x21 ((s.begun.goQuiet c .quietRequest).taken .empty)) := by
    refine request_outcome a 0x21 (fun _ w => takeQuiet b w) ?_
    rw [takeQuiet, chanOf_of_eq named]
    dsimp only
    rw [show s.begun.site.secondary c = false from own, if_neg (by decide), here]
  have answered : s.answered h 0x21 ((s.begun.goQuiet c .quietRequest).taken .empty) = t :=
    Host.Outcome.next.inj (run.symm.trans ran)
  have site : t.site = (s.begun.goQuiet c .quietRequest).serve.site := by
    rw [← answered]
    exact State.answered_site s h 0x21 _
  obtain ⟨-, -, -, -, -, -, gone⟩ := (s.begun.abandon c).departUp_spec c fun _ => .quiet
  have logical : ∀ {m}, m ∈ s.site.members c → (s.begun.goQuiet c .quietRequest).site.logical m = c := fun hm =>
    (Site.logical_of_config (Work.goQuiet_config here) _).trans (Site.logical_of_mem own hm).1
  have chans : ∀ {m}, m ∈ s.site.members c → (s.begun.goQuiet c .quietRequest).site.chan m =
      (((s.begun.abandon c).departUp c fun _ => .quiet).site.chan m).quieted s.site.count := fun {m} hm =>
    (Work.goQuiet_chan here m).1.trans (if_pos hm)
  obtain ⟨elsewhere, faces⟩ := (s.begun.goQuiet c .quietRequest).serve_elsewhere
  have self := s.site.self_mem_members c
  have quietState : ((s.begun.goQuiet c .quietRequest).site.chan c).state = .quiet := by
    rw [chans self]
    obtain ⟨state, -⟩ := s.begun.abandon_departUp_member c (fun _ => .quiet) (d := c) self rfl
    exact state
  have standing : ∀ {m}, m ∈ s.site.members c → (s.begun.goQuiet c .quietRequest).serve.site.chan m =
      (((s.begun.abandon c).departUp c fun _ => .quiet).site.chan m).quieted s.site.count := fun {m} hm => by
    refine (elsewhere m ?_).trans (chans hm)
    rw [logical hm, quietState]
    decide
  have replied : s.repliesTo t h 0x21 .ok .empty := by
    rw [← answered]
    exact State.answered_places _ _ _ _
  rw [← site] at standing faces
  have member : ∀ {m} (hm : m ∈ s.site.members c) {x}, _ → _ := fun {m} hm {x} =>
    s.begun.abandon_departUp_member c (fun _ => .quiet) (d := m) hm (x := x)
  have cleared : ∀ {x}, _ → _ := fun {x} => s.begun.abandon_departUp_cleared c (fun _ => .quiet) (x := x)
  have affiliated : ∀ i, t.site.affiliatedOn i c = false := fun i => by
    rw [Site.affiliatedOn_face, faces, ← Site.affiliatedOn_face, Site.affiliatedOn,
      (Work.goQuiet_chan (cause := .quietRequest) here c).2]
    exact gone i
  generalize ((s.begun.abandon c).departUp c fun _ => .quiet).site = v at standing member cleared
  have closed : t.site.chan c = (v.chan c).quieted s.site.count := standing self
  obtain ⟨alerts, urgents, access, urgent, routine, turn, -⟩ := cleared rfl
  refine ⟨replied, fun m hm => ?_, ?_, ?_, ?_, ?_, ?_, ?_, affiliated⟩
  · obtain ⟨state, previous, beacon, due, sends, windows, activity, onAir, window, -⟩ := member hm rfl
    rw [standing hm]
    exact ⟨state, previous, rfl, rfl, rfl, beacon, due, sends, windows, activity, onAir, window⟩
  all_goals rw [closed]
  exacts [alerts, urgents, access, urgent, routine, turn]

end Sys2Proof.Machine

/-! ### The events of the channels (R28 to R38, R41, R60) -/

namespace Sys2Proof.Machine

/-! #### Withdrawing the queues, and the departure -/

theorem foldl_adjust_look (l : List Nat) (t : Table PulItem) (k : Nat) :
    Table.look (l.foldl (fun t id => Table.adjust t id fun it => { it with location := none }) t) k =
      (Table.look t k).map fun it => if k ∈ l then { it with location := none } else it := by
  have found := Table.look_foldl_adjust (l.map fun id => (id, ())) (f := fun it : PulItem => { it with location := none })
    (fun _ => rfl) t k
  rw [List.foldl_map, List.map_map] at found
  refine found.trans (congrArg (Option.map · _) (funext fun it => if_congr ?_ rfl rfl))
  show k ∈ l.map id ↔ _
  rw [List.map_id]

theorem UrgentEntry.mem_itemIds (l : List UrgentEntry) (id : Nat) :
    id ∈ l.filterMap UrgentEntry.itemId ↔ (l.any fun e => e.holds id) = true := by
  rw [List.mem_filterMap, List.any_eq_true]
  refine exists_congr fun e => and_congr_right fun _ => ?_
  rw [UrgentEntry.holds_iff]
  obtain ⟨frame, status, cancelled⟩ := e
  cases frame with
  | item n a x => simp [UrgentEntry.itemId, eq_comm]
  | reply r => simp [UrgentEntry.itemId]

/-- Withdrawing the queues of a channel: its items return to the list, and the queues are empty (step 3 of R35). -/
theorem Work.withdrawQueues_spec (w : Work) (c : Chan) :
    let t := w.withdrawQueues c
    t.out = w.out ∧ t.offers = w.offers
    ∧ t.site = { w.site with pul := t.site.pul, channels := t.site.channels }
    ∧ (∀ id, Table.look t.site.pul id = (Table.look w.site.pul id).map fun it =>
        if ((w.site.chan c).urgents.any fun e => e.holds id) = true then { it with location := none } else it)
    ∧ ∀ d, t.site.chan d = if d = c then { w.site.chan c with alerts := [], urgents := [] } else w.site.chan d := by
  intro t
  have eq : t = _ := w.withdrawQueues_eq c
  refine ⟨by rw [eq]; rfl, by rw [eq]; rfl, by rw [eq]; rfl, fun id => ?_, fun d => (w.withdrawQueues_chan c d).1⟩
  rw [eq]
  refine (foldl_adjust_look _ _ _).trans (congrArg (Option.map · _) (funext fun it => if_congr ?_ rfl rfl))
  exact UrgentEntry.mem_itemIds _ _

theorem Work.departUp_eq (w : Work) (c : Chan) (goes : Chan → ChannelState) :
    let ms := w.site.members c
    let left := ms.foldl (fun u m => u.modChan m fun x =>
      { x with previous := x.state, state := goes m, beaconTimer := none, beaconDue := false }) w
    let gone := (w.site.roster.filter fun e => e.2.state == .affiliated && e.2.channel == some c).foldl
      (fun u e => u.absent e.1 .channelDown) left
    w.departUp c goes = ((gone.withdrawQueues c).modChan c fun x => { x with
      urgentDeficit := 0, routineDeficit := 0, turn := .routine, quantumAdded := false, accessSet := [] }).modChans ms
      fun x => { x with sendFailureRun := 0, badWindowRun := 0 } := by
  intro ms left gone
  have roster : ∀ (l : List Chan) (v : Work), (l.foldl (fun (u : Work) m => u.modChan m fun x =>
      { x with previous := x.state, state := goes m, beaconTimer := none, beaconDue := false }) v).site.roster =
        v.site.roster := fun l => by
    induction l with
    | nil => exact fun _ => rfl
    | cons m l ih => exact fun v => ih _
  have terminals : left.site.terminalsOn c =
      (w.site.roster.filter fun e => e.2.state == .affiliated && e.2.channel == some c).map Prod.fst := by
    rw [Site.terminalsOn, roster ms w]
    rfl
  have absences : (left.site.terminalsOn c).foldl (fun u i => u.absent i .channelDown) left = gone := by
    rw [terminals, List.foldl_map]
  show (((((left.site.terminalsOn c).foldl (fun u i => u.absent i .channelDown) left).withdrawQueues c).modChan c
    Channel.clearScheduler).modChans ms Channel.clearRuns) = _
  rw [absences]
  rfl

theorem Work.abandon_of_awaited {w : Work} {c : Chan} {i : Nat} (awaited : (w.site.chan c).awaited = some i) :
    w.abandon c = (w.silence c).miss i := by
  rw [Work.abandon, awaited]

theorem Work.abandon_of_none {w : Work} {c : Chan} (free : (w.site.chan c).awaited = none) : w.abandon c = w.silence c := by
  rw [Work.abandon, free]

theorem Channel.awaited_of_onAir {ch : Channel} {f : AirFrame} (onAir : ch.onAir = some f) : ch.awaited = f.acked := by
  rw [Channel.awaited, onAir]

theorem Channel.awaited_of_silent {ch : Channel} (onAir : ch.onAir = none) : ch.awaited = ch.window.bind Window.acked := by
  rw [Channel.awaited, onAir]

/-! #### Events that change channels alone -/

/-- An event with reports of some members and no choice offered. -/
theorem event_channels {s : State} (powered : s.powered = true) {f : Work → Work} {g : Chan → Channel} {ms : List Chan}
    {cause : Chan → ChannelCause} (h : f s.work = (s.work.setChans g).saying ms cause) :
    ∃ t, event f s = .next t
      ∧ t = { s with
        site := t.site
        link := (s.link.offerAll t.site (ms.map fun m => t.site.channelReport m (cause m))).chooseFrame }
      ∧ t.site = { s.site with channels := t.site.channels } ∧ ∀ d, t.site.chan d = g d := by
  have site : (s.after ((s.work.setChans g).saying ms cause)).site = (s.work.setChans g).site :=
    State.after_site_of_no_offers _ rfl
  refine ⟨_, event_outcome powered h, ?_, by rw [site]; rfl, fun d => by rw [site, Work.setChans_chan]⟩
  rw [site, State.after, State.conclude, Work.serve_of_no_offers _ rfl]
  rfl

/-! #### Modules -/

/-- The pending bring-ups of a logical channel cleared, and one member changed. -/
theorem Work.clearPending_modChan (w : Work) (c : Chan) (f : Channel → Channel) : (w.clearPending c).modChan c f =
    w.setChans fun d => if d = c then f { w.site.chan d with pendingBringUp := false } else
      { w.site.chan d with
        pendingBringUp := if d ∈ w.site.members c then false else (w.site.chan d).pendingBringUp } := by
  rw [Work.clearPending_eq, Work.setChans_modChan]
  refine congrArg w.setChans (funext fun d => ?_)
  by_cases is : d = c
  · subst is
    simp only [if_true, w.site.self_mem_members]
  · rw [if_neg is, if_neg is]
    split <;> rfl

theorem Work.insertModule_eq {w : Work} {c : Chan} (state : (w.site.chan c).state = .absent)
    (empty : (w.site.chan c).present = false) : w.insertModule c = (w.setChans fun d => if d = c then
        { w.site.chan d with
          present := true, previous := .absent, state := .down
          lampLit := (w.site.chan d).lampLit || (w.site.chan d).leverOpen, sendFailureRun := 0, badWindowRun := 0 }
      else w.site.chan d).saying [c] fun _ => .inserted := by
  rw [Work.insertModule, if_pos ⟨state, by rw [empty]; rfl⟩, Work.reportChannel_saying, Work.modChan_eq]
  refine congrArg (fun g => (w.setChans g).saying [c] fun _ => .inserted) (funext fun d => ?_)
  by_cases is : d = c
  · subst is
    rw [if_pos rfl, if_pos rfl, ← state]
    rfl
  · rw [if_neg is, if_neg is]

/-- The record of a removed module stands as the module stood. -/
theorem Work.removed_state (w : Work) (c : Chan) :
    (((w.clearPending c).modChan c Channel.removed).site.chan c).state = (w.site.chan c).state := by
  rw [Work.clearPending_modChan, Work.setChans_chan, if_pos rfl]
  rfl

theorem Work.removeModule_of_idle {w : Work} {c : Chan} (present : (w.site.chan c).present = true)
    (state : (w.site.chan c).state = .down ∨ (w.site.chan c).state = .quiet ∨ (w.site.chan c).state = .fault) :
    w.removeModule c = (w.setChans fun d => if d = c then (w.site.chan d).removed.enter .absent else
        { w.site.chan d with
          pendingBringUp := if d ∈ w.site.members c then false else (w.site.chan d).pendingBringUp }).saying [c]
        fun _ => .removed := by
  have run : w.removeModule c = (((w.clearPending c).modChan c Channel.removed).modChan c fun ch =>
      ch.enter .absent).reportChannel c .removed := by
    rw [Work.removeModule, if_pos present]
    dsimp only
    rcases state with e | e | e <;> simp only [Work.removed_state, e]
  rw [run, Work.clearPending_modChan, Work.setChans_modChan, Work.reportChannel_saying]
  refine congrArg (fun g => (w.setChans g).saying [c] fun _ => .removed) (funext fun d => ?_)
  by_cases is : d = c
  · simp only [is, if_true]
    rfl
  · simp only [is, if_false]

theorem Work.removeModule_of_up {w : Work} {c : Chan} (present : (w.site.chan c).present = true)
    (state : (w.site.chan c).state = .up) : w.removeModule c =
      (((((w.clearPending c).modChan c Channel.removed).abandon (w.site.logical c)).departUp (w.site.logical c)
        fun m => if m = c then .absent else .down).modChans ((w.site.members c).filter (· != c))
        Channel.lampAtDown).reportPair c .removed := by
  rw [Work.removeModule, if_pos present]
  dsimp only
  simp only [Work.removed_state, state]

theorem Work.removeModule_of_busy {w : Work} {c : Chan} (present : (w.site.chan c).present = true)
    (state : (w.site.chan c).state = .training ∨ (w.site.chan c).state = .draining) : w.removeModule c =
      (((((w.clearPending c).modChan c Channel.removed).abandon (w.site.logical c)).modChan c
        fun x => { x with previous := x.state, state := .absent }).modChans ((w.site.members c).filter (· != c))
        (fun x => { x with
          previous := x.state, state := .down, lampLit := x.lampLit || x.leverOpen, trainingTimer := none })).reportPair c
        .removed := by
  rw [Work.removeModule, if_pos present]
  dsimp only
  rcases state with e | e <;> simp only [Work.removed_state, e] <;> rfl

/-! #### Levers -/

theorem Work.openLever_state (w : Work) (c : Chan) :
    (((w.clearPending c).modChan c fun ch => { ch with leverOpen := true }).site.chan c).state = (w.site.chan c).state := by
  rw [Work.clearPending_modChan, Work.setChans_chan, if_pos rfl]

/-- A lever that opens, by the state its channel stands in (R30). -/
theorem Work.openLever_eq {w : Work} {c : Chan} (closed : (w.site.chan c).leverOpen = false) :
    let v := (w.clearPending c).modChan c fun ch => { ch with leverOpen := true }
    ((w.site.chan c).state = .up → w.openLever c = v.startDraining c)
    ∧ ((w.site.chan c).state = .training → w.openLever c =
      ((v.modChans (v.site.members c) Channel.partnerDown).modChan c fun ch => { ch with lampLit := true }).reportPair c .lever)
    ∧ ((w.site.chan c).state = .quiet ∨ (w.site.chan c).state = .fault → w.openLever c =
      (v.modChan c fun ch => { ch.enter .down with quietTimer := none, lampLit := true }).reportChannel c .lever)
    ∧ ((w.site.chan c).state = .down → w.openLever c = if (v.site.chan c).lampLit = true then v
      else (v.modChan c fun ch => { ch with lampLit := true }).reportChannel c .lever)
    ∧ ((w.site.chan c).state = .draining ∨ (w.site.chan c).state = .absent → w.openLever c = v) := by
  intro v
  have shut : ¬(w.site.chan c).leverOpen = true := by rw [closed]; decide
  refine ⟨fun e => ?_, fun e => ?_, fun e => ?_, fun e => ?_, fun e => ?_⟩
  all_goals rw [Work.openLever, if_neg shut]; dsimp only
  · simp only [Work.openLever_state, e]; rfl
  · simp only [Work.openLever_state, e]; rfl
  · rcases e with e | e <;> simp only [Work.openLever_state, e] <;> rfl
  · simp only [Work.openLever_state, e]; rfl
  · rcases e with e | e <;> simp only [Work.openLever_state, e] <;> rfl

theorem Work.openLever_of_held {w : Work} {c : Chan} (closed : (w.site.chan c).leverOpen = false)
    (state : (w.site.chan c).state = .quiet ∨ (w.site.chan c).state = .fault) : w.openLever c =
      (w.setChans fun d => if d = c then
          { w.site.chan d with
            leverOpen := true, lampLit := true, previous := (w.site.chan d).state, state := .down, quietTimer := none
            pendingBringUp := false }
        else { w.site.chan d with
          pendingBringUp := if d ∈ w.site.members c then false else (w.site.chan d).pendingBringUp }).saying [c]
        fun _ => .lever := by
  obtain ⟨-, -, held, -⟩ := Work.openLever_eq closed
  rw [held state, Work.clearPending_modChan, Work.setChans_modChan, Work.reportChannel_saying]
  refine congrArg (fun g => (w.setChans g).saying [c] fun _ => .lever) (funext fun d => ?_)
  by_cases is : d = c
  · simp only [is, if_true]
    rfl
  · simp only [is, if_false]

theorem Work.openLever_of_down {w : Work} {c : Chan} (closed : (w.site.chan c).leverOpen = false)
    (state : (w.site.chan c).state = .down) : w.openLever c =
      (w.setChans fun d => if d = c then
          { w.site.chan d with leverOpen := true, lampLit := true, pendingBringUp := false }
        else { w.site.chan d with
          pendingBringUp := if d ∈ w.site.members c then false else (w.site.chan d).pendingBringUp }).saying
        (if (w.site.chan c).lampLit = true then [] else [c]) fun _ => .lever := by
  obtain ⟨-, -, -, down, -⟩ := Work.openLever_eq closed
  have lamp : (((w.clearPending c).modChan c fun ch => { ch with leverOpen := true }).site.chan c).lampLit =
      (w.site.chan c).lampLit := by
    rw [Work.clearPending_modChan, Work.setChans_chan, if_pos rfl]
  rw [down state, lamp, Work.clearPending_modChan]
  by_cases lit : (w.site.chan c).lampLit = true
  · rw [if_pos lit, if_pos lit, Work.saying_nil]
    refine congrArg w.setChans (funext fun d => ?_)
    by_cases is : d = c
    · subst is
      simp only [if_true, ← lit]
    · simp only [is, if_false]
  · rw [if_neg lit, if_neg lit, Work.setChans_modChan, Work.reportChannel_saying]
    refine congrArg (fun g => (w.setChans g).saying [c] fun _ => .lever) (funext fun d => ?_)
    by_cases is : d = c
    · simp only [is, if_true]
    · simp only [is, if_false]

theorem Work.openLever_of_training {w : Work} {c : Chan} (closed : (w.site.chan c).leverOpen = false)
    (state : (w.site.chan c).state = .training) : w.openLever c =
      (w.setChans fun d => if d ∈ w.site.members c then
          { w.site.chan d with
            previous := (w.site.chan d).state, state := .down, trainingTimer := none, pendingBringUp := false
            leverOpen := if d = c then true else (w.site.chan d).leverOpen
            lampLit := if d = c then true else (w.site.chan d).lampLit || (w.site.chan d).leverOpen }
        else w.site.chan d).saying (w.site.members c) fun m => if m = c then .lever else .pairPartner := by
  obtain ⟨-, training, -⟩ := Work.openLever_eq closed
  have nodup := w.site.members_nodup c
  rw [training state, Work.clearPending_modChan, Work.setChans_members fun d => by split <;> rfl,
    Work.setChans_modChans _ _ nodup, Work.setChans_modChan, Work.reportPair_saying,
    Work.setChans_members fun d => by split <;> split <;> rfl]
  refine congrArg (fun g => (w.setChans g).saying _ _) (funext fun d => ?_)
  by_cases is : d = c
  · subst is
    simp only [if_true, w.site.self_mem_members]
    rfl
  · by_cases member : d ∈ w.site.members c
    · simp only [is, member, if_true, if_false]
      rfl
    · simp only [is, member, if_false]

theorem Work.openLever_of_out {w : Work} {c : Chan} (closed : (w.site.chan c).leverOpen = false)
    (state : (w.site.chan c).state = .draining ∨ (w.site.chan c).state = .absent) : w.openLever c =
      w.setChans fun d => if d ∈ w.site.members c then
          { w.site.chan d with
            pendingBringUp := false, leverOpen := if d = c then true else (w.site.chan d).leverOpen }
        else w.site.chan d := by
  obtain ⟨-, -, -, -, out⟩ := Work.openLever_eq closed
  rw [out state, Work.clearPending_modChan]
  refine congrArg w.setChans (funext fun d => ?_)
  by_cases is : d = c
  · subst is
    simp only [if_true, w.site.self_mem_members]
  · by_cases member : d ∈ w.site.members c
    · simp only [is, member, if_true, if_false]
    · simp only [is, member, if_false]

/-! #### Training and the timers -/

theorem Work.enterUp_eq (w : Work) (c : Chan) : w.enterUp c =
    ((w.setChans fun d => if d ∈ w.site.members c then
        { w.site.chan d with
          previous := (w.site.chan d).state, state := .up, trainingTimer := none, sendFailureRun := 0
          badWindowRun := 0, inFlightBlocks := 0, activity := .idle
          beaconDue := if d = c then true else (w.site.chan d).beaconDue
          highPointer := if d = c then none else (w.site.chan d).highPointer
          lowPointer := if d = c then none else (w.site.chan d).lowPointer }
      else w.site.chan d).saying (w.site.members c) fun _ => .ready).offer c := by
  rw [Work.enterUp, Work.modChans_eq _ (w.site.members_nodup c), Work.setChans_modChan, Work.reportMembers_saying,
    Work.setChans_members fun d => by split <;> split <;> rfl]
  refine congrArg (fun g => ((w.setChans g).saying _ _).offer c) (funext fun d => ?_)
  by_cases is : d = c
  · subst is
    simp only [if_true, w.site.self_mem_members]
    rfl
  · simp only [is, if_false]
    rfl

theorem Work.ready_of_training {w : Work} {c : Chan} (state : (w.site.chan c).state = .training) :
    let v := w.modChan c fun x => { x with ready := true }
    ((∃ m ∈ w.site.members c, m ≠ c ∧ (w.site.chan m).ready = false) → w.ready c = v)
    ∧ ((∀ m ∈ w.site.members c, m ≠ c → (w.site.chan m).ready = true) → w.ready c = v.enterUp (w.site.logical c)) := by
  intro v
  have chan : ∀ d, v.site.chan d = if d = c then { w.site.chan c with ready := true } else w.site.chan d :=
    fun d => w.modChan_chan c d _
  have configs : ∀ d, (v.site.chan d).config = (w.site.chan d).config := fun d => by
    rw [chan]; split
    next is => rw [is]
    next => rfl
  have members : v.site.members c = w.site.members c := Site.members_of_config configs c
  have run : w.ready c = if ((v.site.members c).all fun m => (v.site.chan m).ready) = true then v.enterUp (v.site.logical c)
      else v := by
    rw [Work.ready, if_pos state]
  refine ⟨fun others => ?_, fun others => ?_⟩
  · obtain ⟨m, hm, other, unready⟩ := others
    rw [run, if_neg]
    rw [List.all_eq_true, members]
    intro all
    have := all m hm
    rw [chan, if_neg other, unready] at this
    exact absurd this (by decide)
  · rw [run, if_pos, Site.logical_of_config configs]
    rw [List.all_eq_true, members]
    intro m hm
    rw [chan]
    split
    · rfl
    · exact others m hm ‹_›

theorem Work.trainingFails_eq {w : Work} {c : Chan} {e : Nat} (state : (w.site.chan c).state = .training)
    (running : (w.site.chan c).trainingTimer = some e) (passed : e ≤ w.site.count) : w.trainingFails c =
      (w.setChans fun d => if d ∈ w.site.members c then
          { w.site.chan d with previous := (w.site.chan d).state, state := .fault, trainingTimer := none }
        else w.site.chan d).saying (w.site.members c) fun m => if m = c then .trainingTimeout else .pairPartner := by
  rw [Work.trainingFails, if_pos ⟨state, by rw [running]; exact decide_eq_true passed⟩,
    Work.modChans_eq _ (w.site.members_nodup c), Work.reportPair_saying, Work.setChans_members fun d => by split <;> rfl]
  rfl

/-- The end of a quiet timer, by the bring-up that waits for it (R34, R38). -/
theorem Work.quietExpires_eq {w : Work} {c : Chan} {e : Nat} (running : (w.site.chan c).quietTimer = some e)
    (passed : e ≤ w.site.count) :
    let v := w.modChan c fun ch => { ch with quietTimer := none }
    ((w.site.chan (w.site.logical c)).pendingBringUp = false
        ∨ (∃ m ∈ w.site.members c, m ≠ c ∧ (w.site.chan m).quietTimer ≠ none) → w.quietExpires c = v)
    ∧ ((w.site.chan (w.site.logical c)).pendingBringUp = true →
      (∀ m ∈ w.site.members c, m ≠ c → (w.site.chan m).quietTimer = none) →
      w.quietExpires c = v.beginTraining (w.site.logical c)) := by
  intro v
  have chan : ∀ d, v.site.chan d = if d = c then { w.site.chan c with quietTimer := none } else w.site.chan d :=
    fun d => w.modChan_chan c d _
  have configs : ∀ d, (v.site.chan d).config = (w.site.chan d).config := fun d => by
    rw [chan]; split
    next is => rw [is]
    next => rfl
  have members : v.site.members c = w.site.members c := Site.members_of_config configs c
  have pendings : ∀ d, (v.site.chan d).pendingBringUp = (w.site.chan d).pendingBringUp := fun d => by
    rw [chan]; split
    next is => rw [is]
    next => rfl
  have run : w.quietExpires c = if (w.site.chan (w.site.logical c)).pendingBringUp = true
      ∧ ((w.site.members c).all fun m => (v.site.chan m).quietTimer.isNone) = true then v.beginTraining (w.site.logical c)
      else v := by
    have expired : due (w.site.chan c).quietTimer w.site.count = true := by rw [running]; exact decide_eq_true passed
    rw [Work.quietExpires, if_pos expired, ← pendings, ← members, ← Site.logical_of_config configs]
  refine ⟨fun stays => ?_, fun pending last => ?_⟩
  · rw [run, if_neg]
    rintro ⟨pending, all⟩
    rcases stays with none | ⟨m, hm, other, runs⟩
    · rw [none] at pending; exact absurd pending (by decide)
    · have := List.all_eq_true.1 all m hm
      rw [chan, if_neg other, Option.isNone_iff_eq_none] at this
      exact runs this
  · rw [run, if_pos]
    refine ⟨pending, List.all_eq_true.2 fun m hm => ?_⟩
    rw [chan]
    split
    · rfl
    · rw [last m hm ‹_›]; rfl

/-- Training begun as a quiet timer ends (R34, R38). -/
theorem Work.beginTraining_after_quiet (w : Work) (c : Chan) :
    (w.modChan c fun ch => { ch with quietTimer := none }).beginTraining (w.site.logical c) =
      (w.setChans fun d => if d ∈ w.site.members c then
          { w.site.chan d with
            previous := (w.site.chan d).state, state := .training, lampLit := false
            trainingTimer := some (w.site.count + 5), ready := false, quietTimer := none, pendingBringUp := false }
        else w.site.chan d).saying (w.site.members c) fun _ => .bringUp := by
  rw [Work.beginTraining_eq, Work.modChan_eq, Work.setChans_members fun d => by split <;> rfl, Site.members_logical]
  refine congrArg (fun g => (w.setChans g).saying _ _) (funext fun d => ?_)
  rw [Work.setChans_chan]
  by_cases is : d = c
  · subst is
    simp only [if_true, w.site.self_mem_members]
    rfl
  · rw [if_neg is]
    rfl

/-- Entry to UP as the last transceiver reports ready (R37). -/
theorem Work.enterUp_after_ready (w : Work) (c : Chan) :
    (w.modChan c fun x => { x with ready := true }).enterUp (w.site.logical c) =
      ((w.setChans fun d => if d ∈ w.site.members c then
          { w.site.chan d with
            previous := (w.site.chan d).state, state := .up, trainingTimer := none, sendFailureRun := 0
            badWindowRun := 0, inFlightBlocks := 0, activity := .idle
            ready := if d = c then true else (w.site.chan d).ready
            beaconDue := if d = w.site.logical c then true else (w.site.chan d).beaconDue
            highPointer := if d = w.site.logical c then none else (w.site.chan d).highPointer
            lowPointer := if d = w.site.logical c then none else (w.site.chan d).lowPointer }
        else w.site.chan d).saying (w.site.members c) fun _ => .ready).offer (w.site.logical c) := by
  rw [Work.enterUp_eq, Work.modChan_eq, Work.setChans_members fun d => by split <;> rfl, Site.members_logical]
  refine congrArg (fun g => ((w.setChans g).saying _ _).offer _) (funext fun d => ?_)
  rw [Work.setChans_chan]
  by_cases is : d = c
  · subst is
    simp only [if_true, w.site.self_mem_members]
  · simp only [is, if_false]

/-! #### Out of UP, TRAINING and DRAINING -/

/-- A removed module's channel, and its partner's, as TRAINING or DRAINING end with no frame awaited (R29, R41). -/
theorem Work.removeModule_of_unawaited {w : Work} {c : Chan} (present : (w.site.chan c).present = true)
    (state : (w.site.chan c).state = .training ∨ (w.site.chan c).state = .draining)
    (free : (w.site.chan (w.site.logical c)).awaited = none) : w.removeModule c =
      (w.setChans fun d => if d = c then
          { w.site.chan d with
            present := false, previous := (w.site.chan d).state, state := .absent, lampLit := false, trainingTimer := none
            quietTimer := none, beaconTimer := none, beaconDue := false, pendingBringUp := false, ready := false
            sendFailureRun := 0, badWindowRun := 0, activity := .idle, memberDone := false, onAir := none
            window := none }
        else if d ∈ w.site.members c then
          { w.site.chan d with
            previous := (w.site.chan d).state, state := .down, trainingTimer := none
            lampLit := (w.site.chan d).lampLit || (w.site.chan d).leverOpen, pendingBringUp := false
            activity := .idle, memberDone := false, onAir := none, window := none }
        else w.site.chan d).saying (w.site.members c) fun m => if m = c then .removed else .pairPartner := by
  have unawaited : (((w.clearPending c).modChan c Channel.removed).site.chan (w.site.logical c)).awaited = none := by
    rw [Work.clearPending_modChan, Work.setChans_chan, ← free]
    split <;> rfl
  rw [Work.removeModule_of_busy present state, Work.abandon_of_none unawaited, Work.silence_eq, Work.clearPending_modChan,
    Work.setChans_members fun d => by split <;> rfl, Work.setChans_setChans, Work.setChans_modChan,
    Work.setChans_modChans _ _ ((w.site.members_nodup c).filter _), Work.reportPair_saying, Work.setChans_members]
  · rw [Site.members_logical]
    refine congrArg (fun g => (w.setChans g).saying _ _) (funext fun d => ?_)
    rw [Work.setChans_chan]
    by_cases is : d = c
    · subst is
      simp [w.site.self_mem_members, Channel.removed, Channel.clearRuns]
    · by_cases member : d ∈ w.site.members c
      · simp [is, member]
      · simp [is, member]
  · intro d
    rw [Work.setChans_chan]
    split <;> split <;> split <;> (try split) <;> rfl

/-- A field that traffic cannot touch, and the scheduler's clearing does not, after a departure from UP (R35). -/
theorem Work.departUp_field (w : Work) (c : Chan) (goes : Chan → ChannelState) {d : Chan} (member : d ∈ w.site.members c)
    {α : Type} (field : Channel → α) (still : ∀ ch, field ch.still = field ch)
    (scheduler : ∀ ch, field ch.clearScheduler = field ch) :
    field ((w.departUp c goes).site.chan d) = field ((w.site.chan d).departed (goes d)) := by
  obtain ⟨left, -⟩ := w.departUp_spec c goes
  have fields := congrArg field (left d)
  simp only [if_pos member] at fields
  rw [still, still] at fields
  rw [fields]
  split
  · exact scheduler _
  · rfl

theorem Work.departUp_scheduler (w : Work) (c : Chan) (goes : Chan → ChannelState) {α : Type} (field : Channel → α)
    (still : ∀ ch, field ch.still = field ch) :
    field ((w.departUp c goes).site.chan c) = field ((w.site.chan c).departed (goes c)).clearScheduler := by
  obtain ⟨left, -⟩ := w.departUp_spec c goes
  have fields := congrArg field (left c)
  simp only [if_pos (w.site.self_mem_members c), if_true] at fields
  rwa [still, still] at fields

theorem Work.departUp_members (w : Work) (c : Chan) (goes : Chan → ChannelState) (d : Chan) :
    (w.departUp c goes).site.members d = w.site.members d :=
  Site.members_of_config (Work.departUp_kept (.refl _) c goes).configs d

/-- A member of a channel that has departed from UP (R35). -/
theorem Work.departUp_member (w : Work) (c : Chan) (goes : Chan → ChannelState) {d : Chan} (member : d ∈ w.site.members c)
    {x : Channel} (stands : (w.departUp c goes).site.chan d = x) :
    x.state = goes d ∧ x.previous = (w.site.chan d).state ∧ x.beaconTimer = none ∧ x.beaconDue = false
      ∧ x.sendFailureRun = 0 ∧ x.badWindowRun = 0 ∧ x.activity = (w.site.chan d).activity
      ∧ x.leverOpen = (w.site.chan d).leverOpen ∧ x.lampLit = (w.site.chan d).lampLit
      ∧ x.pendingBringUp = (w.site.chan d).pendingBringUp := by
  have field := fun {α : Type} (g : Channel → α) => w.departUp_field c goes member g
  simp only [stands] at field
  exact ⟨field Channel.state (fun _ => rfl) fun _ => rfl, field Channel.previous (fun _ => rfl) fun _ => rfl,
    field Channel.beaconTimer (fun _ => rfl) fun _ => rfl, field Channel.beaconDue (fun _ => rfl) fun _ => rfl,
    field Channel.sendFailureRun (fun _ => rfl) fun _ => rfl, field Channel.badWindowRun (fun _ => rfl) fun _ => rfl,
    field Channel.activity (fun _ => rfl) fun _ => rfl, field Channel.leverOpen (fun _ => rfl) fun _ => rfl,
    field Channel.lampLit (fun _ => rfl) fun _ => rfl, field Channel.pendingBringUp (fun _ => rfl) fun _ => rfl⟩

/-- The queues, the access set and the scheduler record of a channel that has departed from UP (R35). -/
theorem Work.departUp_cleared (w : Work) (c : Chan) (goes : Chan → ChannelState) {x : Channel}
    (stands : (w.departUp c goes).site.chan c = x) :
    x.alerts = [] ∧ x.urgents = [] ∧ x.accessSet = [] ∧ x.urgentDeficit = 0 ∧ x.routineDeficit = 0 ∧ x.turn = .routine
      ∧ x.quantumAdded = false := by
  obtain ⟨-, -, -, alerts, urgents, access, -⟩ := w.departUp_spec c goes
  have field := fun {α : Type} (g : Channel → α) => w.departUp_scheduler c goes g
  rw [stands] at alerts urgents access
  simp only [stands] at field
  exact ⟨alerts, urgents, access, field Channel.urgentDeficit fun _ => rfl, field Channel.routineDeficit fun _ => rfl,
    field Channel.turn fun _ => rfl, field Channel.quantumAdded fun _ => rfl⟩

/-- The channels as the lever of one of them opens, its pending bring-up cleared. -/
theorem Work.leverOpening_chan (w : Work) (c : Chan) {d : Chan} (member : d ∈ w.site.members c) :
    (((w.clearPending c).modChan c fun x => { x with leverOpen := true }).site.chan d) =
      { w.site.chan d with pendingBringUp := false, leverOpen := if d = c then true else (w.site.chan d).leverOpen } := by
  rw [Work.clearPending_modChan, Work.setChans_chan]
  by_cases is : d = c
  · subst is; simp only [if_true]
  · simp only [is, member, if_true, if_false]

theorem Work.clearPending_modChan_configs (w : Work) (c : Chan) {f : Channel → Channel} (keeps : ∀ ch, (f ch).config = ch.config)
    (d : Chan) : (((w.clearPending c).modChan c f).site.chan d).config = (w.site.chan d).config := by
  rw [Work.clearPending_modChan, Work.setChans_chan]
  split
  · exact keeps _
  · rfl

/-- The end of draining (R32). -/
theorem Work.drained_chan (w : Work) (c : Chan) {d : Chan} (member : d ∈ w.site.members c) :
    (w.drained c).site.chan d = { (w.site.chan d).silenced with
      previous := (w.site.chan d).state, state := .down, lampLit := true } := by
  rw [Work.drained, Work.silence_eq, Work.setChans_modChans _ _ (w.site.members_nodup c), Work.reportMembers_saying]
  refine (Work.setChans_chan _ _ d).trans ?_
  simp only [if_pos member]
  rfl

theorem Work.drained_roster (w : Work) (c : Chan) : (w.drained c).site.roster = w.site.roster := by
  rw [Work.drained, Work.silence_eq, Work.setChans_modChans _ _ (w.site.members_nodup c), Work.reportMembers_saying]
  rfl

theorem Work.startDraining_site (w : Work) (c : Chan) :
    let u := w.departUp (w.site.logical c) fun _ => .draining
    ((w.site.chan (w.site.logical c)).activity = .idle →
      (∀ d ∈ w.site.members c, (w.startDraining c).site.chan d = { (u.site.chan d).silenced with
        previous := (u.site.chan d).state, state := .down, lampLit := true })
      ∧ (w.startDraining c).site.roster = u.site.roster)
    ∧ ((w.site.chan (w.site.logical c)).activity ≠ .idle →
      (∀ d, (w.startDraining c).site.chan d = u.site.chan d) ∧ (w.startDraining c).site.roster = u.site.roster) := by
  intro u
  have reported : (u.reportPair c .lever).site = u.site := by rw [Work.reportPair_saying]; rfl
  have run : w.startDraining c = if (w.site.chan (w.site.logical c)).activity = .idle then
      (u.reportPair c .lever).drained (w.site.logical c) else u.reportPair c .lever := rfl
  refine ⟨fun idle => ?_, fun busy => ?_⟩
  · rw [run, if_pos idle]
    refine ⟨fun d member => ?_, (Work.drained_roster _ _).trans (by rw [reported])⟩
    refine (Work.drained_chan _ _ ?_).trans (by rw [reported])
    rw [reported, Work.departUp_members, Site.members_logical]
    exact member
  · rw [run, if_neg busy, reported]
    exact ⟨fun _ => rfl, rfl⟩

/-- The end of a module's removal out of UP: the partner's lamp at its entry to DOWN, and the reports (R33, R41). -/
theorem Work.reportRemoval_spec {u t : Work} {c : Chan} {ms : List Chan} (members : u.site.members c = ms)
    (ends : t = (u.modChans (ms.filter (· != c)) Channel.lampAtDown).reportPair c .removed) :
    (∀ d, t.site.chan d = if d ∈ ms.filter (· != c) then (u.site.chan d).lampAtDown else u.site.chan d)
    ∧ t.site.roster = u.site.roster
    ∧ t.out = u.out ++ ms.map fun m => t.site.channelReport m (if m = c then .removed else .pairPartner) := by
  have nodup : (ms.filter (· != c)).Nodup := by rw [← members]; exact (u.site.members_nodup c).filter _
  have eq : t = (u.setChans fun d => if d ∈ ms.filter (· != c) then (u.site.chan d).lampAtDown
      else u.site.chan d).saying ms fun m => if m = c then .removed else .pairPartner := by
    rw [ends, Work.modChans_eq _ nodup, Work.reportPair_saying, Work.setChans_members fun d => by split <;> rfl, members]
  rw [eq]
  exact ⟨Work.setChans_chan _ _, rfl, rfl⟩

/-- Settles O43. -/
theorem channelEventsTaken : Obligations.ChannelEventsTaken := by
  refine ⟨fun w c cause => ⟨w.reportPair_saying c cause, w.reportMembers_saying c cause, rfl, rfl⟩,
    fun w c => ⟨fun i => Work.abandon_of_awaited, Work.abandon_of_none, fun f => Channel.awaited_of_onAir,
      Channel.awaited_of_silent, w.withdrawQueues_spec c, w.departUp_eq c⟩, fun s c powered => ?_⟩
  intro ch reports
  refine ⟨fun state empty => ?_, fun present => ⟨fun state => ?_, fun state => ?_, fun state => ?_⟩,
    fun closed => ⟨fun state => ?_, fun state => ?_, fun state => ?_, fun state => ?_, fun state => ?_⟩, ?_, fun state => ?_,
    fun state => ⟨fun others => ?_, fun others => ?_, fun expired => ?_⟩, fun e running passed => ⟨fun stays => ?_, fun pending last => ?_⟩,
    fun e up running passed => ?_⟩
  · obtain ⟨t, run, said, site, chans⟩ := event_channels powered (f := fun w => w.insertModule c)
      (Work.insertModule_eq (w := s.work) state empty)
    exact ⟨t, run, said, site, fun d other => (chans d).trans (if_neg other), (chans c).trans (if_pos rfl)⟩
  · obtain ⟨t, run, said, site, chans⟩ := event_channels powered (f := fun w => w.removeModule c)
      (Work.removeModule_of_idle (w := s.work) present state)
    exact ⟨t, run, said, site, fun d other => (chans d).trans (if_neg other), (chans c).trans (if_pos rfl)⟩
  · intro lc w
    have configs : ∀ d, (((s.work.clearPending c).modChan c Channel.removed).site.chan d).config = (s.site.chan d).config :=
      s.work.clearPending_modChan_configs c fun _ => rfl
    have begins : ∀ d ∈ s.site.members c, ((s.work.clearPending c).modChan c Channel.removed).site.chan d =
        if d = c then (s.site.chan d).removed else { s.site.chan d with pendingBringUp := false } := fun d member => by
      rw [Work.clearPending_modChan, Work.setChans_chan]
      refine if_congr Iff.rfl rfl ?_
      rw [if_pos (show d ∈ s.work.site.members c from member)]
      rfl
    have removed : s.work.removeModule c = w := Work.removeModule_of_up (w := s.work) present state
    have logical := Site.members_of_config configs lc
    rw [Site.members_logical] at logical
    have plain : w = (((((s.work.clearPending c).modChan c Channel.removed).abandon lc).departUp lc fun m =>
        if m = c then .absent else .down).modChans ((s.site.members c).filter (· != c)) Channel.lampAtDown).reportPair c
          .removed := rfl
    clear_value w
    generalize (s.work.clearPending c).modChan c Channel.removed = v at *
    obtain ⟨-, -, -, -, -, -, gone⟩ := (v.abandon lc).departUp_spec lc fun m => if m = c then .absent else .down
    have left : ∀ {m} (hm : m ∈ s.site.members c) {x}, _ → _ := fun {m} hm {x} =>
      v.abandon_departUp_member lc (fun m => if m = c then .absent else .down) (d := m) (logical ▸ hm) (x := x)
    have cleared : ∀ {x}, _ → _ := fun {x} =>
      v.abandon_departUp_cleared lc (fun m => if m = c then .absent else .down) (x := x)
    have members : ((v.abandon lc).departUp lc fun m => if m = c then .absent else .down).site.members c =
        s.site.members c := by
      rw [Work.departUp_members, Work.abandon_members]
      exact Site.members_of_config configs c
    generalize ((v.abandon lc).departUp lc fun m => if m = c then ChannelState.absent else .down) = u at *
    obtain ⟨chans, roster, out⟩ := Work.reportRemoval_spec members plain
    have facts : ∀ m ∈ s.site.members c,
        (w.site.chan m).state = (if m = c then .absent else .down) ∧ (w.site.chan m).previous = (s.site.chan m).state
          ∧ (w.site.chan m).present = (m != c && (s.site.chan m).present)
          ∧ (w.site.chan m).lampLit = (m != c && ((s.site.chan m).lampLit || (s.site.chan m).leverOpen))
          ∧ (w.site.chan m).pendingBringUp = false ∧ (w.site.chan m).beaconTimer = none
          ∧ (w.site.chan m).beaconDue = false ∧ (w.site.chan m).sendFailureRun = 0 ∧ (w.site.chan m).badWindowRun = 0
          ∧ (w.site.chan m).activity = .idle ∧ (w.site.chan m).onAir = none ∧ (w.site.chan m).window = none
          ∧ (m = c → (w.site.chan m).trainingTimer = none ∧ (w.site.chan m).quietTimer = none
            ∧ (w.site.chan m).ready = false) := fun m hm => by
      have starts := begins m hm
      obtain ⟨stands, previous, beacon, due, sends, windows, activity, onAir, window, slot, lever, lamp, pending, training,
        quiet, ready⟩ := left hm rfl
      rw [chans m]
      by_cases is : m = c
      · subst is
        rw [if_pos rfl] at starts
        rw [if_neg (by simp)]
        rw [starts] at previous slot lamp pending training quiet ready
        rw [stands, previous, slot, lamp, pending, training, quiet, ready]
        simp only [bne_self_eq_false, Bool.false_and]
        exact ⟨trivial, rfl, rfl, rfl, rfl, beacon, due, sends, windows, activity, onAir, window, fun _ => ⟨rfl, rfl, rfl⟩⟩
      · rw [if_neg is] at starts
        rw [if_pos (List.mem_filter.2 ⟨hm, by simpa using is⟩)]
        rw [starts] at previous slot lamp lever pending
        have other : (m != c) = true := bne_iff_ne.2 is
        rw [other, Bool.true_and, Bool.true_and]
        refine ⟨stands, previous, slot, ?_, pending, beacon, due, sends, windows, activity, onAir, window,
          fun same => absurd same is⟩
        rw [Channel.lampAtDown, lamp, lever]
    have kept : ∀ {α : Type} (g : Channel → α), (∀ ch, g ch.lampAtDown = g ch) → g (w.site.chan lc) = g (u.site.chan lc) :=
      fun g same => by
        rw [chans]
        split
        · exact same _
        · rfl
    obtain ⟨alerts, urgents, access, urgent, routine, turn, quantum⟩ := cleared rfl
    refine ⟨event_outcome powered (f := fun w => w.removeModule c) removed, ⟨u.out, ?_⟩, facts,
      (kept Channel.alerts fun _ => rfl).trans alerts, (kept Channel.urgents fun _ => rfl).trans urgents,
      (kept Channel.accessSet fun _ => rfl).trans access, (kept Channel.urgentDeficit fun _ => rfl).trans urgent,
      (kept Channel.routineDeficit fun _ => rfl).trans routine, (kept Channel.turn fun _ => rfl).trans turn,
      (kept Channel.quantumAdded fun _ => rfl).trans quantum, fun i => ?_⟩
    · rw [out]
      refine congrArg (u.out ++ ·) (List.map_congr_left fun m hm => ?_)
      obtain ⟨state, previous, -, lamp, -⟩ := facts m hm
      rw [Site.channelReport, state, previous, lamp]
    · rw [Site.affiliatedOn, roster]
      exact gone i
  · have removed := Work.removeModule_of_busy (w := s.work) present state
    refine ⟨event_outcome powered (f := fun w => w.removeModule c) removed, fun free => ?_⟩
    obtain ⟨t, run, said, site, chans⟩ := event_channels powered (f := fun w => w.removeModule c)
      (Work.removeModule_of_unawaited (w := s.work) present state free)
    refine ⟨t, run, said, site, fun d => (chans d).trans ?_⟩
    by_cases is : d = c
    · subst is; rw [if_pos rfl, if_pos rfl]; rfl
    · rw [if_neg is, if_neg is]; rfl
  · obtain ⟨t, run, said, site, chans⟩ := event_channels powered (f := fun w => w.openLever c)
      (Work.openLever_of_held (w := s.work) closed state)
    exact ⟨t, run, said, site, fun d other => (chans d).trans (if_neg other), (chans c).trans (if_pos rfl)⟩
  · obtain ⟨t, run, said, site, chans⟩ := event_channels powered (f := fun w => w.openLever c)
      (Work.openLever_of_down (w := s.work) closed state)
    exact ⟨t, run, said, site, fun d other => (chans d).trans (if_neg other), (chans c).trans (if_pos rfl)⟩
  · exact event_channels powered (f := fun w => w.openLever c) (Work.openLever_of_training (w := s.work) closed state)
  · exact event_channels powered (f := fun w => w.openLever c) (ms := []) (cause := fun _ => .lever)
      ((Work.openLever_of_out (w := s.work) closed state).trans (Work.saying_nil _ _).symm)
  · intro lc w
    have configs : ∀ d, (((s.work.clearPending c).modChan c fun x => { x with leverOpen := true }).site.chan d).config =
      (s.site.chan d).config := s.work.clearPending_modChan_configs c fun _ => rfl
    have opened : s.work.openLever c = w := (Work.openLever_eq (w := s.work) closed).1 state
    have begins : ∀ d ∈ s.site.members c, ((s.work.clearPending c).modChan c fun x =>
        { x with leverOpen := true }).site.chan d = { s.site.chan d with
          pendingBringUp := false, leverOpen := if d = c then true else (s.site.chan d).leverOpen } := fun d member =>
      s.work.leverOpening_chan c member
    have plain : w = ((s.work.clearPending c).modChan c fun x => { x with leverOpen := true }).startDraining c := rfl
    clear_value w
    generalize ((s.work.clearPending c).modChan c fun x => { x with leverOpen := true }) = v at *
    have members : v.site.members c = s.site.members c := Site.members_of_config configs c
    have logical : v.site.logical c = lc := Site.logical_of_config configs c
    have ofLogical : v.site.members lc = s.site.members c := by
      rw [Site.members_of_config configs]; exact s.site.members_logical c
    have self : lc ∈ s.site.members c := s.site.logical_mem_members c
    obtain ⟨drains, waits⟩ := v.startDraining_site c
    rw [← plain, logical] at drains waits
    rw [members] at drains
    have active : (v.site.chan lc).activity = (s.site.chan lc).activity := by rw [begins lc self]
    rw [active] at drains waits
    obtain ⟨-, -, -, -, -, -, gone⟩ := v.departUp_spec lc fun _ => .draining
    have left : ∀ {m} (hm : m ∈ s.site.members c) {x}, _ → _ := fun {m} hm {x} =>
      v.departUp_member lc (fun _ => .draining) (d := m) (ofLogical ▸ hm) (x := x)
    have cleared : ∀ {x}, _ → _ := fun {x} => v.departUp_cleared lc (fun _ => .draining) (x := x)
    generalize (v.departUp lc fun _ => ChannelState.draining) = u at *
    obtain ⟨alerts, urgents, access, urgent, routine, turn, quantum⟩ := cleared rfl
    refine ⟨event_outcome powered (f := fun w => w.openLever c) opened, fun m hm => ?_, fun busy m hm => ?_,
      fun idle m hm => ?_, ?_⟩
    · obtain ⟨stands, previous, beacon, due, sends, windows, -, lever, lamp, pending⟩ := left hm rfl
      rw [begins m hm] at previous lever lamp pending
      by_cases idle : (s.site.chan lc).activity = .idle
      · rw [(drains idle).1 m hm, if_pos idle, if_pos idle, if_pos idle]
        exact ⟨rfl, stands, rfl, lever, pending, beacon, due, sends, windows⟩
      · rw [(waits idle).1 m, if_neg idle, if_neg idle, if_neg idle]
        exact ⟨stands, previous, lamp, lever, pending, beacon, due, sends, windows⟩
    · obtain ⟨-, -, -, -, -, -, activity, -⟩ := left hm rfl
      rw [(waits busy).1 m, activity, begins m hm]
    · rw [(drains idle).1 m hm]
      exact ⟨rfl, rfl, rfl⟩
    · by_cases idle : (s.site.chan lc).activity = .idle
      · obtain ⟨chans, roster⟩ := drains idle
        rw [chans lc self]
        refine ⟨alerts, urgents, access, urgent, routine, turn, quantum, fun i => ?_⟩
        rw [Site.affiliatedOn, roster]
        exact gone i
      · obtain ⟨chans, roster⟩ := waits idle
        rw [chans lc]
        refine ⟨alerts, urgents, access, urgent, routine, turn, quantum, fun i => ?_⟩
        rw [Site.affiliatedOn, roster]
        exact gone i
  · obtain ⟨t, run, said, site, chans⟩ := event_channels powered
      (f := fun w => w.modChan c fun ch => { ch with leverOpen := false }) (ms := []) (cause := fun _ => .lever)
      ((Work.modChan_eq _ _ _).trans (Work.saying_nil _ _).symm)
    refine ⟨t, run, said, site, fun d => (chans d).trans ?_⟩
    by_cases is : d = c
    · subst is; rfl
    · rw [if_neg is, if_neg is]; rfl
  · have still : s.work.ready c = s.work := if_neg state
    exact event_outcome powered (f := fun w => w.ready c) still
  · obtain ⟨waits, -⟩ := Work.ready_of_training (w := s.work) state
    obtain ⟨t, run, said, site, chans⟩ := event_channels powered (f := fun w => w.ready c) (ms := [])
      (cause := fun _ => .ready) ((waits others).trans ((Work.modChan_eq _ _ _).trans (Work.saying_nil _ _).symm))
    refine ⟨t, run, said, site, fun d => (chans d).trans ?_⟩
    by_cases is : d = c
    · subst is; rfl
    · rw [if_neg is, if_neg is]; rfl
  · obtain ⟨-, enters⟩ := Work.ready_of_training (w := s.work) state
    intro lc w
    have up : w = _ := Work.enterUp_after_ready s.work c
    refine ⟨event_outcome powered (f := fun w => w.ready c) (enters others), ?_, ?_, ?_, fun d => ?_⟩
    · rw [up]; rfl
    · rw [up]; rfl
    · rw [up]; rfl
    · rw [up]; exact Work.setChans_chan _ _ d
  · obtain ⟨e, running, passed⟩ := expired
    exact event_channels powered (f := fun w => w.trainingFails c)
      (Work.trainingFails_eq (w := s.work) state running passed)
  · obtain ⟨quiet, -⟩ := Work.quietExpires_eq (w := s.work) running passed
    obtain ⟨t, run, said, site, chans⟩ := event_channels powered (f := fun w => w.quietExpires c) (ms := [])
      (cause := fun _ => .bringUp) ((quiet stays).trans ((Work.modChan_eq _ _ _).trans (Work.saying_nil _ _).symm))
    refine ⟨t, run, said, site, fun d => (chans d).trans ?_⟩
    by_cases is : d = c
    · subst is; rfl
    · rw [if_neg is, if_neg is]; rfl
  · obtain ⟨-, starts⟩ := Work.quietExpires_eq (w := s.work) running passed
    exact event_channels powered (f := fun w => w.quietExpires c)
      ((starts pending last).trans (Work.beginTraining_after_quiet s.work c))
  · refine event_outcome powered (f := fun w => w.beaconExpires (w.site.logical c)) ?_
    exact if_pos ⟨up, by
      show due (s.site.chan (s.site.logical c)).beaconTimer s.site.count = true
      rw [running]; exact decide_eq_true passed⟩

end Sys2Proof.Machine

/-! ### The scheduler's choice (R69 to R72, R159) -/

namespace Sys2Proof.Machine

/-! #### The URGENT class -/

theorem Site.cancelledRetry_iff (s : Site) (i : Nat) : s.cancelledRetry i = false ↔
    ∀ o k y, (Table.look s.roster i).bind Terminal.outstanding = some o → o.frame = .item k →
      s.entryOf o.channel k = some y → ¬(y.cancelled = true ∧ y.status = .retry) := by
  unfold Site.cancelledRetry
  cases (Table.look s.roster i).bind Terminal.outstanding with
  | none => simp
  | some o =>
    obtain ⟨frame, channel, retry⟩ := o
    cases frame with
    | order n st => exact iff_of_true rfl fun o k y out frame => by cases out; cases frame
    | item id =>
      have only : (∀ o k y, some (Outstanding.mk (.item id) channel retry) = some o → o.frame = .item k →
          s.entryOf o.channel k = some y → ¬(y.cancelled = true ∧ y.status = .retry)) ↔
          ∀ y, s.entryOf channel id = some y → ¬(y.cancelled = true ∧ y.status = .retry) :=
        ⟨fun h y entry => h _ _ y rfl rfl entry, fun h o k y out frame entry => by
          cases out; cases frame; exact h y entry⟩
      rw [only]
      cases found : s.entryOf channel id with
      | none => simp [found]
      | some y => simp [found]

theorem Site.urgentEligible_iff (s : Site) (c : Chan) (e : UrgentEntry) : s.urgentEligible c e = true ↔
    e.status = .waiting ∧ (∃ r, e.frame = .reply r)
    ∨ ∃ id i x, e.frame = .item id i x ∧ s.affiliatedOn i c = true
      ∧ (e.status = .retry ∨ e.status = .waiting
        ∧ (x.needsAck = true → (Table.look s.roster i).bind Terminal.outstanding = none)
        ∧ (x.needsAck = false → ∀ o k y, (Table.look s.roster i).bind Terminal.outstanding = some o → o.frame = .item k →
            s.entryOf o.channel k = some y → ¬(y.cancelled = true ∧ y.status = .retry))) := by
  obtain ⟨frame, status, cancelled⟩ := e
  cases frame with
  | reply r => cases status <;> simp [Site.urgentEligible]
  | item id i x =>
    have waits : (if x.needsAck = true then ((Table.look s.roster i).bind Terminal.outstanding).isNone
        else !s.cancelledRetry i) = true ↔
        (x.needsAck = true → (Table.look s.roster i).bind Terminal.outstanding = none)
        ∧ (x.needsAck = false → ∀ o k y, (Table.look s.roster i).bind Terminal.outstanding = some o → o.frame = .item k →
            s.entryOf o.channel k = some y → ¬(y.cancelled = true ∧ y.status = .retry)) := by
      rw [← Site.cancelledRetry_iff]
      cases x.needsAck <;> simp
    cases status with
    | waiting => simp only [Site.urgentEligible, Bool.and_eq_true, waits]; simp
    | retry => simp [Site.urgentEligible]
    | sending => simp [Site.urgentEligible]
    | awaitingAck => simp [Site.urgentEligible]

/-! #### The ROUTINE class -/

/-- The ORDER frame of order `n` waits in RETRY on channel `c` for the terminal at index `i`. -/
def Site.retriesTo (s : Site) (c : Chan) (n i : Nat) : Prop :=
  ∃ x o, (i, x) ∈ s.roster ∧ x.outstanding = some o ∧ o.frame = .order n .retry ∧ o.channel = c

theorem Site.retryHolder_of_some {s : Site} {c : Chan} {n i : Nat} (h : s.retryHolder c n = some i) : s.retriesTo c n i := by
  obtain ⟨⟨j, x⟩, found, rfl⟩ := Option.map_eq_some_iff.1 h
  have holds := List.find?_some found
  simp only [Option.any_eq_true, Bool.and_eq_true, beq_iff_eq] at holds
  obtain ⟨o, outstanding, frame, channel⟩ := holds
  exact ⟨x, o, List.mem_of_find?_eq_some found, outstanding, frame, channel⟩

theorem Site.retryHolder_of_none {s : Site} {c : Chan} {n : Nat} (h : s.retryHolder c n = none) (i : Nat) :
    ¬s.retriesTo c n i := by
  rintro ⟨x, o, member, outstanding, frame, channel⟩
  have all := List.find?_eq_none.1 (Option.map_eq_none_iff.1 h) (i, x) member
  simp [outstanding, frame, channel] at all

theorem Channel.allows_iff (ch : Channel) (blocks : Nat) : ch.allows blocks = true ↔
    ch.config.blockLimit = 0 ∨ ch.inFlightBlocks + blocks ≤ ch.config.blockLimit
      ∨ ch.config.blockLimit < blocks ∧ ch.inFlightBlocks = 0 := by
  simp [Channel.allows, or_assoc]

theorem Site.newSend_iff (s : Site) (c : Chan) (o : Order) (i : Nat) : s.newSend c o = some i ↔
    o.state = .queued ∧ s.alarmsOf o.crew = 0
      ∧ ∃ x, s.vehicleRecord o.crew = some (i, x) ∧ x.on c = true ∧ x.outstanding = none ∧ o.blocks ≤ x.credit
        ∧ ((s.chan c).config.blockLimit = 0 ∨ (s.chan c).inFlightBlocks + o.blocks ≤ (s.chan c).config.blockLimit
          ∨ (s.chan c).config.blockLimit < o.blocks ∧ (s.chan c).inFlightBlocks = 0) := by
  unfold Site.newSend
  rw [← Channel.allows_iff]
  cases s.vehicleRecord o.crew with
  | none => simp
  | some e =>
    obtain ⟨j, t⟩ := e
    dsimp only
    constructor
    · intro h
      split at h
      · rename_i all
        obtain ⟨queued, calm, on_, free, credit, limit⟩ := all
        cases h
        exact ⟨queued, calm, t, rfl, on_, Option.isNone_iff_eq_none.1 free, credit, limit⟩
      · cases h
    · rintro ⟨queued, calm, x, record, on_, free, credit, limit⟩
      cases record
      rw [if_pos ⟨queued, calm, on_, Option.isNone_iff_eq_none.2 free, credit, limit⟩]

/-- The first retry by rank that may be sent. -/
def Site.retryOf (s : Site) (c : Chan) (e : Nat × Order) : Option (Nat × Order × Nat) :=
  if s.alarmsOf e.2.crew = 0 then (s.retryHolder c e.1).map fun i => (e.1, e.2, i) else none

theorem Site.retryOf_eq_none {s : Site} {c : Chan} {e : Nat × Order}
    (h : ¬(s.alarmsOf e.2.crew = 0 ∧ ∃ i, s.retriesTo c e.1 i)) : s.retryOf c e = none := by
  unfold Site.retryOf
  split
  · rename_i calm
    cases held : s.retryHolder c e.1 with
    | none => rfl
    | some i => exact absurd ⟨calm, i, Site.retryHolder_of_some held⟩ h
  · rfl

theorem Site.retryOf_eq_some {s : Site} {c : Chan} {e : Nat × Order}
    (h : s.alarmsOf e.2.crew = 0 ∧ ∃ i, s.retriesTo c e.1 i) :
    ∃ i, s.retriesTo c e.1 i ∧ s.retryOf c e = some (e.1, e.2, i) := by
  obtain ⟨calm, i, holder⟩ := h
  cases held : s.retryHolder c e.1 with
  | none => exact absurd holder (Site.retryHolder_of_none held i)
  | some j => exact ⟨j, Site.retryHolder_of_some held, by rw [Site.retryOf, if_pos calm, held]; rfl⟩

theorem Site.routineHead_eq (s : Site) (c : Chan) : s.routineHead c = if s.routineBarred = true then none else
    (s.rankedOrders.findSome? (s.retryOf c)).or
      (s.rankedOrders.findSome? fun e => (s.newSend c e.2).map fun i => (e.1, e.2, i)) := by
  unfold Site.routineHead
  split
  · rfl
  · show (match s.rankedOrders.findSome? (s.retryOf c) with | some x => some x | none => _) = _
    cases s.rankedOrders.findSome? (s.retryOf c) <;> rfl

theorem Site.routineBarred_iff (s : Site) : s.routineBarred = true ↔ s.mode = .alarmsOnly ∨ s.supply = .critical := by
  simp [Site.routineBarred]

/-! #### One pass of the balance -/

theorem Account.balance_urgent (uq rq ua ra n : Nat) {a : Account} (turn : a.turn = .urgent) :
    let d := if a.added = true then a.urgent else min 255 (a.urgent + uq)
    (ua ≤ d → Account.balance uq rq ua ra (n + 1) a =
      { turn := .urgent, added := true, urgent := d - ua, routine := a.routine })
    ∧ (d < ua → Account.balance uq rq ua ra (n + 1) a =
      Account.balance uq rq ua ra n { turn := .routine, added := false, urgent := d, routine := a.routine }) := by
  intro d
  obtain ⟨t, added, urgent, routine⟩ := a
  cases turn
  have grown : Account.grow { turn := .urgent, added, urgent, routine } uq = { turn := .urgent, added := true, urgent := d, routine } := by
    cases added <;> rfl
  refine ⟨fun covers => ?_, fun short => ?_⟩
  · have pass : Account.pass { turn := .urgent, added, urgent, routine } uq ua =
        (true, { turn := .urgent, added := true, urgent := d - ua, routine }) := by
      rw [Account.pass, grown]; exact if_pos covers
    rw [Account.balance]
    show (match Account.pass _ uq ua with | (true, a) => a | (false, a) => _) = _
    rw [pass]
  · have pass : Account.pass { turn := .urgent, added, urgent, routine } uq ua =
        (false, { turn := .routine, added := false, urgent := d, routine }) := by
      rw [Account.pass, grown]; exact if_neg (Nat.not_le.2 short)
    rw [Account.balance]
    show (match Account.pass _ uq ua with | (true, a) => a | (false, a) => _) = _
    rw [pass]

theorem Account.balance_routine (uq rq ua ra n : Nat) {a : Account} (turn : a.turn = .routine) :
    let d := if a.added = true then a.routine else min 255 (a.routine + rq)
    (ra ≤ d → Account.balance uq rq ua ra (n + 1) a =
      { turn := .routine, added := true, urgent := a.urgent, routine := d - ra })
    ∧ (d < ra → Account.balance uq rq ua ra (n + 1) a =
      Account.balance uq rq ua ra n { turn := .urgent, added := false, urgent := a.urgent, routine := d }) := by
  intro d
  obtain ⟨t, added, urgent, routine⟩ := a
  cases turn
  have grown : Account.grow { turn := .routine, added, urgent, routine } rq = { turn := .routine, added := true, urgent, routine := d } := by
    cases added <;> rfl
  refine ⟨fun covers => ?_, fun short => ?_⟩
  · have pass : Account.pass { turn := .routine, added, urgent, routine } rq ra =
        (true, { turn := .routine, added := true, urgent, routine := d - ra }) := by
      rw [Account.pass, grown]; exact if_pos covers
    rw [Account.balance]
    show (match Account.pass _ rq ra with | (true, a) => a | (false, a) => _) = _
    rw [pass]
  · have pass : Account.pass { turn := .routine, added, urgent, routine } rq ra =
        (false, { turn := .urgent, added := false, urgent, routine := d }) := by
      rw [Account.pass, grown]; exact if_neg (Nat.not_le.2 short)
    rw [Account.balance]
    show (match Account.pass _ rq ra with | (true, a) => a | (false, a) => _) = _
    rw [pass]

/-- Settles O55. -/
theorem schedulerChooses : Obligations.SchedulerChooses := by
  refine ⟨fun s c => ?_, fun uq rq ua ra n a => ⟨Account.balance_urgent uq rq ua ra n, Account.balance_routine uq rq ua ra n⟩,
    fun w c => ⟨fun up idle own => ?_, fun not => ?_⟩⟩
  · intro ch waits retries sends
    refine ⟨s.urgentEligible_iff c, fun e => ?_, ⟨s.rankedOrders_perm, s.rankedOrders_pairwise⟩, fun barred => ?_,
      fun open_ supply => ?_, fun e rest alerts => ?_, fun quiet => ⟨fun e urgent routine => ?_, fun n o i urgent routine => ?_,
        fun e n o i urgent routine => ?_, fun urgent routine => ?_⟩⟩
    · rw [Site.urgentHead, List.find?_eq_some_iff_append]
      constructor
      · rintro ⟨eligible, p, q, split, before⟩
        exact ⟨p, q, split, eligible, fun y hy => by simpa using before y hy⟩
      · rintro ⟨p, q, split, eligible, before⟩
        exact ⟨eligible, p, q, split, fun y hy => by simp [before y hy]⟩
    · rw [Site.routineHead_eq, if_pos (s.routineBarred_iff.2 barred)]
    · have free : ¬s.routineBarred = true := fun barred => (s.routineBarred_iff.1 barred).elim open_ supply
      rw [Site.routineHead_eq, if_neg free]
      refine ⟨fun p e q split retry before => ?_, fun noRetry => ⟨fun p e q i split send before => ?_, fun noSend => ?_⟩⟩
      · obtain ⟨i, holder, found⟩ := Site.retryOf_eq_some (c := c) retry
        have first : s.rankedOrders.findSome? (s.retryOf c) = some (e.1, e.2, i) :=
          List.findSome?_eq_some_iff.2 ⟨p, e, q, split, found, fun y hy => Site.retryOf_eq_none (before y hy)⟩
        exact ⟨i, holder, by rw [first]; rfl⟩
      · have none : s.rankedOrders.findSome? (s.retryOf c) = Option.none :=
          List.findSome?_eq_none_iff.2 fun y hy => Site.retryOf_eq_none (noRetry y hy)
        rw [none, Option.none_or]
        refine List.findSome?_eq_some_iff.2 ⟨p, e, q, split, ?_, fun y hy => ?_⟩
        · rw [(s.newSend_iff c e.2 i).2 send]; rfl
        · exact Option.map_eq_none_iff.2 (Option.eq_none_iff_forall_ne_some.2 fun j sends =>
            before y hy j ((s.newSend_iff c y.2 j).1 sends))
      · have none : s.rankedOrders.findSome? (s.retryOf c) = Option.none :=
          List.findSome?_eq_none_iff.2 fun y hy => Site.retryOf_eq_none (noRetry y hy)
        rw [none, Option.none_or]
        exact List.findSome?_eq_none_iff.2 fun y hy => Option.map_eq_none_iff.2
          (Option.eq_none_iff_forall_ne_some.2 fun j sends => noSend y hy j ((s.newSend_iff c y.2 j).1 sends))
    · rw [Site.choose, alerts]
    · rw [Site.choose, show (s.chan c).alerts = [] from quiet, urgent, routine]
    · rw [Site.choose, show (s.chan c).alerts = [] from quiet, urgent, routine]
    · intro b
      have picked : s.choose c = (match b.turn with | .urgent => .urgent e | .routine => .routine n o i, b) := by
        rw [Site.choose, show (s.chan c).alerts = [] from quiet, urgent, routine]
        rfl
      exact ⟨fun turn => by rw [picked, turn], fun turn => by rw [picked, turn]⟩
    · rw [Site.choose, show (s.chan c).alerts = [] from quiet, urgent, routine]
      refine congrArg (·, ch.account) (if_congr ?_ rfl rfl)
      rw [Bool.or_eq_true, Bool.not_eq_true', List.isEmpty_eq_false_iff]
  · rw [Work.serveChannel, if_pos ⟨up, idle, by rw [own]; rfl⟩]
    rfl
  · rw [Work.serveChannel, if_neg]
    simpa using not

end Sys2Proof.Machine

/-! ### The start of a sending (R50 to R55, R73) -/

namespace Sys2Proof.Machine

/-- The frame handed to the transceivers (step 6 of R73). -/
theorem Work.transmit_eq (w : Work) (c : Chan) (f : AirFrame) : w.transmit c f = w.setChans fun d => if d = c then
      { w.site.chan c with
        activity := .sending, memberDone := false, onAir := some f, window := none, beaconDue := false
        beaconTimer := some (w.site.count + 5) }
    else if d ∈ w.site.members c then { w.site.chan d with activity := .sending, memberDone := false }
    else w.site.chan d := by
  rw [Work.transmit, Work.modChans_eq _ (w.site.members_nodup c), Work.setChans_modChan]
  refine congrArg w.setChans (funext fun d => ?_)
  by_cases is : d = c
  · subst is
    simp only [if_true, w.site.self_mem_members]
  · rw [if_neg is, if_neg is]

/-! #### The grant -/

theorem Site.carried_eq (s : Site) (c : Chan) (d : Draft) : s.carried c d = (s.chan c).accessSet.filter fun i =>
    d.dest.broadcast || ((Table.look s.roster i).bind Terminal.short).isSome := by
  unfold Site.carried
  cases d.dest.broadcast with
  | true => exact (List.filter_eq_self.2 fun _ _ => rfl).symm
  | false => rfl

theorem Work.settleGrant_of_none {w : Work} {c : Chan} {d : Draft} {beacon : Bool} (h : d.needsAck = true ∨ beacon = true) :
    w.settleGrant c d beacon = (w, none) := by
  rw [Work.settleGrant, if_pos (by rcases h with e | e <;> simp [e])]

theorem Work.settleGrant_of_open {w : Work} {c : Chan} {d : Draft} {beacon : Bool} (needs : d.needsAck = false)
    (plain : beacon = false) :
    let offered := (w.site.chan c).accessSet.filter fun i =>
      d.dest.broadcast || ((Table.look w.site.roster i).bind Terminal.short).isSome
    let choice := w.site.arbitrate (w.site.chan c).highPointer (w.site.chan c).lowPointer offered
    (choice = none → w.settleGrant c d beacon = (w, none))
    ∧ ∀ i high low, choice = some (i, high, low) →
      w.settleGrant c d beacon = (w.modChan c fun ch => { ch with
        accessSet := ch.accessSet.filter (· != i), highPointer := high, lowPointer := low }, some i) := by
  intro offered choice
  have run : w.settleGrant c d beacon = match choice with
      | some (i, high, low) =>
        ((w.leaveAccess c i).modChan c fun ch => { ch with highPointer := high, lowPointer := low }, some i)
      | none => (w, none) := by
    rw [Work.settleGrant, if_neg (by simp [needs, plain]), Site.carried_eq] <;> rfl
  refine ⟨fun none => by rw [run, none], fun i high low some_ => ?_⟩
  rw [run, some_]
  refine congrArg (·, some i) ?_
  rw [Work.leaveAccess, w.modChan_eq c fun ch => { ch with accessSet := ch.accessSet.filter (· != i) },
    Work.setChans_modChan, Work.modChan_eq]
  refine congrArg w.setChans (funext fun d => ?_)
  by_cases is : d = c
  · simp only [is, if_true]
  · simp only [is, if_false]

/-- The grant touches the access set and the pointers of the channel alone. -/
theorem Work.settleGrant_field (w : Work) (c : Chan) (d : Draft) (beacon : Bool) {α : Type} (field : Channel → α)
    (blind : ∀ ch s h l, field { ch with accessSet := s, highPointer := h, lowPointer := l } = field ch) :
    field ((w.settleGrant c d beacon).1.site.chan c) = field (w.site.chan c) := by
  by_cases barred : d.needsAck = true ∨ beacon = true
  · rw [Work.settleGrant_of_none barred]
  · obtain ⟨needs, plain⟩ := not_or.1 barred
    obtain ⟨ungranted, granted⟩ := Work.settleGrant_of_open (w := w) (c := c) (Bool.eq_false_of_not_eq_true needs)
      (Bool.eq_false_of_not_eq_true plain)
    cases choice : w.site.arbitrate (w.site.chan c).highPointer (w.site.chan c).lowPointer
      ((w.site.chan c).accessSet.filter fun i =>
        d.dest.broadcast || ((Table.look w.site.roster i).bind Terminal.short).isSome) with
    | none => rw [ungranted choice]
    | some g => rw [granted g.1 g.2.1 g.2.2 choice, Work.modChan_chan_same]; exact blind _ _ _ _

/-! #### The entry and the outstanding frame -/

theorem markSending_of_split {f : UrgentFrame} {p q : List UrgentEntry} {e : UrgentEntry} (is : e.frame = f)
    (ready : e.status = .waiting ∨ e.status = .retry) (clear : ∀ y ∈ p, y.frame ≠ f) :
    markSending f (p ++ e :: q) = p ++ { e with status := .sending } :: q := by
  induction p with
  | nil => rw [List.nil_append, markSending, if_pos ⟨is, ready⟩, List.nil_append]
  | cons y p ih =>
    rw [List.cons_append, markSending, if_neg fun h => clear y (List.mem_cons_self ..) h.1,
      ih fun z mem => clear z (List.mem_cons_of_mem _ mem), List.cons_append]

theorem Work.startSending_alert {w : Work} {c : Chan} {e : AlertEntry} {rest : List AlertEntry}
    (head : (w.site.chan c).alerts = e :: rest) :
    let v := w.settleGrant c (w.site.draftAlert c e.content) false
    w.startSending c (.alert e) = (v.1.modChan c fun ch => { ch with alerts := { e with sending := true } :: rest }).transmit
      c (v.1.site.formFrame c (w.site.draftAlert c e.content) v.2) := by
  intro v
  have alerts : (v.1.site.chan c).alerts = e :: rest :=
    (w.settleGrant_field c _ false Channel.alerts fun _ _ _ _ => rfl).trans head
  have marked : (v.1.modChan c fun ch => { ch with alerts := markHead ch.alerts })
      = v.1.modChan c fun ch => { ch with alerts := { e with sending := true } :: rest } :=
    Work.modChan_congr (by rw [alerts]; rfl)
  rw [← marked]
  rfl

/-- The entry that is sent goes to SENDING, and one that needs no acknowledgement leaves no outstanding frame. -/
theorem Work.startSending_urgent {w : Work} {c : Chan} {e : UrgentEntry} {p q : List UrgentEntry}
    (split : (w.site.chan c).urgents = p ++ e :: q) (ready : e.status = .waiting ∨ e.status = .retry)
    (clear : ∀ y ∈ p, y.frame ≠ e.frame) :
    let v := w.settleGrant c (w.site.draftUrgent c e.frame) false
    let u := v.1.modChan c fun ch => { ch with urgents := p ++ { e with status := .sending } :: q }
    let f := v.1.site.formFrame c (w.site.draftUrgent c e.frame) v.2
    (e.needsAck = false → w.startSending c (.urgent e) = u.transmit c f)
    ∧ ∀ id i x, e.frame = .item id i x → x.needsAck = true →
      w.startSending c (.urgent e) = (u.modTerminal i fun t => { t with
        outstanding := some
          { frame := .item id, channel := c
            retry := match t.outstanding with
              | some o => if o.frame = .item id then o.retry else 0
              | none => 0 } }).transmit c f := by
  intro v u f
  have urgents : (v.1.site.chan c).urgents = p ++ e :: q :=
    (w.settleGrant_field c _ false Channel.urgents fun _ _ _ _ => rfl).trans split
  have marked : (v.1.modChan c fun ch => { ch with urgents := markSending e.frame ch.urgents }) = u :=
    Work.modChan_congr (by rw [urgents, markSending_of_split rfl ready clear])
  have run : w.startSending c (.urgent e) = (v.1.beginUrgent c e).transmit c f := rfl
  constructor
  · intro needs
    rw [run, Work.beginUrgent, marked]
    cases frame : e.frame with
    | reply r => rfl
    | item id i x =>
      have plain : x.needsAck = false := by rw [← needs, UrgentEntry.needsAck, frame]
      simp [plain]
  · intro id i x frame needs
    rw [run, Work.beginUrgent, marked]
    simp only [frame, needs, if_true]
    rfl

theorem Work.orderSent_of_look {w : Work} {n i : Nat} {c : Chan} {o : Order} {t : Terminal}
    (vehicle : Table.look w.site.roster i = some t) (order : Table.look w.site.orders n = some o) :
    w.orderSent n c i = ((w.moveOrder n .inFlight .sent fun o =>
        { o with recipient := some t.id, retry := some 0, frameChannel := some c }).modTerminal i fun t =>
        { t with credit := t.credit - o.blocks }).modChan c fun ch =>
        { ch with inFlightBlocks := ch.inFlightBlocks + o.blocks } := by
  rw [Work.orderSent, order, vehicle]

/-- The first send of an order and its resend (steps 4 and 5 of R73). -/
theorem Work.startSending_routine (w : Work) (c : Chan) (n i : Nat) (o : Order) :
    let f := w.site.formFrame c (w.site.draftOrder c o n i) none
    (o.state ≠ .queued → w.startSending c (.routine n o i) = (w.modTerminal i fun t => { t with
      outstanding := t.outstanding.map fun x => { x with frame := .order n .sending } }).transmit c f)
    ∧ ∀ x, o.state = .queued → Table.look w.site.orders n = some o → Table.look w.site.roster i = some x →
      w.startSending c (.routine n o i) = (({ w with
        site := { w.site with
          roster := w.site.roster.adjust i fun t =>
            { t with
              outstanding := some { frame := .order n .sending, channel := c, retry := 0 }, credit := t.credit - o.blocks }
          orders := w.site.orders.adjust n fun y =>
            { y with state := .inFlight, recipient := some x.id, retry := some 0, frameChannel := some c } }
        out := w.out ++ [.orderState
          { number := n, crew := o.crew, state := .inFlight, previous := .queued, cause := .sent, reason := none
            reply := none, note := none, retry := none }] } : Work).modChan c fun ch => { ch with
          inFlightBlocks := ch.inFlightBlocks + o.blocks }).transmit c f := by
  intro f
  have run : w.startSending c (.routine n o i) = (w.setOutstandingOrder c o n i).transmit c f := rfl
  refine ⟨fun resent => by rw [run, Work.setOutstandingOrder, if_neg resent], fun x queued order vehicle => ?_⟩
  let v := w.modTerminal i fun t =>
    { t with outstanding := some { frame := .order n .sending, channel := c, retry := 0 } }
  have order' : Table.look v.site.orders n = some o := order
  have vehicle' : Table.look v.site.roster i
        = some { x with outstanding := some { frame := .order n .sending, channel := c, retry := 0 } } := by
    rw [Work.modTerminal_site, Table.look_adjust_same, vehicle]; rfl
  rw [run, Work.setOutstandingOrder, if_pos queued, Work.orderSent_of_look vehicle' order', Work.moveOrder_of_look order',
    Work.reportOrder_live, queued]
  refine congrArg (fun z : Work => (z.modChan c _).transmit c f) ?_
  simp only [v, Work.modTerminal, Work.modOrder, Work.modSite, Work.emit, Table.adjust_adjust]
  rfl

/-! #### The frame -/

theorem Site.formFrame_spec (s : Site) (c : Chan) (d : Draft) (g : Option Nat) :
    let f := s.formFrame c d g
    let record := g.bind (Table.look s.roster)
    f.header.kind = d.kind ∧ f.header.sequence = d.sequence ∧ f.header.blocks = d.blocks ∧ f.header.channel = c
      ∧ f.payload = d.payload
      ∧ (d.dest.broadcast = false → f.header.addressee = d.dest.short.getD 7
        ∧ f.header.idField = if d.dest.short = none then some (.addressee, d.dest.id) else none)
      ∧ (d.dest.broadcast = true → f.header.addressee = 7 ∧ (record = none → f.header.idField = none)
        ∧ ∀ x, record = some x → f.header.idField = if x.short = none then some (.grant, x.id) else none)
      ∧ (d.needsAck = true → f.grant = .implied ∧ f.header.grant = d.dest.short.getD 7 ∧ f.target = d.dest.index
        ∧ f.acked = d.dest.index)
      ∧ (d.needsAck = false → f.grant = (if g.isSome = true then .explicit else .none)
        ∧ f.header.grant = (record.bind Terminal.short).getD 7 ∧ f.target = g ∧ f.acked = none)
      ∧ (let consulted := if d.kind = .idle then record else d.dest.link
        f.header.rate = rateFor (s.chan c).config consulted
          ∧ f.header.fec = fecFor (s.chan c).config f.header.rate consulted)
      ∧ f.airtime = airtimeOf f.header.idField.isSome d.blocks f.header.fec f.header.rate (s.paired c) := by
  intro f record
  refine ⟨rfl, rfl, rfl, rfl, rfl, fun single => ?_, fun broadcast => ?_, fun needs => ?_, fun needs => ?_, ⟨rfl, rfl⟩, ?_⟩
  · simp [f, Site.formFrame, single, Option.isNone_iff_eq_none]
  · refine ⟨by simp [f, Site.formFrame, broadcast], fun absent => ?_, fun x present => ?_⟩
    · simp [f, Site.formFrame, broadcast, record, absent]
    · simp [f, Site.formFrame, broadcast, record, present, Option.isNone_iff_eq_none]
  · simp [f, Site.formFrame, needs]
  · simp [f, Site.formFrame, needs, record]
  · have long : f.header.idField.isSome = if d.dest.broadcast then record.any (·.short.isNone) else d.dest.short.isNone := by
      have field : f.header.idField = if (if d.dest.broadcast then record.any (·.short.isNone) else d.dest.short.isNone) then
          (if d.dest.broadcast then record.map fun t => (.grant, t.id) else some (.addressee, d.dest.id)) else none := rfl
      rw [field]
      cases d.dest.broadcast with
      | true =>
        cases record with
        | none => rfl
        | some x =>
          simp only [if_true, Option.any_some, Option.map_some]
          cases x.short <;> rfl
      | false => cases d.dest.short <;> rfl
    rw [long]; rfl

/-- The order number's bytes, the most significant first (R54). -/
theorem extractByte (n k : Nat) (small : k + 8 ≤ 32) :
    (BitVec.ofNat 32 n).extractLsb' k 8 = BitVec.ofNat 8 (n / 2 ^ k) := by
  ext i hi
  rw [BitVec.getElem_extractLsb', BitVec.getLsbD_ofNat, ← BitVec.getLsbD_eq_getElem, BitVec.getLsbD_ofNat,
    Nat.testBit_div_two_pow]
  simp [show k + i < 32 by omega, hi, Nat.add_comm]

theorem Site.draftTo_of_look {s : Site} {i : Nat} {x : Terminal} (found : Table.look s.roster i = some x) (c : Chan)
    (kind : OutKind) (blocks : Nat) (payload : Payload) (needsAck : Bool) : s.draftTo c i kind blocks payload needsAck =
      { kind, dest := s.recipientAt c i, sequence := needsAck && x.sequenceBit, blocks, payload, needsAck } := by
  rw [Site.draftTo, found]; rfl

theorem Site.recipientAt_of_look {s : Site} {i : Nat} {x : Terminal} (found : Table.look s.roster i = some x) (c : Chan) :
    s.recipientAt c i = { broadcast := false, id := x.id, index := some i, short := if x.on c = true then x.short else none
                          link := if x.on c = true then some x else none } := by
  rw [Site.recipientAt, found]
  dsimp only
  cases x.on c <;> rfl

theorem Site.draftUrgent_item {s : Site} {i : Nat} {x : Terminal} (found : Table.look s.roster i = some x) (c : Chan)
    (id : Nat) (y : ItemContent) :
    let draft := fun kind blocks payload needsAck =>
      ({ kind, dest := s.recipientAt c i, sequence := needsAck && x.sequenceBit, blocks, payload, needsAck } : Draft)
    s.draftUrgent c (.item id i y) = match y with
      | .recall _ _ => draft .recall 1 (.item y) true
      | .permit _ _ _ _ (.switching _ _ _ _) => draft .permit 2 (.item y) true
      | .permit _ _ _ _ (.clearance l) => draft .permit (1 + (l.length + 3) / 4) (.item y) true
      | .permitResult _ r _ => draft .permitResult 1 (.item y) (decide (r = .accepted))
      | .watchStart _ _ _ | .watchStop => draft .watchSet 1 (.item y) true
      | .prompt => draft .prompt 0 (.item y) false := by
  intro draft
  rw [Site.draftUrgent, Site.draftTo_of_look found]
  cases y with
  | permit _ _ _ _ work => cases work <;> rfl
  | permitResult _ r _ => cases r <;> rfl
  | _ => rfl

theorem Site.draftOrder_eq {s : Site} {i : Nat} {x : Terminal} (found : Table.look s.roster i = some x) (c : Chan)
    (o : Order) (n : Nat) : s.draftOrder c o n i =
      { kind := .order, dest := s.recipientAt c i, sequence := true && x.sequenceBit, blocks := o.blocks
        payload := .order ([BitVec.ofNat 8 (n / 16777216), BitVec.ofNat 8 (n / 65536), BitVec.ofNat 8 (n / 256),
          BitVec.ofNat 8 n] ++ o.content.drop 4), needsAck := true } := by
  have first : (BitVec.ofNat 32 n).extractLsb' 0 8 = BitVec.ofNat 8 n := by
    rw [extractByte n 0 (by omega), Nat.pow_zero, Nat.div_one]
  rw [Site.draftOrder, Site.draftTo_of_look found, extractByte n 24 (by omega), extractByte n 16 (by omega),
    extractByte n 8 (by omega), first]
  rfl

/-- Settles O56. -/
theorem sendingsStart : Obligations.SendingsStart := by
  refine ⟨fun w c => ⟨fun f => ?_, fun d beacon => ⟨Work.settleGrant_of_none, Work.settleGrant_of_open⟩,
      fun e rest head => Work.startSending_alert head,
      fun e p q split ready clear => Work.startSending_urgent split ready clear, w.startSending_routine c, rfl, rfl⟩,
    Site.formFrame_spec, fun s c i x found => Site.recipientAt_of_look found c, fun s c => ⟨fun id => ⟨fun absent => ?_,
      fun i x found => ?_⟩, ?_, ?_, ?_, fun r => rfl, rfl, rfl,
      fun i x found => ⟨Site.draftUrgent_item found c, Site.draftOrder_eq found c⟩⟩⟩
  · intro t
    have run : t = w.setChans _ := w.transmit_eq c f
    rw [run]
    exact ⟨rfl, Work.setChans_chan _ _⟩
  · rw [Site.recipient, absent]
  · rw [Site.recipient, found]
  · rintro _ _ _ _ _ _ rfl; rfl
  · rintro _ _ _ _ rfl; rfl
  · rintro _ _ _ rfl; rfl

end Sys2Proof.Machine

/-! ### The end of a sending and of a window (R39 to R43, R59, R65, R67, R68) -/

namespace Sys2Proof.Machine

/-! #### The ALERT queue -/

theorem alertsAfterSend_of_idle {l : List AlertEntry} (idle : ∀ y ∈ l, y.sending = false) : alertsAfterSend l = l := by
  rw [alertsAfterSend, List.find?_eq_none.2 fun y mem => by rw [idle y mem]; exact Bool.false_ne_true]

theorem alertsAfterSend_of_split {p q : List AlertEntry} {e : AlertEntry} (idle : ∀ y ∈ p, y.sending = false)
    (sending : e.sending = true) : alertsAfterSend (p ++ e :: q) =
      p ++ q ++ if e.sendsLeft ≤ 1 then [] else [{ e with sendsLeft := e.sendsLeft - 1, sending := false }] := by
  have none_ : ∀ y ∈ p, ¬(y.sending = true) := fun y mem => by rw [idle y mem]; exact Bool.false_ne_true
  have found : (p ++ e :: q).find? (·.sending) = some e := by
    rw [List.find?_append, List.find?_eq_none.2 none_, List.find?_cons_of_pos sending]; rfl
  have left : (p ++ e :: q).eraseP (·.sending) = p ++ q := by
    rw [List.eraseP_append_right _ none_, List.eraseP_cons_of_pos sending]
  rw [alertsAfterSend, found]
  dsimp only
  rw [left]

theorem Work.pushAlert_eq (w : Work) (c : Chan) (a : AlertContent) :
    w.pushAlert c a = (w.modChan (w.site.logical c) fun ch => { ch with
      alerts := ch.alerts ++ [{ content := a, sending := false, sendsLeft := match a with
        | .alarmSeen _ _ => 1
        | .assist _ _ _ _ _ | .danger _ _ _ => 3 }] }).offer (w.site.logical c) := by
  cases a <;> rfl

/-! #### An entry that needs no acknowledgement -/

theorem ItemContent.needsAck_eq_false_iff (x : ItemContent) :
    x.needsAck = false ↔ x = .prompt ∨ ∃ n r a, x = .permitResult n r a ∧ r ≠ .accepted := by
  cases x with
  | permitResult n r a => cases r <;> simp [ItemContent.needsAck]
  | _ => simp [ItemContent.needsAck]

theorem Site.sendingEntry_of_none {s : Site} {c : Chan} (idle : ∀ e ∈ (s.chan c).urgents, e.status ≠ .sending) :
    s.sendingEntry c = none :=
  List.find?_eq_none.2 fun e mem => by simpa using idle e mem

theorem Site.sendingEntry_of_split {s : Site} {c : Chan} {p q : List UrgentEntry} {e : UrgentEntry}
    (split : (s.chan c).urgents = p ++ e :: q) (sending : e.status = .sending) (first : ∀ y ∈ p, y.status ≠ .sending) :
    s.sendingEntry c = some e := by
  rw [Site.sendingEntry, split, List.find?_append, List.find?_eq_none.2 fun y mem => by simpa using first y mem,
    List.find?_cons_of_pos (by simpa using sending)]
  rfl

/-- The room offered to the list, and the entry and the item that leave, change no permit. -/
theorem Work.leaveQueue_permits (w : Work) (c : Chan) (id : Nat) : (w.leaveQueue c id).site.permits = w.site.permits :=
  Site.rest_eq (Work.fillSome_rest _ c 16) Site.permits fun _ => rfl

/-- What leaves the queues at the end of a send (R67, R68, R145). -/
theorem Work.endUnacknowledged_spec (w : Work) (c : Chan) :
    let v := w.modChan c fun ch => { ch with alerts := alertsAfterSend ch.alerts }
    ((∀ e ∈ (w.site.chan c).urgents, e.status ≠ .sending) → w.endUnacknowledged c = v)
    ∧ ∀ p e q, (w.site.chan c).urgents = p ++ e :: q → e.status = .sending → (∀ y ∈ p, y.status ≠ .sending) →
      (e.needsAck = true → w.endUnacknowledged c = v)
      ∧ (∀ r, e.frame = .reply r →
        w.endUnacknowledged c = (v.modChan c fun ch => { ch with urgents := p ++ q }).fill c)
      ∧ ∀ id i x, e.frame = .item id i x → x.needsAck = false →
        (∀ it k y, Table.look w.site.pul id = some it → it.owner = .permit k → Table.look w.site.permits k = some y →
          y.retained = true → w.endUnacknowledged c =
            (v.leaveQueue c id).modSite fun s => { s with permits := s.permits.del k })
        ∧ ((∀ it k y, Table.look w.site.pul id = some it → it.owner = .permit k → Table.look w.site.permits k = some y →
          y.retained = false) → w.endUnacknowledged c = v.leaveQueue c id) := by
  intro v
  have urgents : (v.site.chan c).urgents = (w.site.chan c).urgents := by rw [Work.modChan_chan_same]
  have run : w.endUnacknowledged c = match v.site.sendingEntry c with
      | some e => if e.needsAck then v else v.sentUnacknowledged c e
      | none => v := rfl
  refine ⟨fun idle => ?_, fun p e q split sending first => ?_⟩
  · rw [run, Site.sendingEntry_of_none (by rwa [urgents])]
  have entry : v.site.sendingEntry c = some e := Site.sendingEntry_of_split (urgents.trans split) sending first
  rw [run, entry]
  dsimp only
  refine ⟨fun needs => if_pos needs, fun r frame => ?_, fun id i x frame needs => ?_⟩
  · have plain : e.needsAck = false := by rw [UrgentEntry.needsAck, frame]
    rw [if_neg (by rw [plain]; exact Bool.false_ne_true)]
    simp only [Work.sentUnacknowledged, frame]
    refine congrArg (fun u : Work => u.fill c) (Work.modChan_congr ?_)
    rw [urgents, split, List.eraseP_append_right _ fun y mem => by simpa using first y mem,
      List.eraseP_cons_of_pos (by simpa using sending)]
  · have plain : e.needsAck = false := by rw [UrgentEntry.needsAck, frame]; exact needs
    have permits : (v.leaveQueue c id).site.permits = w.site.permits := v.leaveQueue_permits c id
    rw [if_neg (by rw [plain]; exact Bool.false_ne_true)]
    simp only [Work.sentUnacknowledged, frame]
    constructor
    · intro it k y item owner permit retained
      rw [show Table.look v.site.pul id = some it from item]
      dsimp only
      rw [Work.itemSent, owner]
      dsimp only
      rw [Work.freeRetained, permits, permit, if_pos (show Option.any Permit.retained (some y) = true from retained)]
      rfl
    · intro kept
      cases item : Table.look w.site.pul id with
      | none => rw [show Table.look v.site.pul id = none from item]
      | some it =>
        rw [show Table.look v.site.pul id = some it from item]
        dsimp only
        rw [Work.itemSent]
        cases owner : it.owner with
        | permit k =>
          dsimp only
          rw [Work.freeRetained, permits, if_neg]
          intro h
          obtain ⟨y, permit, retained⟩ := (Option.any_eq_true _ _).1 h
          rw [kept it k y item owner permit] at retained
          exact Bool.false_ne_true retained
        | _ => rfl

/-! #### A trip -/

/-- A trip silences the transmitter and departs from UP to FAULT (R35, R41, R42). -/
theorem Work.trip_spec (w : Work) (c : Chan) (cause : ChannelCause) :
    let lc := w.site.logical c
    let t := w.trip c cause
    t = ((w.silence c).departUp lc fun _ => .fault).reportPair c cause
    ∧ (∃ l, t.out = l ++ (w.site.members c).map fun m => .channelState
      { channel := m, state := .fault, previous := (w.site.chan m).state, lampLit := (w.site.chan m).lampLit
        cause := if m = c then cause else .pairPartner })
    ∧ (∀ m ∈ w.site.members c,
      (t.site.chan m).state = .fault ∧ (t.site.chan m).previous = (w.site.chan m).state
        ∧ (t.site.chan m).lampLit = (w.site.chan m).lampLit ∧ (t.site.chan m).beaconTimer = none
        ∧ (t.site.chan m).beaconDue = false ∧ (t.site.chan m).sendFailureRun = 0
        ∧ (t.site.chan m).badWindowRun = 0 ∧ (t.site.chan m).activity = .idle ∧ (t.site.chan m).onAir = none
        ∧ (t.site.chan m).window = none)
    ∧ (t.site.chan lc).alerts = [] ∧ (t.site.chan lc).urgents = [] ∧ (t.site.chan lc).accessSet = []
    ∧ (t.site.chan lc).urgentDeficit = 0 ∧ (t.site.chan lc).routineDeficit = 0
    ∧ (t.site.chan lc).turn = .routine ∧ (t.site.chan lc).quantumAdded = false
    ∧ ∀ i, t.site.affiliatedOn i lc = false := by
  intro lc t
  let v := w.silence c
  let u := v.departUp lc fun _ => .fault
  have silent : ∀ d, v.site.chan d = if d ∈ w.site.members c then (w.site.chan d).silenced else w.site.chan d :=
    w.silence_chan c
  have members : ∀ d, v.site.members d = w.site.members d := Site.members_of_config fun d => by rw [silent d]; split <;> rfl
  have own : w.site.logical c = v.site.logical c := (Site.logical_of_config (fun d => by rw [silent d]; split <;> rfl) c).symm
  have listed : v.site.members lc = w.site.members c := by
    show v.site.members (w.site.logical c) = _
    rw [members, Site.members_logical]
  have site : t.site = u.site := by
    show (u.reportPair c cause).site = u.site
    rw [Work.reportPair_saying]; rfl
  obtain ⟨-, windows, onAirs, -, -, -, gone⟩ := v.departUp_spec lc fun _ => .fault
  have facts : ∀ m ∈ w.site.members c, (u.site.chan m).state = .fault ∧ (u.site.chan m).previous = (w.site.chan m).state
      ∧ (u.site.chan m).lampLit = (w.site.chan m).lampLit ∧ (u.site.chan m).beaconTimer = none
      ∧ (u.site.chan m).beaconDue = false ∧ (u.site.chan m).sendFailureRun = 0
      ∧ (u.site.chan m).badWindowRun = 0 ∧ (u.site.chan m).activity = .idle ∧ (u.site.chan m).onAir = none
      ∧ (u.site.chan m).window = none := fun m member => by
    obtain ⟨state, previous, timer, beacon, sends, windows_, activity, -, lamp, -⟩ :=
      v.departUp_member lc (fun _ => .fault) (by rw [listed]; exact member) rfl
    have here := (silent m).trans (if_pos member)
    rw [here] at previous activity lamp
    exact ⟨state, previous, lamp, timer, beacon, sends, windows_, activity, onAirs m (by rw [here]; rfl),
      windows m (by rw [here]; rfl)⟩
  refine ⟨rfl, ⟨u.out, ?_⟩, fun m member => by rw [site]; exact facts m member, ?_⟩
  · show (u.reportPair c cause).out = _
    have reported : u.site.members c = w.site.members c := (v.departUp_members lc (fun _ => .fault) c).trans (members c)
    rw [Work.reportPair_saying, reported]
    refine congrArg (u.out ++ ·) (List.map_congr_left fun m member => ?_)
    obtain ⟨state, previous, lamp, -⟩ := facts m member
    rw [Site.channelReport, state, previous, lamp]
  · obtain ⟨alerts, urgents, access, urgent, routine, turn, added⟩ := v.departUp_cleared lc (fun _ => .fault) rfl
    rw [site]
    exact ⟨alerts, urgents, access, urgent, routine, turn, added, gone⟩

/-! #### The end of a sending, and its window -/

theorem Work.countUnanswered_eq (w : Work) (c : Chan) (x : Window) :
    w.countUnanswered c x = if x.grant = .explicit ∧ x.targetHeard = false then
      w.bumpStat c fun y => { y with grantsUnanswered := y.grantsUnanswered.bump } else w := by
  rw [Work.countUnanswered]
  exact if_congr (and_congr_right fun _ => by rw [Bool.not_eq_true']) rfl rfl

theorem Work.openWindow_eq (w : Work) (c : Chan) (f : AirFrame) :
    let awaiting := fun (r : FrameRef) => match r with
      | .order n _ => FrameRef.order n .awaitingAck
      | .item id => .item id
    let u := (w.bumpStat c fun x => { x with outbound := x.outbound.bump }).endUnacknowledged c
    let v : Work := match f.acked with
      | none => u
      | some i => (u.modTerminal i fun t => { t with
          outstanding := t.outstanding.map fun o => { o with frame := awaiting o.frame } }).modChan c fun ch => { ch with
          urgents := ch.urgents.map fun e => if e.status = .sending then { e with status := .awaitingAck } else e }
    w.openWindow c f = (v.modChans (v.site.members c) fun ch =>
        { ch with activity := .listening, memberDone := false }).modChan c fun ch => { ch with
      onAir := none
      window := some
        { length := if f.grant = .none then 10 else 40, target := f.target, grant := f.grant, acked := f.acked
          goodSeen := false, badSeen := false, targetHeard := false } } := by
  rw [Work.openWindow]
  dsimp only
  rw [Work.awaitAck, AirFrame.window]
  have awaiting : FrameRef.await = fun r => match r with
      | .order n _ => FrameRef.order n .awaitingAck
      | .item id => .item id := funext fun r => by cases r <;> rfl
  cases f.acked with
  | none => rfl
  | some i => simp only [awaiting]

/-- The window that opens, and the members that listen for it (R59). -/
theorem Work.openWindow_window (w : Work) (c : Chan) (f : AirFrame) :
    ((w.openWindow c f).site.chan c).onAir = none
    ∧ ((w.openWindow c f).site.chan c).window = some
        { length := if f.grant = .none then 10 else 40, target := f.target, grant := f.grant, acked := f.acked
          goodSeen := false, badSeen := false, targetHeard := false }
    ∧ ∀ m ∈ w.site.members c, ((w.openWindow c f).site.chan m).activity = .listening := by
  obtain ⟨v, run, members⟩ : ∃ v : Work, w.openWindow c f =
      (v.modChans (v.site.members c) fun ch => { ch with activity := .listening, memberDone := false }).modChan c
        (fun ch => { ch with onAir := none, window := some f.window }) ∧ v.site.members c = w.site.members c :=
    ⟨_, rfl, Site.members_of_config
      (Work.awaitAck_kept (Work.endUnacknowledged_kept (Work.bumpStat_kept (.refl _) _ _) _) _ _).configs c⟩
  rw [run, Work.modChans_eq _ (v.site.members_nodup c), Work.setChans_modChan]
  refine ⟨by rw [Work.setChans_chan, if_pos rfl], by rw [Work.setChans_chan, if_pos rfl]; rfl, fun m member => ?_⟩
  rw [← members] at member
  rw [Work.setChans_chan, if_pos member]
  split <;> rfl

theorem Work.frameFails_eq (w : Work) (c : Chan) (f : AirFrame) :
    let v := w.silence c
    let u := if f.grant = .explicit then
        v.bumpStat c fun x => { x with grantsUnanswered := x.grantsUnanswered.bump } else v
    w.frameFails c f = (u.endUnacknowledged c).missOf f.acked := rfl

/-- The completion of a member's sending (R39, R40). -/
theorem Work.sendCompletes_eq {w : Work} {c : Chan} {f : AirFrame} (onAir : (w.site.chan (w.site.logical c)).onAir = some f)
    (sending : (w.site.chan c).activity = .sending) (first : (w.site.chan c).memberDone = false) :
    let v := w.modChan c fun ch => { ch with memberDone := true, sendFailureRun := 0 }
    ((∃ m ∈ w.site.members c, m ≠ c ∧ (w.site.chan m).memberDone = false) → w.sendCompletes c = v)
    ∧ ((∀ m ∈ w.site.members c, m ≠ c → (w.site.chan m).memberDone = true) →
      w.sendCompletes c = v.openWindow (w.site.logical c) f) := by
  intro v
  have chan : ∀ d, v.site.chan d =
      if d = c then { w.site.chan c with memberDone := true, sendFailureRun := 0 } else w.site.chan d :=
    fun d => w.modChan_chan c d _
  have members : v.site.members c = w.site.members c :=
    Site.members_of_config (fun d => by rw [chan d]; split <;> simp_all) c
  have run : w.sendCompletes c = if (v.site.members c).all fun m => (v.site.chan m).memberDone then
      v.openWindow (w.site.logical c) f else v := by
    rw [Work.sendCompletes]
    dsimp only
    rw [onAir]
    dsimp only
    rw [if_pos ⟨sending, by rw [first]; rfl⟩]
  rw [run, members]
  constructor
  · rintro ⟨m, member, other, waits⟩
    refine if_neg fun h => ?_
    have done := List.all_eq_true.1 h m member
    rw [chan m, if_neg other, waits] at done
    exact Bool.false_ne_true done
  · intro others
    refine if_pos (List.all_eq_true.2 fun m member => ?_)
    rw [chan m]
    by_cases is : m = c
    · rw [if_pos is]
    · rw [if_neg is]; exact others m member is

/-- A send failure, while draining, below the third in a row, and at it (R39, R42). -/
theorem Work.sendFails_eq {w : Work} {c : Chan} {f : AirFrame} (onAir : (w.site.chan (w.site.logical c)).onAir = some f)
    (sending : (w.site.chan c).activity = .sending) :
    let lc := w.site.logical c
    let u := w.bumpStat c fun x => { x with sendFailures := x.sendFailures.bump }
    ((w.site.chan lc).state = .draining → w.sendFails c = (u.frameFails lc f).drained lc)
    ∧ ((w.site.chan lc).state ≠ .draining →
      let v := (u.modChan c fun ch => { ch with sendFailureRun := ch.sendFailureRun + 1 }).frameFails lc f
      ((w.site.chan c).sendFailureRun < 2 → w.sendFails c = v.offer lc)
      ∧ (2 ≤ (w.site.chan c).sendFailureRun → w.sendFails c = v.trip c .sendFailures)) := by
  intro lc u
  have state : (u.site.chan lc).state = (w.site.chan lc).state := by
    show ((w.modChan c _).site.chan lc).state = _
    rw [Work.modChan_chan]
    split
    next is => rw [is]
    next => rfl
  let counted := u.modChan c fun ch => { ch with sendFailureRun := ch.sendFailureRun + 1 }
  have failures : (counted.site.chan c).sendFailureRun = (w.site.chan c).sendFailureRun + 1 := by
    rw [Work.modChan_chan_same]
    show ((w.modChan c _).site.chan c).sendFailureRun + 1 = _
    rw [Work.modChan_chan_same]
  have run : w.sendFails c = if (u.site.chan lc).state = .draining then (u.frameFails lc f).drained lc
      else if 3 ≤ (counted.site.chan c).sendFailureRun then (counted.frameFails lc f).trip c .sendFailures
      else (counted.frameFails lc f).offer lc := by
    rw [Work.sendFails]
    dsimp only
    rw [onAir]
    dsimp only
    rw [if_pos sending]
  rw [run, state, failures]
  refine ⟨fun draining => if_pos draining, fun live => ⟨fun below => ?_, fun third => ?_⟩⟩
  · rw [if_neg live, if_neg (by omega)]
  · rw [if_neg live, if_pos (by omega)]

/-- A window's close, while draining, with the receiver monitor satisfied, and at its limit (R43, R59). -/
theorem Work.closeWindow_eq {w : Work} {c : Chan} {x : Window} (opened : (w.site.chan c).window = some x) :
    let run := (w.site.chan c).badWindowRun
    let judged := if x.goodSeen = true then 0 else if x.badSeen = true ∧ x.grant ≠ .none then run + 1 else run
    let limit := if (w.site.chan c).config.extended = true then 64 else 16
    let u := w.silence c
    let v := u.modChan c fun ch => { ch with badWindowRun := judged }
    ((w.site.chan c).state = .draining → w.closeWindow c = ((u.countUnanswered c x).missOf x.acked).drained c)
    ∧ ((w.site.chan c).state ≠ .draining → (judged ≤ run ∨ judged < limit) →
      w.closeWindow c = ((v.countUnanswered c x).missOf x.acked).offer c)
    ∧ ((w.site.chan c).state ≠ .draining → run < judged → limit ≤ judged →
      w.closeWindow c = (v.trip c .receiverMonitor).countUnanswered c x) := by
  intro run judged limit u v
  have closes : w.closeWindow c = if (w.site.chan c).state = .draining then
        ((u.countUnanswered c x).missOf x.acked).drained c
      else if (decide (run < judged) && decide (limit ≤ judged)) = true then (v.trip c .receiverMonitor).countUnanswered c x
      else ((v.countUnanswered c x).missOf x.acked).offer c := by
    rw [Work.closeWindow, opened]
    rfl
  have trips : (decide (run < judged) && decide (limit ≤ judged)) = true ↔ run < judged ∧ limit ≤ judged := by
    rw [Bool.and_eq_true, decide_eq_true_eq, decide_eq_true_eq]
  rw [closes]
  refine ⟨fun draining => if_pos draining, fun live within => ?_, fun live rose reached => ?_⟩
  · rw [if_neg live, if_neg fun h => by have := trips.1 h; omega]
  · rw [if_neg live, if_pos (trips.2 ⟨rose, reached⟩)]

/-- Settles O57. -/
theorem sendsAndWindows : Obligations.SendsAndWindows := by
  refine ⟨fun l => ⟨alertsAfterSend_of_idle, ?_⟩, ItemContent.needsAck_eq_false_iff, fun w c => ⟨w.pushAlert_eq c,
    w.endUnacknowledged_spec c, rfl, w.trip_spec c, w.countUnanswered_eq c, fun _ => rfl, rfl,
    fun f => ⟨w.openWindow_eq c f, w.frameFails_eq c f⟩⟩, fun s c powered => ?_⟩
  · rintro p e q rfl idle sending
    exact alertsAfterSend_of_split idle sending
  intro lc
  refine ⟨fun f onAir sending => ⟨fun first => ?_, ?_⟩, fun x opened => ?_⟩
  · obtain ⟨waits, completes⟩ := Work.sendCompletes_eq (w := s.work) onAir sending first
    refine ⟨fun others => ?_, fun others => ?_⟩
    · obtain ⟨t, run, -, site, chans⟩ := event_channels powered (f := fun w => w.sendCompletes c) (ms := [])
        (cause := fun _ => .lever) ((waits others).trans ((Work.eq_setChans rfl rfl rfl fun d =>
          Work.modChan_chan _ c d _).trans (Work.saying_nil _ _).symm))
      exact ⟨t, run, site, chans⟩
    · intro w
      obtain ⟨onAir', window, listening⟩ := Work.openWindow_window
        (s.work.modChan c fun ch => { ch with memberDone := true, sendFailureRun := 0 }) lc f
      refine ⟨event_outcome powered (f := fun w => w.sendCompletes c) (completes others), onAir', window, fun m member =>
        listening m ?_⟩
      rw [Site.members_of_config (b := (s.work.modChan c _).site) (a := s.site) ?_ lc, Site.members_logical]
      · exact member
      · intro d
        rw [Work.modChan_chan]
        split
        next is => rw [is]; rfl
        next => rfl
  · intro w
    obtain ⟨draining, live⟩ := Work.sendFails_eq (w := s.work) onAir sending
    refine ⟨fun state => event_outcome powered (f := fun w => w.sendFails c) (draining state), fun state => ?_⟩
    intro v
    obtain ⟨below, third⟩ := live state
    exact ⟨fun h => event_outcome powered (f := fun w => w.sendFails c) (below h),
      fun h => event_outcome powered (f := fun w => w.sendFails c) (third h)⟩
  · obtain ⟨draining, within, trips⟩ := Work.closeWindow_eq (w := s.work) (c := lc) opened
    exact ⟨fun state => event_outcome powered (f := fun w => w.closeWindow (w.site.logical c)) (draining state),
      fun state h => event_outcome powered (f := fun w => w.closeWindow (w.site.logical c)) (within state h),
      fun state h k => event_outcome powered (f := fun w => w.closeWindow (w.site.logical c)) (trips state h k)⟩

end Sys2Proof.Machine

/-! ### Crews and the orders they leave (R11 to R13, R92, R100) -/

namespace Sys2Proof.Machine

/-! #### A walk over a delivery list -/

/-- What a walk over some orders does, when each step changes its own order alone, says at most one report and offers at most
one choice. -/
theorem foldl_orders {step : Work → Nat × Order → Work} {f : Order → Order} {said : Nat × Order → Option ReportBody}
    {offered : Nat × Order → Option Chan} (w : Work) (l : List (Nat × Order)) (apart : (l.map Prod.fst).Nodup)
    (stand : ∀ e ∈ l, Table.look w.site.orders e.1 = some e.2)
    (one : ∀ v e, v.site = { w.site with orders := v.site.orders } → Table.look v.site.orders e.1 = some e.2 →
      (step v e).site = { v.site with orders := (step v e).site.orders }
      ∧ (∀ k, Table.look (step v e).site.orders k = if k = e.1 then some (f e.2) else Table.look v.site.orders k)
      ∧ (step v e).out = v.out ++ (said e).toList ∧ (step v e).offers = v.offers ++ (offered e).toList) :
    let t := l.foldl step w
    t.site = { w.site with orders := t.site.orders }
    ∧ (∀ k, Table.look t.site.orders k = (Table.look w.site.orders k).map fun o => if k ∈ l.map Prod.fst then f o else o)
    ∧ t.out = w.out ++ l.filterMap said ∧ t.offers = w.offers ++ l.filterMap offered := by
  induction l generalizing w with
  | nil => exact ⟨rfl, fun k => by simp, (List.append_nil _).symm, (List.append_nil _).symm⟩
  | cons e l ih =>
    obtain ⟨fresh, apart⟩ := List.nodup_cons.1 apart
    have here := stand e (List.mem_cons_self ..)
    obtain ⟨site, orders, out, offers⟩ := one w e rfl here
    obtain ⟨site', orders', out', offers'⟩ := ih (step w e) apart
      (fun x mem => by
        have other : x.1 ≠ e.1 := fun is => fresh (List.mem_map.2 ⟨x, mem, is⟩)
        rw [orders, if_neg other]
        exact stand x (List.mem_cons_of_mem _ mem))
      fun v x base found => one v x (by rw [base, site]) found
    rw [List.foldl_cons]
    refine ⟨by rw [site', site], fun k => ?_, ?_, ?_⟩
    · rw [orders', orders]
      by_cases is : k = e.1
      · subst is
        rw [if_pos rfl, here, Option.map_some, Option.map_some, if_neg fresh, if_pos (by rw [List.map_cons]; exact List.mem_cons_self ..)]
      · rw [if_neg is]
        refine congrArg (Option.map · _) (funext fun o => if_congr ?_ rfl rfl)
        rw [List.map_cons, List.mem_cons, or_iff_right is]
    · rw [out', out, List.append_assoc]
      refine congrArg (w.out ++ ·) ?_
      cases h : said e <;> simp [h]
    · rw [offers', offers, List.append_assoc]
      refine congrArg (w.offers ++ ·) ?_
      cases h : offered e <;> simp [h]

theorem Site.mem_deliveryList (s : Site) (n : Nat) (e : Nat × Order) : e ∈ s.deliveryList n ↔ e ∈ s.orders ∧ e.2.crew = n := by
  rw [Site.deliveryList, List.mem_filter, s.rankedOrders_perm.mem_iff, beq_iff_eq]

theorem Site.orders_wf {s : Site} (sorted : s.sorted = true) : Table.wf s.orders = true := by
  obtain ⟨-, -, -, orders, -⟩ := (sorted_iff s).1 sorted
  exact orders

theorem Site.deliveryList_apart {s : Site} (sorted : s.sorted = true) (n : Nat) : ((s.deliveryList n).map Prod.fst).Nodup := by
  have apart : (s.orders.map Prod.fst).Nodup :=
    ((Table.wf_iff s.orders).1 (Site.orders_wf sorted)).imp fun h => by omega
  exact (List.filter_sublist.map Prod.fst).nodup ((s.rankedOrders_perm.map Prod.fst).nodup_iff.2 apart)

theorem Site.deliveryList_stand {s : Site} (sorted : s.sorted = true) {n : Nat} {e : Nat × Order} (mem : e ∈ s.deliveryList n) :
    Table.look s.orders e.1 = some e.2 :=
  Table.look_of_mem (Site.orders_wf sorted) ((s.mem_deliveryList n e).1 mem).1

theorem Site.deliveryList_listed {s : Site} (sorted : s.sorted = true) {n k : Nat} {o : Order}
    (found : Table.look s.orders k = some o) : k ∈ (s.deliveryList n).map Prod.fst ↔ o.crew = n := by
  constructor
  · intro listed
    obtain ⟨⟨j, p⟩, mem, rfl⟩ := List.mem_map.1 listed
    cases (Site.deliveryList_stand sorted mem).symm.trans found
    exact ((s.mem_deliveryList n _).1 mem).2
  · intro crew
    exact List.mem_map.2 ⟨(k, o), (s.mem_deliveryList n _).2 ⟨Table.mem_of_look found, crew⟩, rfl⟩

/-! #### The orders of a crew at its vehicle, and without one -/

/-- The report of an order that changes between QUEUED and HELD. -/
def Order.settles (e : Nat × Order) (new : OrderState) (cause : OrderCause) : ReportBody := .orderState
  { number := e.1, crew := e.2.crew, state := new, previous := e.2.state, cause, reason := none, reply := none
    note := none, retry := none }

/-- An order that enters QUEUED (R92). -/
def Order.queued (o : Order) : Order := { o with state := .queued, deadline := none, retry := none, frameChannel := none }

/-- An order that enters HELD at a count (R99). -/
def Order.heldAt (count : Nat) (o : Order) : Order :=
  { o with state := .held, deadline := some (count + secondsOf o.hold), retry := none, frameChannel := none }

theorem Work.moveOrder_spec {w : Work} {e : Nat × Order} (found : Table.look w.site.orders e.1 = some e.2)
    (idle : e.2.state ≠ .inFlight) (new : OrderState) (cause : OrderCause) (f : Order → Order) :
    let t := w.moveOrder e.1 new cause f
    t.site = { w.site with orders := t.site.orders }
    ∧ (∀ k, Table.look t.site.orders k = if k = e.1 then some { f e.2 with state := new } else Table.look w.site.orders k)
    ∧ t.out = w.out ++ [Order.settles e new cause] ∧ t.offers = w.offers := by
  intro t
  have run : t = _ := Work.moveOrder_of_look found new cause f
  rw [run, Work.reportOrder_live, if_neg idle]
  refine ⟨rfl, fun k => ?_, rfl, rfl⟩
  by_cases is : k = e.1
  · rw [if_pos is, is, Work.modOrder_look]
    exact congrArg (Option.map _) found
  · rw [if_neg is]
    exact Table.look_adjust_other _ _ _ _ is

theorem Work.queueOrder_spec {w : Work} {e : Nat × Order} (found : Table.look w.site.orders e.1 = some e.2)
    (idle : e.2.state ≠ .inFlight) (cause : OrderCause) :
    let t := w.queueOrder e.1 cause
    t.site = { w.site with orders := t.site.orders }
    ∧ (∀ k, Table.look t.site.orders k = if k = e.1 then some e.2.queued else Table.look w.site.orders k)
    ∧ t.out = w.out ++ [Order.settles e .queued cause]
    ∧ t.offers = w.offers ++ ((w.site.vehicleRecord e.2.crew).bind fun v => v.2.channel).toList := by
  intro t
  obtain ⟨site, orders, out, offers⟩ := Work.moveOrder_spec found idle .queued cause
    fun o => { o with deadline := none, retry := none, frameChannel := none }
  have run : t = match (w.site.vehicleRecord e.2.crew).bind fun v => v.2.channel with
      | some c => (w.moveOrder e.1 .queued cause fun o => { o with deadline := none, retry := none, frameChannel := none }).offer c
      | none => w.moveOrder e.1 .queued cause fun o => { o with deadline := none, retry := none, frameChannel := none } := by
    show w.queueOrder e.1 cause = _
    rw [Work.queueOrder, found] <;> rfl
  rw [run]
  cases (w.site.vehicleRecord e.2.crew).bind fun v => v.2.channel with
  | none => exact ⟨site, orders, out, by rw [offers]; exact (List.append_nil _).symm⟩
  | some c => exact ⟨site, orders, out, congrArg (· ++ [c]) offers⟩

/-- The crew's orders are shown to its AFFILIATED vehicle (R12, R18, R100). -/
theorem Work.ordersAtVehicle_spec {w : Work} (sorted : w.site.sorted = true) (n capacity : Nat) (cause : OrderCause) :
    let joins := fun (o : Order) => o.state = .held ∧ o.blocks ≤ capacity
    let leaves := fun (o : Order) => o.state = .queued ∧ capacity < o.blocks
    let t := w.ordersAtVehicle n capacity cause
    t.site = { w.site with orders := t.site.orders }
    ∧ (∀ k, Table.look t.site.orders k = (Table.look w.site.orders k).map fun o =>
      if o.crew = n ∧ joins o then o.queued else if o.crew = n ∧ leaves o then o.heldAt w.site.count else o)
    ∧ t.out = w.out ++ ((w.site.deliveryList n).filterMap fun e => if joins e.2 then some (Order.settles e .queued cause)
        else if leaves e.2 then some (Order.settles e .held .oversize) else none)
    ∧ t.offers = w.offers ++ ((w.site.deliveryList n).filterMap fun e =>
        if joins e.2 then (w.site.vehicleRecord n).bind fun v => v.2.channel else none) := by
  intro joins leaves t
  have walk := foldl_orders (step := fun w e => if joins e.2 then w.queueOrder e.1 cause
      else if leaves e.2 then w.holdOrder e.1 .oversize else w)
    (f := fun o => if joins o then o.queued else if leaves o then o.heldAt w.site.count else o)
    (said := fun e => if joins e.2 then some (Order.settles e .queued cause)
        else if leaves e.2 then some (Order.settles e .held .oversize) else none)
    (offered := fun e => if joins e.2 then (w.site.vehicleRecord e.2.crew).bind fun v => v.2.channel else none)
    w (w.site.deliveryList n) (Site.deliveryList_apart sorted n) (fun e mem => Site.deliveryList_stand sorted mem)
    fun v e base found => by
      by_cases h : joins e.2
      · obtain ⟨site, orders, out, offers⟩ := Work.queueOrder_spec found (by rw [h.1]; simp) cause
        simp only [if_pos h]
        exact ⟨site, orders, out, by rw [offers, base]; rfl⟩
      · simp only [if_neg h]
        by_cases k : leaves e.2
        · obtain ⟨site, orders, out, offers⟩ := Work.moveOrder_spec found (by rw [k.1]; simp) .held .oversize
            fun o => { o with deadline := some (v.site.holdDeadline o), retry := none, frameChannel := none }
          simp only [if_pos k]
          refine ⟨site, fun j => (orders j).trans ?_, out, offers.trans (List.append_nil _).symm⟩
          rw [Order.heldAt, Site.holdDeadline, base]
        · simp only [if_neg k]
          refine ⟨trivial, fun j => ?_, (List.append_nil _).symm, (List.append_nil _).symm⟩
          split
          next is => rw [is, found]
          next => rfl
  obtain ⟨site, orders, out, offers⟩ := walk
  refine ⟨site, fun k => (orders k).trans ?_, out, offers.trans (congrArg (w.offers ++ ·) ?_)⟩
  · cases found : Table.look w.site.orders k with
    | none => rfl
    | some o =>
      refine congrArg some ?_
      simp only [Site.deliveryList_listed sorted found]
      by_cases crew : o.crew = n <;> simp [crew]
  · refine List.filterMap_congr fun e mem => ?_
    rw [((w.site.mem_deliveryList n e).1 mem).2]

/-- The crew's QUEUED orders are held, in the order of the delivery list (R12, R22). -/
theorem Work.holdQueued_spec {w : Work} (sorted : w.site.sorted = true) (n : Nat) (cause : OrderCause) :
    let t := ((w.site.deliveryList n).filter fun e => e.2.state == .queued).foldl (fun w e => w.holdOrder e.1 cause) w
    t.site = { w.site with orders := t.site.orders }
    ∧ (∀ k, Table.look t.site.orders k = (Table.look w.site.orders k).map fun o =>
      if o.crew = n ∧ o.state = .queued then o.heldAt w.site.count else o)
    ∧ t.out = w.out ++ ((w.site.deliveryList n).filterMap fun e =>
        if e.2.state = .queued then some (Order.settles e .held cause) else none)
    ∧ t.offers = w.offers := by
  intro t
  have walk := foldl_orders (step := fun w e => if e.2.state == .queued then w.holdOrder e.1 cause else w)
    (f := fun o => if o.state = .queued then o.heldAt w.site.count else o)
    (said := fun e => if e.2.state = .queued then some (Order.settles e .held cause) else none)
    (offered := fun _ => none)
    w (w.site.deliveryList n) (Site.deliveryList_apart sorted n) (fun e mem => Site.deliveryList_stand sorted mem)
    fun v e base found => by
      by_cases k : e.2.state = .queued
      · obtain ⟨site, orders, out, offers⟩ := Work.moveOrder_spec found (by rw [k]; simp) .held cause
          fun o => { o with deadline := some (v.site.holdDeadline o), retry := none, frameChannel := none }
        simp only [k, beq_self_eq_true, if_true]
        refine ⟨site, fun j => (orders j).trans ?_, out, offers.trans (List.append_nil _).symm⟩
        rw [Order.heldAt, Site.holdDeadline, base]
      · simp only [beq_eq_false_iff_ne.2 k, if_neg k, Bool.false_eq_true, if_false]
        refine ⟨trivial, fun j => ?_, (List.append_nil _).symm, (List.append_nil _).symm⟩
        split
        next is => rw [is, found]
        next => rfl
  have run : t = (w.site.deliveryList n).foldl
      (fun w e => if e.2.state == .queued then w.holdOrder e.1 cause else w) w := List.foldl_filter ..
  rw [run]
  obtain ⟨site, orders, out, offers⟩ := walk
  refine ⟨site, fun k => (orders k).trans ?_, out, offers.trans (by simp)⟩
  cases found : Table.look w.site.orders k with
  | none => rfl
  | some o =>
    refine congrArg some ?_
    simp only [Site.deliveryList_listed sorted found]
    by_cases crew : o.crew = n <;> simp [crew]

/-- The crew's orders without an AFFILIATED vehicle (R12). -/
theorem Work.ordersWithoutVehicle_spec {w : Work} (sorted : w.site.sorted = true) (n : Nat) :
    let t := w.ordersWithoutVehicle n
    t.site = { w.site with orders := t.site.orders }
    ∧ (∀ k, Table.look t.site.orders k = (Table.look w.site.orders k).map fun o =>
      if o.crew = n ∧ o.state = .queued then o.heldAt w.site.count else o)
    ∧ t.out = w.out ++ ((w.site.deliveryList n).filterMap fun e =>
        if e.2.state = .queued then some (Order.settles e .held .vehicleChanged) else none)
    ∧ t.offers = w.offers := Work.holdQueued_spec sorted n .vehicleChanged

/-! #### LOAD_CREW and DROP_CREW -/

theorem Work.vehicleChanged_of_reached {w : Work} {n i : Nat} {x : Terminal} (vehicle : w.site.vehicleRecord n = some (i, x))
    (reached : x.state = .affiliated) :
    w.vehicleChanged n = (w.ordersAtVehicle n x.capacity .vehicleChanged).placeOwedDangers n := by
  rw [Work.vehicleChanged, vehicle]
  exact if_pos reached

theorem Work.vehicleChanged_of_unreached {w : Work} {n : Nat}
    (unreached : ∀ i x, w.site.vehicleRecord n = some (i, x) → x.state ≠ .affiliated) :
    w.vehicleChanged n = w.ordersWithoutVehicle n := by
  rw [Work.vehicleChanged]
  cases vehicle : w.site.vehicleRecord n with
  | none => rfl
  | some v => exact if_neg (unreached v.1 v.2 vehicle)

/-- What LOAD_CREW asks of the terminals it names (R11). -/
structure Site.crewLoads (s : Site) (crew : Half) (vehicle : Word) (members : List Word) : Prop where
  ranges : crewRanges crew vehicle members = true
  held : s.allHeld vehicle members = true
  vehicles : ∀ i ∈ s.namedVehicle vehicle, s.kindAt i .vehicle = true
  persons : ∀ i ∈ s.namedMembers members, s.kindAt i .personal = true
  free : ∀ i ∈ (s.namedVehicle vehicle).toList ++ s.namedMembers members, s.freeFor crew.toNat i = true

/-- LOAD_CREW once its terminals pass. -/
theorem takeLoadCrew_of_loads {w : Work} {crew : Half} {vehicle : Word} {members : List Word}
    (loads : w.site.crewLoads crew vehicle members) (key : Half) :
    let v := w.site.namedVehicle vehicle
    let ms := w.site.namedMembers members
    takeLoadCrew crew vehicle key members w = match Table.look w.site.crews crew.toNat with
      | some old =>
        if old.vehicle ≠ v ∧ (w.site.moving crew.toNat ∨ w.site.issuing crew.toNat) then w.refused .badState
        else if old.key ≠ key.toNat ∧ w.site.issuing crew.toNat then w.refused .badState
        else if old.members.any fun i => !ms.contains i && (Table.look w.site.watches i).isSome then w.refused .badState
        else (w.replaceCrew crew.toNat old v ms key.toNat).taken .empty
      | none =>
        if w.site.crews.length < 64 then (w.createCrew crew.toNat v ms key.toNat).taken .empty else w.refused .noRoom := by
  intro v ms
  have kinds : (v.toList.all (w.site.kindAt · .vehicle) && ms.all (w.site.kindAt · .personal)) = true := by
    rw [Bool.and_eq_true, List.all_eq_true, List.all_eq_true]
    exact ⟨fun i mem => loads.vehicles i (Option.mem_toList.1 mem), loads.persons⟩
  have free : (v.toList ++ ms).all (w.site.freeFor crew.toNat) = true := List.all_eq_true.2 loads.free
  unfold takeLoadCrew
  dsimp only
  rw [if_neg (by rw [loads.ranges]; decide), if_neg (by rw [loads.held]; decide), if_neg (by rw [kinds]; decide),
    if_neg (by rw [free]; decide)] <;> rfl

/-- LOAD_CREW of an existing crew whose members that leave are unsupervised (R12). -/
theorem takeLoadCrew_of_present {w : Work} {crew : Half} {vehicle : Word} {members : List Word} {key : Half} {old : Crew}
    (loads : w.site.crewLoads crew vehicle members) (found : Table.look w.site.crews crew.toNat = some old)
    (unwatched : ∀ i ∈ old.members, i ∉ w.site.namedMembers members → Table.look w.site.watches i = none)
    (keyed : old.key = key.toNat ∨ w.site.issuing crew.toNat = false)
    (settled : old.vehicle = w.site.namedVehicle vehicle
      ∨ w.site.moving crew.toNat = false ∧ w.site.issuing crew.toNat = false) :
    takeLoadCrew crew vehicle key members w = (w.replaceCrew crew.toNat old (w.site.namedVehicle vehicle)
      (w.site.namedMembers members) key.toNat).taken .empty := by
  rw [takeLoadCrew_of_loads loads, found]
  dsimp only
  rw [if_neg, if_neg, if_neg]
  · intro h
    obtain ⟨i, member, k⟩ := List.any_eq_true.1 h
    rw [Bool.and_eq_true, Bool.not_eq_true', List.contains_eq_mem, decide_eq_false_iff_not] at k
    rw [unwatched i member k.1] at k
    exact Bool.false_ne_true k.2
  · rintro ⟨other, issuing⟩
    rcases keyed with same | none_
    · exact other same
    · rw [none_] at issuing; exact Bool.false_ne_true issuing
  · rintro ⟨other, busy⟩
    rcases settled with same | ⟨still, none_⟩
    · exact other same
    · rw [still, none_] at busy; simp at busy

/-- A terminal that LOAD_CREW names or leaves out. -/
theorem Terminal.rebound_filter (n : Nat) {old named : List Nat} {i : Nat} (t : Terminal) :
    Terminal.rebound n (old.filter fun i => !named.contains i) named i t =
      if i ∈ named then { t with crew := some n, origin := .loaded }
      else if i ∈ old then { t with crew := none } else t := by
  rw [Terminal.rebound]
  by_cases is : i ∈ named
  · rw [if_pos is, if_pos is]
  · rw [if_neg is, if_neg is]
    refine if_congr ?_ rfl rfl
    simp [List.mem_filter, is]

/-- A request that rebinds terminals and changes the crew table, and nothing else. -/
theorem request_rebinds {s : State} {h : Hdr} {kind : Byte} {right : Bool} {act : Link → Work → Taking}
    (run : request h kind right act s = .next (s.answered h kind (act (s.link.arrived s.site) s.begun)))
    {w : Work} {n : Nat} {leaving named : List Nat} {crews : Table Crew}
    (hx : act (s.link.arrived s.site) s.begun = w.taken .empty)
    (site : w.site = { s.site.arrived with roster := w.site.roster, crews })
    (roster : ∀ i, Table.look w.site.roster i = (Table.look s.site.roster i).map (Terminal.rebound n leaving named i))
    (quiet : w.offers = []) :
    ∃ t, request h kind right act s = .next t ∧ s.repliesTo t h kind .ok .empty
      ∧ t.site = { s.site.arrived with roster := t.site.roster, crews }
      ∧ ∀ i, Table.look t.site.roster i = (Table.look s.site.roster i).map (Terminal.rebound n leaving named i) := by
  have stands : (s.answered h kind (w.taken .empty)).site = w.site := State.answered_site_of_no_offers _ _ _ quiet
  rw [hx] at run
  exact ⟨_, run, State.answered_places _ _ _ _, by rw [stands]; exact site, by rw [stands]; exact roster⟩

theorem Work.foldl_modTerminal_offers (f : Terminal → Terminal) (l : List Nat) (w : Work) :
    (l.foldl (fun w i => w.modTerminal i f) w).offers = w.offers := by
  induction l generalizing w with
  | nil => rfl
  | cons i l ih => exact ih _

theorem Work.rebind_offers (w : Work) (n : Nat) (leaving named : List Nat) : (w.rebind n leaving named).offers = w.offers :=
  (Work.foldl_modTerminal_offers _ _ _).trans (Work.foldl_modTerminal_offers _ _ _)

/-- Settles O41. -/
theorem crewRequestsTaken : Obligations.CrewRequestsTaken := by
  refine ⟨fun w n => ⟨⟨fun i x vehicle reached => Work.vehicleChanged_of_reached vehicle reached,
      Work.vehicleChanged_of_unreached⟩, fun sorted => ?_⟩, fun h s => ⟨fun crew vehicle key count members => ?_,
      fun crew c a range found empty unlicensed unwatched => ?_⟩⟩
  · intro ranked report queued held
    exact ⟨fun capacity cause => Work.ordersAtVehicle_spec sorted n capacity cause, Work.ordersWithoutVehicle_spec sorted n⟩
  · intro v ms a lengths ranges allHeld vehicles persons free
    have loads : s.begun.site.crewLoads crew vehicle members := ⟨ranges, allHeld, vehicles, persons, free⟩
    have length : (lengthIs h (9 + 4 * count.toNat) && members.length == count.toNat) = true := by
      rw [lengthIs_of_admits a, lengths, beq_self_eq_true]; rfl
    have run := request_admitted a 0x13 _ length (fun _ w => takeLoadCrew crew vehicle key members w)
    refine ⟨fun absent room => ?_, fun old found unwatched keyed => ⟨fun same => ?_, fun other still calm => ?_⟩⟩
    · have here : Table.look s.begun.site.crews crew.toNat = none := absent
      obtain ⟨site, roster⟩ := (s.begun.putCrew crew.toNat
        { vehicle := v, members := ms, key := key.toNat, alarms := s.site.alarmsAmong ms, permits := 0 }).rebind_spec crew.toNat []
        (v.toList ++ ms)
      refine request_rebinds run (leaving := []) ?_ (site.trans ?_) roster (Work.rebind_offers _ _ _ _)
      · show takeLoadCrew _ _ _ _ _ = _
        rw [takeLoadCrew_of_loads loads, here]
        exact if_pos room
      · rfl
    · have taken := takeLoadCrew_of_present (w := s.begun) (key := key) loads found unwatched keyed (.inl same)
      let joined := ms.filter fun i => !old.members.contains i
      let stored : Crew := { old with vehicle := v, members := ms, key := key.toNat
                                      alarms := old.alarms + s.site.alarmsAmong joined }
      obtain ⟨site, roster⟩ := (s.begun.putCrew crew.toNat stored).rebind_spec crew.toNat
        (old.terminals.filter fun i => !(v.toList ++ ms).contains i) (v.toList ++ ms)
      have replaced : s.begun.replaceCrew crew.toNat old v ms key.toNat = _ := if_pos same.symm
      obtain ⟨t, next, places, left, rosters⟩ := request_rebinds run (taken.trans (congrArg (Work.taken · .empty) replaced))
        site roster (Work.rebind_offers _ _ _ _)
      refine ⟨t, next, places, left.trans ?_, fun i => (rosters i).trans ?_⟩
      · have kept : stored = { old with members := ms, key := key.toNat, alarms := old.alarms + s.site.alarmsAmong joined } := by
          show ({ old with vehicle := v, members := ms, key := key.toNat
                           alarms := old.alarms + s.site.alarmsAmong joined } : Crew) = _
          rw [← same]
        rw [show (s.begun.putCrew crew.toNat stored).site.crews = s.site.crews.put crew.toNat stored from rfl, kept]
      · refine congrArg (Option.map · _) (funext fun x => ?_)
        rw [Terminal.rebound_filter]
        by_cases is : i ∈ v.toList ++ ms
        · rw [if_pos is, if_pos is]
        · rw [if_neg is, if_neg is]
          refine if_congr ?_ rfl rfl
          rw [Crew.terminals, same, List.mem_append, or_iff_right fun k => is (List.mem_append_left _ k)]
    · have taken := takeLoadCrew_of_present (w := s.begun) (key := key) loads found unwatched keyed (.inr ⟨still, calm⟩)
      have replaced : s.begun.replaceCrew crew.toNat old v ms key.toNat = _ := if_neg fun same => other same.symm
      refine run.trans (congrArg (fun x => Host.Outcome.next (s.answered h 0x13 x)) ?_)
      exact taken.trans (congrArg (Work.taken · .empty) replaced)
  · obtain ⟨site, roster⟩ := s.begun.rebind_spec crew.toNat c.terminals []
    refine request_rebinds (request_taken a 0x14 fun _ w => takeDropCrew crew w)
      (w := (s.begun.rebind crew.toNat c.terminals []).modSite fun s => { s with crews := s.crews.del crew.toNat })
      (leaving := c.terminals) (named := []) (n := crew.toNat) ?_ ?_ roster (Work.rebind_offers _ _ _ _)
    · show takeDropCrew crew s.begun = _
      have here : Table.look s.begun.site.crews crew.toNat = some c := found
      rw [takeDropCrew, range]
      dsimp only
      rw [here]
      dsimp only
      rw [if_neg]
      rintro (orders | permits | watched)
      · rw [show s.begun.site.deliveryList crew.toNat = [] from empty] at orders
        exact Bool.false_ne_true orders
      · exact permits unlicensed
      · obtain ⟨i, member, k⟩ := List.any_eq_true.1 watched
        rw [show Table.look s.begun.site.watches i = none from unwatched i member] at k
        exact Bool.false_ne_true k
    · exact congrArg (fun x : Site => { x with crews := x.crews.del crew.toNat }) site

end Sys2Proof.Machine

/-! ### The outcomes of an outstanding frame (R74, R75, R83, R108) -/

namespace Sys2Proof.Machine

/-! #### The end of an outstanding frame -/

theorem Site.outstanding_of_look {s : Site} {i : Nat} {x : Terminal} {o : Outstanding} (found : Table.look s.roster i = some x)
    (out : x.outstanding = some o) : (Table.look s.roster i).bind Terminal.outstanding = some o := by
  rw [found]; exact out

theorem Work.endOutstanding_of_out {w : Work} {i : Nat} {o : Outstanding}
    (out : (Table.look w.site.roster i).bind Terminal.outstanding = some o) (toggle : Bool) :
    w.endOutstanding i toggle =
      ((w.modTerminal i fun t => { t with outstanding := none, sequenceBit := t.sequenceBit != toggle }).modChan o.channel
        fun ch => { ch with
          window := ch.window.map fun x => if x.acked = some i then { x with acked := none } else x
          onAir := ch.onAir.map fun x => if x.acked = some i then { x with acked := none } else x }).offer o.channel := by
  rw [Work.endOutstanding, out]

theorem Work.endOutstanding_spec {w : Work} {i : Nat} {o : Outstanding}
    (out : (Table.look w.site.roster i).bind Terminal.outstanding = some o) (toggle : Bool) :
    let t := w.endOutstanding i toggle
    t = { w with
        site := { w.site with
          roster := w.site.roster.adjust i fun y =>
            { y with outstanding := none, sequenceBit := y.sequenceBit != toggle }
          channels := t.site.channels }
        offers := w.offers ++ [o.channel] }
      ∧ ∀ d, t.site.chan d = if d = o.channel then
          { w.site.chan d with
            window := (w.site.chan d).window.map fun y => if y.acked = some i then { y with acked := none } else y
            onAir := (w.site.chan d).onAir.map fun y => if y.acked = some i then { y with acked := none } else y }
        else w.site.chan d := by
  intro t
  have run : t = _ := Work.endOutstanding_of_out out toggle
  rw [run]
  refine ⟨rfl, fun d => ?_⟩
  rw [Work.offer_site, Work.modChan_chan]
  by_cases is : d = o.channel
  · rw [if_pos is, if_pos is, is]; rfl
  · rw [if_neg is, if_neg is]; rfl

/-- The end of a frame leaves the Pending Urgent List alone. -/
theorem Work.endOutstanding_pul (w : Work) (i : Nat) (toggle : Bool) : (w.endOutstanding i toggle).site.pul = w.site.pul := by
  unfold Work.endOutstanding
  split <;> rfl

/-- The record of a terminal whose credit has been set. -/
theorem Work.setCredit_look {w : Work} {i : Nat} {x : Terminal} (found : Table.look w.site.roster i = some x) (free : Nat) :
    Table.look (w.setCredit i free).site.roster i =
      some { x with credit := if x.kind = .vehicle then min free x.capacity else x.credit } := by
  by_cases kind : x.kind = .vehicle
  · have adjusted : Table.look (w.modTerminal i fun y => { y with credit := min free y.capacity }).site.roster i =
        some { x with credit := min free x.capacity } := by
      rw [Work.modTerminal_site, Table.look_adjust_same, found]; rfl
    rw [if_pos kind]
    obtain ⟨rises, stays⟩ := Work.setCredit_of_vehicle found kind free
    by_cases h : x.channel = none ∨ min free x.capacity ≤ x.credit
    · rw [stays h]; exact adjusted
    · obtain ⟨on_, lower⟩ := not_or.1 h
      obtain ⟨c, at_⟩ := Option.ne_none_iff_exists'.1 on_
      rw [rises c at_ (by omega)]; exact adjusted
  · have personal : x.kind = .personal := by cases h : x.kind <;> simp_all
    rw [if_neg kind, Work.setCredit_of_personal found personal, found]

/-! #### Acknowledgement and failure -/

theorem Work.acknowledge_of_out {w : Work} {i : Nat} {x : Terminal} {o : Outstanding}
    (found : Table.look w.site.roster i = some x) (out : x.outstanding = some o) (free : Nat) :
    let v := (w.setCredit i free).endOutstanding i true
    Table.look v.site.roster i = some { x with
        credit := if x.kind = .vehicle then min free x.capacity else x.credit, outstanding := none
        sequenceBit := !x.sequenceBit }
      ∧ (∀ n st, o.frame = .order n st → w.acknowledge i free = v.orderAcked n)
      ∧ ∀ id, o.frame = .item id →
        (∀ it, Table.look w.site.pul id = some it → w.acknowledge i free = (v.leaveQueue o.channel id).itemAcked it)
        ∧ (Table.look w.site.pul id = none → w.acknowledge i free = v.leaveQueue o.channel id) := by
  intro v
  have credited := Work.setCredit_look found free
  have still : (Table.look (w.setCredit i free).site.roster i).bind Terminal.outstanding = some o := by
    rw [credited]; exact out
  have pul : v.site.pul = w.site.pul := by
    refine (Work.endOutstanding_pul _ _ _).trans ?_
    obtain ⟨roster, site⟩ := w.setCredit_site i free
    rw [site]
  refine ⟨?_, fun n st frame => ?_, fun id frame => ⟨fun it item => ?_, fun item => ?_⟩⟩
  · have run : v = _ := Work.endOutstanding_of_out still true
    rw [run]
    show Table.look (Table.adjust _ i _) i = _
    rw [Table.look_adjust_same, credited]
    simp
  · rw [Work.acknowledge, Site.outstanding_of_look found out]
    dsimp only
    rw [frame]
  · rw [Work.acknowledge, Site.outstanding_of_look found out]
    dsimp only
    rw [frame]
    dsimp only
    rw [show Table.look ((w.setCredit i free).endOutstanding i true).site.pul id = some it from by rw [pul]; exact item]
  · rw [Work.acknowledge, Site.outstanding_of_look found out]
    dsimp only
    rw [frame]
    dsimp only
    rw [show Table.look ((w.setCredit i free).endOutstanding i true).site.pul id = none from by rw [pul]; exact item]

theorem Work.failFrame_of_frame (w : Work) (i : Nat) (o : Outstanding) (absent : Bool) :
    let v := w.endOutstanding i true
    (∀ n st, o.frame = .order n st →
      w.failFrame i o absent = v.orderFailed i n (if absent = true then .vehicleAbsent else .deliveryFailed))
    ∧ ∀ id, o.frame = .item id →
      (∀ it, Table.look w.site.pul id = some it → w.failFrame i o absent = (v.leaveQueue o.channel id).itemFailed it absent)
      ∧ (Table.look w.site.pul id = none → w.failFrame i o absent = v.leaveQueue o.channel id) := by
  intro v
  have pul : v.site.pul = w.site.pul := Work.endOutstanding_pul _ _ _
  refine ⟨fun n st frame => ?_, fun id frame => ⟨fun it item => ?_, fun item => ?_⟩⟩
  · rw [Work.failFrame, frame]
  · rw [Work.failFrame, frame]
    dsimp only
    rw [show Table.look (w.endOutstanding i true).site.pul id = some it from by rw [pul]; exact item]
  · rw [Work.failFrame, frame]
    dsimp only
    rw [show Table.look (w.endOutstanding i true).site.pul id = none from by rw [pul]; exact item]

/-! #### A miss -/

/-- The terminal's outstanding frame is an item of a terminal's. -/
theorem Site.terminalItemOut_of_item {s : Site} {i id : Nat} {x : Terminal} {o : Outstanding}
    (found : Table.look s.roster i = some x) (out : x.outstanding = some o) (frame : o.frame = .item id) :
    s.terminalItemOut i = true ↔ ∃ it, Table.look s.pul id = some it ∧ it.owner.isTerminal = true := by
  obtain ⟨frame', channel, retry⟩ := o
  cases frame
  rw [Site.terminalItemOut, Site.outstanding_of_look found out]
  exact Option.any_eq_true ..

theorem Site.terminalItemOut_of_order {s : Site} {i n : Nat} {x : Terminal} {o : Outstanding} {st : EntryStatus}
    (found : Table.look s.roster i = some x) (out : x.outstanding = some o) (frame : o.frame = .order n st) :
    s.terminalItemOut i = false := by
  obtain ⟨frame', channel, retry⟩ := o
  cases frame
  rw [Site.terminalItemOut, Site.outstanding_of_look found out]

/-- A miss within the limit and above it (R75). -/
theorem Work.miss_of_out {w : Work} {i : Nat} {x : Terminal} {o : Outstanding}
    (found : Table.look w.site.roster i = some x) (out : x.outstanding = some o) :
    let v := w.bumpStat o.channel fun y => { y with acksMissed := y.acksMissed.bump }
    let limit := (w.site.chan o.channel).config.retryLimit
    (o.retry + 1 ≤ limit →
      (∀ n st, o.frame = .order n st → w.miss i = ((v.modTerminal i fun y => { y with
          outstanding := some { frame := .order n .retry, channel := o.channel, retry := o.retry + 1 } }).modOrder n fun y =>
          { y with retry := some (o.retry + 1) }).offer o.channel)
      ∧ ∀ id, o.frame = .item id → w.miss i = ((v.modTerminal i fun y => { y with
          outstanding := some { frame := .item id, channel := o.channel, retry := o.retry + 1 } }).modChan o.channel
          fun ch => { ch with
            urgents := ((ch.urgents.filter (·.holds id)).map fun e => { e with status := .retry })
              ++ ch.urgents.filter fun e => !e.holds id }).offer o.channel)
    ∧ (limit < o.retry + 1 →
      (∀ n st, o.frame = .order n st → w.miss i =
        ((v.modOrder n fun y => { y with retry := some (o.retry + 1) }).failFrame i o false).absent i .retryFailure)
      ∧ (∀ id, o.frame = .item id →
        let u := (v.failFrame i o false).absent i .retryFailure
        w.miss i = if (∃ it, Table.look w.site.pul id = some it ∧ it.owner.isTerminal = true) then u.serveNotes else u)
      ∧ ∀ d, (w.miss i).site.affiliatedOn i d = false) := by
  intro v limit
  have counted : (v.site.chan o.channel).config.retryLimit = limit := by
    show ((w.modChan o.channel _).site.chan o.channel).config.retryLimit = _
    rw [Work.modChan_chan_same]
  have run : w.miss i = if o.retry + 1 ≤ limit then v.retryFrame i o else v.exhaustFrame i o := by
    rw [Work.miss, Site.outstanding_of_look found out]
    dsimp only
    rw [counted]
  have found' : Table.look v.site.roster i = some x := found
  refine ⟨fun within => ⟨fun n st frame => ?_, fun id frame => ?_⟩, fun above => ⟨fun n st frame => ?_, fun id frame => ?_,
    fun d => ?_⟩⟩
  · rw [run, if_pos within, Work.retryFrame, frame]
  · rw [run, if_pos within, Work.retryFrame, frame]
  · rw [run, if_neg (by omega), Work.exhaustFrame, Site.terminalItemOut_of_order found' out frame, frame]
    rfl
  · intro u
    rw [run, if_neg (by omega), Work.exhaustFrame, frame]
    exact if_congr (Site.terminalItemOut_of_item found' out frame) rfl rfl
  · rw [run, if_neg (by omega)]
    have gone : ∀ y : Work, (y.absent i .retryFailure).site.affiliatedOn i d = false := fun y => y.absent_gone i _ d
    unfold Work.exhaustFrame
    dsimp only
    split
    · exact (Work.serveNotes_steady (.refl _)).thinned.affiliatedOn i d (gone _)
    · exact gone _

/-! #### The list, and the notes that wait -/

theorem Work.fillSome_of_unasked {w : Work} {c : Chan}
    (unasked : ∀ e ∈ w.site.pul, e.2.location = none → w.site.affiliatedOn e.2.addressee c = false) (n : Nat) :
    Work.fillSome c n w = w := by
  cases n with
  | zero => rfl
  | succ n =>
    have nobody : w.site.nextWaiting c = none := Table.seek_eq_none fun e mem => by
      by_cases waits : e.2.location = none
      · rw [unasked e mem waits, Bool.and_false]
      · rw [beq_eq_false_iff_ne.2 waits, Bool.false_and]
    rw [Work.fillSome, nobody]
    exact ite_self w

theorem Work.fillSome_of_split {w : Work} {c : Chan} {p q : List (Nat × PulItem)} {k : Nat} {it : PulItem}
    (up : (w.site.chan c).state = .up) (room : (w.site.chan c).urgents.length < 16) (split : w.site.pul = p ++ (k, it) :: q)
    (waits : it.location = none) (reached : w.site.affiliatedOn it.addressee c = true)
    (before : ∀ e ∈ p, e.2.location = none → w.site.affiliatedOn e.2.addressee c = false) (n : Nat) :
    Work.fillSome c (n + 1) w = Work.fillSome c n (w.moveItem k it c) := by
  have next : w.site.nextWaiting c = some (k, it) :=
    Table.seek_of_split split (by rw [waits, reached]; rfl) fun e mem => by
      by_cases h : e.2.location = none
      · rw [before e mem h, Bool.and_false]
      · rw [beq_eq_false_iff_ne.2 h, Bool.false_and]
  rw [Work.fillSome, if_pos ⟨up, (Site.urgentRoom_iff _ _).2 room⟩, next]

/-- The terminal at an index owns a RECALL (R108). -/
def Site.recalls (s : Site) (i : Nat) : Prop := ∃ e ∈ s.pul, e.2.owner = .terminal i ∧ ∃ a b, e.2.content = .recall a b

theorem ItemContent.kind_recall_iff (x : ItemContent) : x.kind = .recall ↔ ∃ a b, x = .recall a b := by
  cases x <;> simp [ItemContent.kind]

theorem Site.owned_recall_iff (s : Site) (i : Nat) : (s.owned (.terminal i) .recall).isNone = true ↔ ¬s.recalls i := by
  rw [Option.isNone_iff_eq_none, Site.owned, Table.seek, List.find?_eq_none, Site.recalls]
  simp only [Bool.and_eq_true, beq_iff_eq, ItemContent.kind_recall_iff, not_exists, not_and]

theorem Site.terminalItemsFull_iff (s : Site) :
    s.terminalItemsFull = true ↔ 16 ≤ (s.pul.filter fun e => e.2.owner.isTerminal).length := decide_eq_true_iff

theorem Work.placeNoteRecall_of_idle {w : Work} {i : Nat} {x : Terminal} (found : Table.look w.site.roster i = some x)
    (idle : x.notes = [] ∨ w.site.recalls i ∨ ¬(w.site.pul.filter fun e => e.2.owner.isTerminal).length < 16) :
    w.placeNoteRecall i = w := by
  rw [Work.placeNoteRecall, found]
  dsimp only
  cases notes : x.notes with
  | nil => rfl
  | cons note rest =>
    refine if_neg fun h => ?_
    obtain ⟨free, room⟩ := h
    rcases idle with none_ | busy | full
    · rw [none_] at notes; exact absurd notes.symm (List.cons_ne_nil _ _)
    · exact (w.site.owned_recall_iff i).1 free busy
    · rw [(w.site.terminalItemsFull_iff).2 (by omega)] at room; exact Bool.false_ne_true room

theorem Work.placeNoteRecall_of_note {w : Work} {i note : Nat} {rest : List Nat} {x : Terminal}
    (found : Table.look w.site.roster i = some x) (notes : x.notes = note :: rest) (free : ¬w.site.recalls i)
    (room : (w.site.pul.filter fun e => e.2.owner.isTerminal).length < 16) :
    w.placeNoteRecall i = w.place (.terminal i) i (.recall note x.notes.length) := by
  have notFull : w.site.terminalItemsFull = false :=
    Bool.eq_false_of_not_eq_true fun h => by have := (w.site.terminalItemsFull_iff).1 h; omega
  have taken : w.site.placementRefused (.terminal i) = false := notFull
  have unowned : ∀ e ∈ w.site.pul, ¬(e.2.owner = .terminal i ∧ e.2.content.kind = .recall) :=
    fun e mem h => free ⟨e, mem, h.1, (ItemContent.kind_recall_iff _).1 h.2⟩
  rw [Work.place_of_taken taken, show (ItemContent.recall note x.notes.length).kind = .recall from rfl,
    Work.cancelOwned_of_none unowned, Work.placeNoteRecall, found]
  dsimp only
  rw [notes]
  exact if_pos ⟨(w.site.owned_recall_iff i).2 free, by rw [notFull]; rfl⟩

/-- A terminal whose notes wait to be served (R108). -/
theorem Site.note_waits_iff (s : Site) (i : Nat) (t : Terminal) :
    (t.state == .affiliated && !t.notes.isEmpty && (s.owned (.terminal i) .recall).isNone) = true ↔
      t.state = .affiliated ∧ t.notes ≠ [] ∧ ¬s.recalls i := by
  rw [Bool.and_eq_true, Bool.and_eq_true, beq_iff_eq, s.owned_recall_iff, and_assoc, Bool.not_eq_true',
    List.isEmpty_eq_false_iff]

theorem Work.serveNotes_of_split {w : Work} {p q : List (Nat × Terminal)} {e : Nat × Terminal}
    (split : w.site.roster = p ++ e :: q) (waits : e.2.state = .affiliated ∧ e.2.notes ≠ [] ∧ ¬w.site.recalls e.1)
    (before : ∀ y ∈ p, ¬(y.2.state = .affiliated ∧ y.2.notes ≠ [] ∧ ¬w.site.recalls y.1)) :
    w.serveNotes = w.placeNoteRecall e.1 := by
  rw [Work.serveNotes, Table.seek_of_split (k := e.1) (x := e.2) split ((w.site.note_waits_iff _ _).2 waits) fun y mem =>
    Bool.eq_false_of_not_eq_true fun h => before y mem ((w.site.note_waits_iff _ _).1 h)]

theorem Work.serveNotes_of_none {w : Work}
    (nobody : ∀ y ∈ w.site.roster, ¬(y.2.state = .affiliated ∧ y.2.notes ≠ [] ∧ ¬w.site.recalls y.1)) : w.serveNotes = w := by
  rw [Work.serveNotes, Table.seek_eq_none fun y mem =>
    Bool.eq_false_of_not_eq_true fun h => nobody y mem ((w.site.note_waits_iff _ _).1 h)]

/-! #### What the owners do -/

theorem Work.itemFailed_of_start {w : Work} {it : PulItem} {u a b d : Nat} (owner : it.owner = .watch u)
    (content : it.content = .watchStart a b d) (absent : Bool) {r : Watch} (found : Table.look w.site.watches u = some r) :
    w.itemFailed it absent = (w.place (.watch u) u (.watchStart r.interval r.missLimit r.lead)).reportWatch u r (some r.state)
      r.state .settingsUndelivered false := by
  rw [Work.itemFailed, owner, content]
  dsimp only
  rw [Work.watchSetFailed, found]
  dsimp only
  rw [Work.placeWatchStart_of_look found]

/-- Settles O58. -/
theorem framesAreAcknowledgedOrMissed : Obligations.FramesAreAcknowledgedOrMissed := by
  refine ⟨fun w i x o found out => ⟨Work.endOutstanding_spec (Site.outstanding_of_look found out),
      Work.acknowledge_of_out found out, w.failFrame_of_frame i o, Work.miss_of_out found out⟩,
    fun w c id n => ⟨rfl, fun idle => ?_, fun unasked => Work.fillSome_of_unasked unasked n,
      fun p k it q up room split waits reached before => Work.fillSome_of_split up room split waits reached before n⟩,
    fun w => ?_, fun w it => ⟨?_, ?_, ?_, ?_, ?_, ?_⟩⟩
  · cases n with
    | zero => rfl
    | succ n => exact if_neg fun h => idle ⟨h.1, (Site.urgentRoom_iff _ _).1 h.2⟩
  · exact ⟨fun i x found => ⟨fun note rest notes free room => Work.placeNoteRecall_of_note found notes free room,
      Work.placeNoteRecall_of_idle found⟩, fun p e q split waits before => Work.serveNotes_of_split split waits before,
      Work.serveNotes_of_none⟩
  · intro n a b owner content
    simp [Work.itemAcked, Work.itemFailed, owner, content]
  · intro i a b owner content
    simp [Work.itemAcked, Work.itemFailed, owner, content]
  · intro i owner content
    simp [Work.itemAcked, Work.itemFailed, owner, content, Work.dropNotice]
  · intro u a b d owner content
    exact ⟨by simp [Work.itemAcked, owner, content], fun absent r found => Work.itemFailed_of_start owner content absent found⟩
  · intro k a b d e y owner content
    simp [Work.itemAcked, Work.itemFailed, owner, content]
  · intro k a b d owner content
    refine ⟨by simp [Work.itemAcked, owner, content], fun absent p found => ?_⟩
    simp [Work.itemFailed, owner, content, Work.acceptedFailed, found]

end Sys2Proof.Machine

/-! ### Absences and withdrawals (R22, R76, R97, R98, R105) -/

namespace Sys2Proof.Machine

/-! #### Walks over records -/

/-- What a walk over some records leaves of a table, when each step does the same to its own record alone. -/
theorem foldl_read {α β : Type} {read : Work → Nat → Option α} {step : Work → Nat × β → Work} {g : Option α → Option α}
    (settles : ∀ x, g (g x) = g x) (one : ∀ v e k, read (step v e) k = if k = e.1 then g (read v k) else read v k)
    (l : List (Nat × β)) (w : Work) (k : Nat) :
    read (l.foldl step w) k = if k ∈ l.map Prod.fst then g (read w k) else read w k := by
  induction l generalizing w with
  | nil => rfl
  | cons e l ih =>
    rw [List.foldl_cons, ih, one, List.map_cons]
    by_cases is : k = e.1
    · rw [if_pos is, if_pos (List.mem_cons.2 (.inl is)), settles, ite_self]
    · rw [if_neg is]
      exact if_congr (by rw [List.mem_cons, or_iff_right is]) rfl rfl

/-! #### The WAITING entries -/

theorem Work.foldl_returnItem (c : Chan) (l : List Nat) (w : Work) :
    let t := l.foldl (fun w id => w.returnItem c id) w
    (t.site.chan c).urgents = (w.site.chan c).urgents.filter (fun e => l.all fun id => !e.holds id)
    ∧ t.site.pul = l.foldl (fun t id => Table.adjust t id fun it => { it with location := none }) w.site.pul
    ∧ (∀ d, d ≠ c → t.site.chan d = w.site.chan d) ∧ t.site.roster = w.site.roster := by
  induction l generalizing w with
  | nil => exact ⟨(List.filter_eq_self.2 fun _ _ => rfl).symm, rfl, fun _ _ => rfl, rfl⟩
  | cons id l ih =>
    obtain ⟨urgents, pul, others, roster⟩ := ih (w.returnItem c id)
    refine ⟨urgents.trans ?_, pul, fun d other => (others d other).trans ?_, roster⟩
    · have left : ((w.returnItem c id).site.chan c).urgents = (w.site.chan c).urgents.filter fun e => !e.holds id := by
        rw [Work.returnItem, Work.removeEntry, Work.modChan_chan_same]; rfl
      rw [left, List.filter_filter]
      refine List.filter_congr fun e _ => ?_
      rw [List.all_cons, Bool.and_comm]
    · rw [Work.returnItem, Work.removeEntry, Work.modChan_chan, if_neg other]; rfl

theorem Site.mem_waitingItems (s : Site) (c : Chan) (i id : Nat) : id ∈ s.waitingItems c i ↔
    ∃ e ∈ (s.chan c).urgents, ∃ x, e.frame = .item id i x ∧ e.status = .waiting := by
  rw [Site.waitingItems, List.mem_filterMap]
  refine exists_congr fun e => and_congr_right fun _ => ?_
  cases frame : e.frame with
  | reply r => simp
  | item k a x =>
    simp only [Option.ite_none_right_eq_some, Bool.and_eq_true, beq_iff_eq, Option.some.injEq, UrgentFrame.item.injEq]
    constructor
    · rintro ⟨⟨rfl, waits⟩, rfl⟩; exact ⟨x, ⟨rfl, rfl, rfl⟩, waits⟩
    · rintro ⟨y, ⟨rfl, rfl, -⟩, waits⟩; exact ⟨⟨rfl, waits⟩, rfl⟩

theorem Work.returnWaiting_spec (w : Work) (c : Chan) (i : Nat) :
    let gone := fun id => ∃ e ∈ (w.site.chan c).urgents, ∃ x, e.frame = .item id i x ∧ e.status = .waiting
    let t := w.returnWaiting c i
    (∀ e, e ∈ (t.site.chan c).urgents ↔ e ∈ (w.site.chan c).urgents ∧ ∀ id, gone id → e.holds id = false)
      ∧ (∀ id it, Table.look w.site.pul id = some it → (gone id → Table.look t.site.pul id = some { it with location := none })
        ∧ (¬gone id → Table.look t.site.pul id = some it))
      ∧ (∀ d, d ≠ c → t.site.chan d = w.site.chan d) ∧ t.site.roster = w.site.roster := by
  intro gone t
  obtain ⟨urgents, pul, others, roster⟩ := Work.foldl_returnItem c (w.site.waitingItems c i) w
  have named : ∀ id, id ∈ w.site.waitingItems c i ↔ gone id := w.site.mem_waitingItems c i
  have look : ∀ id it, Table.look w.site.pul id = some it →
      Table.look t.site.pul id = some (if id ∈ w.site.waitingItems c i then { it with location := none } else it) :=
    fun id it found => (congrArg (Table.look · id) pul).trans (by rw [foldl_adjust_look, found]; rfl)
  refine ⟨fun e => ?_, fun id it found => ⟨fun h => ?_, fun h => ?_⟩, others, roster⟩
  · rw [show (t.site.chan c).urgents = _ from urgents, List.mem_filter, List.all_eq_true]
    refine and_congr_right fun _ => forall_congr' fun id => ?_
    rw [named, Bool.not_eq_true']
  · rw [look id it found, if_pos ((named id).2 h)]
  · rw [look id it found, if_neg fun k => h ((named id).1 k)]

/-! #### The orders and the permits of a terminal that goes -/

theorem Work.addNote_orders (w : Work) (recipient : Option Nat) (n : Nat) :
    (w.addNote recipient n).1.site.orders = w.site.orders := by
  unfold Work.addNote
  repeat' split
  all_goals rfl

theorem Work.finishOrder_orders {w : Work} (n : Nat) (new : OrderState) (cause : OrderCause) (reason : Option ReturnReason)
    (note : Option NoteResult) (k : Nat) : Table.look (w.finishOrder n new cause reason note).site.orders k =
      if k = n then none else Table.look w.site.orders k := by
  cases found : Table.look w.site.orders n with
  | none =>
    rw [Work.finishOrder, found]
    dsimp only
    split
    next is => rw [is, found]
    next => rfl
  | some o =>
    have kept : ((w.reportOrder n o new cause reason note).cancelOwned (.order n) .recall).site.orders = w.site.orders :=
      Site.rest_eq (Work.cancelOwned_rest _ _ _) Site.orders fun _ => rfl
    rw [Work.finishOrder_of_look found]
    show Table.look (Table.del ((w.reportOrder n o new cause reason note).cancelOwned (.order n) .recall).site.orders n) k = _
    rw [kept]
    split
    next is => rw [is, Table.look_del_same]
    next other => exact Table.look_del_other _ _ _ other

theorem Work.returnUnconfirmed_orders (w : Work) (n : Nat) (cause : OrderCause) (k : Nat) :
    Table.look (w.returnUnconfirmed n cause).site.orders k = if k = n then none else Table.look w.site.orders k := by
  cases found : Table.look w.site.orders n with
  | none =>
    rw [Work.returnUnconfirmed, found]
    dsimp only
    split
    next is => rw [is, found]
    next => rfl
  | some o => rw [Work.returnUnconfirmed_of_look found, Work.finishOrder_orders, Work.addNote_orders]

/-- A list of ranked orders that pass a test. -/
theorem Site.ranked_listed {s : Site} (sorted : s.sorted = true) {f : Nat × Order → Bool} {k : Nat} {o : Order}
    (found : Table.look s.orders k = some o) : k ∈ (s.rankedOrders.filter f).map Prod.fst ↔ f (k, o) = true := by
  constructor
  · intro listed
    obtain ⟨⟨j, p⟩, mem, rfl⟩ := List.mem_map.1 listed
    obtain ⟨ranked, passes⟩ := List.mem_filter.1 mem
    cases (Table.look_of_mem (Site.orders_wf sorted) (s.rankedOrders_perm.mem_iff.1 ranked)).symm.trans found
    exact passes
  · exact fun passes => List.mem_map.2 ⟨(k, o), List.mem_filter.2
      ⟨s.rankedOrders_perm.mem_iff.2 (Table.mem_of_look found), passes⟩, rfl⟩

/-- The RECALLING orders of a recipient end, each in its turn. -/
theorem Work.endRecalls_orders {w : Work} (sorted : w.site.sorted = true) (id k : Nat) (cause : OrderCause) :
    Table.look ((w.site.rankedOrders.filter fun e => e.2.state == .recalling && e.2.recipient == some id).foldl
      (fun w e => w.returnUnconfirmed e.1 cause) w).site.orders k = (Table.look w.site.orders k).bind fun o =>
        if o.state = .recalling ∧ o.recipient = some id then none else some o := by
  rw [foldl_read (read := fun v k => Table.look v.site.orders k) (g := fun _ => none)
    (step := fun w (e : Nat × Order) => w.returnUnconfirmed e.1 cause) (fun _ => rfl)
    (fun v e k => v.returnUnconfirmed_orders e.1 cause k)]
  cases found : Table.look w.site.orders k with
  | none => exact ite_self none
  | some o =>
    rw [Option.bind_some]
    refine if_congr ?_ rfl rfl
    rw [Site.ranked_listed sorted found, Bool.and_eq_true, beq_iff_eq, beq_iff_eq]

theorem Work.ordersAtAbsence_look {w : Work} (sorted : w.site.sorted = true) (i id n : Nat) :
    Table.look (w.ordersAtAbsence i id).site.orders n = (Table.look w.site.orders n).bind fun o =>
      if o.state = .recalling ∧ o.recipient = some id then none
      else if o.state = .queued ∧ w.site.crewOfVehicle i = some o.crew then
        some { o with
          state := .held, deadline := some (w.site.count + secondsOf o.hold), retry := none, frameChannel := none }
      else some o := by
  obtain ⟨v, run, kept, looks⟩ : ∃ v : Work, w.ordersAtAbsence i id =
      (v.site.rankedOrders.filter fun e => e.2.state == .recalling && e.2.recipient == some id).foldl
        (fun w e => w.returnUnconfirmed e.1 .vehicleAbsent) v
      ∧ Kept w.site v.site
      ∧ ∀ k, Table.look v.site.orders k = (Table.look w.site.orders k).map fun o =>
        if o.state = .queued ∧ w.site.crewOfVehicle i = some o.crew then o.heldAt w.site.count else o := by
    cases crew : w.site.crewOfVehicle i with
    | none =>
      refine ⟨w, by rw [Work.ordersAtAbsence, crew], .refl _, fun k => ?_⟩
      simp
    | some n =>
      obtain ⟨-, orders, -⟩ := Work.holdQueued_spec sorted n .vehicleAbsent
      refine ⟨_, by rw [Work.ordersAtAbsence, crew], foldl_kept _ (fun _ _ hv => Work.holdOrder_kept hv _ _) _ _ (.refl _),
        fun k => (orders k).trans ?_⟩
      exact congrArg (Option.map · _) (funext fun o => if_congr
        ⟨fun h => ⟨h.2, congrArg some h.1.symm⟩, fun h => ⟨(Option.some.inj h.2).symm, h.1⟩⟩ rfl rfl)
  rw [run, Work.endRecalls_orders (kept.sorted sorted), looks]
  cases Table.look w.site.orders n with
  | none => rfl
  | some o =>
    rw [Option.map_some, Option.bind_some, Option.bind_some]
    by_cases queued : o.state = .queued ∧ w.site.crewOfVehicle i = some o.crew
    · rw [if_pos queued, if_pos queued, if_neg (by rw [Order.heldAt]; simp), if_neg (by rw [queued.1]; simp)]
      rfl
    · rw [if_neg queued, if_neg queued]

theorem Work.revertPermit_permits (w : Work) (k : Nat) (cause : PermitCause) (j : Nat) :
    Table.look (w.revertPermit k cause false).site.permits j = if j = k then (Table.look w.site.permits j).map fun p =>
      if p.state = .issuing then { p with state := .requested, deadline := none } else p
    else Table.look w.site.permits j := by
  cases found : Table.look w.site.permits k with
  | none =>
    rw [Work.revertPermit, found]
    dsimp only
    split
    next is => rw [is, found]; rfl
    next => rfl
  | some p =>
    by_cases issuing : p.state = .issuing
    · have permits : (w.revertPermit k cause false).site.permits =
          (w.modPermit k fun q => { q with state := .requested, deadline := none }).site.permits := by
        rw [Work.revertPermit_of_issuing found issuing]
        exact Work.cancelOwned_permits _ _ _
      rw [permits]
      split
      next is => rw [is, Work.modPermit_look, found, Option.map_some, Option.map_some, if_pos issuing]
      next other => exact Table.look_adjust_other _ _ _ _ other
    · rw [Work.revertPermit_of_other found issuing]
      split
      next is => rw [is, found, Option.map_some, if_neg issuing]
      next => rfl

theorem Work.permitsAtAbsence_look {w : Work} (sorted : w.site.sorted = true) (id k : Nat) :
    Table.look (w.permitsAtAbsence id).site.permits k = (Table.look w.site.permits k).bind fun p =>
      if p.retained = true ∧ p.recorded = some id then none
      else if p.state = .issuing ∧ p.recorded = some id then some { p with state := .requested, deadline := none }
      else some p := by
  let v := (w.site.permitsBy fun q => q.state == .issuing && q.recorded == some id).foldl
    (fun w e => w.revertPermit e.1 .vehicleAbsent false) w
  have kept : Kept w.site v.site := foldl_kept _ (fun _ _ hv => Work.revertPermit_kept hv _ _ _) _ _ (.refl _)
  have reverted : Table.look v.site.permits k = (Table.look w.site.permits k).map fun p =>
      if p.state = .issuing ∧ p.recorded = some id then { p with state := .requested, deadline := none } else p := by
    refine (foldl_read (read := fun v k => Table.look v.site.permits k)
      (step := fun w (e : Nat × Permit) => w.revertPermit e.1 .vehicleAbsent false) (fun x => ?_)
      (fun v e k => v.revertPermit_permits e.1 .vehicleAbsent k) _ _ _).trans ?_
    · cases x with
      | none => rfl
      | some p => by_cases issuing : p.state = .issuing <;> simp [issuing]
    · cases found : Table.look w.site.permits k with
      | none => exact ite_self none
      | some p =>
        rw [Option.map_some, Option.map_some, ← apply_ite some]
        refine congrArg some ?_
        simp only [Site.permitsBy_listed sorted found, Bool.and_eq_true, beq_iff_eq]
        by_cases issuing : p.state = .issuing <;> simp [issuing]
  have freed : Table.look (w.permitsAtAbsence id).site.permits k = (Table.look v.site.permits k).bind fun p =>
      if p.retained = true ∧ p.recorded = some id then none else some p := by
    refine (foldl_read (read := fun v k => Table.look v.site.permits k) (g := fun _ => none)
      (step := fun w (e : Nat × Permit) => (w.cancelOwned (.permit e.1) .permit).freePermit e.1) (fun _ => rfl)
      (fun v e k => ?_) _ v k).trans ?_
    · show Table.look (Table.del (v.cancelOwned (.permit e.1) .permit).site.permits e.1) k = _
      rw [Work.cancelOwned_permits]
      split
      next is => rw [is, Table.look_del_same]
      next other => exact Table.look_del_other _ _ _ other
    · cases found : Table.look v.site.permits k with
      | none => exact ite_self none
      | some p =>
        rw [Option.bind_some]
        refine if_congr ?_ rfl rfl
        rw [Site.permitsBy_listed (kept.sorted sorted) found, Bool.and_eq_true, beq_iff_eq]
  rw [freed, reverted]
  cases Table.look w.site.permits k with
  | none => rfl
  | some p =>
    rw [Option.map_some, Option.bind_some, Option.bind_some]
    by_cases issuing : p.state = .issuing ∧ p.recorded = some id
    · rw [if_pos issuing, if_pos issuing]
    · rw [if_neg issuing, if_neg issuing]

/-! #### The absence and the withdrawal of a terminal -/

/-- What two records that show one face agree in. -/
theorem Terminal.agree_of_face {x y : Terminal} (same : y.face = x.face) : y.state = x.state ∧ y.channel = x.channel
    ∧ y.short = x.short ∧ y.id = x.id ∧ y.kind = x.kind ∧ y.origin = x.origin ∧ y.crew = x.crew ∧ y.maxRate = x.maxRate
    ∧ y.fecLow = x.fecLow ∧ y.fecHigh = x.fecHigh ∧ y.pairCapable = x.pairCapable ∧ y.capacity = x.capacity
    ∧ y.quality = x.quality ∧ y.lastHeard = x.lastHeard := by
  simp only [Terminal.face, Terminal.mk.injEq] at same
  tauto

/-- What the blocks do at the absence of the terminal at index `i`, whose record was `x` on channel `c` (R22). -/
def Work.reacted (w : Work) (i : Nat) (x : Terminal) (c : Chan) : Work :=
  let v := ((w.modTerminal i Terminal.gone).failOutstanding i).leaveAccess c i
  (((v.returnWaiting c i).fill c).ordersAtAbsence i x.id).permitsAtAbsence x.id

theorem Work.reacted_steady (w : Work) (i : Nat) (x : Terminal) (c : Chan) :
    Steady (w.modTerminal i Terminal.gone).site (w.reacted i x c).site := by
  have failed := Work.failOutstanding_steady (w := w.modTerminal i Terminal.gone) (.refl _) i
  have left := Work.fill_steady (Work.returnWaiting_steady (Work.leaveAccess_steady failed c i) c i) c
  exact Work.permitsAtAbsence_steady (Work.ordersAtAbsence_steady left i x.id) x.id

/-- The record of the terminal that has gone, and the others (R3, R22). -/
theorem Work.reacted_faces {w : Work} {i : Nat} {x : Terminal} (found : Table.look w.site.roster i = some x) (c : Chan) :
    (Table.look (w.reacted i x c).site.roster i).map Terminal.face = some x.gone.face
    ∧ ∀ j, j ≠ i → (Table.look (w.reacted i x c).site.roster j).map Terminal.face =
      (Table.look w.site.roster j).map Terminal.face := by
  have steady := w.reacted_steady i x c
  refine ⟨?_, fun j other => ?_⟩
  · rw [steady.faces i, Work.modTerminal_site, Table.look_adjust_same, found]; rfl
  · rw [steady.faces j, Work.modTerminal_site, Table.look_adjust_other _ _ _ _ other]

/-- The absence of an AFFILIATED terminal (R22). -/
theorem Work.absent_eq {w : Work} {i : Nat} {x : Terminal} {c : Chan} (found : Table.look w.site.roster i = some x)
    (affiliated : x.state = .affiliated) (on_ : x.channel = some c) (cause : TerminalCause) :
    let r := (w.reacted i x c).emit (.terminalState
      { id := x.id, index := i, state := .absent, channel := none, short := none, cause, quality := x.quality
        lastHeard := x.lastHeard })
    w.absent i cause = if w.site.terminalItemOut i = true then r.serveNotes else r := by
  intro r
  obtain ⟨face, -⟩ := Work.reacted_faces found c
  obtain ⟨y, here, same⟩ := Option.map_eq_some_iff.1 face
  obtain ⟨-, -, -, -, -, -, -, -, -, -, -, -, quality, heard⟩ := Terminal.agree_of_face same
  have said : (w.reacted i x c).reportTerminal i x.id .absent none none cause = r := by
    rw [Work.reportTerminal, here, Option.map_some, Option.bind_some, Option.getD_some, quality, heard]
    rfl
  rw [Work.absent, found]
  dsimp only
  rw [affiliated, on_]
  dsimp only
  rw [← said]
  rfl

theorem Work.absent_of_unaffiliated {w : Work} {i : Nat} {x : Terminal} (found : Table.look w.site.roster i = some x)
    (away : x.state ≠ .affiliated) (cause : TerminalCause) : w.absent i cause = w := by
  rw [Work.absent, found]
  dsimp only
  split
  next state _ => exact absurd state away
  next => rfl

theorem Work.withdrawOutstanding_of_out {w : Work} {i : Nat} {o : Outstanding}
    (out : (Table.look w.site.roster i).bind Terminal.outstanding = some o) (capacity : Nat) :
    (∀ n st, o.frame = .order n st →
      w.withdrawOutstanding i capacity = (w.endOutstanding i false).orderWithdrawn i n capacity)
    ∧ ∀ id, o.frame = .item id → w.withdrawOutstanding i capacity = (w.endOutstanding i false).returnItem o.channel id := by
  refine ⟨fun n st frame => ?_, fun id frame => ?_⟩
  · rw [Work.withdrawOutstanding, out]; dsimp only; rw [frame]
  · rw [Work.withdrawOutstanding, out]; dsimp only; rw [frame]

/-- The terminal's record after an absence, and the others (R3, R22). -/
theorem Work.absent_records {w : Work} {i : Nat} {x : Terminal} {c : Chan} (found : Table.look w.site.roster i = some x)
    (affiliated : x.state = .affiliated) (on_ : x.channel = some c) (cause : TerminalCause) :
    (Table.look (w.absent i cause).site.roster i).map Terminal.face = some x.gone.face
    ∧ ∀ j, j ≠ i →
      (Table.look (w.absent i cause).site.roster j).map Terminal.face = (Table.look w.site.roster j).map Terminal.face := by
  have served : ∀ r : Work, (if w.site.terminalItemOut i = true then r.serveNotes else r).site.roster = r.site.roster := by
    intro r
    split
    · exact Site.rest_eq (Work.serveNotes_rest r) Site.roster fun _ => rfl
    · rfl
  rw [Work.absent_eq found affiliated on_ cause, served, Work.emit_site]
  exact Work.reacted_faces found c

/-! #### The end of an ORDER frame -/

theorem Work.endOrderFrame_eq (w : Work) (n : Nat) (o : Order) :
    let v := w.lowerInFlight o.frameChannel o.blocks
    (o.state = .inFlight → w.endOrderFrame n o = v)
    ∧ (o.state = .recalling → w.endOrderFrame n o = v.modOrder n fun y => { y with retry := none, frameChannel := none }) :=
  ⟨fun state => if_neg (by rw [state]; simp), fun state => if_pos state⟩

/-- The end of an ORDER frame by the state of its order and the reply it has recorded (R95, R97, R98, R105). -/
theorem Work.orderFrame_ends {w : Work} {n : Nat} {o : Order} (found : Table.look w.site.orders n = some o) (i : Nat) :
    (let v := w.lowerInFlight o.frameChannel o.blocks
     (o.state = .inFlight → w.orderAcked n = v.deliverOrder n .acknowledged o.reply)
     ∧ (o.state = .recalling → w.orderAcked n = v.modOrder n fun y => { y with retry := none, frameChannel := none }))
    ∧ (let v := (w.raiseCredit i o.blocks).lowerInFlight o.frameChannel o.blocks
       (∀ cause, o.state = .inFlight → o.reply = none → w.orderFailed i n cause = v.holdOrder n cause)
       ∧ (∀ cause r, o.state = .inFlight → o.reply = some r →
        w.orderFailed i n cause = v.deliverOrder n .crewReply (some r))
       ∧ (∀ cause, o.state = .recalling →
        w.orderFailed i n cause = v.modOrder n fun y => { y with retry := none, frameChannel := none })
       ∧ (∀ capacity, o.state = .inFlight → o.reply = none → capacity < o.blocks →
        w.orderWithdrawn i n capacity = v.holdOrder n .oversize)
       ∧ (∀ capacity, o.state = .inFlight → o.reply = none → o.blocks ≤ capacity →
        w.orderWithdrawn i n capacity = v.queueOrder n .withdrawn)
       ∧ (∀ capacity r, o.state = .inFlight → o.reply = some r →
        w.orderWithdrawn i n capacity = v.deliverOrder n .crewReply (some r))
       ∧ ∀ capacity, o.state = .recalling →
        w.orderWithdrawn i n capacity = v.modOrder n fun y => { y with retry := none, frameChannel := none }) := by
  obtain ⟨flies, recalls⟩ := w.endOrderFrame_eq n o
  obtain ⟨fliesRaised, recallsRaised⟩ := (w.raiseCredit i o.blocks).endOrderFrame_eq n o
  have still : OrderState.recalling ≠ .inFlight := by simp
  have acked : w.orderAcked n = if o.state = .inFlight then (w.endOrderFrame n o).deliverOrder n .acknowledged o.reply
      else w.endOrderFrame n o := by
    rw [Work.orderAcked, found]
  refine ⟨⟨fun state => ?_, fun state => ?_⟩, fun cause state reply => ?_, fun cause r state reply => ?_,
    fun cause state => ?_, fun capacity state reply wide => ?_, fun capacity state reply fits => ?_,
    fun capacity r state reply => ?_, fun capacity state => ?_⟩
  · rw [acked, if_pos state, flies state]
  · rw [acked, if_neg (by rw [state]; exact still), recalls state]
  · rw [Work.orderFailed, found]; dsimp only; rw [if_pos state, reply, fliesRaised state]
  · rw [Work.orderFailed, found]; dsimp only; rw [if_pos state, reply, fliesRaised state]
  · rw [Work.orderFailed, found]; dsimp only; rw [if_neg (by rw [state]; exact still), recallsRaised state]
  · rw [Work.orderWithdrawn, found]; dsimp only; rw [if_pos state, reply]; dsimp only; rw [if_pos wide, fliesRaised state]
  · rw [Work.orderWithdrawn, found]; dsimp only; rw [if_pos state, reply]; dsimp only
    rw [if_neg (by omega), fliesRaised state]
  · rw [Work.orderWithdrawn, found]; dsimp only; rw [if_pos state, reply, fliesRaised state]
  · rw [Work.orderWithdrawn, found]; dsimp only; rw [if_neg (by rw [state]; exact still), recallsRaised state]

theorem Work.raiseCredit_of_look {w : Work} {i : Nat} {x : Terminal} (found : Table.look w.site.roster i = some x) (k : Nat) :
    w.raiseCredit i k = if x.kind = .vehicle then w.setCredit i (x.credit + k) else w := by
  rw [Work.raiseCredit, found]
  dsimp only
  by_cases vehicle : x.kind = .vehicle
  · rw [if_pos vehicle]
  · have personal : x.kind = .personal := by cases h : x.kind <;> simp_all
    rw [if_neg vehicle, Work.setCredit_of_personal found personal]

/-- A live order that moves, with its report and its record. -/
theorem Work.moveOrder_says {w : Work} {n : Nat} {o : Order} (found : Table.look w.site.orders n = some o)
    (new : OrderState) (cause : OrderCause) (f : Order → Order) :
    (w.moveOrder n new cause f).out = w.out ++ [.orderState
      { number := n, crew := o.crew, state := new, previous := o.state, cause, reason := none, reply := none
        note := none, retry := if o.state = .inFlight then o.retry else none }]
    ∧ Table.look (w.moveOrder n new cause f).site.orders n = some { f o with state := new } := by
  rw [Work.moveOrder_of_look found, Work.reportOrder_live]
  refine ⟨rfl, ?_⟩
  rw [Work.modOrder_look]
  exact congrArg (Option.map _) found

/-- An order that enters QUEUED leaves as its move does, whatever choice it offers. -/
theorem Work.queueOrder_offers (w : Work) (n : Nat) (cause : OrderCause) :
    let v := w.moveOrder n .queued cause fun o => { o with deadline := none, retry := none, frameChannel := none }
    (w.queueOrder n cause).out = v.out ∧ (w.queueOrder n cause).site = v.site := by
  intro v
  unfold Work.queueOrder
  split <;> exact ⟨rfl, rfl⟩

/-- Settles O59. -/
theorem absencesAndWithdrawals : Obligations.AbsencesAndWithdrawals := by
  refine ⟨fun w i x cause found => ⟨fun c affiliated on_ => ?_, fun away => Work.absent_of_unaffiliated found away cause,
      fun free => ?_, fun o out => ?_⟩, fun w c i => w.returnWaiting_spec c i,
    fun w i id sorted => ⟨Work.ordersAtAbsence_look sorted i id, Work.permitsAtAbsence_look sorted id⟩,
    fun w i n x o vehicle found => ⟨Work.raiseCredit_of_look vehicle, fun v => ⟨rfl, fun c => rfl⟩, ?_⟩⟩
  · intro v u r
    have run := Work.absent_eq found affiliated on_ cause
    obtain ⟨face, others⟩ := Work.absent_records found affiliated on_ cause
    refine ⟨run, ?_, fun j z other there => ?_⟩
    · obtain ⟨y, here, same⟩ := Option.map_eq_some_iff.1 face
      exact ⟨y, here, Terminal.agree_of_face same⟩
    · have kept := others j other
      rw [there] at kept
      obtain ⟨y, here, same⟩ := Option.map_eq_some_iff.1 kept
      obtain ⟨state, channel, short, -, -, -, crew, -⟩ := Terminal.agree_of_face same
      exact ⟨y, here, state, channel, short, crew⟩
  · have none_ : (Table.look w.site.roster i).bind Terminal.outstanding = none := by rw [found]; exact free
    exact ⟨by rw [Work.failOutstanding, none_], fun n => by rw [Work.withdrawOutstanding, none_]⟩
  · have some_ := Site.outstanding_of_look found out
    exact ⟨by rw [Work.failOutstanding, some_], fun n st capacity => (Work.withdrawOutstanding_of_out some_ capacity).1 n st,
      fun id capacity => (Work.withdrawOutstanding_of_out some_ capacity).2 id⟩
  · obtain ⟨acked, ended⟩ := Work.orderFrame_ends found i
    refine ⟨acked, ended, fun cause => Work.moveOrder_says found _ _ _, fun cause => ?_⟩
    obtain ⟨out, site⟩ := w.queueOrder_offers n cause
    rw [out, site]
    exact Work.moveOrder_says found _ _ _

end Sys2Proof.Machine

/-! ### What an absence or a removal leaves of the other terminals, of the watches and of the reports -/

namespace Sys2Proof.Machine

/-- A record without its list of notes. -/
def Terminal.unnoted (t : Terminal) : Terminal := { t with notes := [] }

/-- What the reactions to the end of the terminal at index `i` leave alone, from work `a` to work `b`: the other roster records
but for their notes, the supervision records, and the reports already said. -/
structure Beside (i : Nat) (a b : Work) : Prop where
  others : ∀ j, j ≠ i →
    (Table.look b.site.roster j).map Terminal.unnoted = (Table.look a.site.roster j).map Terminal.unnoted
  watches : b.site.watches = a.site.watches
  reports : a.out <+: b.out

theorem Beside.refl (i : Nat) (a : Work) : Beside i a a := ⟨fun _ _ => rfl, rfl, List.prefix_refl _⟩

theorem Beside.trans {i : Nat} {a b c : Work} (h : Beside i a b) (k : Beside i b c) : Beside i a c :=
  ⟨fun j e => (k.others j e).trans (h.others j e), k.watches.trans h.watches, h.reports.trans k.reports⟩

/-- A record that is as it was but for its notes. -/
theorem Terminal.of_unnoted {p q : Option Terminal} {y : Terminal} (same : q.map Terminal.unnoted = p.map Terminal.unnoted)
    (found : p = some y) : ∃ notes, q = some { y with notes } := by
  rw [found, Option.map_some] at same
  obtain ⟨z, here, agrees⟩ := Option.map_eq_some_iff.1 same
  refine ⟨z.notes, here.trans (congrArg some ?_)⟩
  simp only [Terminal.unnoted, Terminal.mk.injEq] at agrees
  cases z; cases y
  simp only [Terminal.mk.injEq]
  tauto

section
variable {i : Nat} {a w b : Work}

/-- The roster, the supervision records and the reports are as they were. -/
theorem Beside.same (h : Beside i a w) (roster : b.site.roster = w.site.roster) (watches : b.site.watches = w.site.watches)
    (out : b.out = w.out) : Beside i a b :=
  h.trans ⟨fun j _ => by rw [roster], watches, out ▸ List.prefix_refl _⟩

/-- Nothing but the list of owed items and the channels has changed. -/
theorem Beside.rest (h : Beside i a w) (rest : b.site.rest = w.site.rest) (out : b.out = w.out) : Beside i a b :=
  h.same (Site.rest_eq rest Site.roster fun _ => rfl) (Site.rest_eq rest Site.watches fun _ => rfl) out

theorem Work.emit_beside (h : Beside i a w) (b : ReportBody) : Beside i a (w.emit b) :=
  h.trans ⟨fun _ _ => rfl, rfl, List.prefix_append _ _⟩

/-- A change of the record at index `i` itself. -/
theorem Work.modTerminal_beside (h : Beside i a w) (f : Terminal → Terminal) : Beside i a (w.modTerminal i f) :=
  h.trans ⟨fun j other => by rw [Work.modTerminal_site, Table.look_adjust_other _ _ _ _ other], rfl, List.prefix_refl _⟩

/-- A change of the notes of any record. -/
theorem Work.modNotes_beside (h : Beside i a w) (k : Nat) (f : Terminal → Terminal) (still : ∀ t, (f t).unnoted = t.unnoted) :
    Beside i a (w.modTerminal k f) := by
  refine h.trans ⟨fun j _ => ?_, rfl, List.prefix_refl _⟩
  rw [Work.modTerminal_site]
  by_cases is : j = k
  · subst is
    rw [Table.look_adjust_same, Option.map_map]
    exact congrArg (Option.map · _) (funext still)
  · rw [Table.look_adjust_other _ _ _ _ is]

theorem foldl_beside {β : Type} (f : Work → β → Work) (hf : ∀ v e, Beside i a v → Beside i a (f v e)) (l : List β) (v : Work)
    (h : Beside i a v) : Beside i a (l.foldl f v) := by
  induction l generalizing v with
  | nil => exact h
  | cons e l ih => exact ih _ (hf v e h)

/-! #### Owed items -/

theorem Work.cancelOwned_beside (h : Beside i a w) (o : Owner) (k : ItemKind) : Beside i a (w.cancelOwned o k) :=
  h.rest (Work.cancelOwned_rest w o k) (Work.cancelOwned_out w o k)

theorem Work.cancelItem_beside (h : Beside i a w) (id : Nat) : Beside i a (w.cancelItem id) :=
  h.rest (Work.cancelItem_rest w id) (Work.cancelItem_out w id)

theorem Work.place_beside (h : Beside i a w) (o : Owner) (k : Nat) (x : ItemContent) : Beside i a (w.place o k x) :=
  h.rest (Work.place_rest w o k x) (Work.place_out w o k x)

theorem Work.serveNotes_beside (h : Beside i a w) : Beside i a w.serveNotes :=
  h.rest (Work.serveNotes_rest w) (Work.serveNotes_out w)

theorem Work.fill_beside (h : Beside i a w) (c : Chan) : Beside i a (w.fill c) :=
  h.rest (Work.fillSome_rest w c 16) (Work.fillSome_out w c 16)

theorem Work.leaveQueue_beside (h : Beside i a w) (c : Chan) (id : Nat) : Beside i a (w.leaveQueue c id) :=
  Work.fill_beside (w := (w.removeEntry c id).dropItem id) (h.same rfl rfl rfl) c

theorem Work.returnWaiting_beside (h : Beside i a w) (c : Chan) (k : Nat) : Beside i a (w.returnWaiting c k) :=
  foldl_beside (fun w id => w.returnItem c id) (fun _ _ hv => hv.same rfl rfl rfl) _ _ h

/-! #### Orders -/

theorem Work.setCredit_beside (h : Beside i a w) (v : Nat) : Beside i a (w.setCredit i v) := by
  have credited := Work.modTerminal_beside h fun t => { t with credit := min v t.capacity }
  simp only [Work.setCredit]
  repeat' split
  · exact credited.same rfl rfl rfl
  · exact credited
  · exact credited
  · exact h
  · exact h

theorem Work.raiseCredit_beside (h : Beside i a w) (v : Nat) : Beside i a (w.raiseCredit i v) := by
  unfold Work.raiseCredit; split
  · exact setCredit_beside h _
  · exact h

theorem Work.endOutstanding_beside (h : Beside i a w) (toggle : Bool) : Beside i a (w.endOutstanding i toggle) := by
  unfold Work.endOutstanding; split
  · exact (Work.modTerminal_beside h _).same rfl rfl rfl
  · exact h

theorem Work.endOrderFrame_beside (h : Beside i a w) (n : Nat) (o : Order) : Beside i a (w.endOrderFrame n o) := by
  have lowered : Beside i a (w.lowerInFlight o.frameChannel o.blocks) := by
    unfold Work.lowerInFlight; split
    · exact h.same rfl rfl rfl
    · exact h
  simp only [Work.endOrderFrame]; split
  · exact lowered.same rfl rfl rfl
  · exact lowered

theorem Work.moveOrder_beside (h : Beside i a w) (n : Nat) (new : OrderState) (c : OrderCause) (f : Order → Order) :
    Beside i a (w.moveOrder n new c f) := by
  unfold Work.moveOrder; split
  · exact (Work.emit_beside h _).same rfl rfl rfl
  · exact h

theorem Work.holdOrder_beside (h : Beside i a w) (n : Nat) (c : OrderCause) : Beside i a (w.holdOrder n c) :=
  moveOrder_beside h _ _ _ _

theorem Work.finishOrder_beside (h : Beside i a w) (n : Nat) (new : OrderState) (c : OrderCause) (r : Option ReturnReason)
    (x : Option NoteResult) : Beside i a (w.finishOrder n new c r x) := by
  unfold Work.finishOrder; split
  · exact (Work.cancelOwned_beside (Work.emit_beside h _) _ _).same rfl rfl rfl
  · exact h

theorem Work.addNote_beside (h : Beside i a w) (r : Option Nat) (n : Nat) : Beside i a (w.addNote r n).1 := by
  unfold Work.addNote
  repeat' split
  · exact h
  · exact Work.modNotes_beside h _ _ fun _ => rfl
  · exact h.same rfl rfl rfl
  · exact h

theorem Work.returnUnconfirmed_beside (h : Beside i a w) (n : Nat) (c : OrderCause) : Beside i a (w.returnUnconfirmed n c) := by
  unfold Work.returnUnconfirmed; split
  · exact finishOrder_beside (addNote_beside h _ _) _ _ _ _ _
  · exact h

theorem Work.applyReply_beside (h : Beside i a w) (n : Nat) (r : CrewReply) : Beside i a (w.applyReply n r) := by
  unfold Work.applyReply; split
  · exact moveOrder_beside h _ _ _ _
  · exact finishOrder_beside h _ _ _ _ _
  · exact finishOrder_beside h _ _ _ _ _
  · exact finishOrder_beside h _ _ _ _ _
  · exact h.same rfl rfl rfl

theorem Work.deliverOrder_beside (h : Beside i a w) (n : Nat) (c : OrderCause) (r : Option CrewReply) :
    Beside i a (w.deliverOrder n c r) := by
  simp only [Work.deliverOrder]; split
  · exact applyReply_beside (moveOrder_beside h _ _ _ _) _ _
  · exact moveOrder_beside h _ _ _ _

theorem Work.orderFailed_beside (h : Beside i a w) (n : Nat) (c : OrderCause) : Beside i a (w.orderFailed i n c) := by
  have ended : ∀ o, Beside i a ((w.raiseCredit i o.blocks).endOrderFrame n o) :=
    fun o => endOrderFrame_beside (raiseCredit_beside h _) n o
  simp only [Work.orderFailed]
  repeat' split
  · exact deliverOrder_beside (ended _) _ _ _
  · exact holdOrder_beside (ended _) _ _
  · exact ended _
  · exact h

theorem Work.ordersAtAbsence_beside (h : Beside i a w) (k t : Nat) : Beside i a (w.ordersAtAbsence k t) := by
  simp only [Work.ordersAtAbsence]
  refine foldl_beside _ (fun _ _ hv => returnUnconfirmed_beside hv _ _) _ _ ?_
  split
  · exact foldl_beside _ (fun _ _ hv => holdOrder_beside hv _ _) _ _ h
  · exact h

/-! #### Permits and supervision records -/

theorem Work.placeResult_beside (h : Beside i a w) (k : Nat) (r : ResultCode) : Beside i a (w.placeResult k r) := by
  unfold Work.placeResult
  repeat' split
  · exact place_beside h _ _ _
  · exact h
  · exact h

theorem Work.revertPermit_beside (h : Beside i a w) (k : Nat) (c : PermitCause) (b : Bool) :
    Beside i a (w.revertPermit k c b) := by
  have reverted : Beside i a ((w.modPermit k fun p => { p with state := .requested, deadline := none }).cancelOwned
      (.permit k) .permit) := by
    have modified : Beside i a (w.modPermit k fun p => { p with state := .requested, deadline := none }) :=
      h.same rfl rfl rfl
    exact cancelOwned_beside modified _ _
  have said : ∀ v : Work, Beside i a v → Beside i a (v.reportRecord k (some .issuing) c) := fun v hv => by
    unfold Work.reportRecord; split
    · exact Work.emit_beside hv _
    · exact hv
  simp only [Work.revertPermit]
  repeat' split
  · exact said _ (placeResult_beside reverted _ _)
  · exact said _ reverted
  · exact h
  · exact h

theorem Work.permitsAtAbsence_beside (h : Beside i a w) (t : Nat) : Beside i a (w.permitsAtAbsence t) := by
  simp only [Work.permitsAtAbsence]
  refine foldl_beside (fun w (e : Nat × Permit) => (w.cancelOwned (.permit e.1) .permit).freePermit e.1)
    (fun v e hv => (cancelOwned_beside hv (.permit e.1) .permit).same rfl rfl rfl) _ _ ?_
  exact foldl_beside _ (fun _ _ hv => revertPermit_beside hv _ _ _) _ _ h

theorem Work.watchSetFailed_beside (h : Beside i a w) (u : Nat) : Beside i a (w.watchSetFailed u) := by
  have placed : Beside i a (w.placeWatchStart u) := by
    unfold Work.placeWatchStart; split
    · exact place_beside h _ _ _
    · exact h
  unfold Work.watchSetFailed; split
  · exact Work.emit_beside placed _
  · exact h

theorem Work.itemFailed_beside (h : Beside i a w) (it : PulItem) (b : Bool) : Beside i a (w.itemFailed it b) := by
  unfold Work.itemFailed; split
  · exact returnUnconfirmed_beside h _ _
  · exact h.same rfl rfl rfl
  · exact watchSetFailed_beside h _
  · exact revertPermit_beside h _ _ _
  · unfold Work.acceptedFailed
    repeat' split
    · exact placeResult_beside h _ _
    · exact h
    · exact h
  · exact h

/-! #### The end of a frame, an absence and a removal -/

theorem Work.failFrame_beside (h : Beside i a w) (o : Outstanding) (b : Bool) : Beside i a (w.failFrame i o b) := by
  simp only [Work.failFrame]
  repeat' split
  · exact orderFailed_beside (endOutstanding_beside h _) _ _
  · exact orderFailed_beside (endOutstanding_beside h _) _ _
  · exact itemFailed_beside (leaveQueue_beside (endOutstanding_beside h _) _ _) _ _
  · exact leaveQueue_beside (endOutstanding_beside h _) _ _

theorem Work.failOutstanding_beside (h : Beside i a w) : Beside i a (w.failOutstanding i) := by
  unfold Work.failOutstanding; split
  · exact failFrame_beside h _ _
  · exact h

theorem Work.reacted_beside (h : Beside i a w) (x : Terminal) (c : Chan) : Beside i a (w.reacted i x c) := by
  have failed := failOutstanding_beside (modTerminal_beside h Terminal.gone)
  have left : Beside i a (((w.modTerminal i Terminal.gone).failOutstanding i).leaveAccess c i) := failed.same rfl rfl rfl
  exact permitsAtAbsence_beside (ordersAtAbsence_beside (fill_beside (returnWaiting_beside left c i) c) i x.id) x.id

theorem Work.absent_beside (h : Beside i a w) (cause : TerminalCause) : Beside i a (w.absent i cause) := by
  cases found : Table.look w.site.roster i with
  | none => rw [Work.absent, found]; exact h
  | some x =>
    by_cases stands : x.state = .affiliated ∧ ∃ c, x.channel = some c
    · obtain ⟨affiliated, c, on_⟩ := stands
      rw [Work.absent_eq found affiliated on_]
      have said := Work.emit_beside (reacted_beside h x c) (.terminalState
        { id := x.id, index := i, state := .absent, channel := none, short := none, cause, quality := x.quality
          lastHeard := x.lastHeard })
      split
      · exact serveNotes_beside said
      · exact said
    · rw [Work.absent, found]
      dsimp only
      split
      next c affiliated on_ => exact absurd ⟨affiliated, c, on_⟩ stands
      next => exact h

theorem Work.freeRetained_beside (h : Beside i a w) (k : Nat) : Beside i a (w.freeRetained k) := by
  unfold Work.freeRetained; split
  · exact h.same rfl rfl rfl
  · exact h

theorem Work.cancelAddressed_beside (h : Beside i a w) (k : Nat) : Beside i a (w.cancelAddressed k) := by
  refine foldl_beside _ (fun _ _ hv => ?_) _ _ h
  split
  · exact freeRetained_beside (cancelItem_beside hv _) _
  all_goals exact cancelItem_beside hv _

end

/-! #### The items addressed to a terminal -/

/-- A site without its permits. -/
def Site.unpermitted (s : Site) : Site := { s with permits := [] }

theorem Moved.unpermitted {g : Nat → Prop} {n : PulItem → Prop} {a b : Site} (h : Moved g n a b) :
    Moved g n a.unpermitted b.unpermitted :=
  ⟨congrArg (fun s => Site.unpermitted s) h.rest, h.next, h.stay, h.came⟩

/-- One item addressed to a terminal is cancelled (R8, R145). -/
def Work.cancelOne (v : Work) (e : Nat × PulItem) : Work :=
  match e.2.owner with
  | .permit k => (v.cancelItem e.1).freeRetained k
  | .watch _ | .order _ | .terminal _ => v.cancelItem e.1

theorem Work.cancelAddressed_eq (w : Work) (i : Nat) :
    w.cancelAddressed i = (w.site.pul.filter fun e => e.2.addressee == i).foldl Work.cancelOne w := rfl

/-- But for the permits, what a cancellation leaves is what its item's does. -/
theorem Work.cancelOne_unpermitted (v : Work) (e : Nat × PulItem) :
    (v.cancelOne e).site.unpermitted = (v.cancelItem e.1).site.unpermitted := by
  have freed : ∀ (y : Work) k, (y.freeRetained k).site.unpermitted = y.site.unpermitted := fun y k => by
    unfold Work.freeRetained
    split <;> rfl
  unfold Work.cancelOne
  split
  · exact freed _ _
  · rfl
  · rfl
  · rfl

theorem Work.cancelOne_kept {s : Site} {v : Work} (h : Kept s v.site) (e : Nat × PulItem) : Kept s (v.cancelOne e).site := by
  unfold Work.cancelOne
  split
  · exact Work.freeRetained_kept (Work.cancelItem_kept h _) _
  all_goals exact Work.cancelItem_kept h _

theorem Work.freeRetained_permits (w : Work) (k j : Nat) : Table.look (w.freeRetained k).site.permits j =
    if j = k then (Table.look w.site.permits j).filter (fun p => !p.retained) else Table.look w.site.permits j := by
  unfold Work.freeRetained
  by_cases is : j = k
  · subst is
    rw [if_pos rfl]
    cases found : Table.look w.site.permits j with
    | none => rw [if_neg (by simp), found]; rfl
    | some p =>
      cases retained : p.retained with
      | true =>
        rw [if_pos (show (some p).any Permit.retained = true from retained)]
        refine (Table.look_del_same _ _).trans ?_
        rw [Option.filter_some, retained]; rfl
      | false =>
        rw [if_neg (show ¬(some p).any Permit.retained = true from by rw [Option.any_some, retained]; exact Bool.false_ne_true),
          found, Option.filter_some, retained]; rfl
  · rw [if_neg is]
    split
    · exact Table.look_del_other _ _ _ is
    · rfl

theorem Work.cancelOne_permits (v : Work) (e : Nat × PulItem) (k : Nat) : Table.look (v.cancelOne e).site.permits k =
    if e.2.owner = .permit k then (Table.look v.site.permits k).filter (fun p => !p.retained)
    else Table.look v.site.permits k := by
  have still : (v.cancelItem e.1).site.permits = v.site.permits :=
    Site.rest_eq (v.cancelItem_rest e.1) Site.permits fun _ => rfl
  unfold Work.cancelOne
  split
  next j owner =>
    rw [Work.freeRetained_permits, still]
    refine if_congr ?_ rfl rfl
    rw [owner, Owner.permit.injEq, eq_comm]
  next owner => rw [still, if_neg (by rw [owner]; simp)]
  next owner => rw [still, if_neg (by rw [owner]; simp)]
  next owner => rw [still, if_neg (by rw [owner]; simp)]

theorem Work.foldl_cancelOne_permits (l : List (Nat × PulItem)) (w : Work) (k : Nat) :
    Table.look (l.foldl Work.cancelOne w).site.permits k =
      if ∃ e ∈ l, e.2.owner = .permit k then (Table.look w.site.permits k).filter (fun p => !p.retained)
      else Table.look w.site.permits k := by
  induction l generalizing w with
  | nil => rw [if_neg (by simp)]; rfl
  | cons e l ih =>
    rw [List.foldl_cons, ih, Work.cancelOne_permits]
    by_cases here : e.2.owner = .permit k
    · rw [if_pos here, if_pos (show ∃ x ∈ e :: l, x.2.owner = .permit k from ⟨e, List.mem_cons_self .., here⟩),
        Option.filter_filter]
      simp only [Bool.and_self, ite_self]
    · rw [if_neg here]
      refine if_congr ?_ rfl rfl
      simp only [List.mem_cons, exists_eq_or_imp, here, false_or]

/-- The listed items go, and only AFFILIATED terminals' notes may follow them (R77, R108). -/
theorem Work.foldl_cancelOne_moved (l : List (Nat × PulItem)) (w : Work) (sorted : w.site.sorted = true)
    (apart : (l.map Prod.fst).Nodup)
    (stand : ∀ e ∈ l, ∃ place, Table.look w.site.pul e.1 = some { e.2 with location := place }) :
    Moved (· ∈ l.map Prod.fst) (fun x => w.site.affiliated x.addressee = true) w.site.unpermitted
      (l.foldl Work.cancelOne w).site.unpermitted := by
  induction l generalizing w with
  | nil => exact Moved.refl.weaken (fun _ => by simp) fun _ k => k.elim
  | cons e l ih =>
    obtain ⟨fresh, apart⟩ := List.nodup_cons.1 apart
    obtain ⟨place, here⟩ := stand e (List.mem_cons_self ..)
    have moved : Moved (· = e.1) (fun x => w.site.affiliated x.addressee = true) w.site.unpermitted
        (w.cancelOne e).site.unpermitted := by
      rw [Work.cancelOne_unpermitted]
      exact ((Work.cancelItem_moved sorted e.1 _ here).weaken (fun _ => Iff.rfl) fun _ k => k.2.2).unpermitted
    have roster : (w.cancelOne e).site.roster = w.site.roster :=
      Site.rest_eq (a := w.site.unpermitted) (b := (w.cancelOne e).site.unpermitted) moved.rest Site.roster fun _ => rfl
    have rest := ih (w.cancelOne e) ((Work.cancelOne_kept (.refl _) e).sorted sorted) apart fun x mem => by
      obtain ⟨p, there⟩ := stand x (List.mem_cons_of_mem _ mem)
      exact moved.stay x.1 { x.2 with location := p } there fun same => fresh (same ▸ List.mem_map.2 ⟨x, mem, rfl⟩)
    refine (moved.trans rest).weaken (fun id => by rw [List.map_cons, List.mem_cons]) fun x k => k.elim (fun h => h) fun h => ?_
    unfold Site.affiliated at h ⊢
    rwa [roster] at h

theorem Work.cancelAddressed_spec {w : Work} (sorted : w.site.sorted = true) (i : Nat) :
    let t := w.cancelAddressed i
    (w.site.affiliated i = false → ∀ e ∈ t.site.pul, e.2.addressee ≠ i)
    ∧ (∀ id it, Table.look w.site.pul id = some it → it.addressee ≠ i →
      ∃ place, Table.look t.site.pul id = some { it with location := place })
    ∧ ∀ k p, Table.look w.site.permits k = some p →
      let itsResult := ∃ e ∈ w.site.pul, e.2.addressee = i ∧ e.2.owner = .permit k
      (p.retained = true → itsResult → Table.look t.site.permits k = none)
      ∧ (p.retained = false ∨ ¬itsResult → Table.look t.site.permits k = some p) := by
  intro t
  have form := Work.pul_wf sorted
  have kept : Kept w.site t.site := Work.cancelAddressed_kept (.refl _) i
  have apart : ((w.site.pul.filter fun e => e.2.addressee == i).map Prod.fst).Nodup :=
    (List.filter_sublist.map Prod.fst).nodup (((Table.wf_iff _).1 form).imp fun h => by omega)
  have addressed : ∀ id it, Table.look w.site.pul id = some it →
      (id ∈ (w.site.pul.filter fun e => e.2.addressee == i).map Prod.fst ↔ it.addressee = i) := by
    intro id it found
    rw [List.mem_map]
    constructor
    · rintro ⟨e, mem, rfl⟩
      obtain ⟨listed, mine⟩ := List.mem_filter.1 mem
      cases (Table.look_of_mem form listed).symm.trans found
      exact beq_iff_eq.1 mine
    · intro mine
      exact ⟨(id, it), List.mem_filter.2 ⟨Table.mem_of_look found, beq_iff_eq.2 mine⟩, rfl⟩
  have moved := Work.foldl_cancelOne_moved (w.site.pul.filter fun e => e.2.addressee == i) w sorted apart fun e mem =>
    ⟨e.2.location, Table.look_of_mem form (List.mem_filter.1 mem).1⟩
  refine ⟨fun away e mem mine => ?_, fun id it found other => moved.stay id it found fun k => other ((addressed id it found).1 k),
    fun k p found => ?_⟩
  · have there : Table.look t.site.pul e.1 = some e.2 :=
      Table.look_of_mem (Work.pul_wf (kept.sorted sorted)) mem
    rcases moved.came e.1 e.2 there with ⟨stays, old, stood, same⟩ | ⟨-, reached⟩
    · have whose : e.2.addressee = old.addressee :=
        (congrArg PulItem.addressee same :)
      exact stays ((addressed e.1 old stood).2 (whose ▸ mine))
    · rw [show (_ : PulItem).addressee = i from mine, away] at reached
      exact Bool.false_ne_true reached
  · intro itsResult
    have result : (∃ e ∈ w.site.pul.filter fun e => e.2.addressee == i, e.2.owner = .permit k) ↔ itsResult := by
      simp only [List.mem_filter, beq_iff_eq, and_assoc, itsResult]
    have look : Table.look t.site.permits k = if itsResult then (some p).filter (fun p => !p.retained) else some p := by
      rw [← found]
      exact (Work.foldl_cancelOne_permits _ _ _).trans (if_congr result rfl rfl)
    refine ⟨fun retained has => ?_, fun spared => ?_⟩
    · rw [look, if_pos has]; simp [retained]
    · rw [look]
      rcases spared with free | none_
      · simp [free]
      · rw [if_neg none_]

/-! #### The removal of a record -/

/-- What no absence changes of a record (R3, R22). -/
theorem Thinned.record {a b : Site} (h : Thinned a b) {i : Nat} {x : Terminal} (found : Table.look a.roster i = some x) :
    ∃ y, Table.look b.roster i = some y ∧ y.id = x.id ∧ y.crew = x.crew ∧ y.origin = x.origin ∧ y.quality = x.quality
      ∧ y.lastHeard = x.lastHeard := by
  have faces := h.faces i
  rw [found, Option.map_some, Option.map_some] at faces
  rcases faces with same | gone
  · obtain ⟨y, here, agrees⟩ := Option.map_eq_some_iff.1 same
    obtain ⟨-, -, -, id, -, origin, crew, -, -, -, -, -, quality, heard⟩ := Terminal.agree_of_face agrees
    exact ⟨y, here, id, crew, origin, quality, heard⟩
  · obtain ⟨y, here, agrees⟩ := Option.map_eq_some_iff.1 gone
    obtain ⟨-, -, -, id, -, origin, crew, -, -, -, -, -, quality, heard⟩ := Terminal.agree_of_face agrees
    exact ⟨y, here, id, crew, origin, quality, heard⟩

/-- The reports of the supervision record that goes with its unit (R131). -/
def Watch.lastAlarm (r : Watch) (s : Site) (i : Nat) (x : Terminal) : ReportBody := .alarm
  { id := x.id, index := i, crew := x.crew, state := r.state, cause := r.cause, time := r.alarmTime
    escalations := r.escalations, reason := .removed, lastCheckIn := r.lastCheckIn, lastPosition := r.lastPosition
    terminalState := .removed, channel := none, alarmChannel := r.alarmChannel, attended := s.attended }

/-- The last WATCH_STATE report of a supervision record that goes with its unit (R131). -/
def Watch.lastState (r : Watch) (i : Nat) (x : Terminal) : ReportBody := .watchState
  { id := x.id, index := i, crew := x.crew, state := none, previous := r.state, cause := .unitRemoved
    missed := r.missed, deadline := r.deadline, lastCheckIn := r.lastCheckIn, stopNotPlaced := false }

theorem Work.watchAtRemoval_of_none {w : Work} {i : Nat} (absent : Table.look w.site.watches i = none) :
    w.watchAtRemoval i = w := by
  rw [Work.watchAtRemoval, absent]

theorem Work.watchAtRemoval_of_look {w : Work} {i : Nat} {r : Watch} {x : Terminal} {id : Nat} {crew : Option Nat}
    (watch : Table.look w.site.watches i = some r) (unit : Table.look w.site.roster i = some x) (named : x.id = id)
    (bound : x.crew = crew) : w.watchAtRemoval i =
      ((if r.state = .alarm ∨ r.state = .acknowledged then w.emit (.alarm
          { id, index := i, crew, state := r.state, cause := r.cause, time := r.alarmTime
            escalations := r.escalations, reason := .removed, lastCheckIn := r.lastCheckIn, lastPosition := r.lastPosition
            terminalState := .removed, channel := none, alarmChannel := r.alarmChannel, attended := w.site.attended })
        else w).modSite fun s => { s with watches := s.watches.del i }).emit (.watchState
        { id, index := i, crew, state := none, previous := r.state, cause := .unitRemoved
          missed := r.missed, deadline := r.deadline, lastCheckIn := r.lastCheckIn, stopNotPlaced := false }) := by
  have identity : w.site.idAt i = id := by rw [Site.idAt, unit]; exact named
  have binding : w.site.boundCrew i = crew := by rw [Site.boundCrew, unit]; exact bound
  have reporting : ∀ v : Work, v.site.roster = w.site.roster → v.reportWatch i r none r.state .unitRemoved false =
      v.emit (.watchState
        { id, index := i, crew, state := none, previous := r.state, cause := .unitRemoved
          missed := r.missed, deadline := r.deadline, lastCheckIn := r.lastCheckIn, stopNotPlaced := false }) := by
    intro v roster
    rw [Work.reportWatch_eq roster, identity, binding]
  rw [Work.watchAtRemoval, watch]
  dsimp only
  by_cases alarmed : r.state = .alarm ∨ r.state = .acknowledged
  · rw [if_pos alarmed, if_pos (show r.state.inAlarm = true from by rcases alarmed with h | h <;> rw [h] <;> rfl),
      reporting, Work.reportAlarm, identity, binding]
    · rfl
    · rfl
  · have calm : ¬r.state.inAlarm = true := by
      intro h
      rw [WatchState.inAlarm, Bool.or_eq_true, beq_iff_eq, beq_iff_eq] at h
      exact alarmed h
    rw [if_neg alarmed, if_neg calm, reporting]
    rfl

/-- The end of a unit's supervision leaves the roster and the list of owed items alone, and adds reports. -/
theorem Work.watchAtRemoval_rest (w : Work) (i : Nat) :
    (w.watchAtRemoval i).site = { w.site with watches := (w.watchAtRemoval i).site.watches }
    ∧ (∀ k, Table.look (w.watchAtRemoval i).site.watches k = if k = i then none else Table.look w.site.watches k)
    ∧ w.out <+: (w.watchAtRemoval i).out := by
  cases watch : Table.look w.site.watches i with
  | none =>
    rw [Work.watchAtRemoval_of_none watch]
    refine ⟨rfl, fun k => ?_, List.prefix_refl _⟩
    split
    next is => rw [is, watch]
    next => rfl
  | some r =>
    have deleted : ∀ k, Table.look (w.site.watches.del i) k = if k = i then none else Table.look w.site.watches k := by
      intro k
      split
      next is => rw [is, Table.look_del_same]
      next other => exact Table.look_del_other _ _ _ other
    rw [Work.watchAtRemoval, watch]
    dsimp only
    split
    · exact ⟨rfl, deleted, (List.prefix_append _ _).trans (List.prefix_append _ _)⟩
    · exact ⟨rfl, deleted, List.prefix_append _ _⟩

/-- The work as the record of the terminal at index `i` with ID `id` is about to end its supervision and to be freed (R8). -/
def Work.removing (w : Work) (i id : Nat) : Work :=
  let v := w.absent i .removed
  let u := (v.site.rankedOrders.filter fun e => e.2.state == .recalling && e.2.recipient == some id).foldl
    (fun y e => y.finishOrder e.1 .returned .vehicleAbsent (some .cancelledUnconfirmed) (some .none)) v
  (u.cancelAddressed i).modSite fun s => { s with stopNotices := s.stopNotices.del i }

section
variable (w : Work) (i id : Nat)

theorem Work.ended_steady : Steady (w.absent i .removed).site ((((w.absent i .removed).site.rankedOrders.filter fun e =>
    e.2.state == .recalling && e.2.recipient == some id).foldl (fun y e =>
      y.finishOrder e.1 .returned .vehicleAbsent (some .cancelledUnconfirmed) (some .none)) (w.absent i .removed))).site :=
  foldl_steady _ (fun _ _ hv => Work.finishOrder_steady hv _ _ _ _ _) _ _ (.refl _)

theorem Work.removing_after : Beside i (w.absent i .removed) (w.removing i id) := by
  have ended := foldl_beside (fun (y : Work) (e : Nat × Order) =>
      y.finishOrder e.1 .returned .vehicleAbsent (some .cancelledUnconfirmed) (some .none))
    (fun _ _ hv => Work.finishOrder_beside hv _ _ _ _ _)
    ((w.absent i .removed).site.rankedOrders.filter fun e => e.2.state == .recalling && e.2.recipient == some id) _
    (Beside.refl i (w.absent i .removed))
  exact (Work.cancelAddressed_beside ended i).same rfl rfl rfl

theorem Work.removing_beside : Beside i w (w.removing i id) :=
  (Work.absent_beside (Beside.refl i w) .removed).trans (w.removing_after i id)

theorem Work.removing_thinned : Thinned w.site (w.removing i id).site :=
  (w.absent_thinned i .removed).trans
    (Steady.thinned (Work.dropNotice_steady (Work.cancelAddressed_steady (w.ended_steady i id) i) i))

/-- No item is left that is addressed to the terminal (R8). -/
theorem Work.removing_cleared {x : Terminal} (found : Table.look w.site.roster i = some x) (sorted : w.site.sorted = true)
    (sound : w.site.rosterSound = true) : ∀ e ∈ (w.removing i id).site.pul, e.2.addressee ≠ i := by
  have steady := w.ended_steady i id
  have kept := foldl_kept (a := w.site) (fun (y : Work) (e : Nat × Order) =>
      y.finishOrder e.1 .returned .vehicleAbsent (some .cancelledUnconfirmed) (some .none))
    (fun _ _ hv => Work.finishOrder_kept hv _ _ _ _ _)
    ((w.absent i .removed).site.rankedOrders.filter fun e => e.2.state == .recalling && e.2.recipient == some id) _
    (Work.absent_kept (.refl _) i .removed)
  refine (Work.cancelAddressed_spec (kept.sorted sorted) i).1 ?_
  have face : ∃ y, Table.look (w.absent i .removed).site.roster i = some y ∧ y.state ≠ .affiliated := by
    by_cases affiliated : x.state = .affiliated
    · obtain ⟨c, on_⟩ : ∃ c, x.channel = some c := by
        have whole := (rosterSound_iff w.site).1 sound (i, x) (Table.mem_of_look found)
        simp only [Terminal.sound, affiliated, Bool.and_eq_true, beq_self_eq_true, beq_iff_eq] at whole
        exact Option.isSome_iff_exists.1 whole.1.2.symm
      obtain ⟨gone, -⟩ := Work.absent_records found affiliated on_ .removed
      obtain ⟨y, here, same⟩ := Option.map_eq_some_iff.1 gone
      exact ⟨y, here, by rw [(Terminal.agree_of_face same).1]; simp [Terminal.gone]⟩
    · exact ⟨x, by rw [Work.absent_of_unaffiliated found affiliated]; exact found, affiliated⟩
  obtain ⟨y, here, away⟩ := face
  have faces := steady.faces i
  rw [here, Option.map_some] at faces
  obtain ⟨z, there, same⟩ := Option.map_eq_some_iff.1 faces
  rw [Site.affiliated, there, Option.any_some, (Terminal.agree_of_face same).1]
  exact beq_eq_false_iff_ne.2 away

end

/-- A removal step by step (R8). -/
theorem Work.removeTerminal_eq {w : Work} {i : Nat} {x : Terminal} (found : Table.look w.site.roster i = some x) :
    let r := ((w.removing i x.id).watchAtRemoval i).emit (.terminalState
      { id := x.id, index := i, state := .removed, channel := none, short := none, cause := .removed
        quality := x.quality, lastHeard := x.lastHeard })
    w.removeTerminal i = { r with site := { r.site with roster := r.site.roster.del i } } := by
  intro r
  obtain ⟨y, here, -, -, -, quality, heard⟩ := (w.removing_thinned i x.id).record found
  obtain ⟨site, -, -⟩ := (w.removing i x.id).watchAtRemoval_rest i
  have there : Table.look ((w.removing i x.id).watchAtRemoval i).site.roster i = some y := by rw [site]; exact here
  have said : ((w.removing i x.id).watchAtRemoval i).reportTerminal i x.id .removed none none .removed = r := by
    rw [Work.reportTerminal, there, Option.map_some, Option.bind_some, Option.getD_some, quality, heard]
  have run : w.removeTerminal i = (((w.removing i x.id).watchAtRemoval i).reportTerminal i x.id .removed none none
      .removed).modSite fun s => { s with roster := s.roster.del i } := by
    rw [Work.removeTerminal, found]
    rfl
  rw [run, said]
  rfl

/-- What a removal leaves of the roster, of the supervision records and of the reports (R8, R131). -/
theorem Work.removeTerminal_spec {w : Work} {i : Nat} {x : Terminal} (found : Table.look w.site.roster i = some x) :
    let t := w.removeTerminal i
    Table.look t.site.roster i = none
    ∧ (∀ j, j ≠ i → (Table.look t.site.roster j).map Terminal.unnoted = (Table.look w.site.roster j).map Terminal.unnoted)
    ∧ (∀ k, Table.look t.site.watches k = if k = i then none else Table.look w.site.watches k)
    ∧ ∃ l, w.out ++ l = (w.removing i x.id).out
      ∧ t.out = ((w.removing i x.id).watchAtRemoval i).out ++ [.terminalState
        { id := x.id, index := i, state := .removed, channel := none, short := none, cause := .removed
          quality := x.quality, lastHeard := x.lastHeard }] := by
  intro t
  have beside := w.removing_beside i x.id
  obtain ⟨site, watches, -⟩ := (w.removing i x.id).watchAtRemoval_rest i
  have run : t = _ := Work.removeTerminal_eq found
  rw [run]
  refine ⟨Table.look_del_same _ _, fun j other => ?_, fun k => ?_, ?_⟩
  · show (Table.look (((w.removing i x.id).watchAtRemoval i).site.roster.del i) j).map _ = _
    rw [Table.look_del_other _ _ _ other, site]
    exact beside.others j other
  · exact (watches k).trans (by rw [beside.watches])
  · obtain ⟨l, more⟩ := beside.reports
    exact ⟨l, more, rfl⟩

/-- The reports of the end of an absence (R22, R23). -/
theorem Work.absent_said {w : Work} {i : Nat} {x : Terminal} {c : Chan} (found : Table.look w.site.roster i = some x)
    (affiliated : x.state = .affiliated) (on_ : x.channel = some c) (cause : TerminalCause) :
    .terminalState { id := x.id, index := i, state := .absent, channel := none, short := none, cause
                     quality := x.quality, lastHeard := x.lastHeard } ∈ (w.absent i cause).out := by
  have listed : ∀ v : Work, ∀ b, b ∈ (v.emit b).out := fun v b => List.mem_append_right _ (List.mem_cons_self ..)
  rw [Work.absent_eq found affiliated on_ cause]
  split
  · rw [Work.serveNotes_out]; exact listed _ _
  · exact listed _ _

/-- What is left after a removal (R8, R114, R131, R145). -/
theorem Work.removeTerminal_leaves {w : Work} {i : Nat} {x : Terminal} (found : Table.look w.site.roster i = some x) :
    let t := w.removeTerminal i
    Table.look t.site.roster i = none
    ∧ (∀ j y, j ≠ i → Table.look w.site.roster j = some y → ∃ notes, Table.look t.site.roster j = some { y with notes })
    ∧ (∀ c, x.state = .affiliated → x.channel = some c →
      .terminalState { id := x.id, index := i, state := .absent, channel := none, short := none, cause := .removed
                       quality := x.quality, lastHeard := x.lastHeard } ∈ t.out)
    ∧ (w.site.sorted = true → w.site.rosterSound = true → ∀ e ∈ t.site.pul, e.2.addressee ≠ i)
    ∧ Table.look t.site.watches i = none ∧ Table.look t.site.stopNotices i = none := by
  intro t
  obtain ⟨freed, others, watches, l, -, out⟩ := Work.removeTerminal_spec found
  obtain ⟨site, -, later⟩ := (w.removing i x.id).watchAtRemoval_rest i
  have removal : t = _ := Work.removeTerminal_eq found
  refine ⟨freed, fun j y other there => Terminal.of_unnoted (others j other) there, fun c affiliated on_ => ?_,
    fun sorted sound e mem => ?_, (watches i).trans (if_pos rfl), ?_⟩
  · rw [show t.out = _ from out]
    exact List.mem_append_left _ (later.subset ((w.removing_after i x.id).reports.subset
      (Work.absent_said found affiliated on_ .removed)))
  · have pul : t.site.pul = (w.removing i x.id).site.pul := by rw [removal, Work.emit_site, site]
    exact w.removing_cleared i x.id found sorted sound e (pul ▸ mem)
  · have notices : t.site.stopNotices = (w.removing i x.id).site.stopNotices := by rw [removal, Work.emit_site, site]
    rw [notices]
    exact Table.look_del_same _ _

/-- Settles O40. -/
theorem terminalRequestsTaken : Obligations.TerminalRequestsTaken := by
  refine ⟨fun w i x found => ?_, fun w i => ⟨rfl, fun sorted => Work.cancelAddressed_spec sorted i⟩,
    fun h s id low high sorted => ⟨fun k i a kind absent free => ?_, fun k i x a holds kind => ?_,
      fun i x a holds unbound unwatched => ?_⟩⟩
  · intro v recalling u t r
    obtain ⟨freed, others, absent, cleared, watch, notice⟩ := Work.removeTerminal_leaves found
    have begun : (u.cancelAddressed i).modSite (fun s => { s with stopNotices := s.stopNotices.del i }) = w.removing i x.id := rfl
    have removal := Work.removeTerminal_eq found
    dsimp only at removal
    rw [← begun] at removal
    exact ⟨removal, freed, others, absent, cleared, watch, notice, Work.watchAtRemoval_of_none, fun y there =>
      Work.watchAtRemoval_of_look there found rfl rfl⟩
  · have range : idOf id = some id.toNat := idOf_of_range low high
    have unheld : s.begun.site.byId id.toNat = none := absent
    have index : Table.firstFree s.begun.site.roster 160 = some i := free
    refine request_outcome a 0x10 (fun _ w => takeLoadTerminal id k w) ?_
    show takeLoadTerminal id k s.begun = _
    rw [takeLoadTerminal, range]
    rcases kind with rfl | rfl
    · simp only [terminalKindOf, if_true, unheld, index]; rfl
    · simp only [terminalKindOf, show ¬(1 : Byte) = 0 from by decide, if_true, if_false, unheld, index]; rfl
  · have range : idOf id = some id.toNat := idOf_of_range low high
    have held : s.begun.site.byId id.toNat = some (i, x) := holds
    refine request_outcome a 0x10 (fun _ w => takeLoadTerminal id k w) ?_
    show takeLoadTerminal id k s.begun = _
    rw [takeLoadTerminal, range, kind]
    dsimp only
    rw [held]
    dsimp only
    cases origin : x.origin with
    | loaded => rfl
    | guest => simp
  · intro w
    have range : idOf id = some id.toNat := idOf_of_range low high
    have held : s.begun.site.byId id.toNat = some (i, x) := holds
    have free : Table.look s.begun.site.watches i = none := unwatched
    obtain ⟨found, named⟩ := look_of_byId sorted holds
    have removed := Work.removeTerminal_spec (w := s.begun) found
    obtain ⟨freed, -, -, l, -, out⟩ := removed
    refine ⟨request_outcome a 0x11 (fun _ w => takeDropTerminal id w) ?_, freed, ?_⟩
    · show takeDropTerminal id s.begun = _
      rw [takeDropTerminal, range]
      dsimp only
      rw [held]
      dsimp only
      rw [free, unbound]
      rfl
    · rw [show w.out = _ from out, ← named]
      exact List.getLast?_concat ..

end Sys2Proof.Machine

/-! ### The authorized list and the mode (R160 to R162) -/

namespace Sys2Proof.Machine

/-! #### The permits that revert at a change of mode -/

theorem Site.owned_owner {s : Site} {o : Owner} {k : ItemKind} {id : Nat} {it : PulItem} (owned : s.owned o k = some (id, it)) :
    it.owner = o := by
  have passes := List.find?_some owned
  rw [Bool.and_eq_true, beq_iff_eq, beq_iff_eq] at passes
  exact passes.1

/-- The item of another owner stays, wherever it then stands. -/
theorem Work.cancelOwned_keeps {w : Work} (sorted : w.site.sorted = true) {o : Owner} (lasting : o.isTerminal = false)
    (k : ItemKind) {id : Nat} {it : PulItem} (found : Table.look w.site.pul id = some it) (other : it.owner ≠ o) :
    ∃ place, Table.look (w.cancelOwned o k).site.pul id = some { it with location := place } := by
  refine (Work.cancelOwned_moved sorted o k lasting).stay id it found fun ⟨mine, owned⟩ => ?_
  have there := (Table.look_of_seek (Work.pul_wf sorted) owned).1
  cases found.symm.trans there
  exact other (Site.owned_owner owned)

theorem Work.place_keeps {w : Work} (sorted : w.site.sorted = true) {o : Owner} (lasting : o.isTerminal = false)
    (i : Nat) (x : ItemContent) {id : Nat} {it : PulItem} (found : Table.look w.site.pul id = some it) (other : it.owner ≠ o) :
    ∃ place, Table.look (w.place o i x).site.pul id = some { it with location := place } := by
  refine (Work.place_moved sorted o i x lasting).1.stay id it found fun ⟨mine, owned⟩ => ?_
  have there := (Table.look_of_seek (Work.pul_wf sorted) owned).1
  cases found.symm.trans there
  exact other (Site.owned_owner owned)

/-- The report of a permit that reverts at a change of mode (R141, R161). -/
def Permit.modeReport (p : Permit) : ReportBody := .permitState
  { number := p.number, work := p.work, crew := p.crew, state := .requested, previous := some .issuing
    cause := .modeChange, attempts := p.attempts, compromised := p.compromised, restored := p.restored
    resultConfirmed := p.resultConfirmed
    violationSwitch := if p.compromised = true then p.violationSwitch else none, recorded := p.recorded }

/-- A permit that reverts (R141). -/
def Permit.reverted (p : Permit) : Permit := { p with state := .requested, deadline := none }

/-- A change of the permits, the list of owed items and the channels alone. -/
theorem Site.eq_of_unpermitted_rest {a b : Site} (h : b.unpermitted.rest = a.unpermitted.rest) :
    b = { a with permits := b.permits, pul := b.pul, nextItem := b.nextItem, channels := b.channels } :=
  congrArg (fun s : Site => { s with
    permits := b.permits, pul := b.pul, nextItem := b.nextItem, channels := b.channels }) h

/-- One permit reverts at a change of mode, with its report and the result that withdraws it (R141, R161). -/
theorem Work.revertOne {w : Work} (sorted : w.site.sorted = true) {k : Nat} {p : Permit}
    (found : Table.look w.site.permits k = some p) (issuing : p.state = .issuing) :
    let t := w.revertPermit k .modeChange true
    t.site.unpermitted.rest = w.site.unpermitted.rest
    ∧ (∀ j, Table.look t.site.permits j = if j = k then some p.reverted else Table.look w.site.permits j)
    ∧ t.out = w.out ++ [p.modeReport]
    ∧ (∀ id it, Table.look w.site.pul id = some it → it.owner ≠ .permit k →
      ∃ place, Table.look t.site.pul id = some { it with location := place })
    ∧ ∀ i x, p.recorded.bind w.site.byId = some (i, x) → ∃ id place, Table.look t.site.pul id = some
      { owner := .permit k, addressee := i, content := .permitResult p.number .withdrawn p.attempts, location := place } := by
  intro t
  let m := w.modPermit k fun q => { q with state := .requested, deadline := none }
  let v := m.cancelOwned (.permit k) .permit
  have run : t = (v.placeResult k .withdrawn).reportPermit p.reverted (some .issuing) .modeChange :=
    Work.revertPermit_of_issuing found issuing .modeChange true
  have modified : m.site.sorted = true :=
    (modPermit_but w k (fun q => { q with state := .requested, deadline := none }) fun _ _ =>
      Permit.Calmer.of_idle rfl (.inl rfl)).sorted sorted
  have cancelled : v.site.sorted = true := (Work.cancelOwned_kept (.refl m.site) _ _).sorted modified
  have rested : v.site.rest = m.site.rest := Work.cancelOwned_rest _ _ _
  have stands : Table.look v.site.permits k = some p.reverted := by
    rw [Work.cancelOwned_permits, Work.modPermit_look, found]; rfl
  obtain ⟨held, unheld⟩ := Work.placeResult_of_look stands .withdrawn
  have roster : v.site.byId = w.site.byId := Site.rest_eq rested Site.byId fun _ => rfl
  have placed : (v.placeResult k .withdrawn).site.rest = v.site.rest ∧ (v.placeResult k .withdrawn).out = v.out := by
    cases holder : p.reverted.recorded.bind v.site.byId with
    | none => rw [unheld holder]; exact ⟨rfl, rfl⟩
    | some e => rw [held e.1 e.2 holder]; exact ⟨Work.place_rest _ _ _ _, Work.place_out _ _ _ _⟩
  refine ⟨?_, fun j => ?_, ?_, fun id item found' other => ?_, fun i x holder => ?_⟩
  · rw [run]
    exact congrArg (fun s => Site.unpermitted s) (placed.1.trans rested)
  · rw [run]
    have permits : (v.placeResult k .withdrawn).site.permits = m.site.permits := by
      rw [Work.placeResult_permits, Work.cancelOwned_permits]
    show Table.look (v.placeResult k .withdrawn).site.permits j = _
    rw [permits]
    split
    next is => rw [is, Work.modPermit_look, found]; rfl
    next apart => exact Table.look_adjust_other _ _ _ _ apart
  · rw [run]
    show (v.placeResult k .withdrawn).out ++ [_] = _
    rw [placed.2, show v.out = w.out from Work.cancelOwned_out _ _ _]
    rfl
  · obtain ⟨place, there⟩ := Work.cancelOwned_keeps (w := m) modified (o := .permit k) rfl .permit found' other
    rw [run]
    show ∃ place, Table.look (v.placeResult k .withdrawn).site.pul id = _
    cases holder : p.reverted.recorded.bind v.site.byId with
    | none => rw [unheld holder]; exact ⟨place, there⟩
    | some e =>
      rw [held e.1 e.2 holder]
      exact Work.place_keeps cancelled (o := .permit k) rfl _ _ (it := { item with location := place }) there other
  · have holder' : p.reverted.recorded.bind v.site.byId = some (i, x) := by rw [roster]; exact holder
    rw [run]
    show ∃ id place, Table.look (v.placeResult k .withdrawn).site.pul id = _
    rw [held i x holder']
    exact (Work.place_moved cancelled (.permit k) i _ rfl).2

/-- The permits of a list revert one after the other. -/
theorem Work.foldl_revertOne (l : List (Nat × Permit)) : ∀ (w : Work), w.site.sorted = true → (l.map Prod.fst).Nodup →
    (∀ e ∈ l, Table.look w.site.permits e.1 = some e.2 ∧ e.2.state = .issuing) →
    let t := l.foldl (fun v e => v.revertPermit e.1 .modeChange true) w
    t.site.unpermitted.rest = w.site.unpermitted.rest
    ∧ (∀ j, Table.look t.site.permits j =
      if j ∈ l.map Prod.fst then (Table.look w.site.permits j).map Permit.reverted else Table.look w.site.permits j)
    ∧ t.out = w.out ++ l.map (fun e => e.2.modeReport)
    ∧ (∀ id it, Table.look w.site.pul id = some it → (∀ e ∈ l, it.owner ≠ .permit e.1) →
      ∃ place, Table.look t.site.pul id = some { it with location := place })
    ∧ ∀ e ∈ l, ∀ i x, e.2.recorded.bind w.site.byId = some (i, x) → ∃ id place, Table.look t.site.pul id = some
      { owner := .permit e.1, addressee := i, content := .permitResult e.2.number .withdrawn e.2.attempts
        location := place } := by
  induction l with
  | nil =>
    intro w _ _ _
    exact ⟨rfl, fun _ => rfl, (List.append_nil _).symm, fun _ it found _ => ⟨it.location, found⟩,
      fun _ member => absurd member List.not_mem_nil⟩
  | cons e l ih =>
    intro w sorted apart listed
    obtain ⟨fresh, apart⟩ := List.nodup_cons.1 apart
    obtain ⟨found, issuing⟩ := listed e (List.mem_cons_self ..)
    let m := w.revertPermit e.1 .modeChange true
    obtain ⟨rest₁, permits₁, out₁, stay₁, placed₁⟩ := Work.revertOne sorted found issuing
    have sorted₁ : m.site.sorted = true := (Work.revertPermit_kept (.refl w.site) _ _ _).sorted sorted
    have other : ∀ f ∈ l, f.1 ≠ e.1 := fun f member same => fresh (List.mem_map.2 ⟨f, member, same⟩)
    obtain ⟨rest₂, permits₂, out₂, stay₂, placed₂⟩ := ih m sorted₁ apart fun f member => by
      rw [permits₁, if_neg (other f member)]
      exact listed f (List.mem_cons_of_mem _ member)
    have names : m.site.byId = w.site.byId := by rw [Site.eq_of_unpermitted_rest rest₁]; rfl
    refine ⟨rest₂.trans rest₁, fun j => ?_, ?_, fun id it here others => ?_, fun f member i x holder => ?_⟩
    · refine (permits₂ j).trans ?_
      rw [permits₁]
      by_cases is : j = e.1
      · rw [if_pos is, if_neg (is ▸ fresh), if_pos (is ▸ List.mem_map_of_mem (List.mem_cons_self ..)), is, found]; rfl
      · simp only [List.map_cons, List.mem_cons, is, false_or, if_false]
    · rw [List.foldl_cons, out₂, out₁, List.append_assoc]; rfl
    · obtain ⟨place, there⟩ := stay₁ id it here (others e (List.mem_cons_self ..))
      exact stay₂ id { it with location := place } there fun f member => others f (List.mem_cons_of_mem _ member)
    · rcases List.mem_cons.1 member with rfl | member
      · obtain ⟨id, place, there⟩ := placed₁ i x holder
        exact (stay₂ id _ there fun g listed same => other g listed (Owner.permit.inj same).symm).elim
          fun place there => ⟨id, place, there⟩
      · exact placed₂ f member i x (by rw [names]; exact holder)

/-- What the first effect of SET_MODE leaves (R161, step 1). -/
theorem Work.revertIssuing_spec {w : Work} (sorted : w.site.sorted = true) :
    let l := w.site.permitsBy fun p => p.state == .issuing
    let t := w.revertIssuing
    t.site.unpermitted.rest = w.site.unpermitted.rest
    ∧ (∀ j, Table.look t.site.permits j = (Table.look w.site.permits j).map fun p =>
      if p.state = .issuing then p.reverted else p)
    ∧ t.out = w.out ++ l.map (fun e => e.2.modeReport)
    ∧ ∀ e ∈ l, ∀ i x, e.2.recorded.bind w.site.byId = some (i, x) → ∃ id place, Table.look t.site.pul id = some
      { owner := .permit e.1, addressee := i, content := .permitResult e.2.number .withdrawn e.2.attempts
        location := place } := by
  intro l t
  have form : Table.wf w.site.permits = true := by
    obtain ⟨-, -, -, -, -, -, -, -, permits⟩ := (sorted_iff _).1 sorted
    exact permits
  have order : l.Perm _ := w.site.permitsBy_perm fun p => p.state == .issuing
  have apart : (l.map Prod.fst).Nodup :=
    (order.map Prod.fst).nodup_iff.2 ((List.filter_sublist.map Prod.fst).nodup (((Table.wf_iff _).1 form).imp fun h => by omega))
  obtain ⟨rest, permits, out, -, placed⟩ := Work.foldl_revertOne l w sorted apart fun e member => by
    obtain ⟨stands, passes⟩ := permitsBy_spec member
    exact ⟨Table.look_of_mem form stands, beq_iff_eq.1 passes⟩
  refine ⟨rest, fun j => (permits j).trans ?_, out, placed⟩
  cases found : Table.look w.site.permits j with
  | none => split <;> rfl
  | some p =>
    simp only [Option.map_some, l, Site.permitsBy_listed sorted found, beq_iff_eq]
    split <;> rfl

/-! #### The guests that leave with the OPEN mode -/

/-- What is said of the supervision record of a terminal that is removed (R131). -/
theorem Work.removeTerminal_watched {w : Work} {i : Nat} {x : Terminal} {r : Watch} (found : Table.look w.site.roster i = some x)
    (watch : Table.look w.site.watches i = some r) :
    r.lastState i x ∈ (w.removeTerminal i).out
    ∧ (r.state = .alarm ∨ r.state = .acknowledged → ∃ s, r.lastAlarm s i x ∈ (w.removeTerminal i).out) := by
  obtain ⟨-, -, -, l, -, out⟩ := Work.removeTerminal_spec found
  obtain ⟨y, there, id, crew, -, -, -⟩ := (w.removing_thinned i x.id).record found
  have watched : Table.look (w.removing i x.id).site.watches i = some r := by
    rw [(w.removing_beside i x.id).watches, watch]
  rw [show (w.removeTerminal i).out = _ from out, Work.watchAtRemoval_of_look watched there id crew]
  refine ⟨List.mem_append_left _ (List.mem_append_right _ (List.mem_cons_self ..)), fun alarmed =>
    ⟨(w.removing i x.id).site, List.mem_append_left _ (List.mem_append_left _ ?_)⟩⟩
  rw [if_pos alarmed]
  exact List.mem_append_right _ (List.mem_cons_self ..)

/-- The report of a removal (R8). -/
def Terminal.removedReport (x : Terminal) (i : Nat) : ReportBody := .terminalState
  { id := x.id, index := i, state := .removed, channel := none, short := none, cause := .removed
    quality := x.quality, lastHeard := x.lastHeard }

theorem Terminal.removedReport_unnoted (x : Terminal) (i : Nat) : x.unnoted.removedReport i = x.removedReport i := rfl

theorem Watch.lastState_unnoted (r : Watch) (i : Nat) (x : Terminal) : r.lastState i x.unnoted = r.lastState i x := rfl

theorem Watch.lastAlarm_unnoted (r : Watch) (s : Site) (i : Nat) (x : Terminal) :
    r.lastAlarm s i x.unnoted = r.lastAlarm s i x := rfl

/-- The terminals of a list are removed one after the other. -/
theorem Work.foldl_removeTerminal (l : List (Nat × Terminal)) : ∀ w : Work, (l.map Prod.fst).Nodup →
    (∀ e ∈ l, (Table.look w.site.roster e.1).map Terminal.unnoted = some e.2.unnoted) →
    let t := l.foldl (fun v e => v.removeTerminal e.1) w
    (∀ j, (Table.look t.site.roster j).map Terminal.unnoted =
      if j ∈ l.map Prod.fst then none else (Table.look w.site.roster j).map Terminal.unnoted)
    ∧ (∀ j, Table.look t.site.watches j = if j ∈ l.map Prod.fst then none else Table.look w.site.watches j)
    ∧ w.out <+: t.out
    ∧ ∀ e ∈ l, e.2.removedReport e.1 ∈ t.out ∧ ∀ r, Table.look w.site.watches e.1 = some r →
      r.lastState e.1 e.2 ∈ t.out
      ∧ (r.state = .alarm ∨ r.state = .acknowledged → ∃ s, r.lastAlarm s e.1 e.2 ∈ t.out) := by
  induction l with
  | nil => exact fun w _ _ => ⟨fun _ => rfl, fun _ => rfl, List.prefix_refl _, fun _ member => absurd member List.not_mem_nil⟩
  | cons e l ih =>
    intro w apart listed
    obtain ⟨fresh, apart⟩ := List.nodup_cons.1 apart
    obtain ⟨x, found, same⟩ := Option.map_eq_some_iff.1 (listed e (List.mem_cons_self ..))
    let m := w.removeTerminal e.1
    obtain ⟨freed, others, watches, more, longer, out⟩ := Work.removeTerminal_spec found
    obtain ⟨-, -, later⟩ := (w.removing e.1 x.id).watchAtRemoval_rest e.1
    have kept : w.out <+: m.out := by
      rw [show m.out = _ from out]
      exact (show w.out <+: _ from ⟨more, longer⟩).trans (later.trans (List.prefix_append _ _))
    have other : ∀ f ∈ l, f.1 ≠ e.1 := fun f member is => fresh (List.mem_map.2 ⟨f, member, is⟩)
    have first : e.1 ∈ (e :: l).map Prod.fst := List.mem_cons_self ..
    obtain ⟨roster₂, watches₂, out₂, said₂⟩ := ih m apart fun f member =>
      (others f.1 (other f member)).trans (listed f (List.mem_cons_of_mem _ member))
    refine ⟨fun j => (roster₂ j).trans ?_, fun j => (watches₂ j).trans ?_, kept.trans out₂, fun f member => ?_⟩
    · by_cases is : j = e.1
      · rw [is, if_neg fresh, if_pos first,
          show Table.look m.site.roster e.1 = none from freed]
        rfl
      · simp only [List.map_cons, List.mem_cons, is, false_or, others j is, m]
    · rw [show Table.look m.site.watches j = _ from watches j]
      by_cases is : j = e.1
      · rw [if_pos is, is, if_pos first, ite_self]
      · simp only [List.map_cons, List.mem_cons, is, false_or, if_false]
    · rcases List.mem_cons.1 member with rfl | member
      · refine ⟨out₂.subset ?_, fun r watch => ?_⟩
        · rw [← Terminal.removedReport_unnoted, ← same, show m.out = _ from out]
          exact List.mem_append_right _ (List.mem_cons_self ..)
        · obtain ⟨state, alarm⟩ := Work.removeTerminal_watched found watch
          refine ⟨out₂.subset ?_, fun alarmed => (alarm alarmed).elim fun s there => ⟨s, out₂.subset ?_⟩⟩
          · rw [← Watch.lastState_unnoted, ← same]; exact state
          · rw [← Watch.lastAlarm_unnoted, ← same]; exact there
      · obtain ⟨said, watched⟩ := said₂ f member
        exact ⟨said, fun r watch => watched r ((watches f.1).trans ((if_neg (other f member)).trans watch))⟩

/-- Which terminals leave with the OPEN mode (step 4 of R161). -/
theorem Site.mem_guests {s : Site} (sorted : s.sorted = true) {i : Nat} {x : Terminal} (found : Table.look s.roster i = some x) :
    i ∈ (s.roster.filter fun e => e.2.origin == .guest && e.2.crew.isNone).map Prod.fst ↔
      x.origin = .guest ∧ x.crew = none := by
  have form := ((sorted_iff s).1 sorted).1
  constructor
  · intro listed
    obtain ⟨⟨j, y⟩, member, rfl⟩ := List.mem_map.1 listed
    obtain ⟨member, passes⟩ := List.mem_filter.1 member
    cases (Table.look_of_mem form member).symm.trans found
    rw [Bool.and_eq_true, beq_iff_eq, Option.isNone_iff_eq_none] at passes
    exact passes
  · rintro ⟨guest, unbound⟩
    exact List.mem_map.2 ⟨(i, x), List.mem_filter.2 ⟨Table.mem_of_look found, by simp [guest, unbound]⟩, rfl⟩

/-- What step 4 of R161 leaves. -/
theorem Work.removeGuests_spec {w : Work} (sorted : w.site.sorted = true) {i : Nat} {x : Terminal}
    (found : Table.look w.site.roster i = some x) :
    let t := w.removeGuests
    (¬(x.origin = .guest ∧ x.crew = none) → ∃ notes, Table.look t.site.roster i = some { x with notes })
    ∧ (x.origin = .guest → x.crew = none → Table.look t.site.roster i = none
      ∧ x.removedReport i ∈ t.out ∧ Table.look t.site.watches i = none
      ∧ ∀ r, Table.look w.site.watches i = some r → r.lastState i x ∈ t.out
        ∧ (r.state = .alarm ∨ r.state = .acknowledged → ∃ s, r.lastAlarm s i x ∈ t.out)) := by
  intro t
  have form := ((sorted_iff w.site).1 sorted).1
  obtain ⟨roster, watches, -, said⟩ := Work.foldl_removeTerminal
    (w.site.roster.filter fun e => e.2.origin == .guest && e.2.crew.isNone) w
    ((List.filter_sublist.map Prod.fst).nodup (((Table.wf_iff _).1 form).imp fun h => by omega))
    fun e member => by rw [Table.look_of_mem form (List.mem_filter.1 member).1]; rfl
  refine ⟨fun stays => ?_, fun guest unbound => ?_⟩
  · refine Terminal.of_unnoted ((roster i).trans (if_neg ?_)) found
    rwa [Site.mem_guests sorted found]
  · have listed := (Site.mem_guests sorted found).2 ⟨guest, unbound⟩
    have member : (i, x) ∈ w.site.roster.filter fun e => e.2.origin == .guest && e.2.crew.isNone :=
      List.mem_filter.2 ⟨Table.mem_of_look found, by simp [guest, unbound]⟩
    exact ⟨Option.map_eq_none_iff.1 ((roster i).trans (if_pos listed)), (said _ member).1,
      (watches i).trans (if_pos listed), (said _ member).2⟩

/-- No GUEST record is left where guests are bound to no crew (R12, R161). -/
theorem Work.removeGuests_loaded {w : Work} (sorted : w.site.sorted = true)
    (unbound : ∀ i x, Table.look w.site.roster i = some x → x.origin = .guest → x.crew = none) {i : Nat} {y : Terminal}
    (left : Table.look w.removeGuests.site.roster i = some y) : y.origin = .loaded := by
  have form := ((sorted_iff w.site).1 sorted).1
  cases found : Table.look w.site.roster i with
  | none =>
    have gone := (Work.foldl_removeTerminal
      (w.site.roster.filter fun e => e.2.origin == .guest && e.2.crew.isNone) w
      ((List.filter_sublist.map Prod.fst).nodup (((Table.wf_iff _).1 form).imp fun h => by omega))
      fun e member => by rw [Table.look_of_mem form (List.mem_filter.1 member).1]; rfl).1 i
    rw [found, Option.map_none, ite_self] at gone
    exact absurd ((Option.map_eq_none_iff.1 gone).symm.trans left) (by simp)
  | some x =>
    obtain ⟨stays, leaves⟩ := Work.removeGuests_spec sorted found
    by_cases guest : x.origin = .guest
    · exact absurd ((leaves guest (unbound i x found guest)).1.symm.trans left) (by simp)
    · obtain ⟨notes, here⟩ := stays fun both => guest both.1
      cases here.symm.trans left
      show x.origin = .loaded
      cases origin : x.origin with
      | loaded => rfl
      | guest => exact absurd origin guest

/-! #### The requests (R160 to R162) -/

/-- Removing the guests changes neither the mode, the authorized list nor the write under way. -/
theorem Work.removeGuests_fixed (w : Work) : w.removeGuests.site.fixed = w.site.fixed :=
  (Work.removeGuests_kept (.refl w.site)).fixed

theorem crewOf_of_range {x : Half} (low : 1 ≤ x.toNat) (high : x.toNat ≤ 4095) : crewOf x = some x.toNat :=
  if_pos ⟨low, high⟩

/-- The authorized list is replaced whole (R160). -/
theorem takeSetAuthList_taken {l : List Half} (w : Work) (short : l.length ≤ 32) (apart : l.Nodup)
    (range : ∀ x ∈ l, 1 ≤ x.toNat ∧ x.toNat ≤ 4095) : takeSetAuthList l w =
      (w.modSite fun s => { s with authList := l.map BitVec.toNat }).taken (.authCount l.length) :=
  if_pos ⟨short, List.all_eq_true.2 fun x member => by
    obtain ⟨low, high⟩ := range x member
    rw [crewOf_of_range low high]; rfl, apart⟩

/-- The first four effects of SET_MODE set the mode and empty the list (R161). -/
theorem Work.changeMode_spec (w : Work) (m : Mode) :
    (w.changeMode m).site.mode = m ∧ (w.changeMode m).site.authList = []
    ∧ (w.changeMode m).site.write = w.site.write := by
  let v := w.revertIssuing.modSite fun s => { s with authList := [], mode := m }
  have removed : v.removeGuests.site.fixed = v.site.fixed := v.removeGuests_fixed
  have fixing : w.revertIssuing.site.fixed = w.site.fixed := (Work.revertIssuing_kept (.refl w.site)).fixed
  have writing : w.revertIssuing.site.write = w.site.write :=
    (congrArg Site.write fixing :)
  have gone : v.removeGuests.site.mode = m ∧ v.removeGuests.site.authList = [] ∧ v.removeGuests.site.write = w.site.write :=
    ⟨(congrArg Site.mode removed :), (congrArg Site.authList removed :), (congrArg Site.write removed :).trans writing⟩
  have stay : v.site.mode = m ∧ v.site.authList = [] ∧ v.site.write = w.site.write := ⟨rfl, rfl, writing⟩
  have removing : ∀ (p : Prop) [Decidable p], (if p then v.removeGuests else v).site.mode = m
      ∧ (if p then v.removeGuests else v).site.authList = []
      ∧ (if p then v.removeGuests else v).site.write = w.site.write := by
    intro p _
    split
    · exact gone
    · exact stay
  rw [Work.changeMode]
  split
  · exact removing _
  · exact removing _

/-- Settles O20. -/
theorem authorizationRequestsTaken : Obligations.AuthorizationRequestsTaken := by
  refine ⟨fun w => ⟨w.site.permitsBy fun p => p.state == .issuing, w.site.permitsBy_perm _, w.site.permitsBy_pairwise _, rfl,
      fun sorted => ?_⟩,
    fun w => ⟨rfl, fun sorted i x found => ?_, fun sorted unbound i y left => Work.removeGuests_loaded sorted unbound left⟩,
    fun h s => ⟨fun n l a size short apart range => ?_, fun m x a named key => ?_, fun m x a named key => ?_⟩⟩
  · obtain ⟨rest, permits, out, placed⟩ := Work.revertIssuing_spec sorted
    exact ⟨Site.eq_of_unpermitted_rest rest, permits, out, placed⟩
  · obtain ⟨stays, leaves⟩ := Work.removeGuests_spec sorted found
    refine ⟨stays, fun guest unbound => ?_⟩
    obtain ⟨freed, report, unwatched, watched⟩ := leaves guest unbound
    refine ⟨freed, report, unwatched, fun r watch => ?_⟩
    obtain ⟨state, alarm⟩ := watched r watch
    rw [Watch.lastState, unbound] at state
    exact ⟨state, fun alarmed => (alarm alarmed).elim fun s there =>
      ⟨_, there, rfl, rfl, unbound, rfl, rfl, rfl, rfl⟩⟩
  · have length : (lengthIs h (1 + 2 * n.toNat) && l.length == n.toNat) = true := by
      rw [lengthIs_of_admits a, size, beq_self_eq_true]; rfl
    refine ⟨_, request_admitted a 0x60 _ length fun _ w => takeSetAuthList l w, ?_, ?_⟩
    · rw [State.answered_site_of_no_offers, takeSetAuthList_taken _ short apart range]
      · rfl
      · rw [takeSetAuthList_taken _ short apart range]; rfl
    · rw [State.answered_places, takeSetAuthList_taken _ short apart range]; rfl
  · intro v u w
    have changed : w = s.begun.changeMode x := rfl
    obtain ⟨mode, list, write⟩ := s.begun.changeMode_spec x
    refine ⟨changed ▸ mode, changed ▸ list, request_outcome a 0x61 (fun _ y => takeSetMode m y) ?_⟩
    show takeSetMode m s.begun = _
    have enabled : s.begun.site.keyEnable = true := key
    have writing : (s.begun.changeMode x).site.write.isSome = s.site.write.isSome := congrArg Option.isSome write
    rw [takeSetMode, named, changed]
    dsimp only
    rw [if_pos enabled, Work.writeMode, writing]
  · refine request_outcome a 0x61 (fun _ y => takeSetMode m y) ?_
    have shut : s.begun.site.keyEnable = false := key
    show takeSetMode m s.begun = _
    rw [takeSetMode, named]
    dsimp only
    rw [shut]
    rfl

end Sys2Proof.Machine

/-! ### The inbound frames that the FSC, the TRT and the ACA own (R17 to R22, R57, R58, R74, R78) -/

namespace Sys2Proof.Machine

/-! #### What a sender field, a crew's vehicle and a short address name -/

theorem Terminal.on_iff (x : Terminal) (c : Chan) : x.on c = true ↔ x.state = .affiliated ∧ x.channel = some c := by
  rw [Terminal.on, Bool.and_eq_true, beq_iff_eq, beq_iff_eq]

/-- A terminal other than the one at index `i` holds short address `k` on channel `c` (R19). -/
def Site.heldByAnother (s : Site) (c : Chan) (i k : Nat) : Prop :=
  ∃ e ∈ s.roster, e.1 ≠ i ∧ e.2.state = .affiliated ∧ e.2.channel = some c ∧ e.2.short = some k

theorem Site.heldByAnother_iff (s : Site) (c : Chan) (i k : Nat) :
    (s.roster.any fun e => e.1 != i && e.2.on c && e.2.short == some k) = true ↔ s.heldByAnother c i k := by
  simp only [List.any_eq_true, Bool.and_eq_true, bne_iff_ne, Terminal.on_iff, beq_iff_eq, and_assoc, Site.heldByAnother]

theorem Site.freeShort_eq_some (s : Site) (c : Chan) (i k : Nat) :
    s.freeShort c i = some k ↔ k < 7 ∧ ¬s.heldByAnother c i k ∧ ∀ m < k, s.heldByAnother c i m := by
  rw [Site.freeShort, List.find?_range_eq_some]
  simp only [← Site.heldByAnother_iff, List.mem_range, Bool.not_eq_true, Bool.not_eq_true', Bool.not_not]
  tauto

theorem Site.freeShort_eq_none (s : Site) (c : Chan) (i : Nat) :
    s.freeShort c i = none ↔ ∀ k < 7, s.heldByAnother c i k := by
  rw [Site.freeShort, List.find?_eq_none]
  simp only [← Site.heldByAnother_iff, List.mem_range, Bool.not_eq_true, Bool.not_eq_false']

theorem Site.byId_names (s : Site) (id : Nat) :
    ((∀ e ∈ s.roster, e.2.id ≠ id) → s.byId id = none)
    ∧ ∀ p e q, s.roster = p ++ e :: q → e.2.id = id → (∀ y ∈ p, y.2.id ≠ id) → s.byId id = some e :=
  ⟨fun unheld => Table.seek_eq_none fun e member => beq_eq_false_iff_ne.2 (unheld e member),
    fun _ _ _ split holds before => Table.seek_of_split split (beq_iff_eq.2 holds) fun y member =>
      beq_eq_false_iff_ne.2 (before y member)⟩

theorem Site.crewOfVehicle_names (s : Site) (i : Nat) :
    ((∀ e ∈ s.crews, e.2.vehicle ≠ some i) → s.crewOfVehicle i = none)
    ∧ ∀ p e q, s.crews = p ++ e :: q → e.2.vehicle = some i → (∀ y ∈ p, y.2.vehicle ≠ some i) →
      s.crewOfVehicle i = some e.1 := by
  refine ⟨fun unheld => ?_, fun p e q split holds before => ?_⟩
  · rw [Site.crewOfVehicle, Table.seek_eq_none (t := s.crews) fun e member => beq_eq_false_iff_ne.2 (unheld e member)]; rfl
  · rw [Site.crewOfVehicle, Table.seek_of_split split (beq_iff_eq.2 holds) fun y member =>
      beq_eq_false_iff_ne.2 (before y member)]
    rfl

/-- The sender field `f` names record `x` on channel `c` (R57). -/
def senderNames (f : Sender) (c : Chan) (x : Terminal) : Prop :=
  (∃ b, f = .short b ∧ x.state = .affiliated ∧ x.channel = some c ∧ x.short = some b.toNat)
  ∨ ∃ id, f = .id id ∧ x.id = id.toNat

theorem Site.resolve_names (s : Site) (c : Chan) (f : Sender) :
    ((∀ e ∈ s.roster, ¬senderNames f c e.2) → s.resolve c f = none)
    ∧ ∀ p e q, s.roster = p ++ e :: q → senderNames f c e.2 → (∀ y ∈ p, ¬senderNames f c y.2) → s.resolve c f = some e.1 := by
  cases f with
  | short b =>
    have named : ∀ x : Terminal, (x.on c && x.short == some b.toNat) = true ↔ senderNames (.short b) c x := by
      intro x
      rw [Bool.and_eq_true, Terminal.on_iff, beq_iff_eq]
      simp [senderNames, and_assoc]
    refine ⟨fun unheld => ?_, fun p e q split holds before => ?_⟩
    · rw [Site.resolve, Table.seek_eq_none fun e member =>
        Bool.eq_false_iff.2 (mt (named e.2).1 (unheld e member))]
      rfl
    · rw [Site.resolve, Table.seek_of_split split ((named e.2).2 holds) fun y member =>
        Bool.eq_false_iff.2 (mt (named y.2).1 (before y member))]
      rfl
  | id t =>
    have named : ∀ x : Terminal, senderNames (.id t) c x ↔ x.id = t.toNat := by
      intro x
      simp [senderNames]
    simp only [named]
    obtain ⟨unheld, held⟩ := s.byId_names t.toNat
    refine ⟨fun none_ => ?_, fun p e q split holds before => ?_⟩
    · rw [Site.resolve, unheld none_]; rfl
    · rw [Site.resolve, held p e q split holds before]; rfl

theorem Channel.awaitsGrant_iff (ch : Channel) (i : Nat) : ch.awaitsGrant i = true ↔
    ∃ x, ch.window = some x ∧ x.grant ≠ .none ∧ x.target = some i ∧ x.targetHeard = false := by
  rw [Channel.awaitsGrant, Option.any_eq_true]
  simp only [Bool.and_eq_true, bne_iff_ne, beq_iff_eq, Bool.not_eq_true', and_assoc]

/-! #### What an acceptance does, part by part (R18) -/

theorem Work.leavePrevious_of_affiliated {x : Terminal} {old : Chan} (affiliated : x.state = .affiliated)
    (on_ : x.channel = some old) (w : Work) (i : Nat) (c : Chan) (f : AffiliateContent) :
    let v := (w.withdrawOutstanding i (if x.kind = .personal then 0 else f.capacity.toNat)).leaveAccess old i
    w.leavePrevious i x c f = if old = c then v else v.returnWaiting old i := by
  intro v
  rw [Work.leavePrevious, affiliated, on_]

theorem Work.leavePrevious_of_apart {x : Terminal} (apart : x.state ≠ .affiliated ∨ x.channel = none) (w : Work) (i : Nat)
    (c : Chan) (f : AffiliateContent) : w.leavePrevious i x c f = w := by
  unfold Work.leavePrevious
  split
  next old state channel =>
    rcases apart with h | h
    · exact absurd state h
    · exact absurd (channel.symm.trans h) (by simp)
  next => rfl

theorem Work.fillLeft_of_affiliated {x : Terminal} {old : Chan} (affiliated : x.state = .affiliated)
    (on_ : x.channel = some old) (w : Work) (c : Chan) : w.fillLeft x c = if old = c then w else w.fill old := by
  rw [Work.fillLeft, affiliated, on_]

theorem Work.fillLeft_of_apart {x : Terminal} (apart : x.state ≠ .affiliated ∨ x.channel = none) (w : Work) (c : Chan) :
    w.fillLeft x c = w := by
  unfold Work.fillLeft
  split
  next old state channel =>
    rcases apart with h | h
    · exact absurd state h
    · exact absurd (channel.symm.trans h) (by simp)
  next => rfl

theorem Work.watchAtAcceptance_of_look {w : Work} {i : Nat} {r : Watch} (found : Table.look w.site.watches i = some r)
    (c : Chan) :
    let v := w.modWatch i fun y => { y with alarmChannel := some c }
    w.watchAtAcceptance i c = if r.state = .alarm ∨ r.state = .acknowledged then
      if r.seenOwed = true then v.placeAlarmSeen i else v else w := by
  intro v
  rw [Work.watchAtAcceptance, found]
  dsimp only
  refine if_congr ?_ rfl rfl
  rw [WatchState.inAlarm, Bool.or_eq_true, beq_iff_eq, beq_iff_eq]

/-! The later parts of an acceptance leave the roster alone. -/

section
variable (w : Work)

theorem Work.fill_roster (c : Chan) : (w.fill c).site.roster = w.site.roster :=
  Site.rest_eq (w.fillSome_rest c 16) Site.roster fun _ => rfl

theorem Work.moveOrder_roster (n : Nat) (new : OrderState) (cause : OrderCause) (f : Order → Order) :
    (w.moveOrder n new cause f).site.roster = w.site.roster := by
  unfold Work.moveOrder
  split <;> rfl

theorem Work.queueOrder_roster (n : Nat) (cause : OrderCause) : (w.queueOrder n cause).site.roster = w.site.roster := by
  simp only [Work.queueOrder]
  split
  · exact w.moveOrder_roster _ _ _ _
  · exact w.moveOrder_roster _ _ _ _

theorem foldl_roster {β : Type} (f : Work → β → Work) (still : ∀ v e, (f v e).site.roster = v.site.roster) (l : List β) :
    (l.foldl f w).site.roster = w.site.roster := by
  induction l generalizing w with
  | nil => rfl
  | cons e l ih => exact (ih (f w e)).trans (still w e)

theorem Work.announceVehicle_roster (i capacity : Nat) : (w.announceVehicle i capacity).site.roster = w.site.roster := by
  unfold Work.announceVehicle
  split
  · refine foldl_roster w _ (fun v e => ?_) _
    split
    · exact v.queueOrder_roster _ _
    · split
      · exact v.moveOrder_roster _ _ _ _
      · rfl
  · rfl

theorem Work.placeNoteRecall_roster (i : Nat) : (w.placeNoteRecall i).site.roster = w.site.roster :=
  Site.rest_eq (w.placeNoteRecall_rest i) Site.roster fun _ => rfl

theorem Work.watchAtAcceptance_roster (i : Nat) (c : Chan) : (w.watchAtAcceptance i c).site.roster = w.site.roster := by
  unfold Work.watchAtAcceptance
  split
  · split
    · dsimp only
      split
      · exact Work.placeAlarmSeen_roster _ _
      · rfl
    · rfl
  · rfl

theorem Work.announceDangers_roster (i : Nat) : (w.announceDangers i).site.roster = w.site.roster := by
  unfold Work.announceDangers Work.placeOwedDangers
  repeat' split
  · refine foldl_roster w _ (fun v e => ?_) _
    split <;> rfl
  all_goals rfl

theorem Work.fillLeft_roster (x : Terminal) (c : Chan) : (w.fillLeft x c).site.roster = w.site.roster := by
  unfold Work.fillLeft
  split
  · split
    · rfl
    · exact w.fill_roster _
  · rfl

/-- The announcement of an acceptance up to its report (step 4 of R18). -/
def Work.announced (w : Work) (i capacity : Nat) (c : Chan) : Work :=
  ((((w.announceVehicle i capacity).fill c).placeNoteRecall i).watchAtAcceptance i c).announceDangers i

theorem Work.announced_roster (i capacity : Nat) (c : Chan) : (w.announced i capacity c).site.roster = w.site.roster := by
  rw [Work.announced, Work.announceDangers_roster, Work.watchAtAcceptance_roster, Work.placeNoteRecall_roster,
    Work.fill_roster, Work.announceVehicle_roster]

/-- What follows the change of the record at an acceptance leaves the roster alone. -/
theorem Work.welcomed_roster (x : Terminal) (i capacity : Nat) (c : Chan) (e : UrgentFrame) :
    (((w.fillLeft x c).pushUrgent c e).announced i capacity c).site.roster = w.site.roster := by
  rw [Work.announced_roster]
  exact w.fillLeft_roster x c

/-- An acceptance by its parts (R18). -/
theorem Work.acceptAffiliate_parts (i : Nat) (x : Terminal) (c : Chan) (f : AffiliateContent) (sample : Nat) :
    let capacity := if x.kind = .personal then 0 else f.capacity.toNat
    let short := if x.on c = true then x.short else w.site.freeShort c i
    let v := w.leavePrevious i x c f
    let u := ((v.modTerminal i fun y => y.accepted c short f sample v.site.count).fillLeft x c).pushUrgent c
      (.reply { id := x.id, result := .accepted, channel := c, short })
    w.acceptAffiliate i x c f sample = ((u.announced i capacity c).reportTerminal i x.id .affiliated (some c) short
      (if x.on c = true then .renewed else .joined)).offer c := rfl

end

/-! #### An acceptance as a whole (R18) -/

theorem Site.count_of_fixed {a b : Site} (h : b.fixed = a.fixed) : b.count = a.count :=
  (congrArg Site.count h :)

theorem Work.modTerminal_congr {w : Work} {i : Nat} {f g : Terminal → Terminal} {x : Terminal}
    (found : Table.look w.site.roster i = some x) (same : f x = g x) : w.modTerminal i f = w.modTerminal i g :=
  congrArg (fun t => w.modSite fun s => { s with roster := t }) (Table.adjust_congr found same)

section
variable {w : Work} {i : Nat} {x : Terminal} (found : Table.look w.site.roster i = some x) (c : Chan) (f : AffiliateContent)
  (sample : Nat)
include found

/-- The record as step 1 of R18 leaves it. -/
theorem Work.leavePrevious_look :
    ∃ y, Table.look (w.leavePrevious i x c f).site.roster i = some y ∧ y.face = x.face := by
  have faces := (Work.leavePrevious_steady (.refl w.site) i x c f).faces i
  rw [found, Option.map_some] at faces
  exact Option.map_eq_some_iff.1 faces

/-- The record of an accepted terminal, from what step 1 of R18 leaves of it. -/
theorem Work.acceptAffiliate_look : ∃ y, Table.look (w.leavePrevious i x c f).site.roster i = some y ∧ y.face = x.face
    ∧ Table.look (w.acceptAffiliate i x c f sample).site.roster i =
      some (y.accepted c (if x.on c = true then x.short else w.site.freeShort c i) f sample w.site.count) := by
  obtain ⟨y, there, face⟩ := Work.leavePrevious_look found c f
  refine ⟨y, there, face, ?_⟩
  let v := w.leavePrevious i x c f
  have count : v.site.count = w.site.count := Site.count_of_fixed (Work.leavePrevious_kept (.refl w.site) i x c f).fixed
  have after : ∀ u : Work, ∀ b : TerminalCause, ((u.reportTerminal i x.id .affiliated (some c)
      (if x.on c = true then x.short else w.site.freeShort c i) b).offer c).site.roster = u.site.roster := fun _ _ => rfl
  rw [Work.acceptAffiliate_parts, after, Work.welcomed_roster]
  show Table.look (v.site.roster.adjust i _) i = _
  rw [Table.look_adjust_same, there, Option.map_some, count]

/-- An acceptance step by step (R18). -/
theorem Work.acceptAffiliate_eq :
    let capacity := if x.kind = .personal then 0 else f.capacity.toNat
    let renewal := x.state = .affiliated ∧ x.channel = some c
    let short := if renewal then x.short else w.site.freeShort c i
    let v := (w.leavePrevious i x c f).modTerminal i fun y => { y with
      state := .affiliated, channel := some c, short, maxRate := declaredRate f.maxRate, fecLow := f.fecLow
      fecHigh := f.fecHigh, pairCapable := f.pairCapable, capacity, credit := capacity, quality := sample
      sequenceBit := false, lastHeard := some w.site.count }
    let u := (v.fillLeft x c).pushUrgent c (.reply { id := x.id, result := .accepted, channel := c, short })
    let t := (((u.announceVehicle i capacity).fill c).placeNoteRecall i).watchAtAcceptance i c
    w.acceptAffiliate i x c f sample = ((t.announceDangers i).emit (.terminalState
      { id := x.id, index := i, state := .affiliated, channel := some c, short
        cause := if renewal then .renewed else .joined, quality := sample, lastHeard := some w.site.count })).offer c := by
  intro capacity renewal short v u t
  have renewed : ∀ {α : Type} (p q : α), (if x.on c = true then p else q) = if renewal then p else q :=
    fun _ _ => if_congr (x.on_iff c) rfl rfl
  obtain ⟨y, there, face⟩ := Work.leavePrevious_look found c f
  obtain ⟨-, -, -, -, kind, -⟩ := Terminal.agree_of_face face
  have count : (w.leavePrevious i x c f).site.count = w.site.count :=
    Site.count_of_fixed (Work.leavePrevious_kept (.refl w.site) i x c f).fixed
  have taken : (w.leavePrevious i x c f).modTerminal i (fun z => z.accepted c short f sample
      (w.leavePrevious i x c f).site.count) = v := by
    refine Work.modTerminal_congr there ?_
    rw [count, Terminal.accepted, kind]
  have welcomed : t.announceDangers i = u.announced i capacity c := rfl
  have standing : Table.look (t.announceDangers i).site.roster i = some { y with
      state := .affiliated, channel := some c, short, maxRate := declaredRate f.maxRate, fecLow := f.fecLow
      fecHigh := f.fecHigh, pairCapable := f.pairCapable, capacity, credit := capacity, quality := sample
      sequenceBit := false, lastHeard := some w.site.count } := by
    rw [welcomed, Work.welcomed_roster]
    show Table.look ((w.leavePrevious i x c f).site.roster.adjust i _) i = _
    rw [Table.look_adjust_same, there, Option.map_some]
  rw [Work.acceptAffiliate_parts, renewed, renewed, taken, ← welcomed, Work.reportTerminal, standing]
  rfl

end

/-! #### The judgement of an AFFILIATE (R17) -/

section
variable {s : Site} {c : Chan} {id : Nat} {f : AffiliateContent}

theorem Site.channelRoom_iff (s : Site) (c : Chan) (i : Nat) :
    s.channelRoom c i = true ↔ (s.terminalsOn c).length < 40 ∨ s.affiliatedOn i c = true := by
  rw [Site.channelRoom, Bool.or_eq_true, decide_eq_true_iff]

theorem Site.judgeAffiliate_of_down (down : (s.chan c).state ≠ .up) : s.judgeAffiliate c id f = .refuse none := if_pos down

theorem Site.judgeAffiliate_of_refused (up : (s.chan c).state = .up) {r : Option AffilResult}
    (refused : s.affiliant id f = .refuse r) : s.judgeAffiliate c id f = .refuse r := by
  rw [Site.judgeAffiliate, if_neg (not_not.2 up), refused]

/-- The checks of the pair and of the room, for an AFFILIATE that stands for the record or the free index `i`. -/
theorem Site.judgeAffiliate_of_seat (up : (s.chan c).state = .up) {v : AffilVerdict} {i : Nat}
    (seat : v = .accept i ∨ v = .enter i) (stands : s.affiliant id f = v) :
    (s.paired c = true → f.pairCapable = false → s.judgeAffiliate c id f = .refuse (some .pair))
    ∧ ((s.paired c = true → f.pairCapable = true) → s.channelRoom c i = false → s.judgeAffiliate c id f = .refuse (some .full))
    ∧ ((s.paired c = true → f.pairCapable = true) → s.channelRoom c i = true → s.judgeAffiliate c id f = v) := by
  have unfit : s.paired c = true → f.pairCapable = false → s.paired c = true ∧ (!f.pairCapable) = true := fun paired single =>
    ⟨paired, by rw [single]; rfl⟩
  have fit : (s.paired c = true → f.pairCapable = true) → ¬(s.paired c = true ∧ (!f.pairCapable) = true) :=
    fun fits both => by simp [fits both.1] at both
  rw [Site.judgeAffiliate, if_neg (not_not.2 up), stands]
  rcases seat with rfl | rfl
  · exact ⟨fun paired single => if_pos (unfit paired single),
      fun fits full => by dsimp only; rw [if_neg (fit fits), full]; rfl,
      fun fits room => by dsimp only; rw [if_neg (fit fits), if_pos room]⟩
  · exact ⟨fun paired single => if_pos (unfit paired single),
      fun fits full => by dsimp only; rw [if_neg (fit fits), full]; rfl,
      fun fits room => by dsimp only; rw [if_neg (fit fits), if_pos room]⟩

theorem Site.affiliant_of_unaddressed (outside : ¬(1 ≤ id ∧ id ≤ 0xFFFFFFFE)) : s.affiliant id f = .refuse (some .unknown) :=
  if_neg outside

theorem Site.affiliant_of_known (addressed : 1 ≤ id ∧ id ≤ 0xFFFFFFFE) {i : Nat} {x : Terminal}
    (holds : s.byId id = some (i, x)) (kind : x.kind = declaredKind f) : s.affiliant id f = .accept i := by
  rw [Site.affiliant, if_pos addressed, holds]
  exact if_pos kind

theorem Site.affiliant_of_other (addressed : 1 ≤ id ∧ id ≤ 0xFFFFFFFE) {i : Nat} {x : Terminal}
    (holds : s.byId id = some (i, x)) (kind : x.kind ≠ declaredKind f) : s.affiliant id f = .refuse (some .unknown) := by
  rw [Site.affiliant, if_pos addressed, holds]
  exact if_neg kind

theorem Site.affiliant_of_guest (addressed : 1 ≤ id ∧ id ≤ 0xFFFFFFFE) (unheld : s.byId id = none) (mode : s.mode = .openMode)
    {n : Nat} (free : Table.firstFree s.roster 160 = some n) : s.affiliant id f = .enter n := by
  rw [Site.affiliant, if_pos addressed, unheld]
  dsimp only
  rw [if_pos mode, free]

theorem Site.affiliant_of_unentered (addressed : 1 ≤ id ∧ id ≤ 0xFFFFFFFE) (unheld : s.byId id = none)
    (shut : ¬(s.mode = .openMode ∧ ∃ n < 160, Table.look s.roster n = none)) :
    s.affiliant id f = .refuse (some .unknown) := by
  rw [Site.affiliant, if_pos addressed, unheld]
  dsimp only
  by_cases mode : s.mode = .openMode
  · rw [if_pos mode]
    cases free : Table.firstFree s.roster 160 with
    | none => rfl
    | some n =>
      obtain ⟨empty, low, -⟩ := Table.firstFree_spec free
      exact absurd ⟨mode, n, low, empty⟩ shut
  · rw [if_neg mode]

end

/-- An AFFILIATE that is refused is counted, and replied to when the reason has a reply, the ID can be addressed and the queue
has room. -/
theorem Work.affiliate_of_refused {w : Work} {c : Chan} {id : Nat} {f : AffiliateContent} {r : Option AffilResult}
    (refused : w.site.judgeAffiliate c id f = .refuse r) (sample : Nat) :
    w.affiliate c id f sample = w.refuseAffiliate c id r := by
  rw [Work.affiliate, refused]

theorem Work.refuseAffiliate_some (w : Work) (c : Chan) (id : Nat) (r : AffilResult) : w.refuseAffiliate c id (some r) =
    if (1 ≤ id ∧ id ≤ 0xFFFFFFFE) ∧ (w.site.chan c).urgents.length < 16 then
      (w.countRefusal c).pushUrgent c (.reply { id, result := r, channel := c, short := none })
    else w.countRefusal c := by
  have room : (w.countRefusal c).site.urgentRoom c = true ↔ (w.site.chan c).urgents.length < 16 := by
    rw [Site.urgentRoom_iff, Work.countRefusal, Work.bumpStat, Work.modChan_chan, if_pos rfl]
  refine if_congr ?_ rfl rfl
  rw [room, and_assoc]

/-! #### What a reception leaves for the judgement -/

section
variable {s : State} (a : Arrival)

theorem Table.seek_map {α : Type} (t : Table α) (p : Nat → α → Bool) (g : Nat × α → Nat × α)
    (same : ∀ e, p (g e).1 (g e).2 = p e.1 e.2) : Table.seek (t.map g) p = (Table.seek t p).map g := by
  rw [Table.seek, List.find?_map, Table.seek]
  exact congrArg (Option.map g) (congrArg (List.find? · t) (funext same))

/-- A roster record as a frame received leaves it. -/
def State.hearing (s : State) (a : Arrival) (e : Nat × Terminal) : Nat × Terminal :=
  if s.site.resolve (s.site.logical a.channel) a.sender = some e.1 then
    (e.1, e.2.heard (s.site.logical a.channel) s.site.count a.sample.val) else e

theorem State.received_roster (sorted : s.site.sorted = true) :
    (s.received a).site.roster = s.site.roster.map (s.hearing a) := by
  have form := ((sorted_iff s.site).1 sorted).1
  rw [State.received_site]
  dsimp only
  cases sender : s.site.resolve (s.site.logical a.channel) a.sender with
  | none =>
    refine (List.map_id _).symm.trans (List.map_congr_left fun e _ => ?_)
    rw [State.hearing, sender, if_neg (by simp)]; rfl
  | some i =>
    dsimp only
    rw [Table.adjust_map form]
    refine List.map_congr_left fun e _ => ?_
    rw [State.hearing, sender]
    by_cases is : e.1 = i
    · rw [if_pos is, if_pos (by rw [is]), is]
    · rw [if_neg is, if_neg fun h => is (Option.some.inj h).symm]

theorem State.received_byId (sorted : s.site.sorted = true) (id : Nat) :
    (s.received a).site.byId id = (s.site.byId id).map (s.hearing a) := by
  rw [Site.byId, State.received_roster a sorted]
  refine Table.seek_map _ _ _ fun e => ?_
  unfold State.hearing
  split <;> rfl

theorem State.received_firstFree (n : Nat) :
    Table.firstFree (s.received a).site.roster n = Table.firstFree s.site.roster n := by
  rw [Table.firstFree, Table.firstFree]
  refine congrArg (List.find? · _) (funext fun k => ?_)
  rw [State.received_look, Option.isNone_map]

theorem State.received_terminalsOn (sorted : s.site.sorted = true) (c : Chan) :
    (s.received a).site.terminalsOn c = s.site.terminalsOn c := by
  have still : ∀ e, (s.hearing a e).1 = e.1 ∧ (s.hearing a e).2.on c = e.2.on c := by
    intro e
    unfold State.hearing
    split <;> exact ⟨rfl, rfl⟩
  rw [Site.terminalsOn, Table.nums, Table.pick, State.received_roster a sorted, List.filter_map, List.map_map]
  refine (List.map_congr_left fun e _ => (still e).1).trans (congrArg (List.map Prod.fst) ?_)
  exact congrArg (List.filter · _) (funext fun e => (still e).2)

theorem State.received_config (d : Chan) : ((s.received a).site.chan d).config = (s.site.chan d).config := by
  rw [State.received_chan]; split <;> rfl

theorem State.received_state (d : Chan) : ((s.received a).site.chan d).state = (s.site.chan d).state := by
  rw [State.received_chan]; split <;> rfl

theorem State.received_urgents (d : Chan) : ((s.received a).site.chan d).urgents = (s.site.chan d).urgents := by
  rw [State.received_chan]; split <;> rfl

theorem State.received_paired (c : Chan) : (s.received a).site.paired c = s.site.paired c := by
  simp only [Site.paired, State.received_config]

theorem State.received_mode : (s.received a).site.mode = s.site.mode := by rw [State.received_site]

/-- A frame received does not change what an AFFILIATE stands for. -/
theorem State.received_affiliant (sorted : s.site.sorted = true) (id : Nat) (f : AffiliateContent) :
    (s.received a).site.affiliant id f = s.site.affiliant id f := by
  rw [Site.affiliant, Site.affiliant, State.received_byId a sorted, State.received_firstFree, State.received_mode]
  refine if_congr Iff.rfl ?_ rfl
  cases s.site.byId id with
  | none => rfl
  | some e =>
    obtain ⟨i, x⟩ := e
    rw [Option.map_some]
    unfold State.hearing
    by_cases is : s.site.resolve (s.site.logical a.channel) a.sender = some i
    · rw [if_pos is]; rfl
    · rw [if_neg is]

theorem State.received_judgeAffiliate (sorted : s.site.sorted = true) (c : Chan) (id : Nat) (f : AffiliateContent) :
    (s.received a).site.judgeAffiliate c id f = s.site.judgeAffiliate c id f := by
  have room : ∀ i, (s.received a).site.channelRoom c i = s.site.channelRoom c i := fun i => by
    rw [Site.channelRoom, Site.channelRoom, State.received_terminalsOn a sorted, State.received_affiliatedOn]
  simp only [Site.judgeAffiliate, State.received_state, State.received_affiliant a sorted, State.received_paired, room]

end

/-! #### The frames (R57, R58, R74, R78, R21) -/

/-- What the window and the sequence bit must be for an ACK to count (R58, R74). -/
theorem State.received_awaitsAck (s : State) (a : Arrival) (i : Nat) (bit : Bool) :
    (s.received a).site.awaitsAck (s.site.logical a.channel) i bit =
      s.site.awaitsAck (s.site.logical a.channel) i bit := by
  rw [Site.awaitsAck, Site.awaitsAck, State.received_chan, if_pos rfl, State.received_look]
  dsimp only
  rw [Option.any_map, Option.any_map]
  refine congrArg (_ && ·) (congrArg (Option.any · _) (funext fun x => ?_))
  show ((if _ then _ else _ : Terminal).sequenceBit == bit) = _
  split <;> rfl

/-- A DEPART in place (R21). -/
theorem depart_of_inPlace {s : State} {a : Arrival} {i : Nat} (inPlace : s.inPlace a i) :
    exec (.depart a) s = .next (s.after (if s.site.affiliatedOn i (s.site.logical a.channel) = true then
      (s.heardFrom a i).absent i .depart else s.heardFrom a i)) := by
  refine (granted_inPlace inPlace fun c i w => if w.site.affiliatedOn i c then w.absent i .depart else w).trans ?_
  rw [show (s.heardFrom a i).site.affiliatedOn i (s.site.logical a.channel) = s.site.affiliatedOn i (s.site.logical a.channel)
    from s.received_affiliatedOn a i _]

/-- Where no grant reaches its owner, the six granted kinds of frame are alike (R58). -/
theorem exec_of_granted {a : Arrival} {x : Instr} (s : State)
    (kind : (∃ p, x = .checkIn a p) ∨ (∃ n r f, x = .orderReply a n r f) ∨ (∃ n k, x = .readback a n k)
      ∨ (∃ n, x = .switchDone a n) ∨ (∃ n, x = .releaseAsk a n) ∨ x = .depart a) :
    ∃ act, exec x s = granted a act s := by
  rcases kind with ⟨p, rfl⟩ | ⟨n, r, f, rfl⟩ | ⟨n, k, rfl⟩ | ⟨n, rfl⟩ | ⟨n, rfl⟩ | rfl
  · exact ⟨fun _ i w => w.takeCheckIn i (positionTaken p), rfl⟩
  · exact ⟨fun _ i w => w.takeReply i n.toNat r f.toNat, rfl⟩
  · exact ⟨fun _ i w => w.takeReadback i n.toNat k.val, rfl⟩
  · exact ⟨fun _ i w => w.takeSwitchDone i n.toNat, rfl⟩
  · exact ⟨fun _ i w => w.takeReleaseAsk i n.toNat, rfl⟩
  · exact ⟨fun c i w => if w.site.affiliatedOn i c then w.absent i .depart else w, rfl⟩

section
variable {s : State} (powered : s.powered = true) (a : Arrival)
include powered

/-- A granted-kind frame whose sender is unknown does what every good frame does. -/
theorem granted_of_unresolved (act : Chan → Nat → Work → Work)
    (unknown : s.site.resolve (s.site.logical a.channel) a.sender = none) :
    granted a act s = .next (s.after (s.received a)) := by
  rw [granted, arrival_powered powered, unknown]

/-- A granted-kind frame out of place marks its sender as heard (R58). -/
theorem granted_of_outOfPlace (act : Chan → Nat → Work → Work) {i : Nat}
    (sender : s.site.resolve (s.site.logical a.channel) a.sender = some i) (out : ¬s.inPlace a i) :
    granted a act s = .next (s.after (s.heardFrom a i)) := by
  have placed : (((s.received a).site.chan (s.site.logical a.channel)).awaitsGrant i && (s.received a).site.affiliated i)
      = false := by
    rw [State.received_awaitsGrant, State.received_affiliated, Bool.and_eq_false_iff, ← Bool.not_eq_true, ← Bool.not_eq_true]
    by_contra both
    obtain ⟨awaits, affiliated⟩ := not_or.1 both
    exact out ⟨powered, sender, not_not.1 affiliated, not_not.1 awaits⟩
  rw [granted, arrival_powered powered, sender]
  dsimp only
  rw [placed]
  rfl

/-- A frame whose check failed is counted and marked alone (R57). -/
theorem inboundBadCheck_taken (m : Chan) :
    ∃ t, exec (.inboundBadCheck m) s = .next t ∧ t.site = { s.site with channels := t.site.channels }
      ∧ ∀ d, t.site.chan d = if d = s.site.logical m then
          { s.site.chan d with
            stats := { (s.site.chan d).stats with inboundBad := (s.site.chan d).stats.inboundBad.bump }
            window := (s.site.chan d).window.map fun x => { x with badSeen := true } }
        else s.site.chan d := by
  let w := s.work.badFrame (s.site.logical m)
  have site : (s.after w).site = w.site := State.after_site_of_no_offers _ rfl
  refine ⟨s.after w, event_outcome powered (f := fun w => w.badFrame (w.site.logical m)) rfl, ?_, fun d => ?_⟩
  · rw [site]; rfl
  · rw [site]
    refine (Work.modChan_chan _ _ _ _).trans ?_
    split
    next is => rw [is]; rfl
    next => rfl

/-- A reception changes the channels and the roster alone, and says nothing. -/
theorem inboundUndecodable_taken :
    exec (.inboundUndecodable a) s = .next (s.after (s.received a)) ∧ (s.after (s.received a)).site = (s.received a).site :=
  ⟨arrival_powered powered a fun _ _ w => w, State.after_site_of_no_offers _ (s.received_offers a)⟩

theorem access_of_unresolved (unknown : s.site.resolve (s.site.logical a.channel) a.sender = none) :
    exec (.access a) s = .next (s.after (s.received a)) := by
  refine (arrival_powered powered a fun c sender w => match sender with
    | some i => if w.site.affiliatedOn i c then w.joinAccess c i else w
    | none => w).trans ?_
  rw [unknown]

theorem ack_of_unresolved (unknown : s.site.resolve (s.site.logical a.channel) a.sender = none) (bit : Bool) (free : Byte) :
    exec (.ack a bit free) s = .next (s.after (s.received a)) := by
  refine (arrival_powered powered a fun c sender w => match sender with
    | some i => if w.site.awaitsAck c i bit then w.acknowledge i free.toNat else w
    | none => w).trans ?_
  rw [unknown]

/-- An ACCESS by its sender's affiliation and the access set (R78). -/
theorem access_of_sender {i : Nat} (sender : s.site.resolve (s.site.logical a.channel) a.sender = some i) :
    exec (.access a) s = .next (s.after (if s.site.affiliatedOn i (s.site.logical a.channel) = true then
      if i ∈ (s.site.chan (s.site.logical a.channel)).accessSet then s.received a
      else ((s.received a).modChan (s.site.logical a.channel) fun ch => { ch with accessSet := ch.accessSet ++ [i] }).offer
        (s.site.logical a.channel)
    else s.received a)) := by
  refine (arrival_powered powered a fun c sender w => match sender with
    | some i => if w.site.affiliatedOn i c then w.joinAccess c i else w
    | none => w).trans ?_
  rw [sender]
  dsimp only
  have member : ((s.received a).site.chan (s.site.logical a.channel)).accessSet.contains i = true ↔
      i ∈ (s.site.chan (s.site.logical a.channel)).accessSet := by
    rw [State.received_chan, if_pos rfl, List.contains_iff_mem]
  rw [State.received_affiliatedOn]
  refine congrArg (fun w => Host.Outcome.next (s.after w)) (if_congr Iff.rfl ?_ rfl)
  exact if_congr member rfl rfl

/-- An ACK by its sender (R74). -/
theorem ack_of_sender {i : Nat} (sender : s.site.resolve (s.site.logical a.channel) a.sender = some i) (bit : Bool)
    (free : Byte) : exec (.ack a bit free) s = .next (s.after (if s.site.awaitsAck (s.site.logical a.channel) i bit = true then
      (s.received a).acknowledge i free.toNat else s.received a)) := by
  refine (arrival_powered powered a fun c sender w => match sender with
    | some i => if w.site.awaitsAck c i bit then w.acknowledge i free.toNat else w
    | none => w).trans ?_
  rw [sender]
  dsimp only
  rw [State.received_awaitsAck]

/-- An AFFILIATE reaches the ACA (R17). -/
theorem affiliate_taken (channel : Chan) (sample : Fin 16) (id : Word) (f : AffiliateContent) :
    exec (.affiliate channel sample id f) s = .next (s.after ((s.received { channel, sample, sender := .id id }).affiliate
      (s.site.logical channel) id.toNat f sample.val)) :=
  arrival_powered powered { channel, sample, sender := .id id } fun c _ w => w.affiliate c id.toNat f sample.val

end

/-! #### An AFFILIATE refused, accepted and entered (R17, R20) -/

section
variable {s : State} (powered : s.powered = true) {a : Arrival} {channel : Chan} {sample : Fin 16} {id : Word}
  {f : AffiliateContent}
include powered

/-- A refused AFFILIATE (R17). -/
theorem affiliate_of_refused {r : Option AffilResult}
    (refused : (s.received { channel, sample, sender := .id id }).site.judgeAffiliate (s.site.logical channel) id.toNat f =
      .refuse r) :
    exec (.affiliate channel sample id f) s = .next (s.after
      ((s.received { channel, sample, sender := .id id }).refuseAffiliate (s.site.logical channel) id.toNat r)) := by
  rw [affiliate_taken powered, Work.affiliate_of_refused refused]

/-- A refused AFFILIATE of an ID that can be addressed is replied to where the queue has room (R17). -/
theorem affiliate_of_replied (addressed : 1 ≤ id.toNat ∧ id.toNat ≤ 0xFFFFFFFE) {r : AffilResult}
    (refused : (s.received { channel, sample, sender := .id id }).site.judgeAffiliate (s.site.logical channel) id.toNat f =
      .refuse (some r)) :
    let c := s.site.logical channel
    let counted := (s.received { channel, sample, sender := .id id }).countRefusal c
    exec (.affiliate channel sample id f) s = .next (s.after (if (s.site.chan c).urgents.length < 16 then
      counted.pushUrgent c (.reply { id := id.toNat, result := r, channel := c, short := none }) else counted)) := by
  rw [affiliate_of_refused powered refused, Work.refuseAffiliate_some, State.received_urgents]
  exact congrArg (fun w => Host.Outcome.next (s.after w)) (if_congr (and_iff_right addressed) rfl rfl)

/-- An AFFILIATE whose checks pass into a full queue is counted alone (R17). -/
theorem affiliate_of_crowded {v : AffilVerdict} {i : Nat} (seat : v = .accept i ∨ v = .enter i)
    (judged : (s.received { channel, sample, sender := .id id }).site.judgeAffiliate (s.site.logical channel) id.toNat f = v)
    (full : 16 ≤ (s.site.chan (s.site.logical channel)).urgents.length) :
    exec (.affiliate channel sample id f) s = .next (s.after
      ((s.received { channel, sample, sender := .id id }).countRefusal (s.site.logical channel))) := by
  have shut : ¬(s.received { channel, sample, sender := .id id }).site.urgentRoom (s.site.logical channel) = true := by
    rw [Site.urgentRoom_iff, State.received_urgents]
    exact Nat.not_lt.2 full
  rw [affiliate_taken powered, Work.affiliate, judged]
  rcases seat with rfl | rfl
  · exact congrArg (fun w => Host.Outcome.next (s.after w)) (if_neg shut)
  · exact congrArg (fun w => Host.Outcome.next (s.after w)) (if_neg shut)

/-- An AFFILIATE that a record accepts (R18). -/
theorem affiliate_of_accepted {i : Nat} {x : Terminal}
    (judged : (s.received { channel, sample, sender := .id id }).site.judgeAffiliate (s.site.logical channel) id.toNat f =
      .accept i)
    (found : Table.look (s.received { channel, sample, sender := .id id }).site.roster i = some x)
    (room : (s.site.chan (s.site.logical channel)).urgents.length < 16) :
    exec (.affiliate channel sample id f) s = .next (s.after
      ((s.received { channel, sample, sender := .id id }).acceptAffiliate i x (s.site.logical channel) f sample.val)) := by
  have open_ : (s.received { channel, sample, sender := .id id }).site.urgentRoom (s.site.logical channel) = true := by
    rw [Site.urgentRoom_iff, State.received_urgents]
    exact room
  rw [affiliate_taken powered, Work.affiliate, judged]
  dsimp only
  rw [if_pos open_, Work.acceptAt, found]

/-- An AFFILIATE that enters a guest (R20). -/
theorem affiliate_of_entered {n : Nat}
    (judged : (s.received { channel, sample, sender := .id id }).site.judgeAffiliate (s.site.logical channel) id.toNat f =
      .enter n)
    (room : (s.site.chan (s.site.logical channel)).urgents.length < 16) :
    exec (.affiliate channel sample id f) s = .next (s.after (((s.received { channel, sample, sender := .id id }).modSite
      fun x => { x with roster := x.roster.put n (.guest id.toNat (declaredKind f)) }).acceptAffiliate n
        (.guest id.toNat (declaredKind f)) (s.site.logical channel) f sample.val)) := by
  have open_ : (s.received { channel, sample, sender := .id id }).site.urgentRoom (s.site.logical channel) = true := by
    rw [Site.urgentRoom_iff, State.received_urgents]
    exact room
  rw [affiliate_taken powered, Work.affiliate, judged]
  dsimp only
  rw [if_pos open_, Work.acceptAt, show Table.look ((s.received { channel, sample, sender := .id id }).modSite
    fun x => { x with roster := x.roster.put n (.guest id.toNat (declaredKind f)) }).site.roster n = _
    from Table.look_put_same _ _ _]

end

theorem Terminal.heard_eq (x : Terminal) (c : Chan) (count sample : Nat) : x.heard c count sample =
    { x with
      lastHeard := some count
      quality := if x.state = .affiliated ∧ x.channel = some c then (3 * x.quality + sample + 2) / 4 else x.quality } := by
  rw [Terminal.heard, averaged]
  congr 1
  exact if_congr (x.on_iff c) rfl rfl

/-! What an AFFILIATE stands for, in the words of R17 and R20. -/

section
variable (s : Site) (c : Chan) (id : Nat) (f : AffiliateContent)

/-- A record of the declared kind holds the ID. -/
def Site.known : Prop := ∃ i x, s.byId id = some (i, x) ∧ x.kind = declaredKind f

/-- No record holds the ID, and a guest may enter (R20). -/
def Site.guestMay : Prop := s.byId id = none ∧ s.mode = .openMode ∧ ∃ n < 160, Table.look s.roster n = none

/-- The record that holds the ID is AFFILIATED on the channel. -/
def Site.joined : Prop := ∃ i x, s.byId id = some (i, x) ∧ s.affiliatedOn i c = true

variable {s c id f}

theorem Site.affiliant_of_unknown (addressed : 1 ≤ id ∧ id ≤ 0xFFFFFFFE) (unknown : ¬s.known id f) (shut : ¬s.guestMay id) :
    s.affiliant id f = .refuse (some .unknown) := by
  cases holds : s.byId id with
  | none => exact Site.affiliant_of_unentered addressed holds fun may => shut ⟨holds, may⟩
  | some e => exact Site.affiliant_of_other addressed (i := e.1) (x := e.2) holds fun kind => unknown ⟨e.1, e.2, holds, kind⟩

/-- The lowest free index, where a guest may enter. -/
theorem Site.guest_free (may : s.guestMay id) : ∃ n, Table.firstFree s.roster 160 = some n := by
  obtain ⟨-, -, n, low, empty⟩ := may
  cases free : Table.firstFree s.roster 160 with
  | none => exact absurd (Table.firstFree_none free n low) (by simp [empty])
  | some m => exact ⟨m, rfl⟩

/-- An AFFILIATE that stands for a record or for a guest has an index, whose place on the channel is that of `joined`. -/
theorem Site.seat_of (addressed : 1 ≤ id ∧ id ≤ 0xFFFFFFFE) (stands : s.known id f ∨ s.guestMay id) :
    ∃ v i, (v = .accept i ∨ v = .enter i) ∧ s.affiliant id f = v ∧ (s.affiliatedOn i c = true ↔ s.joined c id) := by
  rcases stands with ⟨i, x, holds, kind⟩ | may
  · refine ⟨_, i, .inl rfl, Site.affiliant_of_known addressed holds kind, fun on_ => ⟨i, x, holds, on_⟩, ?_⟩
    rintro ⟨j, y, same, on_⟩
    cases holds.symm.trans same
    exact on_
  · obtain ⟨n, free⟩ := Site.guest_free may
    obtain ⟨unheld, mode, -⟩ := may
    obtain ⟨empty, -, -⟩ := Table.firstFree_spec free
    refine ⟨_, n, .inr rfl, Site.affiliant_of_guest addressed unheld mode free, fun on_ => ?_, ?_⟩
    · rw [Site.affiliatedOn, empty] at on_
      exact absurd on_ (by simp)
    · rintro ⟨j, y, same, -⟩
      exact absurd (unheld.symm.trans same) (by simp)

/-- The short addresses that the other terminals hold, by the records. -/
theorem Site.heldByAnother_iff_shortOn (sorted : s.sorted = true) (i k : Nat) :
    s.heldByAnother c i k ↔ ∃ j, j ≠ i ∧ s.shortOn c j = some k := by
  have form := ((sorted_iff s).1 sorted).1
  constructor
  · rintro ⟨⟨j, x⟩, member, other, affiliated, on_, short⟩
    refine ⟨j, other, ?_⟩
    rw [Site.shortOn, Table.look_of_mem form member, Option.bind_some, if_pos ((x.on_iff c).2 ⟨affiliated, on_⟩), short]
  · rintro ⟨j, other, holds⟩
    rw [Site.shortOn, Option.bind_eq_some_iff] at holds
    obtain ⟨x, found, short⟩ := holds
    by_cases on_ : x.on c = true
    · rw [if_pos on_] at short
      obtain ⟨affiliated, channel⟩ := (x.on_iff c).1 on_
      exact ⟨(j, x), Table.mem_of_look found, other, affiliated, channel, short⟩
    · rw [if_neg on_] at short
      exact absurd short (by simp)

end

theorem State.received_shortOn (s : State) (a : Arrival) (c : Chan) (j : Nat) :
    (s.received a).site.shortOn c j = s.site.shortOn c j := by
  rw [Site.shortOn, Site.shortOn, State.received_look, Option.bind_map]
  refine congrArg (Option.bind _) (funext fun x => ?_)
  show (if Terminal.on (if _ then _ else _) c = true then _ else _) = _
  split <;> rfl

/-- The record of an unaffiliated terminal as an acceptance leaves it. -/
theorem Work.acceptAffiliate_fresh {w : Work} {n : Nat} {x : Terminal} (found : Table.look w.site.roster n = some x)
    (apart : x.state ≠ .affiliated) (c : Chan) (f : AffiliateContent) (sample : Nat) :
    Table.look (w.acceptAffiliate n x c f sample).site.roster n =
      some (x.accepted c (w.site.freeShort c n) f sample w.site.count) := by
  obtain ⟨y, there, -, accepted⟩ := Work.acceptAffiliate_look found c f sample
  rw [Work.leavePrevious_of_apart (.inl apart), found] at there
  cases there
  rw [accepted, if_neg fun on_ => apart ((x.on_iff c).1 on_).1]

/-- The short address of a guest that enters, from the addresses that the others hold (R19). -/
theorem State.entered_held {s : State} (sorted : s.site.sorted = true) (a : Arrival) {n : Nat}
    (empty : Table.look s.site.roster n = none) (id : Nat) (kind : TerminalKind) (c : Chan) (k : Nat) :
    ((s.received a).modSite fun x => { x with roster := x.roster.put n (.guest id kind) }).site.heldByAnother c n k ↔
      ∃ j, s.site.shortOn c j = some k := by
  let w := (s.received a).modSite fun x => { x with roster := x.roster.put n (.guest id kind) }
  have unheard : Table.look (s.received a).site.roster n = none := by rw [State.received_look, empty]; rfl
  have received : Kept s.site (s.received a).site :=
    Work.receive_kept (w := s.work) (.refl s.site) _ _ (Nat.le_of_lt_succ a.sample.isLt)
  have sorted' : w.site.sorted = true := (Work.putTerminal_kept received n (.guest id kind) rfl unheard rfl rfl).sorted sorted
  have others : ∀ j, j ≠ n → w.site.shortOn c j = s.site.shortOn c j := fun j other => by
    rw [← State.received_shortOn s a, Site.shortOn, Site.shortOn]
    exact congrArg (Option.bind · _) (Table.look_put_other _ _ _ _ other)
  have own : s.site.shortOn c n = none := by rw [Site.shortOn, empty]; rfl
  refine (Site.heldByAnother_iff_shortOn sorted' n k).trans ⟨?_, ?_⟩
  · rintro ⟨j, other, holds⟩
    exact ⟨j, (others j other).symm.trans holds⟩
  · rintro ⟨j, holds⟩
    have other : j ≠ n := fun is => by rw [is, own] at holds; exact absurd holds (by simp)
    exact ⟨j, other, (others j other).trans holds⟩

/-- The record of a guest that has entered and been accepted (R18 to R20). -/
theorem State.entered_record {s : State} (sorted : s.site.sorted = true) (a : Arrival) {n : Nat}
    (empty : Table.look s.site.roster n = none) (id : Nat) (kind : TerminalKind) (c : Chan) (f : AffiliateContent)
    (sample : Nat) :
    let w := (s.received a).modSite fun x => { x with roster := x.roster.put n (.guest id kind) }
    ∃ y, Table.look (w.acceptAffiliate n (.guest id kind) c f sample).site.roster n = some y
      ∧ y = (Terminal.guest id kind).accepted c y.short f sample s.site.count
      ∧ (∀ k, y.short = some k → k < 7 ∧ ∀ j, s.site.shortOn c j ≠ some k)
      ∧ (y.short = none → ∀ k < 7, ∃ j, s.site.shortOn c j = some k) := by
  intro w
  have found : Table.look w.site.roster n = some (.guest id kind) := Table.look_put_same _ _ _
  have held : ∀ k, w.site.heldByAnother c n k ↔ _ := State.entered_held sorted a empty id kind c
  have count : w.site.count = s.site.count := State.received_count s a
  have accepted := Work.acceptAffiliate_fresh found (by simp [Terminal.guest]) c f sample
  rw [count] at accepted
  refine ⟨_, accepted, rfl, fun k short => ?_, fun short k bound => ?_⟩
  · obtain ⟨bound, unheld, -⟩ := (w.site.freeShort_eq_some c n k).1 short
    exact ⟨bound, fun j holds => unheld ((held k).2 ⟨j, holds⟩)⟩
  · exact (held k).1 ((w.site.freeShort_eq_none c n).1 short k bound)

section
variable {s : State} (powered : s.powered = true) (sorted : s.site.sorted = true) {channel : Chan} {sample : Fin 16}
  {id : Word} {f : AffiliateContent} (addressed : 1 ≤ id.toNat ∧ id.toNat ≤ 0xFFFFFFFE)
  (up : (s.site.chan (s.site.logical channel)).state = .up)
  (fits : s.site.paired (s.site.logical channel) = true → f.pairCapable = true)
  (queue : (s.site.chan (s.site.logical channel)).urgents.length < 16)
include powered sorted addressed up fits queue

/-- An AFFILIATE of a record that passes R17's checks, and the record it leaves (R18). -/
theorem affiliate_accepts {i : Nat} {x : Terminal} (holds : s.site.byId id.toNat = some (i, x))
    (found : Table.look s.site.roster i = some x) (kind : x.kind = declaredKind f)
    (room : (s.site.terminalsOn (s.site.logical channel)).length < 40
      ∨ s.site.affiliatedOn i (s.site.logical channel) = true) :
    let c := s.site.logical channel
    let v := (s.received { channel, sample, sender := .id id }).acceptAffiliate i (x.heard c s.site.count sample.val) c f
      sample.val
    exec (.affiliate channel sample id f) s = .next (s.after v)
      ∧ ∃ y, Table.look v.site.roster i = some y ∧ y.state = .affiliated ∧ y.channel = some c ∧ y.id = x.id
        ∧ y.quality = sample.val ∧ y.sequenceBit = false ∧ y.maxRate = declaredRate f.maxRate
        ∧ y.capacity = (if x.kind = .personal then 0 else f.capacity.toNat) ∧ y.credit = y.capacity
        ∧ y.lastHeard = some s.site.count := by
  intro c v
  have sender : s.site.resolve c (.id id) = some i := by rw [Site.resolve, holds]; rfl
  have heard : Table.look (s.received { channel, sample, sender := .id id }).site.roster i =
      some (x.heard c s.site.count sample.val) :=
    State.received_sender (a := { channel, sample, sender := .id id }) sender found
  obtain ⟨-, -, judged⟩ := Site.judgeAffiliate_of_seat (f := f) up (.inl rfl) (Site.affiliant_of_known addressed holds kind)
  refine ⟨affiliate_of_accepted powered ?_ heard queue, ?_⟩
  · rw [State.received_judgeAffiliate _ sorted]
    exact judged fits ((Site.channelRoom_iff _ _ _).2 room)
  · obtain ⟨y, -, face, there⟩ := Work.acceptAffiliate_look heard c f sample.val
    obtain ⟨-, -, -, named, same, -⟩ := Terminal.agree_of_face face
    refine ⟨_, there, rfl, rfl, named, rfl, rfl, rfl, ?_, rfl, congrArg some (State.received_count s _)⟩
    rw [Terminal.accepted, same]
    rfl

/-- An AFFILIATE that enters a guest, and the record it leaves (R20). -/
theorem affiliate_enters (may : s.site.guestMay id.toNat) (room : (s.site.terminalsOn (s.site.logical channel)).length < 40) :
    let c := s.site.logical channel
    ∃ n y, n < 160 ∧ Table.look s.site.roster n = none ∧ (∀ m < n, (Table.look s.site.roster m).isSome = true)
      ∧ let fresh := Terminal.guest id.toNat (declaredKind f)
        let v := ((s.received { channel, sample, sender := .id id }).modSite
          fun x => { x with roster := x.roster.put n fresh }).acceptAffiliate n fresh c f sample.val
        exec (.affiliate channel sample id f) s = .next (s.after v)
        ∧ Table.look v.site.roster n = some y ∧ y = fresh.accepted c y.short f sample.val s.site.count
        ∧ (∀ k, y.short = some k → k < 7 ∧ ∀ j, s.site.shortOn c j ≠ some k)
        ∧ (y.short = none → ∀ k < 7, ∃ j, s.site.shortOn c j = some k) := by
  intro c
  obtain ⟨n, free⟩ := Site.guest_free may
  obtain ⟨unheld, mode, -⟩ := may
  obtain ⟨empty, low, below⟩ := Table.firstFree_spec free
  obtain ⟨-, -, judged⟩ := Site.judgeAffiliate_of_seat (f := f) up (.inr rfl)
    (Site.affiliant_of_guest addressed unheld mode free)
  have run := affiliate_of_entered powered (sample := sample)
    ((State.received_judgeAffiliate { channel, sample, sender := .id id } sorted c id.toNat f).trans
      (judged fits ((Site.channelRoom_iff _ _ _).2 (.inl room)))) queue
  obtain ⟨y, there, new, held, unheld⟩ :=
    State.entered_record sorted { channel, sample, sender := .id id } empty id.toNat (declaredKind f) c f sample.val
  exact ⟨n, y, low, empty, below, run, there, new, held, unheld⟩

end

section
variable {s : State} (powered : s.powered = true) (a : Arrival)

/-- A reception as O60 says it (R57). -/
theorem State.received_says (s : State) (a : Arrival) :
    (s.received a).site = { s.site with
      channels := (s.received a).site.channels, roster := (s.received a).site.roster }
    ∧ ∀ i, Table.look (s.received a).site.roster i = (Table.look s.site.roster i).map fun x =>
      if s.site.resolve (s.site.logical a.channel) a.sender = some i then
        { x with
          lastHeard := some s.site.count
          quality := if x.state = .affiliated ∧ x.channel = some (s.site.logical a.channel) then
            (3 * x.quality + a.sample.val + 2) / 4 else x.quality }
      else x := by
  refine ⟨by rw [State.received_site], fun i => ?_⟩
  rw [State.received_look]
  simp only [Terminal.heard_eq]

include powered

/-- An ACK with no window open does what every good frame does (R58). -/
theorem ack_of_no_window (shut : (s.site.chan (s.site.logical a.channel)).window = none) (bit : Bool) (free : Byte) :
    exec (.ack a bit free) s = .next (s.after (s.received a)) := by
  cases sender : s.site.resolve (s.site.logical a.channel) a.sender with
  | none => exact ack_of_unresolved powered a sender bit free
  | some i =>
    have ignored : s.site.awaitsAck (s.site.logical a.channel) i bit = false := by rw [Site.awaitsAck, shut]; rfl
    rw [ack_of_sender powered a sender, ignored]
    rfl

/-- An ACK with a window open, by the frame awaited and its bit (R74). -/
theorem ack_of_window {i : Nat} (sender : s.site.resolve (s.site.logical a.channel) a.sender = some i) {x : Terminal}
    {y : Window} (found : Table.look s.site.roster i = some x)
    (opened : (s.site.chan (s.site.logical a.channel)).window = some y) (bit : Bool) (free : Byte) :
    (y.acked = some i → x.sequenceBit = bit →
      exec (.ack a bit free) s = .next (s.after ((s.received a).acknowledge i free.toNat)))
    ∧ (y.acked ≠ some i ∨ x.sequenceBit ≠ bit → exec (.ack a bit free) s = .next (s.after (s.received a))) := by
  have awaits : s.site.awaitsAck (s.site.logical a.channel) i bit = true ↔ y.acked = some i ∧ x.sequenceBit = bit := by
    rw [Site.awaitsAck, opened, found, Option.any_some, Option.any_some, Bool.and_eq_true, beq_iff_eq, beq_iff_eq]
  rw [ack_of_sender powered a sender]
  refine ⟨fun awaited same => ?_, fun apart => ?_⟩
  · rw [if_pos (awaits.2 ⟨awaited, same⟩)]
  · rw [if_neg fun h => (awaits.1 h).elim fun awaited same => apart.elim (· awaited) (· same)]

/-- An AFFILIATE at a channel that is not UP, or of an ID that cannot be addressed, is counted alone (R17). -/
theorem affiliate_counted (channel : Chan) (sample : Fin 16) (id : Word) (f : AffiliateContent) :
    let c := s.site.logical channel
    let counted := (s.received { channel, sample, sender := .id id }).countRefusal c
    ((s.site.chan c).state ≠ .up → exec (.affiliate channel sample id f) s = .next (s.after counted))
    ∧ (s.site.sorted = true → (s.site.chan c).state = .up → ¬(1 ≤ id.toNat ∧ id.toNat ≤ 0xFFFFFFFE) →
      exec (.affiliate channel sample id f) s = .next (s.after counted)) := by
  intro c counted
  refine ⟨fun down => ?_, fun sorted up outside => ?_⟩
  · rw [affiliate_of_refused powered (r := none)]
    · rfl
    · exact Site.judgeAffiliate_of_down (by rw [State.received_state]; exact down)
  · rw [affiliate_of_refused powered (r := some .unknown), Work.refuseAffiliate_some, if_neg fun both => outside both.1]
    rw [State.received_judgeAffiliate _ sorted]
    exact Site.judgeAffiliate_of_refused up (Site.affiliant_of_unaddressed outside)

/-- The refusals of an AFFILIATE at an UP channel and its guests, in the words of R17 and R20. -/
theorem affiliate_judged (sorted : s.site.sorted = true) {channel : Chan} {sample : Fin 16} {id : Word} {f : AffiliateContent}
    (up : (s.site.chan (s.site.logical channel)).state = .up) (addressed : 1 ≤ id.toNat ∧ id.toNat ≤ 0xFFFFFFFE) :
    let c := s.site.logical channel
    let counted := (s.received { channel, sample, sender := .id id }).countRefusal c
    let replied := fun r => if (s.site.chan c).urgents.length < 16 then
      counted.pushUrgent c (.reply { id := id.toNat, result := r, channel := c, short := none }) else counted
    (¬s.site.known id.toNat f → ¬s.site.guestMay id.toNat →
      exec (.affiliate channel sample id f) s = .next (s.after (replied .unknown)))
    ∧ (s.site.known id.toNat f ∨ s.site.guestMay id.toNat →
      (s.site.paired c = true → f.pairCapable = false →
        exec (.affiliate channel sample id f) s = .next (s.after (replied .pair)))
      ∧ ((s.site.paired c = true → f.pairCapable = true) →
        (40 ≤ (s.site.terminalsOn c).length → ¬s.site.joined c id.toNat →
          exec (.affiliate channel sample id f) s = .next (s.after (replied .full)))
        ∧ ((s.site.terminalsOn c).length < 40 ∨ s.site.joined c id.toNat → 16 ≤ (s.site.chan c).urgents.length →
          exec (.affiliate channel sample id f) s = .next (s.after counted)))) := by
  intro c counted replied
  have same := s.received_judgeAffiliate { channel, sample, sender := .id id } sorted c id.toNat f
  refine ⟨fun unknown shut => ?_, fun stands => ?_⟩
  · exact affiliate_of_replied powered addressed
      (same.trans (Site.judgeAffiliate_of_refused up (Site.affiliant_of_unknown addressed unknown shut)))
  · obtain ⟨v, i, seat, verdict, joined⟩ := Site.seat_of (c := c) addressed stands
    obtain ⟨single, crowded, judged⟩ := Site.judgeAffiliate_of_seat (f := f) up seat verdict
    refine ⟨fun paired unfit => affiliate_of_replied powered addressed (same.trans (single paired unfit)), fun fits =>
      ⟨fun full apart => affiliate_of_replied powered addressed (same.trans (crowded fits ?_)), fun room full =>
        affiliate_of_crowded powered seat (same.trans (judged fits ?_)) full⟩⟩
    · rw [← Bool.not_eq_true, Site.channelRoom_iff, joined]
      exact fun room => room.elim (Nat.not_lt.2 full) apart
    · exact (Site.channelRoom_iff _ _ _).2 (room.imp_right joined.2)

end

/-- Settles O60. -/
theorem arrivalsTaken : Obligations.ArrivalsTaken := by
  refine ⟨fun w i x c f sample => ⟨w.site.freeShort_eq_some c i, w.site.freeShort_eq_none c i, fun old affiliated on_ => ?_,
      fun apart => ⟨Work.leavePrevious_of_apart apart w i c f, fun u => Work.fillLeft_of_apart apart u c⟩,
      fun r watch => Work.watchAtAcceptance_of_look watch c, fun unwatched => ?_, fun n vehicle => ?_, fun bare => ?_,
      fun found => Work.acceptAffiliate_eq found c f sample⟩,
    fun s => ⟨s.byId_names, s.crewOfVehicle_names, s.resolve_names⟩, fun ch i => ⟨ch.awaitsGrant_iff i, rfl⟩,
    fun s powered => ⟨fun a x kind => ?_, inboundBadCheck_taken powered, fun a => ?_, fun channel sample id f => ?_⟩⟩
  · have left := Work.leavePrevious_of_affiliated affiliated on_ w i c f
    have filled := fun u : Work => Work.fillLeft_of_affiliated affiliated on_ u c
    exact ⟨fun same => ⟨left.trans (if_pos same), fun u => (filled u).trans (if_pos same)⟩,
      fun other => ⟨left.trans (if_neg other), fun u => (filled u).trans (if_neg other)⟩⟩
  · rw [Work.watchAtAcceptance, unwatched]
  · rw [Work.announceVehicle, Work.announceDangers, vehicle]
    exact ⟨rfl, rfl⟩
  · rw [Work.announceVehicle, Work.announceDangers, bare]
    exact ⟨rfl, rfl⟩
  · obtain ⟨act, run⟩ := exec_of_granted s kind
    intro c
    refine ⟨fun unknown => ?_, fun i sender out => ?_⟩
    · rw [run, granted_of_unresolved powered a act unknown]
    · rw [run, granted_of_outOfPlace powered a act sender out]; rfl
  · intro c w
    obtain ⟨site, roster⟩ := s.received_says a
    obtain ⟨run, still⟩ := inboundUndecodable_taken powered a
    refine ⟨⟨s.received_out a, s.received_offers a, run, site, s.received_chan a, fun i other => ?_⟩,
      fun unknown => ⟨access_of_unresolved powered a unknown, ack_of_unresolved powered a unknown⟩,
      ack_of_no_window powered a, ⟨_, run, ?_, fun d => ?_, fun i => ?_⟩, fun i sender => ⟨?_, ?_, ?_, ?_⟩, ?_, ?_⟩
    · rw [State.received_look]
      exact (congrArg (Option.map · _) (funext fun x => if_neg other)).trans Option.map_id_apply
    · rw [still]; exact site
    · rw [still]; exact s.received_chan a d
    · rw [still]; exact roster i
    · intro on_ member
      rw [access_of_sender powered a sender, if_pos on_, if_pos member]
    · intro on_ fresh
      rw [access_of_sender powered a sender, if_pos on_, if_neg fresh]
    · intro away
      rw [access_of_sender powered a sender, if_neg (Bool.eq_false_iff.1 away)]
    · exact fun x y bit free found opened => ack_of_window powered a sender found opened bit free
    · intro i x inPlace found
      exact ⟨fun on_ => by rw [depart_of_inPlace inPlace, if_pos on_],
        fun away => by rw [depart_of_inPlace inPlace, if_neg (Bool.eq_false_iff.1 away)]⟩
    · intro id f i x sender low high up sorted holds found kind fits room queue v
      obtain ⟨channel, sample, field⟩ := a
      cases sender
      have heard := Terminal.heard_eq x (s.site.logical channel) s.site.count sample.val
      obtain ⟨run, leaves⟩ := affiliate_accepts powered sorted ⟨low, high⟩ up fits queue (sample := sample) holds found kind
        room
      rw [heard] at run leaves
      exact ⟨run, leaves⟩
  · intro c w counted replied addressed known guest joined
    have counts : counted = w.countRefusal c := rfl
    clear_value counted
    subst counts
    obtain ⟨down, outside⟩ := affiliate_counted powered channel sample id f
    refine ⟨down, fun sorted up => ⟨outside sorted up, fun inside => ?_, fun inside stands => ?_⟩⟩
    · exact (affiliate_judged powered sorted up inside).1
    · obtain ⟨single, others⟩ := (affiliate_judged powered sorted up (sample := sample) inside).2 stands
      refine ⟨single, fun fits => ⟨(others fits).1, (others fits).2, fun may room queue => ?_⟩⟩
      obtain ⟨n, y, low, empty, below, run, there, new, held, unheld⟩ :=
        affiliate_enters powered sorted inside up fits queue (sample := sample) may room
      refine ⟨n, y, low, empty, below, ?_⟩
      rw [Terminal.guest] at run there
      dsimp only [c, w]
      refine ⟨run, there, ?_⟩
      rw [new]
      exact ⟨rfl, rfl, rfl, rfl, rfl, rfl, rfl, rfl, rfl, rfl, rfl, rfl, rfl, rfl, rfl, rfl, rfl, held, unheld⟩

end Sys2Proof.Machine
